-- ==== Sys2Proof/Word.lean ====
section
/-! DEFINITION. The words of the machine and the plain records that instruction words and machine
events carry: the common header (R176), the five layouts of bits [127:24] (R178 to R182), and the
arguments of the events of the operation table. -/

namespace Sys2Proof

/-- The content of one vector register (R107). -/
abbrev Word := BitVec 32
/-- A register pair, a 64-bit CSR or an address (R107, R166). -/
abbrev Dword := BitVec 64
/-- One byte of memory (R1). -/
abbrev Byte := BitVec 8
/-- One instruction word (R1, R176). -/
abbrev Inst := BitVec 128
/-- A lane mask of a hardware group or of a pair of them (R55, R73). -/
abbrev Mask := BitVec 128

/-- The common header, bits [23:8] of every word; the opcode is in the constructor (R176). -/
structure Hdr where
  /-- RATE [10:8], the lattice index. -/
  rate : BitVec 3
  /-- LA [14:11], the lookahead. -/
  la : BitVec 4
  /-- B [15], ends the run. -/
  b : BitVec 1
  /-- I [16], starts an idempotent region. -/
  i : BitVec 1
  /-- PRED [20:17]. -/
  pred : BitVec 4
  /-- PNEG [21]. -/
  pneg : BitVec 1
  /-- RET [23:22]. -/
  ret : BitVec 2
  deriving DecidableEq, Repr

/-- The arithmetic layout, bits [127:24] of opcodes 0x00 to 0x9f (R178). -/
structure FA where
  d : BitVec 11
  sa : BitVec 12
  sb : BitVec 12
  sc : BitVec 12
  inh : BitVec 6
  nega : BitVec 1
  absa : BitVec 1
  negb : BitVec 1
  absb : BitVec 1
  negc : BitVec 1
  absc : BitVec 1
  sub : BitVec 8
  fmt : BitVec 3
  rm : BitVec 2
  imm : BitVec 32
  deriving DecidableEq, Repr

/-- The memory layout, bits [127:24] of opcodes 0xa0 to 0xcf (R179). -/
structure FM where
  d : BitVec 11
  a : BitVec 12
  b : BitVec 12
  c : BitVec 12
  e : BitVec 12
  size : BitVec 3
  sign : BitVec 1
  shift : BitVec 2
  scope : BitVec 3
  order : BitVec 2
  scf : BitVec 1
  res : BitVec 1
  imm : BitVec 32
  deriving DecidableEq, Repr

/-- The engine layout, bits [127:24] of opcodes 0xd0 to 0xdf (R180). -/
structure FE where
  d : BitVec 11
  a : BitVec 12
  b : BitVec 12
  c : BitVec 12
  hd : BitVec 4
  hs : BitVec 4
  res1 : BitVec 4
  sub : BitVec 8
  fmt : BitVec 3
  sat : BitVec 1
  res2 : BitVec 1
  imm : BitVec 32
  deriving DecidableEq, Repr

/-- The control layout, bits [127:24] of opcodes 0xe0 to 0xf7 (R181). -/
structure FC where
  d : BitVec 11
  a : BitVec 12
  b : BitVec 12
  c : BitVec 12
  seg : BitVec 6
  side : BitVec 1
  res1 : BitVec 5
  sub : BitVec 8
  res2 : BitVec 5
  imm : BitVec 32
  deriving DecidableEq, Repr

/-- The system layout, bits [127:24] of opcodes 0xf8 to 0xff (R182). -/
structure FS where
  d : BitVec 11
  a : BitVec 12
  b : BitVec 12
  res1 : BitVec 12
  csr : BitVec 12
  sub : BitVec 8
  res2 : BitVec 5
  imm : BitVec 32
  deriving DecidableEq, Repr

/-- Signedness suffix of a mnemonic, `.s` or `.u` (R184). -/
inductive Sgn where
  | s
  | u
  deriving DecidableEq, Repr

/-- Width suffix of a mnemonic: none, or `.64` (R184). -/
inductive Wid where
  | w32
  | w64
  deriving DecidableEq, Repr

/-- Packed element type of `hfma2` and `fdot2` (R184). -/
inductive Half where
  | f16
  | bf16
  deriving DecidableEq, Repr

/-- Element type of `lred` and `lscan`, `.i` or `.f` (R184). -/
inductive RedTy where
  | int
  | flt
  deriving DecidableEq, Repr

/-- What the far end of a network operation answers (R294, R402): an acknowledgement with the bytes
that an `nget` brings, or a refusal. It is an input from outside the device. -/
structure PeerReply where
  ok : Bool
  data : List Byte
  deriving DecidableEq, Repr

/-- What an arriving peer operation asks (R402). -/
inductive PeerAsk where
  | put (va : Dword) (data : List Byte)
  | get (va : Dword) (len : Nat)
  | sig (va : Dword) (value : Word)
  deriving DecidableEq, Repr

/-- An arriving peer operation (R402): source address, job identifier and request. -/
structure PeerOp where
  src : BitVec 128
  job : BitVec 24
  ask : PeerAsk
  deriving DecidableEq, Repr

/-- Measured currents of the four beads of a rod in milliamperes, an input (R385). -/
structure RodCurrents where
  i0 : Int
  i1 : Int
  i2 : Int
  i3 : Int
  deriving DecidableEq, Repr

/-- Measurements of one rod over an arbiter period, an input (R386, R394). -/
structure RodReading where
  /-- Measured power, 1/16 W. -/
  power : Nat
  /-- Hottest bead temperature, 1/16 degree. -/
  temp : Int
  /-- The bead of the rod that holds it. -/
  tempBead : Nat
  /-- Highest bead voltage, mV. -/
  volt : Nat
  deriving DecidableEq, Repr

/-- Measurements of the module over an arbiter period, an input (R391, R392). -/
structure PeriodReading where
  /-- Module power, W. -/
  power : Nat
  /-- Power outside the rods, W. -/
  outside : Nat
  rods : List RodReading
  deriving DecidableEq, Repr

/-- One boot step's observed result at a start, an input (R407). -/
structure StepResult where
  step : BitVec 16
  unit : BitVec 8
  passed : Bool
  deriving DecidableEq, Repr

/-- What the parts of the module answer at a power-on, inputs to the boot ROM (R403, R404, R407): the
result of every boot step, the expanders' capacities and the fused values. -/
structure BootInputs where
  results : List StepResult
  /-- Bytes behind CXL port 0 to 3 (R404). -/
  cxlBytes : List Nat
  /-- MODREV as built (R382). -/
  rev : BitVec 16
  /-- Power is lost while this one of the boot steps runs, counted from 0 (R407). -/
  stopAt : Option Nat := none
  deriving DecidableEq, Repr

/-- A fault found by the patrol scrub in one protected sector (R383, R384). -/
inductive ScrubFinding where
  | clean
  | corrected
  | uncorrectable
  deriving DecidableEq, Repr

/-- A link that can fail (R384). -/
inductive LinkId where
  | lpddr (channel : Nat)
  | cxl (port : Nat)
  | eth (port : Nat)
  deriving DecidableEq, Repr

end Sys2Proof
end

