-- ==== Sys2Proof/Config.lean ====
section
/-! DEFINITION. What the implementation fixes (R6 to R8) and the free values of the model: constants
without a body, of which no proof can see the value (notes/assumptions/1.md, 4.md to 8.md, 23.md). -/

namespace Sys2Proof.Config

/-- `GWIDTH` of Waitur (R7, R46). -/
def gwidth : Nat := 64
/-- Cores of the module (R7). -/
def cores : Nat := 512
/-- Beads of the module (R7). -/
def beads : Nat := 128
/-- Rods of the module (R7). -/
def rods : Nat := 32
/-- Front-end cycles of a microsecond at 1.30 GHz (R322). -/
def cyclesPerUs : Nat := 1300

/-- Front-end cycles that pass at a step of the machine (R322): how long a word or an event takes is
open. Free value (DESIGN CHOICE, log 4). -/
opaque elapsed : Nat → Nat
/-- Whether the result of a word in whose lookahead window a dependent word issues is still in flight
(R63). Free value (DESIGN CHOICE, log 5). -/
opaque stillInFlight : Nat → Bool
/-- The handle of a fresh element: unique among the live elements of the launch and otherwise
unspecified (R17); the machine keeps the first one that no live element bears. Free value (DESIGN CHOICE, log 6). -/
opaque handleFrom : Nat → Word
/-- Which free entry of a table, or free number of a range, the hardware allocates: condition entries (R85)
and version numbers (R96). The machine keeps the first free one from there on, around the table. Free value
(DESIGN CHOICE, log 6). -/
opaque allocFrom : Nat → Nat

/-- The approximations of R203 and R284 before the model holds them to their bound: each a fixed
function of the input bits. Free values (DESIGN CHOICE, log 7). -/
opaque exp2Approx : Word → Word
opaque log2Approx : Word → Word
opaque sinApprox : Word → Word
opaque cosApprox : Word → Word
opaque tanhApprox : Word → Word

/-- Whether the two signatures over a firmware image verify, its keys hash to the fused values and its
security version is allowed (R406): the algorithms stand outside the spec. Free value (DESIGN CHOICE, log 8). -/
opaque imageVerifies : List Byte → Bool
/-- SHA-384 of a verified stage (R408). Free value (DESIGN CHOICE, log 8). -/
opaque measure384 : List Byte → List Byte
/-- The two signatures under the device identity keys (R408). Free value (DESIGN CHOICE, log 8). -/
opaque identitySign : List Byte → List Byte
/-- Fused security version number (R406, R408). Free value (DESIGN CHOICE, log 8). -/
opaque fusedSvn : Word
/-- How many records beyond 256 the flash's ring of journal records holds (R407). Free value (DESIGN CHOICE, log 8). -/
opaque journalMore : Nat
/-- Whether a fault record is written in this step while one is due (R368 gives 2 µs). Free value
(DESIGN CHOICE, log 4). -/
opaque recordNow : Nat → Bool
/-- What a helper lane reads of a record that is no longer there: it is no element and holds no reference (R21,
R36). Free value (DESIGN CHOICE, log 6). -/
opaque helperReads : Nat → Word
/-- Whether a launch carries a Griat image of its program (R356, R357), by the address of its launch record: how it
carries one is open. Free value (DESIGN CHOICE, log 23). -/
opaque carriesGriat : Nat → Bool
/-- Which of the things that can move next does, when the schedule names none (R65, R340 to R355). Free value
(DESIGN CHOICE, log 1). -/
opaque scheduleFrom : Nat → Nat

end Sys2Proof.Config
end

