-- ==== Sys2Proof/Machine/Maps.lean ====
section
/-! DEFINITION. Sparse maps: lists of key and value pairs in one canonical form (keys strictly rising,
no value equal to what an unlisted key reads as), and lane masks. Memory, register files and the tables
of the machine are such maps. -/

namespace Sys2Proof.Machine

/-- A sparse map from numbers. -/
abbrev SMap (α : Type) := List (Nat × α)

/-- Read key `k`; `d` is what an unlisted key reads as. -/
def SMap.get {α : Type} (d : α) : SMap α → Nat → α
  | [], _ => d
  | (k', v) :: m, k => if k = k' then v else if k < k' then d else SMap.get d m k

/-- Put `v` at `k`, listing it whatever it is. -/
def SMap.put {α : Type} : SMap α → Nat → α → SMap α
  | [], k, v => [(k, v)]
  | (k', v') :: m, k, v =>
    if k = k' then (k, v) :: m
    else if k < k' then (k, v) :: (k', v') :: m
    else (k', v') :: SMap.put m k v

/-- Remove key `k`. -/
def SMap.del {α : Type} (m : SMap α) (k : Nat) : SMap α := m.filter (fun x => x.1 != k)

/-- Read key `k` of a register file: the first entry listed. -/
def SMap.look {α : Type} (d : α) : SMap α → Nat → α
  | [], _ => d
  | (k', v) :: m, k => if k = k' then v else SMap.look d m k

/-- Write `v` at `k`, keeping the canonical form: writing what an unlisted key reads as removes the
entry. -/
def SMap.set {α : Type} [DecidableEq α] (d : α) (m : SMap α) (k : Nat) (v : α) : SMap α :=
  if v = d then SMap.del m k else SMap.put m k v

/-- Keys of `m` are above `lo` and strictly rising, and no value is `d`. -/
def SMap.wfFrom {α : Type} [DecidableEq α] (d : α) : Option Nat → SMap α → Bool
  | _, [] => true
  | lo, (k, v) :: m =>
    (match lo with | none => true | some l => decide (l < k)) && decide (v ≠ d) && SMap.wfFrom d (some k) m

/-- The canonical form. -/
def SMap.wf {α : Type} [DecidableEq α] (d : α) (m : SMap α) : Bool := SMap.wfFrom d none m

/-- Look a key up without a default. -/
def SMap.find {α : Type} : SMap α → Nat → Option α
  | [], _ => none
  | (k', v) :: m, k => if k = k' then some v else if k < k' then none else SMap.find m k

/-- Change the value at a key that is listed. -/
def SMap.upd {α : Type} (m : SMap α) (k : Nat) (f : α → α) : SMap α :=
  match SMap.find m k with
  | some v => SMap.put m k (f v)
  | none => m

/-- The values, in the order of their keys. -/
def SMap.vals {α : Type} (m : SMap α) : List α := m.map (·.2)

/-- Write consecutive keys from `k`. -/
def SMap.setMany {α : Type} [DecidableEq α] (d : α) (m : SMap α) (k : Nat) : List α → SMap α
  | [] => m
  | v :: vs => SMap.setMany d (SMap.set d m k v) (k + 1) vs

/-- The entries from key `k` on. -/
def SMap.upFrom {α : Type} (m : SMap α) (k : Nat) : SMap α := m.dropWhile (fun x => decide (x.1 < k))

/-- The entries of `n` keys from `k`. -/
def SMap.window {α : Type} (m : SMap α) (k n : Nat) : SMap α := (m.upFrom k).takeWhile (fun x => decide (x.1 < k + n))

/-- Read `n` consecutive keys from `k`. -/
def SMap.getMany {α : Type} (d : α) (m : SMap α) (k : Nat) : Nat → List α
  | 0 => []
  | n + 1 => SMap.get d (m.upFrom k) k :: SMap.getMany d (m.upFrom k) (k + 1) n

/-- The entries of consecutive values from key `k`, those that equal `d` left out. -/
def SMap.entries {α : Type} [DecidableEq α] (d : α) (k : Nat) : List α → SMap α
  | [] => []
  | v :: vs => if v = d then SMap.entries d (k + 1) vs else (k, v) :: SMap.entries d (k + 1) vs

/-- Write a run of consecutive keys from `k` at once. -/
def SMap.putRun {α : Type} [DecidableEq α] (d : α) (m : SMap α) (k : Nat) (vs : List α) : SMap α :=
  m.takeWhile (fun x => decide (x.1 < k)) ++ SMap.entries d k vs ++ m.upFrom (k + vs.length)

/-- Whether lane `l` is in the mask. -/
def inMask (m : Mask) (l : Nat) : Bool := m.getLsbD l

/-- The lanes of a mask below `n`, ascending. -/
def lanesOf (m : Mask) (n : Nat) : List Nat := (List.range n).filter (inMask m)

/-- A mask with one lane. -/
def oneLane (l : Nat) : Mask := BitVec.ofNat 128 (2 ^ l)

/-- The mask of a list of lanes. -/
def maskOf (ls : List Nat) : Mask := ls.foldl (fun m l => m ||| oneLane l) 0

/-- Lanes `lo` to `lo + n - 1`. -/
def laneRange (lo n : Nat) : Mask := BitVec.ofNat 128 ((2 ^ n - 1) * 2 ^ lo)

/-- The lowest lane of a mask. -/
def lowLane (m : Mask) (n : Nat) : Option Nat := (lanesOf m n).head?

/-- The least number of a list. -/
def minOf : List Nat → Option Nat
  | [] => none
  | x :: xs => match minOf xs with
    | none => some x
    | some y => some (min x y)

/-- The greatest number of a list, 0 for none. -/
def maxOf (xs : List Nat) : Nat := xs.foldl max 0

/-- The sum of a list. -/
def sumOf (xs : List Nat) : Nat := xs.foldl (· + ·) 0

/-- The lowest number from `lo` in `fuel` tries that is not in `used`. -/
def lowestFree (used : List Nat) : Nat → Nat → Option Nat
  | _, 0 => none
  | lo, fuel + 1 => if used.contains lo then lowestFree used (lo + 1) fuel else some lo

/-- The bytes of a number, lowest first (R1). -/
def leBytes : Nat → Nat → List Byte
  | _, 0 => []
  | x, n + 1 => BitVec.ofNat 8 x :: leBytes (x / 256) n

/-- The number that little-endian bytes hold (R1). -/
def ofLe : List Byte → Nat
  | [] => 0
  | b :: bs => b.toNat + 256 * ofLe bs

/-- Bits `[lo + n - 1 : lo]` of a number. -/
def nbits (x lo n : Nat) : Nat := x / 2 ^ lo % 2 ^ n

/-- Sign-extended value of the low `n` bits. -/
def sxNat (x n : Nat) : Int := (BitVec.ofNat n x).toInt

end Sys2Proof.Machine
end

