-- ==== Sys2Proof/Machine/Float.lean ====
section
/-! DEFINITION. Floating, block and integer formats and their exact arithmetic (R106 to R121, R124 to
R126): values are decoded exactly, computed exactly and rounded once. -/

namespace Sys2Proof.Machine

/-! ## Formats and values -/

/-- A floating format: widths of exponent and fraction and the bias (R108). -/
structure Fmt where
  eb : Nat
  fb : Nat
  bias : Nat
  /-- FP8 E4M3: no infinity, one NaN fraction (R108). -/
  e4m3 : Bool := false
  deriving DecidableEq, Repr

def fp64 : Fmt := { eb := 11, fb := 52, bias := 1023 }
def fp32 : Fmt := { eb := 8, fb := 23, bias := 127 }
def fp16 : Fmt := { eb := 5, fb := 10, bias := 15 }
def bf16 : Fmt := { eb := 8, fb := 7, bias := 127 }
def e5m2 : Fmt := { eb := 5, fb := 2, bias := 15 }
def e4m3 : Fmt := { eb := 4, fb := 3, bias := 7, e4m3 := true }

/-- Width of the format in bits. -/
def Fmt.width (t : Fmt) : Nat := 1 + t.eb + t.fb
/-- The sign bit of a pattern. -/
def Fmt.signBit (t : Fmt) : Nat := 2 ^ (t.eb + t.fb)
/-- Pattern of the largest finite value (R108). -/
def Fmt.maxFin (t : Fmt) : Nat := if t.e4m3 then 0x7e else (2 ^ t.eb - 1) * 2 ^ t.fb - 1
/-- The canonical NaN (R108, R109). -/
def Fmt.qnan (t : Fmt) : Nat := if t.e4m3 then 0x7f else (2 ^ t.eb - 1) * 2 ^ t.fb + 2 ^ (t.fb - 1)

/-- What a pattern stands for; a finite value is `m` times two to the `e`, of its sign. -/
inductive Val where
  | nan (signalling : Bool)
  | inf (neg : Bool)
  | fin (neg : Bool) (m : Nat) (e : Int)
  deriving DecidableEq, Repr

/-- Decode a pattern (R108). -/
def Fmt.value (t : Fmt) (bits : Nat) : Val :=
  let neg := decide (t.signBit ≤ bits % 2 ^ t.width)
  let x := bits / 2 ^ t.fb % 2 ^ t.eb
  let f := bits % 2 ^ t.fb
  let lsb : Int := 1 - t.bias - t.fb
  if x = 2 ^ t.eb - 1 ∧ (t.e4m3 → f = 7) then
    if t.e4m3 then .nan false
    else if f = 0 then .inf neg
    else .nan (f / 2 ^ (t.fb - 1) == 0)
  else if x = 0 then .fin neg f lsb
  else .fin neg (f + 2 ^ t.fb) (lsb + x - 1)

/-- The pattern of a signed zero, infinity (a NaN in E4M3, R119) or largest finite value. -/
def Fmt.sign (t : Fmt) (neg : Bool) : Nat := if neg then t.signBit else 0
def Fmt.zero (t : Fmt) (neg : Bool) : Nat := t.sign neg
def Fmt.inf (t : Fmt) (neg : Bool) : Nat :=
  if t.e4m3 then t.qnan else t.sign neg + (2 ^ t.eb - 1) * 2 ^ t.fb
def Fmt.maxOf (t : Fmt) (neg : Bool) : Nat := t.sign neg + t.maxFin

/-- A subnormal pattern. -/
def Fmt.subnormal (t : Fmt) (bits : Nat) : Bool :=
  bits / 2 ^ t.fb % 2 ^ t.eb == 0 && bits % 2 ^ t.fb != 0

/-- The pattern's sign. -/
def Fmt.negative (t : Fmt) (bits : Nat) : Bool := decide (t.signBit ≤ bits % 2 ^ t.width)

/-! ## Flags (R122) -/

def fNV : Word := 1
def fDZ : Word := 2
def fOF : Word := 4
def fUF : Word := 8
def fNX : Word := 16
def fIDIV : Word := 32
def fSATF : Word := 64

/-- A result pattern and the flags it raises. -/
abbrev FRes := Nat × Word

/-! ## Rounding (R117, R118) -/

inductive Rm where
  | rne
  | rz
  | rp
  | rn
  | rs
  deriving DecidableEq, Repr

/-- The mode of an `FPMODE`.RM or RND code 0 to 4. -/
def Rm.ofCode (n : Nat) : Rm :=
  match n with
  | 0 => .rne
  | 1 => .rz
  | 2 => .rp
  | 3 => .rn
  | _ => .rs

/-- Length of a number in bits, for numbers below `2 ^ fuel`. -/
def bitLen (n : Nat) : Nat := if n = 0 then 0 else Nat.log2 n + 1

/-- The magnitude `m * 2^e` rounded to a multiple of `2^q`, in those units, and whether that is inexact;
`u` is the random operand of the stochastic mode (R118). -/
def roundUnits (rm : Rm) (u : Nat) (neg : Bool) (m : Nat) (e q : Int) : Nat × Bool :=
  if q ≤ e then (m * 2 ^ (e - q).toNat, false)
  else
    let s := (q - e).toNat
    let k := m / 2 ^ s
    let r := m % 2 ^ s
    if r = 0 then (k, false)
    else
      let up := match rm with
        | .rne => decide (2 ^ s < 2 * r) || (decide (2 * r = 2 ^ s) && k % 2 == 1)
        | .rz => false
        | .rp => !neg
        | .rn => neg
        | .rs => decide (2 ^ 32 ≤ r * 2 ^ 32 / 2 ^ s + u)
      (if up then k + 1 else k, true)

/-- Overflow goes to infinity in this mode and sign (R119). -/
def Rm.toInf (rm : Rm) (neg : Bool) : Bool :=
  match rm with
  | .rne => true
  | .rz => false
  | .rp => !neg
  | .rn => neg
  | .rs => true

/-- Round a finite value into a format (R118, R119). -/
def Fmt.round (t : Fmt) (rm : Rm) (sat : Bool) (u : Nat) (neg : Bool) (m : Nat) (e : Int) : FRes :=
  if m = 0 then (t.zero neg, 0)
  else
    let top : Int := e + bitLen m - 1
    let emin : Int := 1 - t.bias
    let q : Int := max top emin - t.fb
    let (k, inexact) := roundUnits rm u neg m e q
    let enc := ((q + t.fb - emin).toNat) * 2 ^ t.fb + k
    if t.maxFin < enc then
      if sat then (t.maxOf neg, fSATF)
      else if rm.toInf neg then (if t.e4m3 then (t.qnan, fNV) else (t.inf neg, fOF ||| fNX))
      else (t.maxOf neg, fOF ||| fNX)
    else
      let tiny := decide (top < emin) && inexact
        && decide (((bitLen (roundUnits rm u neg m e (top - t.fb)).1 : Int) - 1 + top - t.fb) < emin)
      (t.sign neg + enc, (if inexact then fNX else 0) ||| (if tiny then fUF else 0))

/-- A value that lies strictly between `m * 2^e` and the next unit is represented exactly enough below
every rounding boundary by one more odd digit pair. -/
def stick (m : Nat) (e : Int) (inexact : Bool) : Nat × Int := if inexact then (4 * m + 1, e - 2) else (m, e)

/-- Conversion between floating formats (R109, R119). -/
def Fmt.convert (dst src : Fmt) (rm : Rm) (sat : Bool) (u : Nat) (bits : Nat) : FRes :=
  match src.value bits with
  | .nan sig => (dst.qnan, if sig then fNV else 0)
  | .inf neg => if sat then (dst.maxOf neg, fSATF) else if dst.e4m3 then (dst.qnan, fNV) else (dst.inf neg, 0)
  | .fin neg m e => dst.round rm sat u neg m e

/-! ## Sums of exact terms (R124, R126) -/

/-- A finite term. -/
structure Term where
  neg : Bool
  m : Nat
  e : Int
  deriving DecidableEq, Repr

/-- Lowest exponent of the terms. -/
def lowExp : List Term → Int
  | [] => 0
  | [t] => t.e
  | t :: ts => min t.e (lowExp ts)

/-- The exact sum of terms in units of two to the `q`, which is at most every exponent. -/
def sumUnits (q : Int) : List Term → Int
  | [] => 0
  | t :: ts =>
    let v : Int := (t.m : Int) * ((2 ^ (t.e - q).toNat : Nat) : Int)
    (if t.neg then -v else v) + sumUnits q ts

/-- The exact sum of finite terms, rounded once. A zero sum of zeros of one sign keeps it; any other
zero sum is +0, or −0 toward −∞ (IEEE 754). -/
def Fmt.sum (t : Fmt) (rm : Rm) (ts : List Term) : FRes :=
  let q := lowExp ts
  let v := sumUnits q ts
  if v = 0 then
    let allNeg := ts.all (·.neg) && !ts.isEmpty
    let zeros := ts.all (·.m == 0)
    (t.zero (if zeros then allNeg || (rm == .rn && ts.any (·.neg)) else rm == .rn), 0)
  else t.round rm false 0 (decide (v < 0)) v.natAbs q

/-! ## Operations (R121, R201 to R209) -/

/-- A NaN among the operands: its flags. -/
def nanFlags (vs : List Val) : Option Word :=
  if vs.any (fun v => match v with | .nan _ => true | _ => false) then
    some (if vs.contains (.nan true) then fNV else 0)
  else none

/-- The sum of two values. -/
def Fmt.addV (t : Fmt) (rm : Rm) (a b : Val) : FRes :=
  match nanFlags [a, b] with
  | some f => (t.qnan, f)
  | none =>
    match a, b with
    | .inf n, .inf n' => if n = n' then (t.inf n, 0) else (t.qnan, fNV)
    | .inf n, _ => (t.inf n, 0)
    | _, .inf n => (t.inf n, 0)
    | .fin n m e, .fin n' m' e' => t.sum rm [⟨n, m, e⟩, ⟨n', m', e'⟩]
    | _, _ => (t.qnan, 0)

/-- The opposite value. -/
def Val.negate : Val → Val
  | .nan s => .nan s
  | .inf n => .inf (!n)
  | .fin n m e => .fin (!n) m e

def Fmt.add (t : Fmt) (rm : Rm) (a b : Nat) : FRes := t.addV rm (t.value a) (t.value b)
def Fmt.sub (t : Fmt) (rm : Rm) (a b : Nat) : FRes := t.addV rm (t.value a) (t.value b).negate

def Fmt.mul (t : Fmt) (rm : Rm) (a b : Nat) : FRes :=
  let x := t.value a
  let y := t.value b
  match nanFlags [x, y] with
  | some f => (t.qnan, f)
  | none =>
    match x, y with
    | .inf n, .inf n' => (t.inf (n != n'), 0)
    | .inf n, .fin n' m _ => if m = 0 then (t.qnan, fNV) else (t.inf (n != n'), 0)
    | .fin n m _, .inf n' => if m = 0 then (t.qnan, fNV) else (t.inf (n != n'), 0)
    | .fin n m e, .fin n' m' e' => t.round rm false 0 (n != n') (m * m') (e + e')
    | _, _ => (t.qnan, 0)

/-- The product of two finite values or infinities as a value; none for infinity times zero. -/
def prodV : Val → Val → Option Val
  | .inf n, .inf n' => some (.inf (n != n'))
  | .inf n, .fin n' m _ => if m = 0 then none else some (.inf (n != n'))
  | .fin n m _, .inf n' => if m = 0 then none else some (.inf (n != n'))
  | .fin n m e, .fin n' m' e' => some (.fin (n != n') (m * m') (e + e'))
  | _, _ => some (.nan false)

/-- A product plus a value, rounded once (R126, R202). -/
def Fmt.fma (t : Fmt) (rm : Rm) (a b c : Nat) : FRes :=
  let x := t.value a
  let y := t.value b
  let z := t.value c
  match prodV x y with
  | none => (t.qnan, fNV)
  | some p => match nanFlags [x, y, z] with
    | some f => (t.qnan, f)
    | none => t.addV rm p z

def Fmt.div (t : Fmt) (rm : Rm) (a b : Nat) : FRes :=
  let x := t.value a
  let y := t.value b
  match nanFlags [x, y] with
  | some f => (t.qnan, f)
  | none =>
    match x, y with
    | .inf _, .inf _ => (t.qnan, fNV)
    | .inf n, .fin n' _ _ => (t.inf (n != n'), 0)
    | .fin n _ _, .inf n' => (t.zero (n != n'), 0)
    | .fin n m e, .fin n' m' e' =>
      if m' = 0 then (if m = 0 then (t.qnan, fNV) else (t.inf (n != n'), fDZ))
      else
        let s := t.fb + 40 + bitLen m'
        let (k, q) := stick (m * 2 ^ s / m') (e - e' - s) (m * 2 ^ s % m' != 0)
        t.round rm false 0 (n != n') k q
    | _, _ => (t.qnan, 0)

/-- The integer square root of `n`, digit by digit from bit `k - 1`. -/
def isqrtFrom (n : Nat) : Nat → Nat → Nat
  | 0, r => r
  | k + 1, r => isqrtFrom n k (if (r + 2 ^ k) * (r + 2 ^ k) ≤ n then r + 2 ^ k else r)

def isqrt (n : Nat) : Nat := isqrtFrom n (bitLen n / 2 + 1) 0

/-- Make the exponent even. -/
def evenExp (m : Nat) (e : Int) : Nat × Int := if e % 2 = 0 then (m, e) else (2 * m, e - 1)

def Fmt.sqrt (t : Fmt) (rm : Rm) (a : Nat) : FRes :=
  match t.value a with
  | .nan sig => (t.qnan, if sig then fNV else 0)
  | .inf n => if n then (t.qnan, fNV) else (t.inf false, 0)
  | .fin n m e =>
    if m = 0 then (t.zero n, 0)
    else if n then (t.qnan, fNV)
    else
      let (m, e) := evenExp m e
      let k := t.fb + 44
      let sq := m * 2 ^ (2 * k)
      let r := isqrt sq
      let (m', e') := stick r (e / 2 - k) (r * r != sq)
      t.round rm false 0 false m' e'

/-- The reciprocal square root (R202). -/
def Fmt.rsq (t : Fmt) (rm : Rm) (a : Nat) : FRes :=
  match t.value a with
  | .nan sig => (t.qnan, if sig then fNV else 0)
  | .inf n => if n then (t.qnan, fNV) else (t.zero false, 0)
  | .fin n m e =>
    if m = 0 then (t.inf n, fDZ)
    else if n then (t.qnan, fNV)
    else
      let (m, e) := evenExp m e
      let k := t.fb + 44 + bitLen m / 2
      let q := 2 ^ (2 * k) / m
      let r := isqrt q
      let (m', e') := stick r (-(k : Int) - e / 2) (2 ^ (2 * k) % m != 0 || r * r != q)
      t.round rm false 0 false m' e'

/-- Order of two values that are not NaN: less, equal or greater; −0 equals +0. -/
def Val.cmp (a b : Val) : Ordering :=
  match a, b with
  | .inf n, .inf n' => if n = n' then .eq else if n then .lt else .gt
  | .inf n, _ => if n then .lt else .gt
  | _, .inf n => if n then .gt else .lt
  | .fin n m e, .fin n' m' e' =>
    let q := min e e'
    compare (sumUnits q [⟨n, m, e⟩]) (sumUnits q [⟨n', m', e'⟩])
  | _, _ => .eq

/-- IEEE 754 minimumNumber and maximumNumber, −0 below +0 (R121). -/
def Fmt.minMax (t : Fmt) (isMax : Bool) (a b : Nat) : FRes :=
  let x := t.value a
  let y := t.value b
  let fl := if x = .nan true ∨ y = .nan true then fNV else 0
  match x, y with
  | .nan _, .nan _ => (t.qnan, fl)
  | .nan _, _ => (b, fl)
  | _, .nan _ => (a, fl)
  | _, _ =>
    let below := match x.cmp y with
      | .lt => true
      | .gt => false
      | .eq => t.negative a
    (if below != isMax then a else b, fl)

/-- Condition codes of R197 on floating values, and the flags of R205. -/
def Fmt.compare (t : Fmt) (cond : Nat) (a b : Nat) : Bool × Word :=
  let x := t.value a
  let y := t.value b
  match nanFlags [x, y] with
  | some f => (cond == 1 || cond == 6, if 2 ≤ cond ∧ cond ≤ 5 then fNV else f)
  | none =>
    let o := x.cmp y
    (match cond with
      | 0 => o == .eq
      | 1 => o != .eq
      | 2 => o == .lt
      | 3 => o != .gt
      | 4 => o == .gt
      | 5 => o != .lt
      | 6 => false
      | _ => true, 0)

/-- Rounding to an integral value (R204). -/
def Fmt.integral (t : Fmt) (rm : Rm) (a : Nat) : FRes :=
  match t.value a with
  | .nan sig => (t.qnan, if sig then fNV else 0)
  | .inf n => (t.inf n, 0)
  | .fin n m e => ((t.round .rne false 0 n (roundUnits rm 0 n m e 0).1 0).1, 0)

/-- The fraction above the floor, at most `1 - 2^-24` (R204); of an integral value or -0 it is +0 (DESIGN CHOICE, log 45). -/
def Fmt.fract (t : Fmt) (a : Nat) : FRes :=
  match t.value a with
  | .nan sig => (t.qnan, if sig then fNV else 0)
  | .inf _ => (t.qnan, fNV)
  | .fin n m e =>
    let fl := (roundUnits .rn 0 n m e 0).1
    (min (t.sum .rne [⟨n, m, e⟩, ⟨!n, fl, 0⟩]).1 0x3f7fffff, 0)

/-- The class mask of R206. -/
def Fmt.classify (t : Fmt) (a : Nat) : Nat :=
  match t.value a with
  | .nan sig => if sig then 2 ^ 8 else 2 ^ 9
  | .inf n => if n then 1 else 2 ^ 7
  | .fin n m _ =>
    let k := if m = 0 then 2 else if t.subnormal a then 1 else 0
    if n then 2 ^ (1 + k) else 2 ^ (6 - k)

/-- The exact products of two lists. -/
def prods : List Val → List Val → List (Option Val)
  | a :: as, b :: bs => prodV a b :: prods as bs
  | _, _ => []

/-- Products and an addend summed exactly and rounded once (R126, R208). -/
def dotV (t : Fmt) (rm : Rm) (as bs : List Val) (c : Val) : FRes :=
  let ps := prods as bs
  match nanFlags (as ++ bs ++ [c]) with
  | some f => (t.qnan, if ps.contains none then fNV else f)
  | none =>
    if ps.contains none then (t.qnan, fNV)
    else
      let vs := ps.filterMap id ++ [c]
      let infs := vs.filterMap (fun v => match v with | .inf n => some n | _ => none)
      match infs with
      | n :: rest => if rest.contains (!n) then (t.qnan, fNV) else (t.inf n, 0)
      | [] => t.sum rm (vs.filterMap (fun v => match v with | .fin n m e => some ⟨n, m, e⟩ | _ => none))

/-! ## Integers (R120) -/

/-- Range of an integer format. -/
def intMin (signed : Bool) (w : Nat) : Int := if signed then -(2 ^ (w - 1) : Nat) else 0
def intMax (signed : Bool) (w : Nat) : Int := if signed then (2 ^ (w - 1) : Nat) - 1 else (2 ^ w : Nat) - 1
/-- The pattern of an integer of a width. -/
def intBits (w : Nat) (v : Int) : Nat := (BitVec.ofInt w v).toNat
/-- The value nearest in the range. -/
def clampInt (signed : Bool) (w : Nat) (v : Int) : Int := max (intMin signed w) (min (intMax signed w) v)

/-- A floating value to an integer (R120). -/
def Fmt.toInt (t : Fmt) (rm : Rm) (signed : Bool) (w : Nat) (a : Nat) : FRes :=
  match t.value a with
  | .nan _ => (0, fNV)
  | .inf n => (intBits w (if n then intMin signed w else intMax signed w), fNV)
  | .fin n m e =>
    let (k, inexact) := roundUnits rm 0 n m e 0
    let v : Int := if n then -(k : Int) else k
    let c := clampInt signed w v
    (intBits w c, if c = v then (if inexact then fNX else 0) else fNV)

/-- An integer to a floating format (R120). -/
def Fmt.ofInt (t : Fmt) (rm : Rm) (v : Int) : FRes := t.round rm false 0 (decide (v < 0)) v.natAbs 0

/-- An integer into a narrower format (R120). -/
def narrowInt (signed : Bool) (w : Nat) (sat : Bool) (v : Int) : FRes :=
  let c := clampInt signed w v
  if c = v then (intBits w v, 0)
  else if sat then (intBits w c, fSATF)
  else (intBits w v, 0)

/-! ## Block formats (R110 to R113) -/

/-- The parameters K and M of R112. -/
def blockK (bfp4 : Bool) : Nat := if bfp4 then 1 else 5
def blockM (bfp4 : Bool) : Nat := if bfp4 then 3 else 63

/-- An element of a block (R110). -/
def blockValue (bfp4 : Bool) (x0 x1 el : Nat) : Val :=
  let k := blockK bfp4
  let xs := if nbits el (k + 1) 1 = 1 then x1 else x0
  if xs = 0xff then .nan false
  else .fin (nbits el (k + 2) 1 == 1) (nbits el 0 (k + 1)) ((xs : Int) - 127 - k)

/-- floor(log2 |x|) of a finite non-zero value. -/
def Val.exp : Val → Int
  | .fin _ m e => e + bitLen m - 1
  | _ => 0
def Val.neg : Val → Bool
  | .fin n _ _ => n
  | .inf n => n
  | .nan _ => false
def Val.isInf : Val → Bool
  | .inf _ => true
  | _ => false
def Val.isNan : Val → Bool
  | .nan _ => true
  | _ => false
/-- Finite and not zero. -/
def Val.nonzero : Val → Bool
  | .fin _ m _ => m != 0
  | _ => false
/-- The magnitude. -/
def Val.abs : Val → Val
  | .fin _ m e => .fin false m e
  | .inf _ => .inf false
  | v => v

/-- Insert by magnitude, descending, after equals (R112). -/
def insertMag (v : Val) : List Val → List Val
  | [] => [v]
  | w :: ws => if w.abs.cmp v.abs == .lt then v :: w :: ws else w :: insertMag v ws

/-- Descending order of magnitude, ties in the order given. -/
def sortMag (vs : List Val) : List Val := vs.foldl (fun acc v => insertMag v acc) []

def clamp254 (x : Int) : Nat := (max 0 (min x 254)).toNat

/-- One element converted under R112: its pattern, and its flags. -/
def blockElem (bfp4 : Bool) (rm : Rm) (two : Bool) (x0 x1 : Nat) (v : Val) (u : Nat) : Nat × Word :=
  let k := blockK bfp4
  let big := blockM bfp4
  let pack (neg : Bool) (sel m : Nat) : Nat := (if neg then 2 ^ (k + 2) else 0) + sel * 2 ^ (k + 1) + m
  match v with
  -- under an infinite scale a zero no longer reads as zero
  | .fin n 0 _ => (pack n 0 0, if x0 = 0xff then fNX else 0)
  | .inf n => (pack n 0 (if x0 = 0xff then 0 else big), 0)
  | .nan _ => (0, 0)
  | .fin n m e =>
    let unit (x : Nat) : Nat × Bool := roundUnits rm u n m (e + k) ((x : Int) - 127)
    let s1 := two && decide (v.exp ≤ (x1 : Int) - 127) && !decide (big < (unit x1).1)
    let x := if s1 then x1 else x0
    let (r, inexact) := unit x
    let m' := min r big
    (pack n (if s1 then 1 else 0) (if x = 0xff then 0 else m'),
      (if big < r then fSATF ||| fNX else 0) ||| (if inexact || x == 0xff then fNX else 0))

/-- Conversion of 32 exact values into a block: elements, X0, X1, flags (R112). -/
def toBlock (bfp4 : Bool) (rm : Rm) (sat : Bool) (vs : List Val) (us : List Nat) : List Nat × Nat × Nat × Word :=
  let k := blockK bfp4
  -- every finite input of a NaN block differs from its element; infinities set no flag beyond OF
  if vs.any Val.isNan then (vs.map (fun _ => 0), 0xff, 0xff, if vs.any (fun v => !v.isNan && !v.isInf) then fNX else 0)
  else
    let nz := vs.filter Val.nonzero
    let anyInf := vs.any Val.isInf
    if nz.isEmpty && !anyInf then (vs.map (fun v => if v.neg then 2 ^ (k + 2) else 0), 0, 0, 0)
    else
      let order := sortMag nz
      let emax : Int := (order.map Val.exp).headD 127
      let piv : Int := (order.map Val.exp).getD 16 (((order.map Val.exp).getLast?).getD emax)
      let two : Bool := decide (piv < emax - 1)
      let x1 := if two then clamp254 (piv + 127) else clamp254 (emax + 127)
      let x0n := (max (emax + 127) 0).toNat
      let ovf := decide (254 < x0n) || anyInf
      let x0 := if ovf then (if sat then 254 else 0xff) else x0n
      let els := vs.zipIdx.map (fun (x : Val × Nat) => blockElem bfp4 rm two x0 x1 x.1 (us.getD x.2 0))
      (els.map (·.1), x0, x1, els.foldl (fun f x => f ||| x.2) (if ovf then fOF else 0))

end Sys2Proof.Machine
end

