-- ==== Sys2Proof/Machine/Approx.lean ====
section
/-! DEFINITION. The approximated functions of R203 and R284. The spec bounds their error and fixes their
exact cases; each result is otherwise a free function of the input bits (notes/assumptions/7.md). The
model brackets the exact result closely, accepts the free value if it lies within the bound and else
takes the rounded bracket. -/

namespace Sys2Proof.Machine

/-- The exact result lies between `lo` and `hi` times two to the `e`. -/
structure Bracket where
  lo : Int
  hi : Int
  e : Int
  deriving DecidableEq, Repr

/-- `v` times two to the `e`, in units of two to the `q`. -/
def unitsAt (q : Int) (v e : Int) : Int := v * ((2 ^ (e - q).toNat : Nat) : Int)

/-- A finite pattern other than −0 lies less than (or, when `closed`, at most) two to the `te` from every value of the
bracket. -/
def Bracket.holds (b : Bracket) (te : Int) (closed : Bool) (bits : Nat) : Bool :=
  match fp32.value bits with
  | .fin true 0 _ => false
  | .fin n m e =>
    let q := min b.e (min te e)
    let v := unitsAt q (if n then -(m : Int) else m) e
    let tol := unitsAt q 1 te
    let lo := unitsAt q b.hi b.e - tol
    let hi := unitsAt q b.lo b.e + tol
    if closed then decide (lo ≤ v) && decide (v ≤ hi) else decide (lo < v) && decide (v < hi)
  | _ => false

/-- The rounded end of the bracket nearer to zero; zero where the bracket has both signs. -/
def Bracket.rounded (b : Bracket) : Nat :=
  if 0 ≤ b.lo then (fp32.round .rne false 0 false b.lo.natAbs b.e).1
  else if b.hi ≤ 0 then (fp32.round .rne false 0 true b.hi.natAbs b.e).1
  else 0

/-- A proposed result held to its bound. -/
def Bracket.hold (b : Bracket) (te : Int) (closed : Bool) (proposal : Word) : Nat :=
  if b.holds te closed proposal.toNat then proposal.toNat else b.rounded

/-- A magnitude of a finite value as an integer and a part below one in units of `2^-64`, rounded down. -/
def fix64 (neg : Bool) (m : Nat) (e : Int) : Int :=
  let v : Int := if neg then -(m : Int) else m
  if 0 ≤ e + 64 then v * ((2 ^ (e + 64).toNat : Nat) : Int) else v / ((2 ^ (-(e + 64)).toNat : Nat) : Int)

/-- Two to the `f / 2^64` in units of `2^-96`, from below: `c` is two to the `2^-i`, the bits of `f` are
taken from the highest. -/
def pow2Frac (f : Nat) : Nat → Nat → Nat → Nat
  | 0, _, acc => acc
  | n + 1, c, acc =>
    let c' := isqrt (c * 2 ^ 96)
    pow2Frac f n c' (if f / 2 ^ n % 2 = 1 then acc * c' / 2 ^ 96 else acc)

/-- Two to a number in units of `2^-64` (below `2^8` in magnitude). -/
def exp2Bracket (z : Int) : Bracket :=
  if z < -200 * 2 ^ 64 then { lo := 0, hi := 1, e := -200 }
  else
    let n := z / 2 ^ 64
    let lo := pow2Frac (z % 2 ^ 64).toNat 64 (2 ^ 97) (2 ^ 96)
    { lo := lo, hi := lo + 2 ^ 40, e := n - 96 }

/-- `fexp2` (R203). -/
def exp2F (bits : Nat) : FRes :=
  match fp32.value bits with
  | .nan sig => (fp32.qnan, if sig then fNV else 0)
  | .inf n => (if n then 0 else fp32.inf false, 0)
  | .fin n m e =>
    let z := fix64 n m e
    let fl := z / 2 ^ 64
    if 128 ≤ fl then (fp32.inf false, fOF)
    else if (roundUnits .rz 0 n m e 0).2 = false ∧ -149 ≤ fl then ((fp32.round .rne false 0 false 1 fl).1, 0)
    else (min fp32.maxFin ((exp2Bracket z).hold (max fl (-126) - 23) false
      (Config.exp2Approx (BitVec.ofNat 32 bits))), 0)

/-- The binary logarithm of `y / 2^160`, in [1, 2), bit by bit. -/
def log2Frac : Nat → Nat → Nat → Nat
  | 0, _, acc => acc
  | n + 1, y, acc =>
    let y2 := y * y / 2 ^ 160
    if 2 ^ 161 ≤ y2 then log2Frac n (y2 / 2) (2 * acc + 1) else log2Frac n y2 (2 * acc)

/-- `flog2` (R203). -/
def log2F (bits : Nat) : FRes :=
  match fp32.value bits with
  | .nan sig => (fp32.qnan, if sig then fNV else 0)
  | .inf n => if n then (fp32.qnan, fNV) else (fp32.inf false, 0)
  | .fin n m e =>
    if m = 0 then (fp32.inf true, fDZ)
    else if n then (fp32.qnan, fNV)
    else
      let len := bitLen m
      let top : Int := e + len - 1
      if m = 2 ^ (len - 1) then ((fp32.ofInt .rne top).1, 0)
      else
        let l : Int := top * 2 ^ 80 + log2Frac 80 (m * 2 ^ (161 - len)) 0
        let b : Bracket := { lo := l - 2 ^ 10, hi := l + 2 ^ 10, e := -80 }
        let near := min b.lo.natAbs b.hi.natAbs
        (b.hold (((bitLen near : Int) - 1 - 80) - 23) false (Config.log2Approx (BitVec.ofNat 32 bits)), 0)

/-- Half of pi in units of `2^-80`. -/
def halfPi : Int := 1898976236818169290393996

/-- Taylor terms from `term`, alternating, in units of `2^-80`; `sq` is the square of the argument. -/
def taylor (sq : Int) : Nat → Nat → Int → Int
  | 0, _, _ => 0
  | n + 1, k, term => term - taylor sq n (k + 2) (term * sq / 2 ^ 80 / ((k : Int) * (k + 1)))

/-- Sine and cosine of a part `s` (units of `2^-80`) of a quarter turn. -/
def quarter (s : Int) : Int × Int :=
  let x := s * halfPi / 2 ^ 80
  let sq := x * x / 2 ^ 80
  (taylor sq 16 2 x, taylor sq 16 1 (2 ^ 80))

/-- Exact values at the quarters, and otherwise the bracket: of the sine or cosine of `m * 2^e` turns. -/
def turn (isSin : Bool) (m : Nat) (e : Int) : Except Nat Bracket :=
  let s := (-e).toNat
  let frac := if 0 ≤ e then 0 else m % 2 ^ s
  let q := if 0 ≤ e then 0 else frac * 4 / 2 ^ s
  let r := if 0 ≤ e then 0 else frac * 4 % 2 ^ s
  if r = 0 then
    .error ((if isSin then [0, 0x3f800000, 0, 0xbf800000] else [0x3f800000, 0, 0xbf800000, 0]).getD q 0)
  else
    let (sn, cs) := quarter ((r * 2 ^ 80 / 2 ^ s : Nat) : Int)
    let v : Int := match (if isSin then q else (q + 1) % 4) with
      | 0 => sn
      | 1 => cs
      | 2 => -sn
      | _ => -cs
    .ok { lo := v - 2 ^ 10, hi := v + 2 ^ 10, e := -80 }

/-- A pattern held in [-1, 1]. -/
def unitClamp (bits : Nat) : Nat :=
  if bits % 2 ^ 31 ≤ 0x3f800000 then bits else bits / 2 ^ 31 * 2 ^ 31 + 0x3f800000

/-- `fsin` and `fcos` (R203), of turns; odd and even bit for bit. -/
def sinCosF (isSin : Bool) (bits : Nat) : FRes :=
  match fp32.value bits with
  | .nan sig => (fp32.qnan, if sig then fNV else 0)
  | .inf _ => (fp32.qnan, fNV)
  | .fin n m e =>
    let mag := BitVec.ofNat 32 (bits % 2 ^ 31)
    let r := match turn isSin m e with
      | .error x => x
      | .ok b => unitClamp (b.hold (-22) true (if isSin then Config.sinApprox mag else Config.cosApprox mag))
    (if isSin && n then (if r < 2 ^ 31 then r + 2 ^ 31 else r - 2 ^ 31) else r, 0)

/-- The base-2 logarithm of e in units of `2^-64`. -/
def log2e : Nat := 26613026195688644983

/-- Bracket of tanh of a magnitude. -/
def tanhBracket (m : Nat) (e : Int) : Bracket :=
  let x := fix64 false m e
  if 20 * 2 ^ 64 ≤ x then { lo := 2 ^ 80 - 2 ^ 30, hi := 2 ^ 80, e := -80 }
  else
    let b := exp2Bracket (2 * x * log2e / 2 ^ 64)
    let en := unitsAt (-96) b.lo (max b.e (-96))
    let v := (en - 2 ^ 96) * 2 ^ 80 / (en + 2 ^ 96)
    { lo := v - 2 ^ 20, hi := v + 2 ^ 20, e := -80 }

/-- `tanh` of a chain (R284). -/
def tanhF (bits : Nat) : Nat :=
  match fp32.value bits with
  | .nan _ => fp32.qnan
  | .inf n => if n then 0xbf800000 else 0x3f800000
  | .fin n m e =>
    let b := tanhBracket m e
    let b' : Bracket := if n then { lo := -b.hi, hi := -b.lo, e := b.e } else b
    b'.hold (-22) true (Config.tanhApprox (BitVec.ofNat 32 bits))

end Sys2Proof.Machine
end

