-- ==== Sys2Proof/Syntax.lean ====
section
/-! DEFINITION. The instructions and machine events: one constructor for each row of the table of
operations and events. A word carries its header and its whole layout (R176 to R182); an event carries
the agent it concerns and, where it comes from outside the device, what it brings. -/

namespace Sys2Proof

/-- The rows of the table of operations and events. -/
inductive Instr where
  /-- `IADD` (R192). -/
  | iadd (v : Wid) (h : Hdr) (f : FA)
  /-- `ISUB` (R192). -/
  | isub (v : Wid) (h : Hdr) (f : FA)
  /-- `IMUL` (R192). -/
  | imul (v : Wid) (h : Hdr) (f : FA)
  /-- `IMULH` (R192). -/
  | imulh (sg : Sgn) (h : Hdr) (f : FA)
  /-- `IMAD` (R192). -/
  | imad (v : Wid) (h : Hdr) (f : FA)
  /-- `IDIV` (R193). -/
  | idiv (sg : Sgn) (h : Hdr) (f : FA)
  /-- `IREM` (R193). -/
  | irem (sg : Sgn) (h : Hdr) (f : FA)
  /-- `IMIN` (R192). -/
  | imin (sg : Sgn) (h : Hdr) (f : FA)
  /-- `IMAX` (R192). -/
  | imax (sg : Sgn) (h : Hdr) (f : FA)
  /-- `IABS` (R192). -/
  | iabs (h : Hdr) (f : FA)
  /-- `INEG` (R192). -/
  | ineg (h : Hdr) (f : FA)
  /-- `IADDSAT` (R192). -/
  | iaddsat (sg : Sgn) (h : Hdr) (f : FA)
  /-- `ISUBSAT` (R192). -/
  | isubsat (sg : Sgn) (h : Hdr) (f : FA)
  /-- `AND` (R195). -/
  | andB (h : Hdr) (f : FA)
  /-- `OR` (R195). -/
  | orB (h : Hdr) (f : FA)
  /-- `XOR` (R195). -/
  | xorB (h : Hdr) (f : FA)
  /-- `ANDN` (R195). -/
  | andn (h : Hdr) (f : FA)
  /-- `LOP3` (R195). -/
  | lop3 (h : Hdr) (f : FA)
  /-- `SHL` (R195). -/
  | shl (v : Wid) (h : Hdr) (f : FA)
  /-- `SHR` (R195). -/
  | shr (v : Wid) (h : Hdr) (f : FA)
  /-- `SAR` (R195). -/
  | sar (v : Wid) (h : Hdr) (f : FA)
  /-- `ROT` (R195). -/
  | rot (h : Hdr) (f : FA)
  /-- `POPC` (R195). -/
  | popc (h : Hdr) (f : FA)
  /-- `CLZ` (R195). -/
  | clz (h : Hdr) (f : FA)
  /-- `CTZ` (R195). -/
  | ctz (h : Hdr) (f : FA)
  /-- `BREV` (R195). -/
  | brev (h : Hdr) (f : FA)
  /-- `BFE` (R196). -/
  | bfe (sg : Sgn) (h : Hdr) (f : FA)
  /-- `BFI` (R196). -/
  | bfi (h : Hdr) (f : FA)
  /-- `ICMP` (R198). -/
  | icmp (sg : Sgn) (v : Wid) (h : Hdr) (f : FA)
  /-- `ICMP_R` (R198). -/
  | icmpR (sg : Sgn) (h : Hdr) (f : FA)
  /-- `SEL` (R199). -/
  | sel (v : Wid) (h : Hdr) (f : FA)
  /-- `MOV` (R199). -/
  | mov (v : Wid) (h : Hdr) (f : FA)
  /-- `MOVI` (R199). -/
  | movi (h : Hdr) (f : FA)
  /-- `AADD` (R200). -/
  | aadd (h : Hdr) (f : FA)
  /-- `ALEA` (R200). -/
  | alea (h : Hdr) (f : FA)
  /-- `AMUL` (R200). -/
  | amul (h : Hdr) (f : FA)
  /-- `ACMP` (R200). -/
  | acmp (h : Hdr) (f : FA)
  /-- `ACMP_R` (R200). -/
  | acmpR (h : Hdr) (f : FA)
  /-- `FADD` (R202). -/
  | fadd (h : Hdr) (f : FA)
  /-- `FSUB` (R202). -/
  | fsub (h : Hdr) (f : FA)
  /-- `FMUL` (R202). -/
  | fmul (h : Hdr) (f : FA)
  /-- `FFMA` (R202). -/
  | ffma (h : Hdr) (f : FA)
  /-- `FMIN` (R121). -/
  | fmin (h : Hdr) (f : FA)
  /-- `FMAX` (R121). -/
  | fmax (h : Hdr) (f : FA)
  /-- `FDIV` (R202). -/
  | fdiv (h : Hdr) (f : FA)
  /-- `FRCP` (R202). -/
  | frcp (h : Hdr) (f : FA)
  /-- `FRSQ` (R202). -/
  | frsq (h : Hdr) (f : FA)
  /-- `FSQRT` (R202). -/
  | fsqrt (h : Hdr) (f : FA)
  /-- `FEXP2` (R203). -/
  | fexp2 (h : Hdr) (f : FA)
  /-- `FLOG2` (R203). -/
  | flog2 (h : Hdr) (f : FA)
  /-- `FSIN` (R203). -/
  | fsin (h : Hdr) (f : FA)
  /-- `FCOS` (R203). -/
  | fcos (h : Hdr) (f : FA)
  /-- `FFLOOR` (R204). -/
  | ffloor (h : Hdr) (f : FA)
  /-- `FCEIL` (R204). -/
  | fceil (h : Hdr) (f : FA)
  /-- `FTRUNC` (R204). -/
  | ftrunc (h : Hdr) (f : FA)
  /-- `FRND` (R204). -/
  | frnd (h : Hdr) (f : FA)
  /-- `FFRACT` (R204). -/
  | ffract (h : Hdr) (f : FA)
  /-- `FCMP` (R205). -/
  | fcmp (h : Hdr) (f : FA)
  /-- `FCMP_R` (R205). -/
  | fcmpR (h : Hdr) (f : FA)
  /-- `FCLASS` (R206). -/
  | fclass (h : Hdr) (f : FA)
  /-- `HFMA2` (R207). -/
  | hfma2 (t : Half) (h : Hdr) (f : FA)
  /-- `FDOT2` (R208). -/
  | fdot2 (t : Half) (h : Hdr) (f : FA)
  /-- `FDOT4` (R208). -/
  | fdot4 (h : Hdr) (f : FA)
  /-- `DADD` (R209). -/
  | dadd (h : Hdr) (f : FA)
  /-- `DMUL` (R209). -/
  | dmul (h : Hdr) (f : FA)
  /-- `DFMA` (R209). -/
  | dfma (h : Hdr) (f : FA)
  /-- `DDIV` (R209). -/
  | ddiv (h : Hdr) (f : FA)
  /-- `DCMP` (R209). -/
  | dcmp (h : Hdr) (f : FA)
  /-- `DCMP_R` (R209). -/
  | dcmpR (h : Hdr) (f : FA)
  /-- `CVTI2F` (R210). -/
  | cvti2f (sg : Sgn) (v : Wid) (h : Hdr) (f : FA)
  /-- `CVTF2I` (R210). -/
  | cvtf2i (sg : Sgn) (v : Wid) (h : Hdr) (f : FA)
  /-- `CVTFF_F64` (R211). -/
  | cvtffF64 (h : Hdr) (f : FA)
  /-- `CVTFF_F32` (R211). -/
  | cvtffF32 (h : Hdr) (f : FA)
  /-- `CVTFMT` (R213). -/
  | cvtfmt (h : Hdr) (f : FA)
  /-- `PACKH` (R214). -/
  | packh (h : Hdr) (f : FA)
  /-- `UNPACKH` (R215). -/
  | unpackh (h : Hdr) (f : FA)
  /-- `SHFL_IDX` (R221). -/
  | shflIdx (h : Hdr) (f : FA)
  /-- `SHFL_XOR` (R221). -/
  | shflXor (h : Hdr) (f : FA)
  /-- `SHFL_UP` (R221). -/
  | shflUp (h : Hdr) (f : FA)
  /-- `SHFL_DOWN` (R221). -/
  | shflDown (h : Hdr) (f : FA)
  /-- `BCAST` (R222). -/
  | bcast (h : Hdr) (f : FA)
  /-- `VOTE_ANY` (R223). -/
  | voteAny (h : Hdr) (f : FA)
  /-- `VOTE_ALL` (R223). -/
  | voteAll (h : Hdr) (f : FA)
  /-- `VOTE_EQ` (R223). -/
  | voteEq (h : Hdr) (f : FA)
  /-- `VOTE_MASK` (R223). -/
  | voteMask (h : Hdr) (f : FA)
  /-- `LRED` (R224). -/
  | lred (t : RedTy) (h : Hdr) (f : FA)
  /-- `LSCAN` (R225). -/
  | lscan (t : RedTy) (h : Hdr) (f : FA)
  /-- `CSAMP` (R226). -/
  | csamp (h : Hdr) (f : FA)
  /-- `PRNG` (R227). -/
  | prng (h : Hdr) (f : FA)
  /-- `HRND` (R227). -/
  | hrnd (h : Hdr) (f : FA)
  /-- `QREL` (R37). -/
  | qrel (h : Hdr) (f : FA)
  /-- `EMITC` (R229). -/
  | emitc (h : Hdr) (f : FA)
  /-- `ELEM` (R230). -/
  | elem (h : Hdr) (f : FA)
  /-- `BARY` (R231). -/
  | bary (h : Hdr) (f : FA)
  /-- `RAST` (R234). -/
  | rast (h : Hdr) (f : FA)
  /-- `RAYGEN` (R236). -/
  | raygen (h : Hdr) (f : FA)
  /-- `TRAV` (R240). -/
  | trav (h : Hdr) (f : FA)
  /-- `TRAVR` (R243). -/
  | travr (h : Hdr) (f : FA)
  /-- `REGRP` (R244). -/
  | regrp (h : Hdr) (f : FA)
  /-- `REGRPK` (R245). -/
  | regrpk (h : Hdr) (f : FA)
  /-- `LD` (R250). -/
  | ld (h : Hdr) (f : FM)
  /-- `ST` (R250). -/
  | st (h : Hdr) (f : FM)
  /-- `LDS` (R252). -/
  | lds (h : Hdr) (f : FM)
  /-- `STS` (R252). -/
  | sts (h : Hdr) (f : FM)
  /-- `PF` (R254). -/
  | pf (h : Hdr) (f : FM)
  /-- `CINV` (R255). -/
  | cinv (h : Hdr) (f : FM)
  /-- `CWB` (R256). -/
  | cwb (h : Hdr) (f : FM)
  /-- `TSMP` (R259). -/
  | tsmp (h : Hdr) (f : FM)
  /-- `TSMP_L` (R259). -/
  | tsmpL (h : Hdr) (f : FM)
  /-- `TSMP_G` (R259). -/
  | tsmpG (h : Hdr) (f : FM)
  /-- `TLD` (R261). -/
  | tld (h : Hdr) (f : FM)
  /-- `ATOM` (R263). -/
  | atom (h : Hdr) (f : FM)
  /-- `ATOM_SP` (R263). -/
  | atomSp (h : Hdr) (f : FM)
  /-- `CAS` (R264). -/
  | cas (h : Hdr) (f : FM)
  /-- `CAS_SP` (R264). -/
  | casSp (h : Hdr) (f : FM)
  /-- `VBAT` (R153). -/
  | vbat (h : Hdr) (f : FM)
  /-- `FENCE` (R146). -/
  | fence (h : Hdr) (f : FM)
  /-- `XFENCE` (R150). -/
  | xfence (h : Hdr) (f : FM)
  /-- `BAR_ARV` (R68). -/
  | barArv (h : Hdr) (f : FM)
  /-- `BAR_WAIT` (R69). -/
  | barWait (h : Hdr) (f : FM)
  /-- `MON` (R269). -/
  | mon (h : Hdr) (f : FM)
  /-- `MWAIT` (R270). -/
  | mwait (h : Hdr) (f : FM)
  /-- `TKT` (R272). -/
  | tkt (h : Hdr) (f : FM)
  /-- `TCOPY` (R281). -/
  | tcopy (h : Hdr) (f : FE)
  /-- `CHAIN` (R283). -/
  | chain (h : Hdr) (f : FE)
  /-- `MMA` (R290). -/
  | mma (h : Hdr) (f : FE)
  /-- `ACCLD` (R289). -/
  | accld (h : Hdr) (f : FE)
  /-- `ACCST` (R289). -/
  | accst (h : Hdr) (f : FE)
  /-- `ACCZ` (R287). -/
  | accz (h : Hdr) (f : FE)
  /-- `ACCREL` (R287). -/
  | accrel (h : Hdr) (f : FE)
  /-- `EWAIT` (R278). -/
  | ewait (h : Hdr) (f : FE)
  /-- `TPOST` (R293). -/
  | tpost (h : Hdr) (f : FE)
  /-- `NPUT` (R294). -/
  | nput (h : Hdr) (f : FE)
  /-- `NGET` (R294). -/
  | nget (h : Hdr) (f : FE)
  /-- `NSIG` (R295). -/
  | nsig (h : Hdr) (f : FE)
  /-- `BR` (R300). -/
  | br (h : Hdr) (f : FC)
  /-- `BRP` (R301). -/
  | brp (h : Hdr) (f : FC)
  /-- `BRD` (R302). -/
  | brd (h : Hdr) (f : FC)
  /-- `CALL` (R302). -/
  | call (h : Hdr) (f : FC)
  /-- `RET` (R302). -/
  | ret (h : Hdr) (f : FC)
  /-- `JFENCE` (R305). -/
  | jfence (h : Hdr) (f : FC)
  /-- `CFETCH` (R304). -/
  | cfetch (h : Hdr) (f : FC)
  /-- `IFENCE` (R307). -/
  | ifence (h : Hdr) (f : FC)
  /-- `EXIT` (R309). -/
  | exitW (h : Hdr) (f : FC)
  /-- `YIELD` (R310). -/
  | yield (h : Hdr) (f : FC)
  /-- `NOP` (R310). -/
  | nop (h : Hdr) (f : FC)
  /-- `SPAWN_I` (R86). -/
  | spawnI (h : Hdr) (f : FC)
  /-- `SPAWN_R` (R86). -/
  | spawnR (h : Hdr) (f : FC)
  /-- `SPAWN_H` (R86). -/
  | spawnH (h : Hdr) (f : FC)
  /-- `RESOLVE` (R92). -/
  | resolve (h : Hdr) (f : FC)
  /-- `SEGEND` (R95). -/
  | segend (h : Hdr) (f : FC)
  /-- `LKH` (R105). -/
  | lkh (h : Hdr) (f : FC)
  /-- `TRAP` (R318). -/
  | trapW (h : Hdr) (f : FS)
  /-- `RFE` (R319). -/
  | rfe (h : Hdr) (f : FS)
  /-- `CSRR` (R320). -/
  | csrr (h : Hdr) (f : FS)
  /-- `CSRW` (R320). -/
  | csrw (h : Hdr) (f : FS)
  /-- `CSRW_I` (R320). -/
  | csrwI (h : Hdr) (f : FS)
  /-- `TCMP` (R322). -/
  | tcmp (h : Hdr) (f : FS)
  /-- `BKPT` (R318). -/
  | bkpt (h : Hdr) (f : FS)
  /-- `RUN_ISSUE` (R65). -/
  | runIssue (core : Nat) (younger : Option Nat)
  /-- `SPLIT_WAIT_RESUME` (R62). -/
  | splitWaitResume (g : Nat)
  /-- `BARRIER_WAKE` (R69). -/
  | barrierWake (g : Nat)
  /-- `MONITOR_TRIGGER` (R269). -/
  | monitorTrigger (g : Nat)
  /-- `MONITOR_TIMEOUT` (R270). -/
  | monitorTimeout (g : Nat)
  /-- `TIMER_TRAP` (R322). -/
  | timerTrap (g : Nat)
  /-- `REGRPK_BIN_FORM` (R246). -/
  | regrpkBinForm (bead launch rate seg bin : Nat)
  /-- `OVERLAY_PARK_WAKE` (R305). -/
  | overlayParkWake (g : Nat)
  /-- `FAN_OUT` (R17). -/
  | fanOut (parent : Nat)
  /-- `GROUP_DISPATCH` (R20). -/
  | groupDispatch (bead launch rate : Nat)
  /-- `GROUP_DISPATCH_TIMEOUT` (R20). -/
  | groupDispatchTimeout (bead launch rate : Nat)
  /-- `QUIRE_GRANT` (R40). -/
  | quireGrant (bead : Nat)
  /-- `SPILL_TIMER_EXPIRY` (R41). -/
  | spillTimerExpiry (bead : Nat)
  /-- `DISPATCH_UNIT` (R347). -/
  | dispatchUnit (launch : Nat)
  /-- `SEGMENT_TAKE` (R90). -/
  | segmentTake (bead : Nat)
  /-- `PASS_OVER_LIMIT` (R90). -/
  | passOverLimit (bead : Nat)
  /-- `SEGMENT_COMMIT` (R95). -/
  | segmentCommit (asid segid : Nat)
  /-- `ACCUMULATOR_EXHAUSTION` (R288). -/
  | accumulatorExhaustion (bead : Nat)
  /-- `MATRIX_PASS` (R291). -/
  | matrixPass (bead : Nat)
  /-- `ENGINE_OPERATION_COMPLETE` (R277). -/
  | engineOperationComplete (op : Nat) (reply : PeerReply)
  /-- `GRAPH_NODE_FINISH` (R293). -/
  | graphNodeFinish (op : Nat) (reply : PeerReply)
  /-- `LAUNCH_COMPLETION` (R341). -/
  | launchCompletion (launch : Nat)
  /-- `PEER_OPERATION_ARRIVAL` (R402). -/
  | peerOperationArrival (p : PeerOp)
  /-- `HOST_REMOTE_WRITE` (R397). -/
  | hostRemoteWrite (q : Nat) (va : Dword) (data : List Byte)
  /-- `HOST_REMOTE_READ` (R397). -/
  | hostRemoteRead (q : Nat) (va : Dword) (len : Nat)
  /-- `LAUNCH` (R339). -/
  | launchCmd (q : Nat)
  /-- `COPY` (R399). -/
  | copyCmd (q : Nat)
  /-- `SIGNAL` (R399). -/
  | signalCmd (q : Nat)
  /-- `WAIT_ON_VALUE` (R399). -/
  | waitOnValue (q : Nat)
  /-- `WAIT_ON_VALUE_TIMEOUT` (R399). -/
  | waitOnValueTimeout (q : Nat)
  /-- `CONTEXT_CREATE` (R367). -/
  | contextCreate (q : Nat)
  /-- `CONTEXT_SUSPEND` (R399). -/
  | contextSuspend (q : Nat)
  /-- `CONTEXT_RESUME` (R399). -/
  | contextResume (q : Nat)
  /-- `CONTEXT_DESTROY` (R399). -/
  | contextDestroy (q : Nat)
  /-- `CONTEXT_MIGRATE` (R356). -/
  | contextMigrate (q : Nat)
  /-- `DEFICIT_CHARGE` (R343). -/
  | deficitCharge (part : Nat)
  /-- `REALTIME_DEADLINE` (R344). -/
  | realtimeDeadline (q : Nat)
  /-- `QUANTUM_END_PREEMPTION` (R344). -/
  | quantumEndPreemption (part : Nat)
  /-- `GAP_FILL_RECLAIM` (R344). -/
  | gapFillReclaim (bead : Nat)
  /-- `DRAIN_TIMEOUT` (R349). -/
  | drainTimeout (bead : Nat)
  /-- `HAND_OVER` (R355). -/
  | handOver (bead asid : Nat)
  /-- `FAULT_RECORD_WRITE` (R368). -/
  | faultRecordWrite (part : Nat)
  /-- `FAULT_NOTIFICATION` (R401). -/
  | faultNotification (part : Nat)
  /-- `FQRESP_RESUME` (R373). -/
  | fqrespResume (part : Nat) (seq : Word)
  /-- `FQRESP_ABORT` (R373). -/
  | fqrespAbort (part : Nat) (seq : Word)
  /-- `FQRESP_KILL` (R373). -/
  | fqrespKill (part : Nat) (seq : Word)
  /-- `SHOOTDOWN_ASID` (R376). -/
  | shootdownAsid (v : Dword)
  /-- `SHOOTDOWN_PARTITION` (R376). -/
  | shootdownPartition (v : Dword)
  /-- `SHOOTDOWN_ALL` (R376). -/
  | shootdownAll (v : Dword)
  /-- `SHOOTDOWN_COMPLETE` (R376). -/
  | shootdownComplete
  /-- `PCTL_WRITE` (R378). -/
  | pctlWrite (part : Nat) (v : Dword)
  /-- `RODS_WRITE` (R378). -/
  | rodsWrite (part : Nat) (v : Dword)
  /-- `REGISTER_WRITE` (R381). -/
  | registerWrite (off : Nat) (v : Dword)
  /-- `BALANCER_SAMPLE` (R387). -/
  | balancerSample (rod : Nat) (c : RodCurrents)
  /-- `THROTTLE_LIFT` (R388). -/
  | throttleLift (rod : Nat) (c : RodCurrents)
  /-- `EMERGENCY_CLAMP` (R389). -/
  | emergencyClamp (rod : Nat) (c : RodCurrents)
  /-- `CLAMP_LIFT` (R389). -/
  | clampLift (rod : Nat) (c : RodCurrents)
  /-- `POWER_ARBITER_PERIOD` (R392). -/
  | powerArbiterPeriod (r : PeriodReading)
  /-- `WEAR_SAVE` (R394). -/
  | wearSave
  /-- `POWER_ON_RESET` (R406). -/
  | powerOnReset (b : BootInputs)
  /-- `ATTESTATION_REQUEST` (R408). -/
  | attestationRequest (nonce : BitVec 256)
  /-- `SIDEBAND_MODULE_RESET` (R409). -/
  | sidebandModuleReset
  /-- `SIDEBAND_FLASH_WRITE` (R409). -/
  | sidebandFlashWrite (copy : Nat) (off : Nat) (data : List Byte)
  /-- `SIDEBAND_STATUS_REPORT` (R409). -/
  | sidebandStatusReport
  /-- `PATROL_SCRUB` (R383). -/
  | patrolScrub (pa : Nat) (found : ScrubFinding)
  /-- `STATE_COMPARE` (R384). -/
  | stateCompare (bead : Nat) (agrees : Bool)
  /-- `LINK_RETRANSMIT_FAILURE` (R384). -/
  | linkRetransmitFailure (link : LinkId)
  /-- `CODE_FETCH_COMPLETE` (R65). -/
  | codeFetchComplete (g : Nat)
  /-- `FQHEAD_WRITE` (R368). -/
  | fqheadWrite (part : Nat) (v : Dword)
  /-- `MALFORMED_COMMAND` (R400). -/
  | malformedCommand (q : Nat)
  /-- `TARGET_REPORT` (R356). -/
  | targetReport (launch : Nat)
  /-- `CONTEXT_RESTORE_COMPLETE` (R355). -/
  | contextRestoreComplete (team : Nat)
  /-- `UNRECORDED_STOP` (R394). -/
  | unrecordedStop
  deriving DecidableEq, Repr

end Sys2Proof
end

