-- ==== Sys2Proof/Decode.lean ====
section
/-! DEFINITION. Decoding and encoding (R176 to R187): the word's layouts, the opcode map, the operand
table of every instruction, and what makes a word illegal. -/

set_option linter.unusedVariables false

namespace Sys2Proof
open Machine

/-- Bits `[lo + n - 1 : lo]` of a word (R1). -/
def bitsAt (w : Inst) (lo n : Nat) : BitVec n := w.extractLsb' lo n

/-- The same as a number. -/
def natAt (w : Inst) (lo n : Nat) : Nat := (bitsAt w lo n).toNat

/-- The common header (R176). -/
def unpackHdr (w : Inst) : Hdr :=
  { rate := bitsAt w 8 3, la := bitsAt w 11 4, b := bitsAt w 15 1, i := bitsAt w 16 1,
    pred := bitsAt w 17 4, pneg := bitsAt w 21 1, ret := bitsAt w 22 2 }

/-- The arithmetic layout (R178). -/
def unpackFA (w : Inst) : FA :=
  { d := bitsAt w 24 11, sa := bitsAt w 35 12, sb := bitsAt w 47 12, sc := bitsAt w 59 12,
    inh := bitsAt w 71 6, nega := bitsAt w 77 1, absa := bitsAt w 78 1, negb := bitsAt w 79 1,
    absb := bitsAt w 80 1, negc := bitsAt w 81 1, absc := bitsAt w 82 1, sub := bitsAt w 83 8,
    fmt := bitsAt w 91 3, rm := bitsAt w 94 2, imm := bitsAt w 96 32 }

/-- The memory layout (R179). -/
def unpackFM (w : Inst) : FM :=
  { d := bitsAt w 24 11, a := bitsAt w 35 12, b := bitsAt w 47 12, c := bitsAt w 59 12,
    e := bitsAt w 71 12, size := bitsAt w 83 3, sign := bitsAt w 86 1, shift := bitsAt w 87 2,
    scope := bitsAt w 89 3, order := bitsAt w 92 2, scf := bitsAt w 94 1, res := bitsAt w 95 1,
    imm := bitsAt w 96 32 }

/-- The engine layout (R180). -/
def unpackFE (w : Inst) : FE :=
  { d := bitsAt w 24 11, a := bitsAt w 35 12, b := bitsAt w 47 12, c := bitsAt w 59 12,
    hd := bitsAt w 71 4, hs := bitsAt w 75 4, res1 := bitsAt w 79 4, sub := bitsAt w 83 8,
    fmt := bitsAt w 91 3, sat := bitsAt w 94 1, res2 := bitsAt w 95 1, imm := bitsAt w 96 32 }

/-- The control layout (R181). -/
def unpackFC (w : Inst) : FC :=
  { d := bitsAt w 24 11, a := bitsAt w 35 12, b := bitsAt w 47 12, c := bitsAt w 59 12,
    seg := bitsAt w 71 6, side := bitsAt w 77 1, res1 := bitsAt w 78 5, sub := bitsAt w 83 8,
    res2 := bitsAt w 91 5, imm := bitsAt w 96 32 }

/-- The system layout (R182). -/
def unpackFS (w : Inst) : FS :=
  { d := bitsAt w 24 11, a := bitsAt w 35 12, b := bitsAt w 47 12, res1 := bitsAt w 59 12,
    csr := bitsAt w 71 12, sub := bitsAt w 83 8, res2 := bitsAt w 91 5, imm := bitsAt w 96 32 }

/-- Bits `[23:0]` of a word: opcode and header (R176). -/
def packHdr (op : BitVec 8) (h : Hdr) : BitVec 24 :=
  h.ret ++ h.pneg ++ h.pred ++ h.i ++ h.b ++ h.la ++ h.rate ++ op

/-- A word of the arithmetic layout (R178). -/
def packFA (op : BitVec 8) (h : Hdr) (f : FA) : Inst :=
  f.imm ++ f.rm ++ f.fmt ++ f.sub ++ f.absc ++ f.negc ++ f.absb ++ f.negb ++ f.absa ++ f.nega ++ f.inh
    ++ f.sc ++ f.sb ++ f.sa ++ f.d ++ packHdr op h

/-- A word of the memory layout (R179). -/
def packFM (op : BitVec 8) (h : Hdr) (f : FM) : Inst :=
  f.imm ++ f.res ++ f.scf ++ f.order ++ f.scope ++ f.shift ++ f.sign ++ f.size ++ f.e ++ f.c ++ f.b
    ++ f.a ++ f.d ++ packHdr op h

/-- A word of the engine layout (R180). -/
def packFE (op : BitVec 8) (h : Hdr) (f : FE) : Inst :=
  f.imm ++ f.res2 ++ f.sat ++ f.fmt ++ f.sub ++ f.res1 ++ f.hs ++ f.hd ++ f.c ++ f.b ++ f.a ++ f.d
    ++ packHdr op h

/-- A word of the control layout (R181). -/
def packFC (op : BitVec 8) (h : Hdr) (f : FC) : Inst :=
  f.imm ++ f.res2 ++ f.sub ++ f.res1 ++ f.side ++ f.seg ++ f.c ++ f.b ++ f.a ++ f.d ++ packHdr op h

/-- A word of the system layout (R182). -/
def packFS (op : BitVec 8) (h : Hdr) (f : FS) : Inst :=
  f.imm ++ f.res2 ++ f.sub ++ f.csr ++ f.res1 ++ f.b ++ f.a ++ f.d ++ packHdr op h

/-! ## What each instruction's entry accepts -/

/-- How many registers an operand takes and how its first must be aligned (R162). -/
inductive Cnt where
  /-- One register. -/
  | one
  /-- A 64-bit pair, even. -/
  | two
  /-- A run of `n` registers without alignment. -/
  | run (n : Nat)
  /-- By SIZE: one, a pair, or four (R162, R250). -/
  | bySize
  /-- A pair when SUB`[0]` is 1 (R210). -/
  | bySub0
  /-- A pair when the CSR is a 64-bit one (R320). -/
  | byCsr
  /-- A pair for `what=pos` (R230). -/
  | byWhat
  /-- The mask run of `vote.mask` (R223). -/
  | mask
  /-- The result run of `rast` (R232). -/
  | rastRun
  /-- The payload run of `raygen` (R236). -/
  | rayRun
  /-- The parameter run of `chain` (R283). -/
  | chainRun
  /-- The wide and narrow registers of the slot's format (R212). -/
  | wide
  | narrow
  deriving DecidableEq, Repr

/-- How an operand field is used. -/
inductive Src where
  /-- Unused: zero. -/
  | no
  /-- A register run or a special operand. -/
  | val (c : Cnt)
  /-- A predicate in bits `[3:0]` (R198, R217). -/
  | pr
  /-- Used only when the word's rounding is stochastic (R213, R214). -/
  | stoch
  /-- Used only when SUB`[0]` is 1 (R302). -/
  | whenSub0 (c : Cnt)
  /-- The child's registers of `raygen` (R236). -/
  | child
  deriving DecidableEq, Repr

/-- How the destination field is used. -/
inductive Dst where
  | no
  | reg (c : Cnt)
  | pr
  /-- A register unless E`[0]` is 1 (R268). -/
  | unlessNd
  /-- A pair only when SUB`[0]` is 1 (R305). -/
  | whenSub0
  deriving DecidableEq, Repr

/-- Which SUB or E codes an entry lists. -/
inductive Codes where
  /-- The field is unused. -/
  | zero
  /-- All codes below `n`. -/
  | below (n : Nat)
  /-- Exactly these. -/
  | among (xs : List Nat)
  deriving DecidableEq, Repr

/-- Whether a code is listed. -/
def Codes.ok : Codes → Nat → Bool
  | .zero, n => n == 0
  | .below k, n => decide (n < k)
  | .among xs, n => xs.contains n

/-- How the immediate field is used. -/
inductive ImmUse where
  /-- No meaning of its own: it is zero unless a source selects `imm`. -/
  | no
  /-- It has a meaning. -/
  | yes
  /-- Bits `[7:0]` have a meaning, the rest is zero. -/
  | low8
  /-- The codes of `chain` (R283). -/
  | ops
  /-- A target unless SUB`[0]` is 1 (R302). -/
  | unlessSub0
  deriving DecidableEq, Repr

/-- The slots an entry accepts (R116, R208, R212, R283, R289, R290). -/
inductive SlotUse where
  | no
  | among (xs : List Nat)
  | matrix
  deriving DecidableEq, Repr

/-- The fields that an instruction's entry uses. -/
structure OpSpec where
  d : Dst := .no
  a : Src := .no
  b : Src := .no
  c : Src := .no
  /-- `cas` reads a register source in E. -/
  eReg : Bool := false
  /-- SUB, or the E field of a memory word. -/
  sub : Codes := .zero
  e : Codes := .zero
  imm : ImmUse := .no
  fmt : SlotUse := .no
  rm : Bool := false
  /-- Sources A, B, C whose modifiers are accepted. -/
  modA : Bool := false
  modB : Bool := false
  modC : Bool := false
  /-- SIZE codes 0 to 4 that the entry lists; none when the field is unused. -/
  size : List Nat := []
  sign : Bool := false
  shift : Bool := false
  /-- SCOPE codes accepted; none when the field is unused. -/
  scope : List Nat := []
  order : List Nat := []
  scf : Bool := false
  hd : Bool := false
  hs : Bool := false
  sat : Bool := false
  seg : Bool := false
  csr : Bool := false
  /-- Group-wide under R59. -/
  gw : Bool := false
  /-- Must have B = 1 (R61, R220, R299). -/
  ends : Bool := false
  /-- Ends an idempotent region before it executes (R76, R297, R307, R318). -/
  endsRegion : Bool := false
  /-- Conversions may round stochastically (R117). -/
  conv : Bool := false
  deriving DecidableEq, Repr

/-- Entries with one destination register and one to three sources. -/
def un (d a : Cnt) : OpSpec := { d := .reg d, a := .val a }
def bin (d a b : Cnt) : OpSpec := { d := .reg d, a := .val a, b := .val b }
def tern (d a b c : Cnt) : OpSpec := { d := .reg d, a := .val a, b := .val b, c := .val c }

/-- Floating entries of the tables: "mod" and "rm" (R202). -/
def OpSpec.md (o : OpSpec) : OpSpec :=
  { o with modA := o.a != .no, modB := o.b != .no, modC := o.c != .no }
def OpSpec.rmd (o : OpSpec) : OpSpec := { o with rm := true }
def OpSpec.wide1 (o : OpSpec) : OpSpec := { o with gw := true }

/-- Rows 0x00 to 0x3a (R192 to R200). -/
def rowsInt : List (Nat × OpSpec) :=
  let b1 := bin .one .one .one
  let b2 := bin .two .two .two
  let ic : Codes := .below 6
  let cmp (x : Cnt) : OpSpec := { d := .pr, a := .val x, b := .val x, sub := ic }
  [(0x00, b1), (0x01, b2), (0x02, b1), (0x03, b2), (0x04, b1), (0x05, b2), (0x06, b1), (0x07, b1),
   (0x08, tern .one .one .one .one), (0x09, tern .two .two .two .two), (0x0a, b1), (0x0b, b1),
   (0x0c, b1), (0x0d, b1), (0x0e, b1), (0x0f, b1), (0x10, b1), (0x11, b1), (0x12, un .one .one),
   (0x13, un .one .one), (0x14, b1), (0x15, b1), (0x16, b1), (0x17, b1)]
  ++ [(0x18, b1), (0x19, b1), (0x1a, b1), (0x1b, b1),
   (0x1c, { tern .one .one .one .one with sub := .below 256 }), (0x1d, b1), (0x1e, bin .two .two .one),
   (0x1f, b1), (0x20, bin .two .two .one), (0x21, b1), (0x22, bin .two .two .one), (0x23, b1),
   (0x24, un .one .one), (0x25, un .one .one), (0x26, un .one .one), (0x27, un .one .one), (0x28, b1),
   (0x29, b1), (0x2a, tern .one .one .one .one), (0x2b, cmp .one), (0x2c, cmp .one), (0x2d, cmp .two),
   (0x2e, cmp .two), (0x2f, { b1 with sub := ic })]
  ++ [(0x30, { b1 with sub := ic }), (0x31, { b1 with c := .pr, sub := .below 2 }), (0x32, un .one .one),
   (0x33, un .two .two), (0x34, { d := .reg .one, imm := .yes }), (0x35, bin .two .two .one),
   (0x36, { bin .two .two .one with sub := .below 4, imm := .yes }), (0x37, bin .two .one .one),
   (0x38, cmp .two), (0x39, { bin .one .two .two with sub := ic }),
   (0x3a, { b2 with c := .pr, sub := .below 2 })]

/-- Rows 0x40 to 0x60 (R202 to R209). -/
def rowsFloat : List (Nat × OpSpec) :=
  let b1 := (bin .one .one .one).md
  let u1 := (un .one .one).md
  let b2 := (bin .two .two .two).md.rmd
  let fc : Codes := .below 8
  let dot := { tern .one .one .one .one with modC := true, rm := true }
  [(0x40, b1.rmd), (0x41, b1.rmd), (0x42, b1.rmd), (0x43, (tern .one .one .one .one).md.rmd), (0x44, b1),
   (0x45, b1), (0x46, b1.rmd), (0x47, u1.rmd), (0x48, u1.rmd), (0x49, u1.rmd), (0x4a, u1), (0x4b, u1),
   (0x4c, u1), (0x4d, u1), (0x4e, u1), (0x4f, u1), (0x50, u1), (0x51, u1), (0x52, u1)]
  ++ [(0x53, { b1 with d := .pr, sub := fc }), (0x54, { b1 with sub := fc }), (0x55, un .one .one),
   (0x56, (tern .one .one .one .one).md.rmd), (0x57, (tern .one .one .one .one).md.rmd), (0x58, dot),
   (0x59, dot), (0x5a, { dot with fmt := .among [3, 4] }), (0x5b, b2), (0x5c, b2),
   (0x5d, (tern .two .two .two .two).md.rmd), (0x5e, b2),
   (0x5f, { (bin .two .two .two).md with d := .pr, sub := fc }),
   (0x60, { (bin .one .two .two).md with sub := fc })]

/-- Formats of `cvtfmt` and `unpackh` (R212). -/
def convFmts : List Nat := [1, 2, 3, 4, 5, 6, 8, 9, 10, 11, 12, 13]

/-- Rows 0x61 to 0x6d (R210 to R215). `packh` takes NEGC and ABSC, without effect on its random operand (DESIGN CHOICE, log
45). -/
def rowsConv : List (Nat × OpSpec) :=
  let i2f (a : Cnt) : OpSpec := { un .bySub0 a with sub := .below 2, rm := true }
  let f2i (d : Cnt) : OpSpec := { un d .bySub0 with sub := .below 2, rm := true, modA := true }
  [(0x61, i2f .one), (0x62, i2f .one), (0x63, i2f .two), (0x64, i2f .two), (0x65, f2i .one),
   (0x66, f2i .one), (0x67, f2i .two), (0x68, f2i .two), (0x69, (un .two .one).md),
   (0x6a, (un .one .two).md.rmd),
   (0x6b, { un .narrow .wide with b := .stoch, fmt := .among convFmts, rm := true, conv := true }),
   (0x6c, { (bin .one .one .one).md.rmd with c := .stoch, fmt := .among [1, 2], conv := true, modC := true }),
   (0x6d, { un .wide .narrow with fmt := .among convFmts })]

/-- Rows 0x80 to 0x99 (R217 to R220). -/
def rowsLane : List (Nat × OpSpec) :=
  let sh := (bin .one .one .one).wide1
  let red (s : Codes) : OpSpec := { un .one .one with gw := true, sub := s }
  let vote : OpSpec := { d := .pr, a := .pr, sub := .below 2, gw := true }
  [(0x80, sh), (0x81, { sh with sub := .below 2 }), (0x82, { sh with sub := .below 2 }),
   (0x83, { sh with sub := .below 2 }), (0x84, sh), (0x85, vote), (0x86, vote),
   (0x87, { d := .pr, a := .val .one, gw := true }), (0x88, { vote with d := .reg .mask }),
   (0x89, red (.below 8)), (0x8a, { red (.below 3) with modA := true, rm := true }), (0x8b, red (.below 16)),
   (0x8c, { red (.among [0, 1, 2, 8, 9, 10]) with modA := true, rm := true }), (0x8d, sh),
   (0x8e, bin .one .one .one), (0x8f, bin .one .two .one)]
  ++ [(0x90, {}), (0x91, { un .one .one with sub := .below 8, endsRegion := true }),
   (0x92, { d := .reg .byWhat, sub := .below 32 }), (0x93, { d := .reg (.run 3) }),
   (0x94, { tern .rastRun (.run 6) (.run 2) .one with
            sub := .among [0, 1, 2, 4, 5, 6, 8, 9, 10, 12, 13, 14], gw := true }),
   (0x95, { d := .reg .one, a := .val .rayRun, b := .child, sub := .below 128, endsRegion := true }),
   (0x96, { tern (.run 8) (.run 8) .two .two with sub := .below 2 }), (0x97, tern (.run 8) .one .one .one),
   (0x98, { un .one .one with gw := true, ends := true }),
   (0x99, { a := .val .one, sub := .among (List.range' 1 63), gw := true, ends := true })]

/-- The address terms of a memory word: base of `a`, index, scale and offset (R166). -/
def addr (a : Cnt) (o : OpSpec) : OpSpec :=
  { o with a := .val a, b := .val .one, shift := true, imm := .yes }

/-- Rows 0xa0 to 0xc6 (R248, R249). -/
def rowsMem : List (Nat × OpSpec) :=
  let all := [0, 1, 2, 3, 4]
  let s5 := [0, 1, 2, 3, 4, 5]
  let s2 := [0, 1, 2]
  let o4 := [0, 1, 2, 3]
  let samp (c : Cnt) : OpSpec := tern (.run 4) .two (.run 2) c
  let at_ (a : Cnt) (s : List Nat) (x : Bool) : OpSpec :=
    addr a { d := .reg .bySize, c := .val .bySize, size := [2, 3], scope := s, order := o4, scf := x,
             endsRegion := true }
  [(0xa0, addr .two { d := .reg .bySize, e := .below 3, size := all, sign := true }),
   (0xa1, addr .two { c := .val .bySize, e := .below 2, size := all }),
   (0xa2, addr .one { d := .reg .bySize, size := all, sign := true }),
   (0xa3, addr .one { c := .val .bySize, size := all }), (0xa4, addr .two { e := .below 2 }),
   (0xa5, addr .two { e := .among [1, 2, 3] }), (0xa6, addr .two {}), (0xa7, samp .one), (0xa8, samp .one),
   (0xa9, samp (.run 4)), (0xaa, samp .one), (0xab, { at_ .two s5 true with e := .below 12 }),
   (0xac, { at_ .one s2 false with e := .below 12 }), (0xad, { at_ .two s5 true with eReg := true }),
   (0xae, { at_ .one s2 false with eReg := true }),
   (0xaf, addr .two { d := .reg .two, c := .val .two, size := [3], scope := s5, endsRegion := true })]
  ++ [(0xc0, { scope := s5, order := [1, 2, 3], endsRegion := true }),
   (0xc1, { scope := s5, e := .below 1024, endsRegion := true }),
   (0xc2, { d := .unlessNd, a := .val .one, b := .val .one, e := .below 32, endsRegion := true }),
   (0xc3, { a := .val .one, e := .among ((List.range 16).map (2 * ·)), ends := true }),
   (0xc4, addr .two { d := .reg .bySize, size := [2, 3], endsRegion := true }),
   (0xc5, { un .one .one with ends := true, endsRegion := true }),
   (0xc6, addr .one { d := .reg .one, size := [2], endsRegion := true })]

/-- Rows 0xd0 to 0xdb (R274, R275). -/
def rowsEng : List (Nat × OpSpec) :=
  let g (o : OpSpec) : OpSpec := { o with gw := true, endsRegion := true }
  let accFmts := [0, 1, 2, 3, 4, 7, 8, 14]
  [(0xd0, g (tern .one .two .two .two)),
   (0xd1, g { tern .one .two .two .chainRun with fmt := .among [0, 1, 2, 3, 4, 8, 9, 12, 13], imm := .ops }),
   (0xd2, g { tern .one .one .one .one with hd := true, sub := .below 2, fmt := .matrix, sat := true, imm := .yes }),
   (0xd3, g { bin .one .two .one with hd := true, fmt := .among accFmts }),
   (0xd4, g { bin .one .two .one with hs := true, fmt := .among accFmts }),
   (0xd5, g { d := .reg .one, hd := true, sub := .below 3 }), (0xd6, g { d := .reg .one, hd := true }),
   (0xd7, g { un .one .one with ends := true }), (0xd8, g (un .one .two)),
   (0xd9, g { tern .one .two .two .one with imm := .low8 }),
   (0xda, g { tern .one .two .two .one with imm := .low8 }),
   (0xdb, g { d := .reg .one, b := .val .two, c := .val .one, imm := .low8 })]

/-- Rows 0xe0 to 0xfe (R299). -/
def rowsCtl : List (Nat × OpSpec) :=
  let sp : OpSpec := { d := .reg .one, a := .val .one, c := .val .one, seg := true, gw := true,
                       endsRegion := true }
  [(0xe0, { imm := .yes, ends := true }), (0xe1, { a := .pr, sub := .below 4, imm := .yes, ends := true }),
   (0xe2, { a := .val .two, ends := true }),
   (0xe3, { d := .reg .two, a := .whenSub0 .two, sub := .below 2, imm := .unlessSub0, ends := true }),
   (0xe4, { a := .val .two, ends := true }),
   (0xe5, { d := .whenSub0, a := .val .one, b := .val .one, sub := .below 2, ends := true }),
   (0xe6, { a := .val .one }), (0xe7, { ends := true, endsRegion := true }),
   (0xe8, { ends := true, endsRegion := true }), (0xe9, { ends := true }), (0xea, {}),
   (0xeb, { sp with imm := .low8 }), (0xec, { sp with b := .val .one }), (0xed, sp),
   (0xee, { a := .val .one, b := .val .one, gw := true }),
   (0xef, { ends := true, gw := true, endsRegion := true }), (0xf0, { d := .reg .one })]
  ++ [(0xf8, { imm := .yes, ends := true, endsRegion := true }),
   (0xf9, { sub := .below 2, ends := true, gw := true }), (0xfa, { d := .reg .byCsr, csr := true }),
   (0xfb, { a := .val .byCsr, csr := true }), (0xfc, { imm := .yes, csr := true }),
   (0xfd, { a := .val .one }), (0xfe, { imm := .yes, ends := true, endsRegion := true })]

/-- The entry of an opcode. -/
def opSpec (op : Nat) : Option OpSpec :=
  if op < 0x40 then SMap.find rowsInt op
  else if op < 0x61 then SMap.find rowsFloat op
  else if op < 0x80 then SMap.find rowsConv op
  else if op < 0xa0 then SMap.find rowsLane op
  else if op < 0xd0 then SMap.find rowsMem op
  else if op < 0xe0 then SMap.find rowsEng op
  else SMap.find rowsCtl op

/-! ## Illegal words (R185 to R187) -/

/-- One condition of R185 that a word meets: its reason and the field of R187. -/
structure Reject where
  reason : Nat
  lo : Nat
  hi : Nat
  deriving DecidableEq, Repr

/-- One entry of the lattice table (R12). -/
structure Lat where
  valid : Bool := false
  root : Bool := false
  parent : Nat := 0
  fanout : Nat := 0
  pack : Nat := 0
  place : Bool := false
  linken : Bool := false
  link : Nat := 0
  countreg : Nat := 0
  auxreg : Nat := 0
  idx16 : Bool := false
  cpsize : Nat := 0
  spp : Nat := 0
  nexp : Nat := 0
  expbase : Nat := 0
  /-- Reserved bits `[47:43]`, `[63:56]` and `[127:75]` as read: R16 rejects others than zero. -/
  resv : Nat := 0
  deriving DecidableEq, Repr

/-- What a word's legality depends on besides its bits (R185). -/
structure LegalCtx where
  slots : List Word
  lattice : List Lat
  regRates : SMap Nat
  regDflt : Nat
  /-- The image declares a width above `GWIDTH` (R61). -/
  paired : Bool
  /-- The width of R74. -/
  width : Nat
  sort : Bool
  lregs : Nat
  gregs : Nat
  /-- The rates that the word may carry at its place (R25, R61). -/
  rates : List Nat
  /-- Words of the run before this one. -/
  pos : Nat
  /-- Argument registers of each segment type (R84). -/
  nargs : List Nat := []
  deriving DecidableEq, Repr

/-- CSR numbers that are 64 bits wide (R183). -/
def csrWide (n : Nat) : Bool := [0x005, 0x006, 0x008, 0x00c].contains n
/-- CSR numbers that a group may write (R320). -/
def csrWritable (n : Nat) : Bool := [0x006, 0x009, 0x00a, 0x00b, 0x00c].contains n

/-- The opcode, and the fields every check reads. -/
def opcOf (w : Inst) : Nat := natAt w 0 8
def rateOf (w : Inst) : Nat := natAt w 8 3
def subOf (w : Inst) : Nat := natAt w 83 8

/-- FMT, SCALE, RND and SAT of a slot word (R114). -/
def slotFmt (s : Word) : Nat := nbits s.toNat 0 5
def slotScale (s : Word) : Nat := nbits s.toNat 7 1
def slotRnd (s : Word) : Nat := nbits s.toNat 8 3
def slotSat (s : Word) : Bool := s.getLsbD 11

/-- Constants that a chain code takes (R284). -/
def chainConsts (code : Nat) : Nat := [0, 1, 1, 2, 1, 1, 0, 0, 0, 0, 0, 0, 0, 0, 0, 1].getD code 0

/-- The codes of an `ops` immediate before the first 0 (R283). -/
def chainCodes (imm : Nat) : Nat → List Nat
  | 0 => []
  | n + 1 => if imm % 16 = 0 then [] else imm % 16 :: chainCodes (imm / 16) n

/-- Elements that one word of the slot's format converts (R212). -/
def fmtCount (f : Nat) : Nat := [0, 2, 2, 4, 4, 32, 32, 0, 4, 4, 8, 8, 2, 2].getD f 0
/-- Narrow registers of the slot's format (R212). -/
def fmtNarrow (f : Nat) : Nat := [0, 1, 1, 1, 1, 9, 5, 0, 1, 1, 1, 1, 1, 1].getD f 0

/-- The slot a word names. -/
def wordSlot (cx : LegalCtx) (w : Inst) : Word := cx.slots.getD (natAt w 91 3) 0

/-- Registers and alignment of an operand (R162); formats and width are those of the launch. -/
def Cnt.eval (cx : Option LegalCtx) (w : Inst) : Cnt → Nat × Nat
  | .one => (1, 1)
  | .two => (2, 2)
  | .run n => (n, 1)
  | .bySize => match natAt w 83 3 with | 3 => (2, 2) | 4 => (4, 4) | _ => (1, 1)
  | .bySub0 => if subOf w % 2 = 1 then (2, 2) else (1, 1)
  | .byCsr => if csrWide (natAt w 71 12) then (2, 2) else (1, 1)
  | .byWhat => if subOf w % 4 = 2 then (2, 2) else (1, 1)
  | .mask => match cx with
    | none => (1, 1)
    | some c => ((c.width + 31) / 32, (c.width + 31) / 32)
  | .rastRun =>
    let c := 2 ^ (subOf w % 4)
    let s := 2 ^ (subOf w / 4 % 4)
    (4 + (c * c * s + 31) / 32, 1)
  | .rayRun => (subOf w % 16 + 1, 1)
  | .chainRun => (1 + sumOf ((chainCodes (natAt w 96 32) 8).map chainConsts), 1)
  | .wide => match cx with | none => (1, 1) | some c => (max 1 (fmtCount (slotFmt (wordSlot c w))), 1)
  | .narrow => match cx with | none => (1, 1) | some c => (max 1 (fmtNarrow (slotFmt (wordSlot c w))), 1)

/-- Whether the word's effective rounding is stochastic (R117); `none` where only the slot tells. -/
def stochastic (cx : Option LegalCtx) (o : OpSpec) (w : Inst) : Option Bool :=
  if !o.rm then some false
  else match natAt w 94 2 with
    | 3 => some true
    | 0 => if o.fmt = .no then some false
           else match cx with | none => none | some c => some (slotRnd (wordSlot c w) == 4)
    | _ => some false

/-- The register sources of a word: field position, field, count and alignment. -/
def srcOperands (cx : Option LegalCtx) (o : OpSpec) (w : Inst) : List (Nat × Nat × Nat × Nat) :=
  let one (lo : Nat) (s : Src) : List (Nat × Nat × Nat × Nat) :=
    match s with
    | .val c => [(lo, natAt w lo 12, (c.eval cx w).1, (c.eval cx w).2)]
    -- where only the launch tells, the word may read it
    | .stoch => if stochastic cx o w = some false then [] else [(lo, natAt w lo 12, 1, 1)]
    | .whenSub0 c => if subOf w % 2 = 1 then [(lo, natAt w lo 12, (c.eval cx w).1, (c.eval cx w).2)] else []
    | _ => []
  one 35 o.a ++ one 47 o.b ++ one 59 o.c ++ (if o.eReg then one 71 (.val .bySize) else [])

/-- The destination registers of a word: first register, count, alignment. -/
def dstOperand (cx : Option LegalCtx) (o : OpSpec) (w : Inst) : Option (Nat × Nat × Nat) :=
  let d := natAt w 24 11
  match o.d with
  | .reg c => some (d, (c.eval cx w).1, (c.eval cx w).2)
  | .unlessNd => if natAt w 71 1 = 1 then none else some (d, 1, 1)
  | .whenSub0 => if subOf w % 2 = 1 then some (d, 2, 2) else none
  | _ => none

/-- Report `r` on bits `[hi:lo]` when `p` holds. -/
def bad (p : Bool) (r lo n : Nat) : List Reject := if p then [⟨r, lo, lo + n - 1⟩] else []

/-- Fields that must be zero in a word (R2, R177, R185 reason 0x02; modifiers 0x08). -/
def unusedFields (cx : Option LegalCtx) (o : OpSpec) (w : Inst) : List Reject :=
  let op := opcOf w
  let z (used : Bool) (lo n : Nat) : List Reject := bad (!used && natAt w lo n != 0) 2 lo n
  let m (used : Bool) (lo : Nat) : List Reject := bad (!used && natAt w lo 1 != 0) 8 lo 1
  let src (s : Src) (lo : Nat) : List Reject :=
    match s with
    | .no => z false lo 12
    | .pr => bad (natAt w lo 12 / 16 != 0) 2 lo 12
    | .stoch => if stochastic cx o w = some false then z false lo 12 else []
    | .whenSub0 _ => if subOf w % 2 = 1 then [] else z false lo 12
    | _ => []
  let srcs := srcOperands cx o w
  let immSel := srcs.any (fun x => x.2.1 == 0x806)
  let dst := match o.d with
    | .no => z false 24 11
    | .pr => bad (natAt w 24 11 / 16 != 0) 2 24 11
    | .unlessNd => if natAt w 71 1 = 1 then z false 24 11 else []
    | .whenSub0 => if subOf w % 2 = 1 then [] else z false 24 11
    | .reg _ => []
  let imm := match o.imm with
    | .no => z immSel 96 32
    | .yes => []
    | .low8 => bad (natAt w 104 24 != 0) 2 96 32
    | .ops => bad (natAt w 96 32 / 16 ^ (chainCodes (natAt w 96 32) 8).length != 0) 2 96 32
    | .unlessSub0 => if subOf w % 2 = 1 then z immSel 96 32 else []
  let lay :=
    if op < 0xa0 then
      bad (srcs.all (fun x => x.1 != 35) && natAt w 71 2 != 0
        || srcs.all (fun x => x.1 != 47) && !(o.b == .child) && natAt w 73 2 != 0
        || srcs.all (fun x => x.1 != 59) && natAt w 75 2 != 0
        || (o.b == .child) && natAt w 73 2 != 0) 2 71 6
      ++ m o.modA 77 ++ m o.modA 78 ++ m o.modB 79 ++ m o.modB 80 ++ m o.modC 81 ++ m o.modC 82
      ++ bad (!o.sub.ok (subOf w)) 2 83 8 ++ z (o.fmt != .no) 91 3 ++ z o.rm 94 2
    else if op < 0xd0 then
      (if o.eReg then [] else bad (!o.e.ok (natAt w 71 12)) 2 71 12)
      ++ z (o.size != [] || decide (4 < natAt w 83 3)) 83 3 ++ z (o.sign || decide (1 < natAt w 83 3)) 86 1 ++ z o.shift 87 2
      ++ z (o.scope != [] || decide (5 < natAt w 89 3)) 89 3
      ++ (if op = 0xc1 || op = 0xaf then [] else z (o.order != []) 92 2)
      ++ (if op = 0xac || op = 0xae then [] else z o.scf 94 1) ++ z false 95 1
    else if op < 0xe0 then
      z o.hd 71 4 ++ z o.hs 75 4 ++ z false 79 4 ++ bad (!o.sub.ok (subOf w)) 2 83 8
      ++ z (o.fmt != .no) 91 3 ++ z o.sat 94 1 ++ z false 95 1
    else if op < 0xf8 then
      z o.seg 71 6 ++ z o.seg 77 1 ++ z false 78 5 ++ bad (!o.sub.ok (subOf w)) 2 83 8 ++ z false 91 5
    else
      z false 59 12 ++ z o.csr 71 12 ++ bad (!o.sub.ok (subOf w)) 2 83 8 ++ z false 91 5
  dst ++ src o.a 35 ++ src o.b 47 ++ (if op < 0xf8 then src o.c 59 else []) ++ imm ++ lay

/-- Special operands, alignment, budgets known from the bits, predicates (R162 to R164, R249). DESIGN CHOICE (log 45): `imm` is
barred by the form, so that an indirect `call` may read it; a special operand where a run is required is reason 0x04; the
parameter run of `chain` may be a special operand, which each of its registers then reads. -/
def operandRejects (cx : Option LegalCtx) (o : OpSpec) (w : Inst) : List Reject :=
  let op := opcOf w
  let special (x : Nat × Nat × Nat × Nat) : List Reject :=
    let lo := x.1
    let v := x.2.1
    if v < 2048 then bad (v % x.2.2.2 != 0) 6 lo 12
    else
      let c := v - 2048
      bad (decide (7 ≤ c) && decide (c ≤ 0xff) || decide (0x140 ≤ c)) 3 lo 12
      ++ bad (c == 6 && o.imm != .no && !(o.imm == .unlessSub0)) 3 lo 12
      ++ bad (decide (0xa7 ≤ op) && decide (op ≤ 0xaa) && !(lo == 59 && decide (op ≤ 0xa8))) 3 lo 12
      ++ bad (op == 0x94 || ((op == 0x95 || op == 0x96) && lo == 35)
              || (decide (op < 0xa0) && x.2.2.2 == 1 && decide (2 ≤ x.2.2.1))) 4 lo 12
      ++ bad (decide (op < 0xa0) && (lo == 35 && natAt w 71 2 != 0 || lo == 47 && natAt w 73 2 != 0
                || lo == 59 && natAt w 75 2 != 0)) 7 71 6
  (srcOperands cx o w).flatMap special
  ++ (match dstOperand cx o w with | some (d, _, al) => bad (d % al != 0) 6 24 11 | none => [])
  ++ bad (o.d == .pr && natAt w 24 4 == 0) 4 24 11
  ++ bad (o.b == .child && decide (2048 ≤ natAt w 47 12)) 4 47 12

/-- The other conditions that the word's bits decide (R59, R61, R117, R145, R176, R179, R320). DESIGN CHOICE (log 45): SCF on an
atomic of the window is reason 0x0f, and a wrong ORDER or SCOPE of an SC atomic is reported on the SCF bit. -/
def formRejects (cx : Option LegalCtx) (o : OpSpec) (w : Inst) : List Reject :=
  let op := opcOf w
  let ret := natAt w 22 2
  let retLo := [0, 35, 47, 59].getD ret 0
  let sz := natAt w 83 3
  let sc := natAt w 89 3
  let od := natAt w 92 2
  let csr := natAt w 71 12
  -- the FM layout (R179), and a predicate source, which the word reads
  let fm := decide (0xa0 ≤ op) && decide (op < 0xd0)
  let predSrc := (match ret with | 1 => o.a | 2 => o.b | _ => o.c) == .pr
  bad (o.ends && natAt w 15 1 == 0) 0x0b 15 1
  ++ bad (o.gw && natAt w 17 4 != 0) 0x0c 17 4
  ++ bad (o.gw && natAt w 21 1 != 0) 0x0c 21 1
  ++ bad (o.rm && natAt w 94 2 == 3 && o.fmt == .no) 0x0d 94 2
  ++ bad (o.rm && natAt w 94 2 == 3 && o.fmt != .no && !o.conv) 0x0d 94 2
  ++ bad (fm && decide (5 < sc) || o.scope != [] && !o.scope.contains sc) 0x0f 89 3
  ++ bad (o.order != [] && !o.order.contains od) 0x0f 92 2
  ++ bad ((op == 0xc1 || op == 0xaf) && od != 0) 0x0f 92 2
  ++ bad (o.scf && natAt w 94 1 == 1 && !(od == 3 && sc == 4)) 0x0f 94 1
  ++ bad ((op == 0xac || op == 0xae) && natAt w 94 1 == 1) 0x0f 94 1
  ++ bad (op == 0xc1 && natAt w 71 5 == 0) 0x0f 71 5
  ++ bad (op == 0xc1 && natAt w 76 5 == 0) 0x0f 76 5
  ++ bad (ret != 0 && !predSrc && !(srcOperands cx o w).any (fun x => x.1 == retLo && decide (x.2.1 < 2048))) 0x10 22 2
  ++ bad (fm && decide (sz > 4)) 0x11 83 3
  ++ bad (o.size != [] && decide (sz ≤ 4) && !o.size.contains sz) 2 83 3
  ++ bad (fm && natAt w 86 1 == 1 && decide (sz > 1)) 0x11 86 1
  ++ bad ((op == 0xab || op == 0xac) && sz == 3 && decide (natAt w 71 4 ≥ 9)) 2 83 3
  ++ bad (o.csr && decide (csr ≥ 0x800)) 0x12 71 12
  ++ bad (o.csr && decide (csr ≥ 0x010) && decide (csr < 0x800)) 2 71 12
  ++ bad (o.csr && op != 0xfa && decide (csr < 0x010) && !csrWritable csr) 0x12 71 12
  ++ bad (op == 0x96 && decide (natAt w 35 12 < 2048) && decide (natAt w 35 12 < natAt w 24 11 + 8)
          && decide (natAt w 24 11 < natAt w 35 12 + 8)) 2 35 12

/-- The entry of a lattice index. -/
def LegalCtx.lat (c : LegalCtx) (k : Nat) : Lat := c.lattice.getD k {}

/-- The proper ancestors of a rate, nearest first (R9). -/
def latAncestors (l : List Lat) : Nat → Nat → List Nat
  | 0, _ => []
  | n + 1, k =>
    let e := l.getD k {}
    if e.root then [] else e.parent :: latAncestors l n e.parent

/-- The linked rates of a rate (R9). -/
def latLinked (l : List Lat) (k : Nat) : List Nat :=
  (k :: latAncestors l 8 k).filterMap (fun j => if (l.getD j {}).linken then some (l.getD j {}).link else none)

/-- The co-resident group rate of a lane rate (R25). -/
def latCoGroup (l : List Lat) (k : Nat) : Option Nat :=
  let e := l.getD k {}
  if e.fanout = 6 && (l.getD e.parent {}).pack == 1 then some e.parent else none

/-- The rate of a register (R23). -/
def LegalCtx.regRate (c : LegalCtx) (r : Nat) : Nat := SMap.get c.regDflt c.regRates r

/-- A register of rate `s` lies in that rate's export range (R24). -/
def exported (e : Lat) (r : Nat) : Bool := decide (e.expbase ≤ r) && decide (r < e.expbase + e.nexp)

/-- Budget of a register (R48). -/
def overBudget (c : LegalCtx) (r : Nat) : Bool :=
  decide (2047 < r) || (if (c.lat (c.regRate r)).pack = 1 then decide (c.gregs ≤ r) else decide (c.lregs ≤ r))

/-- Rules of R24 and R28 for one source register: reasons met. A linked register is read at the primitive's rate, and by
`lin`, `persp` and `flat` at the cpix, sample and ray rates, those of FANOUT RAST, COVER and RAYGEN (R13, R28). -/
def sourceRate (c : LegalCtx) (w : Inst) (mode r : Nat) : List Nat :=
  let k := rateOf w
  let e := c.lat k
  let s := c.regRate r
  let op := opcOf w
  let es := c.lat s
  let handOnly := (decide (0xeb ≤ op) && decide (op ≤ 0xee)) && !(es.pack == 0 || es.pack == 1)
  if op = 0x94 then (if latCoGroup c.lattice k = some s then [] else [4]) ++ (if mode = 0 then [] else [7])
  else
    (if handOnly then [4] else [])
    ++ (if s = k then (if mode = 0 then [] else [7])
        else if (latLinked c.lattice k).contains s then
          (if exported es r then [] else [4])
          ++ (if e.linken && e.link == s then [] else if mode != 0 && [3, 4, 5].contains e.fanout then [] else [7])
        else if (latAncestors c.lattice 8 k).contains s then
          (if exported es r || latCoGroup c.lattice k == some s then [] else [4])
          ++ (if mode = 0 then [] else [7])
        else [4])

/-- Conditions that the launch decides (R24, R28, R48, R59, R61, R116, R117, R208, R212, R220, R229,
R230, R236, R259, R283, R289, R290). -/
def launchRejects (c : LegalCtx) (o : OpSpec) (w : Inst) : List Reject :=
  let op := opcOf w
  let k := rateOf w
  let e := c.lat k
  let sub := subOf w
  let regs (x n : Nat) : List Nat := (List.range n).map (x + ·)
  let modeOf (lo : Nat) : Nat :=
    if op < 0xa0 then (match lo with | 35 => natAt w 71 2 | 47 => natAt w 73 2 | 59 => natAt w 75 2 | _ => 0)
    else 0
  let regBad (lo r : Nat) : List Reject :=
    bad (overBudget c r) 5 lo 12
    ++ (if r > 2047 then [] else
      (sourceRate c w (modeOf lo) r).flatMap (fun rs => if rs = 7 && decide (op < 0xa0) then bad true 7 71 6
        else bad true rs lo 12)
      ++ bad (op == 0xd1 && lo == 59 && !((c.lat (c.regRate r)).pack == 0 || (c.lat (c.regRate r)).pack == 1))
          4 lo 12
      ++ bad (op == 0x95 && c.regRate r != k) 4 lo 12)
  let srcBad := (srcOperands (some c) o w).flatMap (fun x =>
    if 2048 ≤ x.2.1 then [] else
    (regs x.2.1 x.2.2.1).flatMap (regBad x.1)
    -- a run is of one rate (R189, R217)
    ++ bad (decide (op < 0xa0) && x.2.2.2 == 1 && (regs x.2.1 x.2.2.1).any (fun r => c.regRate r != c.regRate x.2.1)) 4 x.1 12)
  -- the argument registers of a spawn after the first (R84, R86)
  let spawn := decide (0xeb ≤ op) && decide (op ≤ 0xed)
  let argBad := if spawn && decide (natAt w 59 12 < 2048) then
      (regs (natAt w 59 12) (c.nargs.getD (natAt w 71 6) 0)).flatMap (regBad 59)
    else []
  let dstBad := match dstOperand (some c) o w with
    | none => []
    | some (d, n, _) => (regs d n).flatMap (fun r =>
        bad (overBudget c r) 5 24 11 ++ bad (decide (r ≤ 2047) && c.regRate r != k) 4 24 11)
    -- the destination of a spawn is no lane's (R86); the state of a traversal is the lanes' (R239)
    ++ bad (spawn && !(e.pack == 0 || e.pack == 1)) 4 24 11 ++ bad ((op == 0x96 || op == 0x97) && e.pack == 1) 4 24 11
  let childBad := if o.b = .child then
      (regs (natAt w 47 11) (sub % 16 + 1)).flatMap (fun r =>
        bad (overBudget c r) 5 47 12 ++ bad (decide (r ≤ 2047) && c.regRate r != sub / 16 % 8) 4 47 12)
    else []
  let slot := wordSlot c w
  let f := slotFmt slot
  let fan (xs : List Nat) : Bool := xs.contains e.fanout
  let ek := c.lat (sub % 8)
  let rk := c.lat (sub / 16 % 8)
  let er := c.lat (sub / 4 % 8)
  srcBad ++ argBad ++ dstBad ++ childBad
  ++ bad (op == 0x99 && !c.sort) 1 0 8
  ++ bad (!c.rates.contains k || ((op == 0x94 || op == 0x98) && e.fanout != 6)
          || (op == 0x99 && (e.fanout == 6 || e.pack == 1))
          || ((op == 0x93 || (op == 0x92 && sub % 4 == 2)) && !fan [3, 4, 5])
          || (op == 0x92 && sub % 4 == 3 && !fan [4, 5]) || (op == 0xa7 && e.pack != 4)) 9 8 3
  ++ bad (decide ((if c.paired then 16 else 24) ≤ c.pos)) 0x0a 15 1
  ++ (match o.fmt with
      | .no => []
      | .among xs => bad (!xs.contains f) 0x0e 91 3
      | .matrix => bad (decide (f > 8) || ((f == 5 || f == 6) && slotScale slot == 0)) 0x0e 91 3)
  ++ bad ((op == 0xd3 || op == 0xd4) && (slotRnd slot == 4 || slotRnd slot == 5)) 0x0d 91 3
  ++ bad (o.rm && natAt w 94 2 == 0 && o.fmt != .no && slotRnd slot == 4 && !o.conv) 0x0d 91 3
  ++ bad (op == 0x91 && !(ek.valid && ek.fanout == 1 && ek.parent == k)) 2 83 8
  ++ bad (op == 0x91 && ek.valid && natAt w 24 11 == ek.countreg) 2 24 11
  ++ bad (op == 0x92 && sub / 4 % 8 != k && !(sub % 4 == 1 && (latAncestors c.lattice 8 k).contains (sub / 4 % 8)
          && (decide (0 < er.nexp) || er.linken))) 2 83 8
  ++ bad (op == 0x95 && !(rk.valid && rk.fanout == 5 && rk.parent == k)) 2 83 8

/-- The conditions of R185 that a word meets, as far as the bits decide them. -/
def staticRejects (w : Inst) : List Reject :=
  match opSpec (opcOf w) with
  | none => [⟨1, 0, 7⟩]
  | some o => unusedFields none o w ++ operandRejects none o w ++ formRejects none o w

/-- The conditions of R185 that a word meets in its launch and place. -/
def allRejects (c : LegalCtx) (w : Inst) : List Reject :=
  match opSpec (opcOf w) with
  | none => [⟨1, 0, 7⟩]
  | some o => unusedFields (some c) o w ++ operandRejects (some c) o w ++ formRejects (some c) o w
      ++ launchRejects c o w

/-- The condition reported (R187): lowest reason, then lowest field. -/
def lowestReject : List Reject → Option Reject
  | [] => none
  | r :: rs => match lowestReject rs with
    | none => some r
    | some q => if q.reason < r.reason || (q.reason == r.reason && q.lo < r.lo) then some q else some r

/-- The instruction of an assigned opcode (R184), its header and fields unpacked. -/
def build (w : Inst) : Option Instr :=
  match opcOf w with
  | 0x00 => some (.iadd .w32 (unpackHdr w) (unpackFA w))
  | 0x01 => some (.iadd .w64 (unpackHdr w) (unpackFA w))
  | 0x02 => some (.isub .w32 (unpackHdr w) (unpackFA w))
  | 0x03 => some (.isub .w64 (unpackHdr w) (unpackFA w))
  | 0x04 => some (.imul .w32 (unpackHdr w) (unpackFA w))
  | 0x05 => some (.imul .w64 (unpackHdr w) (unpackFA w))
  | 0x06 => some (.imulh .s (unpackHdr w) (unpackFA w))
  | 0x07 => some (.imulh .u (unpackHdr w) (unpackFA w))
  | 0x08 => some (.imad .w32 (unpackHdr w) (unpackFA w))
  | 0x09 => some (.imad .w64 (unpackHdr w) (unpackFA w))
  | 0x0a => some (.idiv .s (unpackHdr w) (unpackFA w))
  | 0x0b => some (.idiv .u (unpackHdr w) (unpackFA w))
  | 0x0c => some (.irem .s (unpackHdr w) (unpackFA w))
  | 0x0d => some (.irem .u (unpackHdr w) (unpackFA w))
  | 0x0e => some (.imin .s (unpackHdr w) (unpackFA w))
  | 0x0f => some (.imin .u (unpackHdr w) (unpackFA w))
  | 0x10 => some (.imax .s (unpackHdr w) (unpackFA w))
  | 0x11 => some (.imax .u (unpackHdr w) (unpackFA w))
  | 0x12 => some (.iabs (unpackHdr w) (unpackFA w))
  | 0x13 => some (.ineg (unpackHdr w) (unpackFA w))
  | 0x14 => some (.iaddsat .s (unpackHdr w) (unpackFA w))
  | 0x15 => some (.iaddsat .u (unpackHdr w) (unpackFA w))
  | 0x16 => some (.isubsat .s (unpackHdr w) (unpackFA w))
  | 0x17 => some (.isubsat .u (unpackHdr w) (unpackFA w))
  | 0x18 => some (.andB (unpackHdr w) (unpackFA w))
  | 0x19 => some (.orB (unpackHdr w) (unpackFA w))
  | 0x1a => some (.xorB (unpackHdr w) (unpackFA w))
  | 0x1b => some (.andn (unpackHdr w) (unpackFA w))
  | 0x1c => some (.lop3 (unpackHdr w) (unpackFA w))
  | 0x1d => some (.shl .w32 (unpackHdr w) (unpackFA w))
  | 0x1e => some (.shl .w64 (unpackHdr w) (unpackFA w))
  | 0x1f => some (.shr .w32 (unpackHdr w) (unpackFA w))
  | 0x20 => some (.shr .w64 (unpackHdr w) (unpackFA w))
  | 0x21 => some (.sar .w32 (unpackHdr w) (unpackFA w))
  | 0x22 => some (.sar .w64 (unpackHdr w) (unpackFA w))
  | 0x23 => some (.rot (unpackHdr w) (unpackFA w))
  | 0x24 => some (.popc (unpackHdr w) (unpackFA w))
  | 0x25 => some (.clz (unpackHdr w) (unpackFA w))
  | 0x26 => some (.ctz (unpackHdr w) (unpackFA w))
  | 0x27 => some (.brev (unpackHdr w) (unpackFA w))
  | 0x28 => some (.bfe .s (unpackHdr w) (unpackFA w))
  | 0x29 => some (.bfe .u (unpackHdr w) (unpackFA w))
  | 0x2a => some (.bfi (unpackHdr w) (unpackFA w))
  | 0x2b => some (.icmp .s .w32 (unpackHdr w) (unpackFA w))
  | 0x2c => some (.icmp .u .w32 (unpackHdr w) (unpackFA w))
  | 0x2d => some (.icmp .s .w64 (unpackHdr w) (unpackFA w))
  | 0x2e => some (.icmp .u .w64 (unpackHdr w) (unpackFA w))
  | 0x2f => some (.icmpR .s (unpackHdr w) (unpackFA w))
  | 0x30 => some (.icmpR .u (unpackHdr w) (unpackFA w))
  | 0x31 => some (.sel .w32 (unpackHdr w) (unpackFA w))
  | 0x32 => some (.mov .w32 (unpackHdr w) (unpackFA w))
  | 0x33 => some (.mov .w64 (unpackHdr w) (unpackFA w))
  | 0x34 => some (.movi (unpackHdr w) (unpackFA w))
  | 0x35 => some (.aadd (unpackHdr w) (unpackFA w))
  | 0x36 => some (.alea (unpackHdr w) (unpackFA w))
  | 0x37 => some (.amul (unpackHdr w) (unpackFA w))
  | 0x38 => some (.acmp (unpackHdr w) (unpackFA w))
  | 0x39 => some (.acmpR (unpackHdr w) (unpackFA w))
  | 0x3a => some (.sel .w64 (unpackHdr w) (unpackFA w))
  | 0x40 => some (.fadd (unpackHdr w) (unpackFA w))
  | 0x41 => some (.fsub (unpackHdr w) (unpackFA w))
  | 0x42 => some (.fmul (unpackHdr w) (unpackFA w))
  | 0x43 => some (.ffma (unpackHdr w) (unpackFA w))
  | 0x44 => some (.fmin (unpackHdr w) (unpackFA w))
  | 0x45 => some (.fmax (unpackHdr w) (unpackFA w))
  | 0x46 => some (.fdiv (unpackHdr w) (unpackFA w))
  | 0x47 => some (.frcp (unpackHdr w) (unpackFA w))
  | 0x48 => some (.frsq (unpackHdr w) (unpackFA w))
  | 0x49 => some (.fsqrt (unpackHdr w) (unpackFA w))
  | 0x4a => some (.fexp2 (unpackHdr w) (unpackFA w))
  | 0x4b => some (.flog2 (unpackHdr w) (unpackFA w))
  | 0x4c => some (.fsin (unpackHdr w) (unpackFA w))
  | 0x4d => some (.fcos (unpackHdr w) (unpackFA w))
  | 0x4e => some (.ffloor (unpackHdr w) (unpackFA w))
  | 0x4f => some (.fceil (unpackHdr w) (unpackFA w))
  | 0x50 => some (.ftrunc (unpackHdr w) (unpackFA w))
  | 0x51 => some (.frnd (unpackHdr w) (unpackFA w))
  | 0x52 => some (.ffract (unpackHdr w) (unpackFA w))
  | 0x53 => some (.fcmp (unpackHdr w) (unpackFA w))
  | 0x54 => some (.fcmpR (unpackHdr w) (unpackFA w))
  | 0x55 => some (.fclass (unpackHdr w) (unpackFA w))
  | 0x56 => some (.hfma2 .f16 (unpackHdr w) (unpackFA w))
  | 0x57 => some (.hfma2 .bf16 (unpackHdr w) (unpackFA w))
  | 0x58 => some (.fdot2 .f16 (unpackHdr w) (unpackFA w))
  | 0x59 => some (.fdot2 .bf16 (unpackHdr w) (unpackFA w))
  | 0x5a => some (.fdot4 (unpackHdr w) (unpackFA w))
  | 0x5b => some (.dadd (unpackHdr w) (unpackFA w))
  | 0x5c => some (.dmul (unpackHdr w) (unpackFA w))
  | 0x5d => some (.dfma (unpackHdr w) (unpackFA w))
  | 0x5e => some (.ddiv (unpackHdr w) (unpackFA w))
  | 0x5f => some (.dcmp (unpackHdr w) (unpackFA w))
  | 0x60 => some (.dcmpR (unpackHdr w) (unpackFA w))
  | 0x61 => some (.cvti2f .s .w32 (unpackHdr w) (unpackFA w))
  | 0x62 => some (.cvti2f .u .w32 (unpackHdr w) (unpackFA w))
  | 0x63 => some (.cvti2f .s .w64 (unpackHdr w) (unpackFA w))
  | 0x64 => some (.cvti2f .u .w64 (unpackHdr w) (unpackFA w))
  | 0x65 => some (.cvtf2i .s .w32 (unpackHdr w) (unpackFA w))
  | 0x66 => some (.cvtf2i .u .w32 (unpackHdr w) (unpackFA w))
  | 0x67 => some (.cvtf2i .s .w64 (unpackHdr w) (unpackFA w))
  | 0x68 => some (.cvtf2i .u .w64 (unpackHdr w) (unpackFA w))
  | 0x69 => some (.cvtffF64 (unpackHdr w) (unpackFA w))
  | 0x6a => some (.cvtffF32 (unpackHdr w) (unpackFA w))
  | 0x6b => some (.cvtfmt (unpackHdr w) (unpackFA w))
  | 0x6c => some (.packh (unpackHdr w) (unpackFA w))
  | 0x6d => some (.unpackh (unpackHdr w) (unpackFA w))
  | 0x80 => some (.shflIdx (unpackHdr w) (unpackFA w))
  | 0x81 => some (.shflXor (unpackHdr w) (unpackFA w))
  | 0x82 => some (.shflUp (unpackHdr w) (unpackFA w))
  | 0x83 => some (.shflDown (unpackHdr w) (unpackFA w))
  | 0x84 => some (.bcast (unpackHdr w) (unpackFA w))
  | 0x85 => some (.voteAny (unpackHdr w) (unpackFA w))
  | 0x86 => some (.voteAll (unpackHdr w) (unpackFA w))
  | 0x87 => some (.voteEq (unpackHdr w) (unpackFA w))
  | 0x88 => some (.voteMask (unpackHdr w) (unpackFA w))
  | 0x89 => some (.lred .int (unpackHdr w) (unpackFA w))
  | 0x8a => some (.lred .flt (unpackHdr w) (unpackFA w))
  | 0x8b => some (.lscan .int (unpackHdr w) (unpackFA w))
  | 0x8c => some (.lscan .flt (unpackHdr w) (unpackFA w))
  | 0x8d => some (.csamp (unpackHdr w) (unpackFA w))
  | 0x8e => some (.prng (unpackHdr w) (unpackFA w))
  | 0x8f => some (.hrnd (unpackHdr w) (unpackFA w))
  | 0x90 => some (.qrel (unpackHdr w) (unpackFA w))
  | 0x91 => some (.emitc (unpackHdr w) (unpackFA w))
  | 0x92 => some (.elem (unpackHdr w) (unpackFA w))
  | 0x93 => some (.bary (unpackHdr w) (unpackFA w))
  | 0x94 => some (.rast (unpackHdr w) (unpackFA w))
  | 0x95 => some (.raygen (unpackHdr w) (unpackFA w))
  | 0x96 => some (.trav (unpackHdr w) (unpackFA w))
  | 0x97 => some (.travr (unpackHdr w) (unpackFA w))
  | 0x98 => some (.regrp (unpackHdr w) (unpackFA w))
  | 0x99 => some (.regrpk (unpackHdr w) (unpackFA w))
  | 0xa0 => some (.ld (unpackHdr w) (unpackFM w))
  | 0xa1 => some (.st (unpackHdr w) (unpackFM w))
  | 0xa2 => some (.lds (unpackHdr w) (unpackFM w))
  | 0xa3 => some (.sts (unpackHdr w) (unpackFM w))
  | 0xa4 => some (.pf (unpackHdr w) (unpackFM w))
  | 0xa5 => some (.cinv (unpackHdr w) (unpackFM w))
  | 0xa6 => some (.cwb (unpackHdr w) (unpackFM w))
  | 0xa7 => some (.tsmp (unpackHdr w) (unpackFM w))
  | 0xa8 => some (.tsmpL (unpackHdr w) (unpackFM w))
  | 0xa9 => some (.tsmpG (unpackHdr w) (unpackFM w))
  | 0xaa => some (.tld (unpackHdr w) (unpackFM w))
  | 0xab => some (.atom (unpackHdr w) (unpackFM w))
  | 0xac => some (.atomSp (unpackHdr w) (unpackFM w))
  | 0xad => some (.cas (unpackHdr w) (unpackFM w))
  | 0xae => some (.casSp (unpackHdr w) (unpackFM w))
  | 0xaf => some (.vbat (unpackHdr w) (unpackFM w))
  | 0xc0 => some (.fence (unpackHdr w) (unpackFM w))
  | 0xc1 => some (.xfence (unpackHdr w) (unpackFM w))
  | 0xc2 => some (.barArv (unpackHdr w) (unpackFM w))
  | 0xc3 => some (.barWait (unpackHdr w) (unpackFM w))
  | 0xc4 => some (.mon (unpackHdr w) (unpackFM w))
  | 0xc5 => some (.mwait (unpackHdr w) (unpackFM w))
  | 0xc6 => some (.tkt (unpackHdr w) (unpackFM w))
  | 0xd0 => some (.tcopy (unpackHdr w) (unpackFE w))
  | 0xd1 => some (.chain (unpackHdr w) (unpackFE w))
  | 0xd2 => some (.mma (unpackHdr w) (unpackFE w))
  | 0xd3 => some (.accld (unpackHdr w) (unpackFE w))
  | 0xd4 => some (.accst (unpackHdr w) (unpackFE w))
  | 0xd5 => some (.accz (unpackHdr w) (unpackFE w))
  | 0xd6 => some (.accrel (unpackHdr w) (unpackFE w))
  | 0xd7 => some (.ewait (unpackHdr w) (unpackFE w))
  | 0xd8 => some (.tpost (unpackHdr w) (unpackFE w))
  | 0xd9 => some (.nput (unpackHdr w) (unpackFE w))
  | 0xda => some (.nget (unpackHdr w) (unpackFE w))
  | 0xdb => some (.nsig (unpackHdr w) (unpackFE w))
  | 0xe0 => some (.br (unpackHdr w) (unpackFC w))
  | 0xe1 => some (.brp (unpackHdr w) (unpackFC w))
  | 0xe2 => some (.brd (unpackHdr w) (unpackFC w))
  | 0xe3 => some (.call (unpackHdr w) (unpackFC w))
  | 0xe4 => some (.ret (unpackHdr w) (unpackFC w))
  | 0xe5 => some (.jfence (unpackHdr w) (unpackFC w))
  | 0xe6 => some (.cfetch (unpackHdr w) (unpackFC w))
  | 0xe7 => some (.ifence (unpackHdr w) (unpackFC w))
  | 0xe8 => some (.exitW (unpackHdr w) (unpackFC w))
  | 0xe9 => some (.yield (unpackHdr w) (unpackFC w))
  | 0xea => some (.nop (unpackHdr w) (unpackFC w))
  | 0xeb => some (.spawnI (unpackHdr w) (unpackFC w))
  | 0xec => some (.spawnR (unpackHdr w) (unpackFC w))
  | 0xed => some (.spawnH (unpackHdr w) (unpackFC w))
  | 0xee => some (.resolve (unpackHdr w) (unpackFC w))
  | 0xef => some (.segend (unpackHdr w) (unpackFC w))
  | 0xf0 => some (.lkh (unpackHdr w) (unpackFC w))
  | 0xf8 => some (.trapW (unpackHdr w) (unpackFS w))
  | 0xf9 => some (.rfe (unpackHdr w) (unpackFS w))
  | 0xfa => some (.csrr (unpackHdr w) (unpackFS w))
  | 0xfb => some (.csrw (unpackHdr w) (unpackFS w))
  | 0xfc => some (.csrwI (unpackHdr w) (unpackFS w))
  | 0xfd => some (.tcmp (unpackHdr w) (unpackFS w))
  | 0xfe => some (.bkpt (unpackHdr w) (unpackFS w))
  | _ => none

/-- The word of an instruction: its opcode under R184, header and fields (R176 to R182); `none` for a
machine event, which is no word. -/
def encode (i : Instr) : Option Inst :=
  match i with
  | .iadd .w32 h f => some (packFA 0x00 h f)
  | .iadd .w64 h f => some (packFA 0x01 h f)
  | .isub .w32 h f => some (packFA 0x02 h f)
  | .isub .w64 h f => some (packFA 0x03 h f)
  | .imul .w32 h f => some (packFA 0x04 h f)
  | .imul .w64 h f => some (packFA 0x05 h f)
  | .imulh .s h f => some (packFA 0x06 h f)
  | .imulh .u h f => some (packFA 0x07 h f)
  | .imad .w32 h f => some (packFA 0x08 h f)
  | .imad .w64 h f => some (packFA 0x09 h f)
  | .idiv .s h f => some (packFA 0x0a h f)
  | .idiv .u h f => some (packFA 0x0b h f)
  | .irem .s h f => some (packFA 0x0c h f)
  | .irem .u h f => some (packFA 0x0d h f)
  | .imin .s h f => some (packFA 0x0e h f)
  | .imin .u h f => some (packFA 0x0f h f)
  | .imax .s h f => some (packFA 0x10 h f)
  | .imax .u h f => some (packFA 0x11 h f)
  | .iabs h f => some (packFA 0x12 h f)
  | .ineg h f => some (packFA 0x13 h f)
  | .iaddsat .s h f => some (packFA 0x14 h f)
  | .iaddsat .u h f => some (packFA 0x15 h f)
  | .isubsat .s h f => some (packFA 0x16 h f)
  | .isubsat .u h f => some (packFA 0x17 h f)
  | .andB h f => some (packFA 0x18 h f)
  | .orB h f => some (packFA 0x19 h f)
  | .xorB h f => some (packFA 0x1a h f)
  | .andn h f => some (packFA 0x1b h f)
  | .lop3 h f => some (packFA 0x1c h f)
  | .shl .w32 h f => some (packFA 0x1d h f)
  | .shl .w64 h f => some (packFA 0x1e h f)
  | .shr .w32 h f => some (packFA 0x1f h f)
  | .shr .w64 h f => some (packFA 0x20 h f)
  | .sar .w32 h f => some (packFA 0x21 h f)
  | .sar .w64 h f => some (packFA 0x22 h f)
  | .rot h f => some (packFA 0x23 h f)
  | .popc h f => some (packFA 0x24 h f)
  | .clz h f => some (packFA 0x25 h f)
  | .ctz h f => some (packFA 0x26 h f)
  | .brev h f => some (packFA 0x27 h f)
  | .bfe .s h f => some (packFA 0x28 h f)
  | .bfe .u h f => some (packFA 0x29 h f)
  | .bfi h f => some (packFA 0x2a h f)
  | .icmp .s .w32 h f => some (packFA 0x2b h f)
  | .icmp .u .w32 h f => some (packFA 0x2c h f)
  | .icmp .s .w64 h f => some (packFA 0x2d h f)
  | .icmp .u .w64 h f => some (packFA 0x2e h f)
  | .icmpR .s h f => some (packFA 0x2f h f)
  | .icmpR .u h f => some (packFA 0x30 h f)
  | .sel .w32 h f => some (packFA 0x31 h f)
  | .mov .w32 h f => some (packFA 0x32 h f)
  | .mov .w64 h f => some (packFA 0x33 h f)
  | .movi h f => some (packFA 0x34 h f)
  | .aadd h f => some (packFA 0x35 h f)
  | .alea h f => some (packFA 0x36 h f)
  | .amul h f => some (packFA 0x37 h f)
  | .acmp h f => some (packFA 0x38 h f)
  | .acmpR h f => some (packFA 0x39 h f)
  | .sel .w64 h f => some (packFA 0x3a h f)
  | .fadd h f => some (packFA 0x40 h f)
  | .fsub h f => some (packFA 0x41 h f)
  | .fmul h f => some (packFA 0x42 h f)
  | .ffma h f => some (packFA 0x43 h f)
  | .fmin h f => some (packFA 0x44 h f)
  | .fmax h f => some (packFA 0x45 h f)
  | .fdiv h f => some (packFA 0x46 h f)
  | .frcp h f => some (packFA 0x47 h f)
  | .frsq h f => some (packFA 0x48 h f)
  | .fsqrt h f => some (packFA 0x49 h f)
  | .fexp2 h f => some (packFA 0x4a h f)
  | .flog2 h f => some (packFA 0x4b h f)
  | .fsin h f => some (packFA 0x4c h f)
  | .fcos h f => some (packFA 0x4d h f)
  | .ffloor h f => some (packFA 0x4e h f)
  | .fceil h f => some (packFA 0x4f h f)
  | .ftrunc h f => some (packFA 0x50 h f)
  | .frnd h f => some (packFA 0x51 h f)
  | .ffract h f => some (packFA 0x52 h f)
  | .fcmp h f => some (packFA 0x53 h f)
  | .fcmpR h f => some (packFA 0x54 h f)
  | .fclass h f => some (packFA 0x55 h f)
  | .hfma2 .f16 h f => some (packFA 0x56 h f)
  | .hfma2 .bf16 h f => some (packFA 0x57 h f)
  | .fdot2 .f16 h f => some (packFA 0x58 h f)
  | .fdot2 .bf16 h f => some (packFA 0x59 h f)
  | .fdot4 h f => some (packFA 0x5a h f)
  | .dadd h f => some (packFA 0x5b h f)
  | .dmul h f => some (packFA 0x5c h f)
  | .dfma h f => some (packFA 0x5d h f)
  | .ddiv h f => some (packFA 0x5e h f)
  | .dcmp h f => some (packFA 0x5f h f)
  | .dcmpR h f => some (packFA 0x60 h f)
  | .cvti2f .s .w32 h f => some (packFA 0x61 h f)
  | .cvti2f .u .w32 h f => some (packFA 0x62 h f)
  | .cvti2f .s .w64 h f => some (packFA 0x63 h f)
  | .cvti2f .u .w64 h f => some (packFA 0x64 h f)
  | .cvtf2i .s .w32 h f => some (packFA 0x65 h f)
  | .cvtf2i .u .w32 h f => some (packFA 0x66 h f)
  | .cvtf2i .s .w64 h f => some (packFA 0x67 h f)
  | .cvtf2i .u .w64 h f => some (packFA 0x68 h f)
  | .cvtffF64 h f => some (packFA 0x69 h f)
  | .cvtffF32 h f => some (packFA 0x6a h f)
  | .cvtfmt h f => some (packFA 0x6b h f)
  | .packh h f => some (packFA 0x6c h f)
  | .unpackh h f => some (packFA 0x6d h f)
  | .shflIdx h f => some (packFA 0x80 h f)
  | .shflXor h f => some (packFA 0x81 h f)
  | .shflUp h f => some (packFA 0x82 h f)
  | .shflDown h f => some (packFA 0x83 h f)
  | .bcast h f => some (packFA 0x84 h f)
  | .voteAny h f => some (packFA 0x85 h f)
  | .voteAll h f => some (packFA 0x86 h f)
  | .voteEq h f => some (packFA 0x87 h f)
  | .voteMask h f => some (packFA 0x88 h f)
  | .lred .int h f => some (packFA 0x89 h f)
  | .lred .flt h f => some (packFA 0x8a h f)
  | .lscan .int h f => some (packFA 0x8b h f)
  | .lscan .flt h f => some (packFA 0x8c h f)
  | .csamp h f => some (packFA 0x8d h f)
  | .prng h f => some (packFA 0x8e h f)
  | .hrnd h f => some (packFA 0x8f h f)
  | .qrel h f => some (packFA 0x90 h f)
  | .emitc h f => some (packFA 0x91 h f)
  | .elem h f => some (packFA 0x92 h f)
  | .bary h f => some (packFA 0x93 h f)
  | .rast h f => some (packFA 0x94 h f)
  | .raygen h f => some (packFA 0x95 h f)
  | .trav h f => some (packFA 0x96 h f)
  | .travr h f => some (packFA 0x97 h f)
  | .regrp h f => some (packFA 0x98 h f)
  | .regrpk h f => some (packFA 0x99 h f)
  | .ld h f => some (packFM 0xa0 h f)
  | .st h f => some (packFM 0xa1 h f)
  | .lds h f => some (packFM 0xa2 h f)
  | .sts h f => some (packFM 0xa3 h f)
  | .pf h f => some (packFM 0xa4 h f)
  | .cinv h f => some (packFM 0xa5 h f)
  | .cwb h f => some (packFM 0xa6 h f)
  | .tsmp h f => some (packFM 0xa7 h f)
  | .tsmpL h f => some (packFM 0xa8 h f)
  | .tsmpG h f => some (packFM 0xa9 h f)
  | .tld h f => some (packFM 0xaa h f)
  | .atom h f => some (packFM 0xab h f)
  | .atomSp h f => some (packFM 0xac h f)
  | .cas h f => some (packFM 0xad h f)
  | .casSp h f => some (packFM 0xae h f)
  | .vbat h f => some (packFM 0xaf h f)
  | .fence h f => some (packFM 0xc0 h f)
  | .xfence h f => some (packFM 0xc1 h f)
  | .barArv h f => some (packFM 0xc2 h f)
  | .barWait h f => some (packFM 0xc3 h f)
  | .mon h f => some (packFM 0xc4 h f)
  | .mwait h f => some (packFM 0xc5 h f)
  | .tkt h f => some (packFM 0xc6 h f)
  | .tcopy h f => some (packFE 0xd0 h f)
  | .chain h f => some (packFE 0xd1 h f)
  | .mma h f => some (packFE 0xd2 h f)
  | .accld h f => some (packFE 0xd3 h f)
  | .accst h f => some (packFE 0xd4 h f)
  | .accz h f => some (packFE 0xd5 h f)
  | .accrel h f => some (packFE 0xd6 h f)
  | .ewait h f => some (packFE 0xd7 h f)
  | .tpost h f => some (packFE 0xd8 h f)
  | .nput h f => some (packFE 0xd9 h f)
  | .nget h f => some (packFE 0xda h f)
  | .nsig h f => some (packFE 0xdb h f)
  | .br h f => some (packFC 0xe0 h f)
  | .brp h f => some (packFC 0xe1 h f)
  | .brd h f => some (packFC 0xe2 h f)
  | .call h f => some (packFC 0xe3 h f)
  | .ret h f => some (packFC 0xe4 h f)
  | .jfence h f => some (packFC 0xe5 h f)
  | .cfetch h f => some (packFC 0xe6 h f)
  | .ifence h f => some (packFC 0xe7 h f)
  | .exitW h f => some (packFC 0xe8 h f)
  | .yield h f => some (packFC 0xe9 h f)
  | .nop h f => some (packFC 0xea h f)
  | .spawnI h f => some (packFC 0xeb h f)
  | .spawnR h f => some (packFC 0xec h f)
  | .spawnH h f => some (packFC 0xed h f)
  | .resolve h f => some (packFC 0xee h f)
  | .segend h f => some (packFC 0xef h f)
  | .lkh h f => some (packFC 0xf0 h f)
  | .trapW h f => some (packFS 0xf8 h f)
  | .rfe h f => some (packFS 0xf9 h f)
  | .csrr h f => some (packFS 0xfa h f)
  | .csrw h f => some (packFS 0xfb h f)
  | .csrwI h f => some (packFS 0xfc h f)
  | .tcmp h f => some (packFS 0xfd h f)
  | .bkpt h f => some (packFS 0xfe h f)
  | .runIssue _ _ => none
  | .splitWaitResume _ => none
  | .barrierWake _ => none
  | .monitorTrigger _ => none
  | .monitorTimeout _ => none
  | .timerTrap _ => none
  | .regrpkBinForm _ _ _ _ _ => none
  | .overlayParkWake _ => none
  | .fanOut _ => none
  | .groupDispatch _ _ _ => none
  | .groupDispatchTimeout _ _ _ => none
  | .quireGrant _ => none
  | .spillTimerExpiry _ => none
  | .dispatchUnit _ => none
  | .segmentTake _ => none
  | .passOverLimit _ => none
  | .segmentCommit _ _ => none
  | .accumulatorExhaustion _ => none
  | .matrixPass _ => none
  | .engineOperationComplete _ _ => none
  | .graphNodeFinish _ _ => none
  | .launchCompletion _ => none
  | .peerOperationArrival _ => none
  | .hostRemoteWrite _ _ _ => none
  | .hostRemoteRead _ _ _ => none
  | .launchCmd _ => none
  | .copyCmd _ => none
  | .signalCmd _ => none
  | .waitOnValue _ => none
  | .waitOnValueTimeout _ => none
  | .contextCreate _ => none
  | .contextSuspend _ => none
  | .contextResume _ => none
  | .contextDestroy _ => none
  | .contextMigrate _ => none
  | .deficitCharge _ => none
  | .realtimeDeadline _ => none
  | .quantumEndPreemption _ => none
  | .gapFillReclaim _ => none
  | .drainTimeout _ => none
  | .handOver _ _ => none
  | .faultRecordWrite _ => none
  | .faultNotification _ => none
  | .fqrespResume _ _ => none
  | .fqrespAbort _ _ => none
  | .fqrespKill _ _ => none
  | .shootdownAsid _ => none
  | .shootdownPartition _ => none
  | .shootdownAll _ => none
  | .shootdownComplete => none
  | .pctlWrite _ _ => none
  | .rodsWrite _ _ => none
  | .registerWrite _ _ => none
  | .balancerSample _ _ => none
  | .throttleLift _ _ => none
  | .emergencyClamp _ _ => none
  | .clampLift _ _ => none
  | .powerArbiterPeriod _ => none
  | .wearSave => none
  | .powerOnReset _ => none
  | .attestationRequest _ => none
  | .sidebandModuleReset => none
  | .sidebandFlashWrite _ _ _ => none
  | .sidebandStatusReport => none
  | .patrolScrub _ _ => none
  | .stateCompare _ _ => none
  | .linkRetransmitFailure _ => none
  | .codeFetchComplete _ => none
  | .fqheadWrite _ _ => none
  | .malformedCommand _ => none
  | .targetReport _ => none
  | .contextRestoreComplete _ => none
  | .unrecordedStop => none

/-- The word that sixteen bytes hold, in little-endian order (R1). -/
def wordOfBytes (bs : List Byte) : Inst := BitVec.ofNat 128 (ofLe bs)

/-- Decode sixteen bytes: the instruction, or the condition of R185 that its bits meet. -/
def decodeWord (w : Inst) : Except Reject Instr :=
  match lowestReject (staticRejects w) with
  | some r => .error r
  | none => match build w with
    | some i => .ok i
    | none => .error ⟨1, 0, 7⟩

/-- Decode the first word of a list of bytes and give the rest; too few bytes are no word. -/
def decode (bs : List Byte) : Except Reject (Instr × List Byte) :=
  if bs.length < 16 then .error ⟨1, 0, 7⟩
  else match decodeWord (wordOfBytes (bs.take 16)) with
    | .error r => .error r
    | .ok i => .ok (i, bs.drop 16)

/-- The bytes of a word, lowest address first (R1). -/
def bytesOfWord (w : Inst) : List Byte := leBytes w.toNat 16

/-- The instruction that the decoder reads from a word given as a number, bits above `nbits` zero. -/
def decodeTableWord (nbits w : Nat) : Option Instr :=
  match decode (leBytes (w % 2 ^ nbits) 16) with
  | .ok (i, _) => some i
  | .error _ => none

end Sys2Proof
end

