-- ==== Sys2Proof/Machine/State.lean ====
section
/-! DEFINITION. The state of the module, as plain data, and the state after reset. Sparse maps list only
what differs from their default; the default of each field is named in its docstring and in
`State.reset`. -/

namespace Sys2Proof.Machine

/-- No step of this machine ends in a fault: every trap, fault and error that the spec names has an
effect and is a next state. -/
inductive Fault : Type
  deriving DecidableEq, Repr

/-- Reasons to refuse an instruction. -/
inductive Refusal where
  /-- Raised by `exec` for an instruction without a meaning, by name; safe. -/
  | notModelled (mnemonic : String)
  deriving DecidableEq, Repr

/-! ## Groups -/

/-- The kind of a bound accumulator handle (R286). -/
inductive HKind where
  | f32
  | i32
  | f64
  deriving DecidableEq, Repr

/-- A bound handle: its kind and its slots of the bead (R286). -/
structure Handle where
  kind : HKind
  slots : List Nat
  deriving DecidableEq, Repr

/-- An entry of the operation table (R276): the operation it stands for, or the error it holds (R279). -/
structure OpEnt where
  entry : Nat
  seq : Nat
  op : Nat
  /-- KIND and ADDR of R279 once the operation has completed in error. -/
  err : Option (Nat × Dword)
  deriving DecidableEq, Repr

/-- A child that `raygen` creates at the section's end (R236): its rate and copied registers. -/
structure RayKid where
  rate : Nat
  regs : List (Nat × Word)
  deriving DecidableEq, Repr

/-- A fault record (R369). -/
structure FRec where
  cause : Nat := 0
  asid : Nat := 0
  part : Nat := 0
  kind : Nat := 0
  stage : Nat := 0
  level : Nat := 0
  acc : Nat := 0
  path : Nat := 0
  bead : Nat := 0
  core : Nat := 0
  slot : Nat := 0
  eng : Bool := false
  coal : Bool := false
  esc : Bool := false
  waiters : Nat := 1
  va : Dword := 0
  ia : Dword := 0
  pc : Dword := 0
  pend : BitVec 64 := 0
  token : Word := 0
  segid : Nat := 0
  info : Dword := 0
  deriving DecidableEq, Repr

/-- A quire record (R35). -/
structure QRec where
  /-- Header offset in 16-byte units. -/
  off : Nat
  parent : Option Nat
  spilled : Bool
  /-- Place of the words, in units, in the spill area of bead `spBead` (R327). -/
  spoff : Nat
  spBead : Nat := 0
  rate : Nat
  handle : Word
  refcnt : Nat
  links : List Nat
  words : List Word
  asid : Nat
  /-- Creation order, by which victims are chosen (R41) and originals are told apart (R22). -/
  age : Nat
  /-- The AGE of the original when it is a copy (R22). -/
  orig : Option Nat
  deriving DecidableEq, Repr

/-- The records that an element dealt to another bead needs as copies there, coarsest first, and of these its anchor and
its links; records are named by the AGE of their originals (R22, R326). -/
structure CopyNeed where
  recs : List QRec
  anchor : Option Nat
  links : List Nat
  deriving DecidableEq, Repr

/-- One element of a rate (R9, R17). Record references are header offsets of the element's bead. -/
structure Elem where
  /-- There is an element: a lane or logical group without one holds the default. -/
  present : Bool := false
  rate : Nat := 0
  /-- Element index among the parent's children. -/
  index : Nat := 0
  handle : Word := 0
  /-- The model's name of the parent element, under which its children are counted. -/
  parent : Nat := 0
  /-- Order of its creation and of its parent's (R325). -/
  born : Nat := 0
  parentBorn : Nat := 0
  /-- The record that holds the child reference (R34, R36). -/
  anchor : Option Nat := none
  /-- `qrel` has been executed (R37). -/
  released : Bool := false
  /-- A helper lane of a QUAD group (R21): no element. -/
  helper : Bool := false
  /-- The element's point (R28), 1/256 pixel. -/
  px : Int := 0
  py : Int := 0
  /-- First pixel of the coarse pixel, and its coverage mask (R234). -/
  cpx : Nat := 0
  cpy : Nat := 0
  cover : Nat := 0
  /-- The value of `elem what=samp` (R230). -/
  samp : Word := 0
  /-- Screen vertices x0 y0 x1 y1 x2 y2 of the primitive (R30), empty where there is none. -/
  verts : List Int := []
  /-- Linked records in vertex order (R19). -/
  links : List Nat := []
  /-- An index read that faulted or met poison, taken at the first run (R18): what the fault record holds
  of it. -/
  idxWait : Option FRec := none
  /-- An index was out of range (R18): illegal-state trap at the first run. -/
  idxBad : Bool := false
  rays : List RayKid := []
  /-- The lane has ended and its record request is stalled (R40). -/
  stalled : Bool := false
  /-- The team and segment of the groups it descends from; 0 for none. -/
  team : Nat := 0
  segid : Nat := 0
  /-- Not dealt to a bead yet: the bead of its anchor and the header offset there (R22). -/
  copyOf : Option (Nat × Nat) := none
  /-- Copies that it still needs on its bead (R22, R43). -/
  bring : Option CopyNeed := none
  /-- The copies that it holds on the way to that of its anchor (R326). -/
  copyHeld : List Nat := []
  /-- Not dealt to a bead yet: the bead on which its linked records lie (R22). -/
  linkHome : Option Nat := none
  /-- Of a rate without code: its fault record has not been answered (R42, R323). -/
  halted : Bool := false
  deriving DecidableEq, Repr

/-- A logical group (R71): what belongs to the group as the program sees it. -/
structure LGroup where
  /-- Group index within the team (R51), role index in the launch record, segment roles included. -/
  gindex : Nat := 0
  role : Nat := 0
  /-- Group-rate registers; an unlisted one is 0 (R49). -/
  gregs : SMap Word := []
  fpmode : Word := 0
  fpflags : Word := 0
  divzEn : Word := 0
  handles : SMap Handle := []
  ops : List OpEnt := []
  /-- SEQ of the next accepted engine word (R276). -/
  seq : Nat := 1
  /-- Monitored sectors, by physical address, in the order added (R269). -/
  monSet : List Nat := []
  monTrig : Bool := false
  /-- The element of a rate packed GROUP or HELD that the group is. -/
  elem : Elem := {}
  /-- Lanes that its last ending word ended (R42). -/
  lastEnded : List Nat := []
  deriving DecidableEq, Repr

/-- The divergence record (R55). Slice program counters follow from the lanes' (R54). -/
structure Div where
  /-- Lane program counters; an unlisted one is 0. -/
  pcs : SMap Dword := []
  live : Mask := 0
  pend : Mask := 0
  /-- Two bits for each slice. -/
  split : BitVec 64 := 0
  /-- The alone slice that runs next; none: the broadcast run is next (code 16). -/
  next : Option Nat := none
  bcast : Dword := 0
  rstart : Dword := 0
  rmask : Mask := 0
  inreg : Bool := false
  /-- Event lanes of the division word at which the group stands, performed while others of its lanes are pending
  (R75, R194). -/
  events : Mask := 0
  deriving DecidableEq, Repr

/-- The run in progress (R61, R62). -/
structure Run where
  /-- A run is in progress; the group's active lanes stand at `pc`. -/
  on : Bool := false
  active : Mask := 0
  /-- Slices that execute the run. -/
  slices : List Nat := []
  /-- A run of the subscribed slices, not of a slice alone. -/
  bcast : Bool := true
  pc : Dword := 0
  rate : Nat := 0
  /-- Words of the run before the one at `pc`. -/
  count : Nat := 0
  /-- The word at `pc` has its boundary bit set. -/
  last : Bool := false
  /-- The setting step of its issue port, taken as the run began (R393). -/
  step : Nat := 1
  deriving DecidableEq, Repr

/-- What a split wait of R62 waits for. -/
inductive SplitWhy where
  /-- The segment's commit (R100). -/
  | commit
  /-- Entries of the core's release buffer (R78). -/
  | buffer (need : Nat)
  /-- A free entry of each operation table (R277). -/
  | table
  /-- Entries of the bead's reservation table (R291). -/
  | matrix (need : Nat)
  /-- The end of an `accrel` of a handle (R277). -/
  | handle (n : Nat)
  /-- Engine operations of logical groups on classes of a path mask (R150). -/
  | paths (lgs : List Nat) (mask : Nat)
  deriving DecidableEq, Repr

/-- The timeout of a logical group at `mwait`: when it elapses, and its value (R270). -/
structure MonDue where
  lg : Nat
  at_ : Nat
  timeout : Word
  deriving DecidableEq, Repr

/-- What a group waits for; it waits at the word where it stands (R62, R65). -/
inductive Wait where
  | ready
  /-- At `bar.wait`: the barrier and the phase that its lanes wait to change (R69). -/
  | barrier (bar : Nat) (q : Word)
  /-- At `mwait`: the logical groups that execute it, and the timeouts of those that wait (R270). -/
  | monitor (lgs : List Nat) (due : List MonDue)
  /-- At `ewait` for engine tokens of its logical groups (R278). -/
  | engine
  /-- A split wait of R62. -/
  | split (why : SplitWhy)
  /-- A split wait for accumulator slots: how many, for which handle (R288). -/
  | slots (need hd : Nat)
  /-- Stalled record requests (R40). -/
  | quire
  /-- Copies that its elements need (R43). -/
  | copies
  /-- Parked on an overlay entry, by its physical sector, and whether that was written since (R305). -/
  | park (sector : Nat) (woken : Bool)
  /-- Arrived at `regrp` (R244). -/
  | regrp
  /-- At a `regrpk` that finds no room (R246). -/
  | sortRoom
  /-- Ended, waiting for its operation table (R298). -/
  | ending
  /-- A code fetch is outstanding (R65). -/
  | code
  /-- Stopped by a system cause until the record is answered (R316, R373). -/
  | stopped
  /-- Stopped for pre-emption (R350). -/
  | quiesced
  deriving DecidableEq, Repr

/-- Results still in flight in a lookahead window (R63): what they write and the words left to each
thread. -/
structure Window where
  regs : List Nat
  preds : List Nat
  hnds : List Nat
  size : Nat
  left : SMap Nat
  /-- The result of a SAMP read, for which an `xfence` may wait (R332). -/
  samp : Bool := false
  deriving DecidableEq, Repr

/-- A hardware group, or a pair of them (R46, R73), resident in a slot of a core. -/
structure Group where
  /-- The model's name of the group. -/
  gid : Nat := 0
  asid : Nat := 0
  launch : Nat := 0
  team : Nat := 0
  /-- SEGID of its segment; 0 in root code. -/
  segid : Nat := 0
  /-- The rate of its elements. -/
  rate : Nat := 0
  core : Nat := 0
  slot : Nat := 0
  /-- Lanes of the record: 64, or 128 for a pair (R73). -/
  hw : Nat := 64
  /-- Width of a logical group (R71, R74). -/
  lw : Nat := 64
  div : Div := {}
  /-- TSAVE (R316). -/
  tsave : Div := {}
  /-- Lane-class register `v` of lane `l` at `128 * v + l`; unlisted 0 (R49). -/
  regs : SMap Word := []
  /-- Predicate `p` as a lane mask; unlisted 0; `p0` reads 1 (R49). -/
  preds : SMap Mask := []
  elems : SMap Elem := []
  lgs : List LGroup := []
  trapcause : Word := 0
  trapinfo : Dword := 0
  /-- `TRAPINFO` of the second member of a pair (R73, R194). -/
  trapinfoHi : Dword := 0
  utvec : Dword := 0
  tcmp : Dword := 0
  run : Run := {}
  /-- The words of a run that was cut, from `pc` to its boundary: they go first when the group goes on (R62). -/
  rest : Option Run := none
  /-- What `rest` held at the last delivery of a trap (R316, R319). -/
  trest : Option Run := none
  /-- The records of a fault taken while its team was being stopped: they go out when the group is resumed (R350). -/
  owed : List FRec := []
  wait : Wait := .ready
  windows : List Window := []
  /-- The loop buffer of each slice, most recent word first (R58). -/
  loops : SMap (List (Dword × Inst)) := []
  /-- Runs retired (R353). -/
  retired : Nat := 0
  /-- When it became ready, and runs its core has issued since then (R65). -/
  readySince : Nat := 0
  passedOver : Nat := 0
  /-- The trapping word of the last delivery, when its resume point is "the word" (R314, R319). -/
  trapPc : Option Dword := none
  /-- Words retired: the model's own, to tell a word that completed (log 1). -/
  words : Nat := 0
  /-- Threads that have arrived at `regrp` and wait there, not live meanwhile: lane and key (R244). -/
  keys : SMap Word := []
  /-- Overlay indices it pinned (R304). -/
  pins : List Nat := []
  /-- Since when it has waited for accumulator slots (R288). -/
  slotSince : Option Nat := none
  /-- The wait of the `bar.wait` at which it stands is over (R69). -/
  passed : Bool := false
  /-- Its first run has not begun (R18, R43). -/
  fresh : Bool := true
  /-- Its section may not end before its group's element ends (R17); lanes that ended. -/
  endedLanes : List Nat := []
  /-- Poisoned registers (R384), a lane's `v` at `128 * v + l` and a logical group's `v` at `2^20 + 2048 * j + v`, and the
  address that each is reported with (log 44). -/
  bad : SMap Dword := []
  deriving DecidableEq, Repr

/-! ## Teams, launches, contexts, segments -/

/-- A named barrier (R67). -/
structure Barrier where
  phase : Word := 0
  count : Nat := 0
  target : Nat := 0
  deriving DecidableEq, Repr

/-- How a team is being stopped (R349). -/
inductive Way where
  | drain
  | save
  | flush
  deriving DecidableEq, Repr

/-- A team (R46, R50, R67), or the team of a segment (R83). -/
structure Team where
  tid : Nat
  asid : Nat
  launch : Nat
  /-- Number of the team in its launch. -/
  num : Nat
  segid : Nat
  bead : Nat
  spw : Nat
  /-- Window bytes; unlisted 0. -/
  spad : SMap Byte
  /-- Poisoned 64-byte sectors of the window (R137, R384), and the address that each is reported with (log 44). -/
  bad : SMap Dword := []
  bars : SMap Barrier
  startedAt : Nat
  /-- Runs retired by groups of the team that have ended. -/
  retired : Nat
  stop : Option Way
  /-- Its groups have started: until then its gang holds its place (R47). -/
  gang : Bool := true
  /-- Restored and not yet issuing (R355). -/
  restoring : Bool
  deriving DecidableEq, Repr

/-- A role of a launch (R172). -/
structure Role where
  entry : Nat
  lregs : Nat
  gregs : Nat
  bal : Nat
  groups : Nat
  inseg : Bool
  seg : Nat
  deriving DecidableEq, Repr

/-- A segment type (R172). -/
structure SegType where
  spw : Nat
  argbase : Nat
  nargs : Nat
  firstRole : Nat
  nrole : Nat
  /-- Its scratchpad image. -/
  image : SMap Byte
  deriving DecidableEq, Repr

/-- A launch that has been taken (R338). -/
structure Launch where
  lid : Nat
  asid : Nat
  queue : Nat
  teams : Nat := 1
  spw : Nat := 0
  idem : Bool := false
  wcode : Nat := 0
  codebase : Dword := 0
  lattice : List Lat := []
  slots : List Word := []
  regRates : SMap Nat := []
  regDflt : Nat := 0
  roles : List Role := []
  nroot : Nat := 0
  segs : List SegType := []
  /-- SECTk, `0xffffff` for none. -/
  sect : List Nat := []
  image : SMap Byte := []
  /-- First unplaced team, and flushed teams to place again (R349). -/
  nextTeam : Nat := 0
  again : List Nat := []
  /-- Teams that have ended and the sum of their retired runs (R348). -/
  ended : Nat := 0
  endedRuns : Nat := 0
  /-- The bead at the cursor (R347). -/
  cursor : Nat := 0
  /-- The root element has been created, on this bead: the cursor's first (R347). -/
  begun : Option Nat := none
  /-- Sent to a target under R356: its teams end there. -/
  migrated : Bool := false
  targetEnded : Bool := false
  /-- The graph node it runs for (R293). -/
  node : Option Dword := none
  /-- The command that made it, for its completion. -/
  cmd : BitVec 512 := 0
  deriving DecidableEq, Repr

/-- A context that is live (R367), as its descriptor was read at create (R366). -/
structure Ctx where
  asid : Nat
  part : Nat
  sort : Bool := false
  spq : Nat := 0
  acap : Nat := 0
  lcap : Nat := 8
  gcap : Nat := 8
  lpg : Nat := 1
  qcap : Nat := 0
  size : Nat := 0
  s1root : Nat := 0
  savebase : Nat := 0
  spillbase : Nat := 0
  spillsize : Nat := 0
  ovlcount : Nat := 0
  ovlbase : Nat := 0
  sortbase : Nat := 0
  sortsize : Nat := 0
  peerptr : Nat := 0
  /-- The next spawn number (R331). -/
  nextSeg : Nat := 1
  /-- Its queues are not eligible (R399). -/
  suspended : Bool := false
  /-- Saves made of each bead's area (R352). -/
  saves : SMap Nat := []
  deriving DecidableEq, Repr

/-- Where a segment stands (R90, R95, R102). -/
inductive SegSt where
  | pending
  /-- Running in a team. -/
  | running (team : Nat)
  /-- Running, committed (R95). -/
  | committed (team : Nat)
  /-- Ended after committing; a segment that ends so is no longer listed. -/
  | ended
  /-- Committed, its team flushed: its team is to be placed again (R79, R95). -/
  | again
  /-- Its groups have ended and it has not committed; runs that its team retired (R348). -/
  | finished (team runs : Nat)
  /-- Stopped by a held trap that awaits service (R102). -/
  | service (team : Nat)
  deriving DecidableEq, Repr

/-- A speculative segment (R83, R86, R96, R99). -/
structure Seg where
  asid : Nat
  segid : Nat
  launch : Nat
  die : Nat
  parent : Nat
  cond : Nat
  side : Nat
  /-- Probability code (R87). -/
  prob : Nat
  stype : Nat
  args : List Word
  /-- Segments from root code to it (R88). -/
  depth : Nat
  /-- The root team under which it was spawned (R103), and the segments above it, the nearest first. -/
  root : Nat
  above : List Nat := []
  /-- Predictor index of its spawn site (R94). -/
  site : Nat
  st : SegSt
  /-- Restarted, or to be restarted, after a held trap (R102, R105). -/
  held : Bool
  /-- Version number while speculative (R96). -/
  version : Nat
  /-- Bytes of its version by physical address. -/
  bytes : SMap Byte
  /-- Its read set: sector numbers (R99). -/
  reads : List Nat
  /-- Pass-over count of each bead (R90). -/
  passed : SMap Nat
  deriving DecidableEq, Repr

/-- An entry of a die's condition table (R85). -/
structure Cond where
  gen : Nat := 1
  live : Bool := false
  resolved : Option Nat := none
  asid : Nat := 0
  launch : Nat := 0
  /-- SEGID of the segment that created it. -/
  creator : Nat := 0
  /-- Predictor index and side of every segment spawned on it (R94). -/
  spawned : List (Nat × Nat) := []
  deriving DecidableEq, Repr

/-! ## Engines -/

/-- An entry of a peer table (R402): the peer's endpoint, the job that every packet carries, and the ports it may use, 0 for
any. A message that leaves carries them; through which of them it goes is not said (log 34). -/
structure Peer where
  addr : BitVec 128
  job : BitVec 24
  ports : BitVec 8
  deriving DecidableEq, Repr

/-- What an engine operation does (R281 to R295), its operands as accepted. -/
inductive OpKind where
  | tcopy (src dst : Dword) (desc : List Byte)
  | chain (src dst : Dword) (slot : Nat) (ops : Word) (params : List Word)
  | mma (tile : Nat) (a b : Nat) (k : Nat) (as_ bs : Nat) (slot : Nat) (sat set : Bool)
  | accld (tile : Nat) (addr : Dword) (stride : Word) (slot : Nat)
  | accst (tile : Nat) (addr : Dword) (stride : Word) (slot : Nat)
  | accz (tile : Nat)
  | accrel (tile : Nat)
  | nput (loc rem : Dword) (len : Nat) (dst : Peer)
  | nget (loc rem : Dword) (len : Nat) (dst : Peer)
  | nsig (rem : Dword) (value : Word) (dst : Peer)
  /-- A graph node that starts a launch: its record, and whether the launch has completed; or a join
  (R292, R293). -/
  | launchNode (record : Dword) (ended : Option Bool)
  | join
  /-- A `tpost` whose block the walker could not read yet (R280, R292). -/
  | tpost (addr : Dword)
  /-- A graph node whose start could not read yet what it needs, and its block (R280, R293). -/
  | starting (block : BitVec 2048)
  /-- A graph node that has ended, in error or not: its block and its successors are being written (R293). -/
  | finishing (err : Bool)
  /-- The copy command of a queue (R399). -/
  | copyCmd (src dst : Dword) (len : Dword)
  deriving DecidableEq, Repr

/-- An engine operation in progress (R277), oldest first in `State.engOps`. -/
structure EngOp where
  oid : Nat
  asid : Nat
  launch : Nat
  /-- Its group, or none for a graph node and a queue's copy. -/
  gid : Option Nat
  /-- Logical group within it, and its table entry. -/
  lg : Nat
  entry : Nat
  token : Word
  team : Nat
  segid : Nat
  bead : Nat
  core : Nat
  kind : OpKind
  /-- Elements, rows or passes done: the progress point (R280, R298). -/
  done : Nat
  /-- Waiting for the answer to its fault record (R280). -/
  paused : Bool
  /-- Pausing until its segment commits (R100). -/
  waitsCommit : Bool := false
  /-- An error found before it began (R293), KIND and address. -/
  bad : Option (Nat × Dword) := none
  /-- Operand values of the group of R124 that a matrix operation is in: columns of A and rows of B. -/
  held : List (List Val × List Val) := []
  /-- The control block of a graph node (R293). -/
  block : Option Dword := none
  /-- Queue of a copy command, or of the context that posted a node. -/
  queue : Nat
  /-- A graph node's format slots: those of the launch that posted it. -/
  slots : List Word := []
  deriving DecidableEq, Repr

/-- A posted graph node: who posted it (R293). -/
structure Posted where
  asid : Nat
  block : Dword
  queue : Nat
  slots : List Word
  launch : Nat
  team : Nat
  core : Nat
  deriving DecidableEq, Repr

/-! ## Quire, fan-out -/

/-- A stalled request of the bead (R40, R43): the lane whose element asks (128 and above: the logical
group's own element), and the record to make. Of an element without code the group is 0 and `lane` is its BORN. -/
structure QReq where
  gid : Nat
  lane : Nat
  record : QRec
  copy : Bool
  deriving DecidableEq, Repr

/-- An element that has ended and whose children are to be made (R17). -/
structure Parent where
  pid : Nat
  launch : Nat
  asid : Nat
  bead : Nat
  elem : Elem
  /-- Its record, if it has one. -/
  record : Option Nat
  /-- Its registers as they stood. -/
  regs : SMap Word
  /-- Child rates whose children are still to be made. -/
  todo : List Nat
  /-- Children not yet ended, and children made, of each rate; records of linked children by index (R19). -/
  kids : SMap Nat
  made : SMap Nat
  vrecs : SMap Nat
  deriving DecidableEq, Repr

/-- An element that waits for a lane (R20). -/
structure Waiting where
  launch : Nat
  asid : Nat
  /-- Its bead; none while an element of the placed rate has not been dealt (R22). -/
  bead : Option Nat
  elem : Elem
  regs : SMap Word
  since : Nat
  deriving DecidableEq, Repr

/-- A thread that moves among groups (R244, R245). -/
structure Thread where
  regs : List (Nat × Word)
  preds : List Nat
  pc : Dword
  elem : Option Elem
  deriving DecidableEq, Repr

/-- A thread stored in a `regrpk` bin (R245): its registers, predicates and program counter lie in the sort area of its
context, `size` bytes from `place` on; the element, team and role are held here. -/
structure Stored where
  elem : Option Elem
  team : Nat
  role : Nat
  place : Nat
  size : Nat
  deriving DecidableEq, Repr

/-- A bin of R245. -/
structure Bin where
  launch : Nat
  asid : Nat
  rate : Nat
  segid : Nat
  bin : Nat
  threads : List Stored
  deriving DecidableEq, Repr

/-! ## Memory system -/

/-- A translation-cache entry (R362). -/
structure Tlb where
  asid : Nat
  part : Nat
  gen : Nat
  vbase : Nat
  ibase : Nat
  pbase : Nat
  /-- Bytes of the page. -/
  size : Nat
  rd : Bool
  wr : Bool
  ex : Bool
  plc : Nat
  deriving DecidableEq, Repr

/-- A table entry in the walk cache of a die (R362), tagged as translations are: the stage, where the walk read the
entry (an intermediate address at stage 1, a physical one at stage 2), the addresses it serves, and its value. -/
structure WalkEnt where
  asid : Nat
  part : Nat
  gen : Nat
  st : Nat
  at_ : Nat
  base : Nat
  size : Nat
  val : Nat
  deriving DecidableEq, Repr

/-- A word held in L0 or in an overlay frame (R303 to R307). -/
structure CodeLine where
  asid : Nat
  va : Nat
  pa : Nat
  /-- Generation of the translation it was fetched under, and that translation (R376). -/
  tgen : Nat
  page : Option Tlb := none
  word : Inst
  /-- Overlay index and generation when it lies in an overlay frame. -/
  ovl : Option (Nat × Nat)
  deriving DecidableEq, Repr

/-- An entry of a core's release buffer (R76). -/
structure RelEnt where
  gid : Nat
  /-- Team window (true) or device memory. -/
  window : Bool
  team : Nat
  sector : Nat
  /-- Byte offset in the sector to byte. -/
  bytes : List (Nat × Byte)
  deriving DecidableEq, Repr

/-- A core's own stores: caches, translation cache, L0, release buffer. -/
structure Core where
  /-- L1 copies of 64-byte sectors by sector number (R133). -/
  l1 : SMap (List Byte) := []
  /-- Sectors of the sampler cache (R139). -/
  samp : SMap (List Byte) := []
  l0 : List CodeLine := []
  tlb : List Tlb := []
  rel : List RelEnt := []
  /-- Energy class most recently issued (R65). -/
  lastBal : Option Nat := none
  /-- The division of the SRAM in force: scratchpad steps of 32 KiB (R129). -/
  spq : Nat := 0
  deriving DecidableEq, Repr

/-! ## Beads, rods, power -/

/-- A stop of a bead that the scheduler has decided (R345, R349, R355). -/
structure BeadStop where
  /-- The context that takes the bead; none when the context is suspended only. -/
  toAsid : Option Nat
  /-- Drains still running fall back to save at this time. -/
  drainBy : Nat
  /-- Its saves are written. -/
  saved : Bool
  deriving DecidableEq, Repr

/-- A bead. -/
structure Bead where
  occ : Option Nat := none
  out : Bool := false
  quire : List QRec := []
  reqs : List QReq := []
  /-- Start of the spill timer's count (R41). -/
  spillFrom : Option Nat := none
  /-- Accumulator memory: 32-bit word `i` of slot `s` at `4096 * s + i`; unlisted 0. -/
  acc : SMap Word := []
  accPoison : List Nat := []
  exhFrom : Option Nat := none
  bins : List Bin := []
  stop : Option BeadStop := none
  /-- Second-level translation cache (R362). -/
  tlb2 : List Tlb := []
  /-- Runs one step below its rod's base step (R393). -/
  trim : Bool := false
  /-- Taken while its occupant had no use for it (R346): the former occupant. -/
  gapOf : Option Nat := none
  /-- Samples of this period in which it issued filler (R393). -/
  fillN : Nat := 0
  /-- Segments passed over 64 times: it takes none that stands after them (R90). -/
  gate : List (Nat × Nat) := []
  deriving DecidableEq, Repr

/-- A rod (R386 to R394). -/
structure Rod where
  n1 : Int := 0
  n2 : Int := 0
  n3 : Int := 0
  /-- Filler is on at node k's light bead: the bead of the rod for each node. -/
  fill : List (Option Nat) := [none, none, none]
  throt : Bool := false
  streak : Nat := 0
  /-- When the clamp began, and whether it is thermal (R389, R395). -/
  clamp : Option (Nat × Bool) := none
  /-- Starts of the rod's clamps (R389). -/
  clamps : List Nat := []
  /-- Throttle of R395 waits for 100 degrees. -/
  hotThrot : Bool := false
  budget : Nat := 0
  power : Nat := 0
  ceil : Nat := 0x460
  step : Nat := 1
  fillcyc : Nat := 0
  throtcyc : Nat := 0
  wear : Nat := 0
  /-- Fraction of WEAR: 10 µs × AF units of 1/65536 (R394). -/
  wearFrac : Nat := 0
  temp : Int := 0
  tempBead : Nat := 0
  samples : Nat := 0
  deriving DecidableEq, Repr

/-! ## Queues, partitions, faults -/

/-- Who is attached to a record (R372). -/
inductive Attach where
  | group (gid : Nat)
  | op (oid : Nat)
  /-- An element of a rate without code, whose indices could not be read or are out of range (R18, R323). -/
  | element (launch : Nat) (handle : Word)
  | nobody
  deriving DecidableEq, Repr

/-- A record that is due or written and has had no response (R368, R372). -/
structure FPend where
  rec_ : FRec
  who : List Attach
  /-- Its SEQ once written (R369). -/
  seq : Option Nat
  deriving DecidableEq, Repr

/-- A partition's fault queue, predictors and scheduler (R94, R343, R368). -/
structure Part where
  pend : List FPend := []
  /-- SEQ of the next record. -/
  seq : Nat := 1
  /-- FQTAIL (R379). -/
  tail : Nat := 0
  /-- A notification is due, and when the last was sent (R401). -/
  noteDue : Bool := false
  noteAt : Option Nat := none
  /-- Predictor tables, die 0 then die 1 at 256 (R94); an unlisted entry is 0x7f. -/
  pred : SMap Nat := []
  /-- The current queue of the class served, and the current queue of each class, which a higher class does not end
  (R343). -/
  cur : Option Nat := none
  curs : SMap Nat := []
  chargeAt : Nat := 0
  deriving DecidableEq, Repr

/-- A queue (R340, R399): commands received, and those begun. -/
structure Queue where
  cmds : List (BitVec 512) := []
  /-- The command in progress besides launches. -/
  busy : Option (BitVec 512) := none
  /-- When its wait times out; none: no timeout. -/
  waitUntil : Option Nat := none
  /-- Signed deficit in 1/256 µs (R343). -/
  deficit : Int := 0
  /-- Start of the quantum in progress. -/
  quantumAt : Nat := 0
  deriving DecidableEq, Repr

/-- A message that leaves the module. -/
inductive Out where
  /-- Completion message of a queue (R400). -/
  | completion (queue : Nat) (rec_ : BitVec 128)
  /-- Completion record written to a host address (R400). -/
  | hostWrite (queue : Nat) (addr : Dword) (rec_ : BitVec 128)
  /-- Fault notification (R401): endpoint address and message. -/
  | note (addr msg : BitVec 128)
  /-- Bytes read by a remote read, or its refusal (R397). -/
  | readReply (queue : Nat) (data : Option (List Byte))
  | writeAck (queue : Nat) (ok : Bool)
  /-- Answer to an arriving peer operation (R402). -/
  | peerReply (dst : BitVec 128) (job : BitVec 24) (ok : Bool) (data : List Byte)
  /-- A peer operation sent (R294): peer address, job, kind, remote address, bytes or length. -/
  | netPut (dst : Peer) (rem : Dword) (data : List Byte)
  | netGet (dst : Peer) (rem : Dword) (len : Nat)
  | netSig (dst : Peer) (rem : Dword) (value : Word)
  /-- Unplaced teams sent to a migration target (R356). -/
  | migrate (dst : BitVec 128) (queue : Nat) (teams first : Nat) (record : Dword)
  /-- Attestation report (R408). -/
  | attest (report sig : List Byte)
  /-- Sideband status (R409). -/
  | status (temps : List Int) (power : Nat) (capacity : Nat)
  /-- A power event of a rod that no partition owns (R396). -/
  | power (cause rod : Nat) (info : Dword)
  deriving DecidableEq, Repr

/-- A shootdown in progress (R375, R376). -/
structure Shoot where
  scope : Nat
  asid : Nat
  part : Nat
  base : Nat
  /-- Granules; 0 the whole space. -/
  count : Nat
  gen : Nat
  /-- Groups that have still to drop their code at a run boundary. -/
  left : List Nat
  /-- Stores translated before it that lay in release buffers: core, group and sector (R376). -/
  stores : List (Nat × Nat × Nat) := []
  deriving DecidableEq, Repr

/-- A record of the boot step journal (R407). -/
structure Journal where
  step : Nat
  unit : Nat
  outcome : Nat
  boot : Nat
  deriving DecidableEq, Repr

/-- The SPI flash (R394, R406, R407). -/
structure Flash where
  copyA : SMap Byte := []
  copyB : SMap Byte := []
  lenA : Nat := 0
  lenB : Nat := 0
  journal : List Journal := []
  boots : Nat := 0
  wear : SMap Nat := []
  /-- The last stop was recorded (orderly). -/
  orderly : Bool := true
  /-- The firmware stages after the first (R406), and the certificates of the identity keys (R408). -/
  later : List (List Byte) := []
  certs : List Byte := []
  deriving DecidableEq, Repr

/-- Boot status of this start (R403 to R407). -/
structure Boot where
  recovery : Bool := false
  /-- Working LPDDR-6 channels, CXL ports and Ethernet ports, as bit masks. -/
  chans : Nat := 0
  cxl : Nat := 0
  eth : Nat := 0
  cons : Bool := false
  /-- Bytes behind each CXL port (R404). -/
  cxlBytes : List Nat := [0, 0, 0, 0]
  outcomes : List Journal := []
  rev : BitVec 16 := 0
  /-- Measurements of the verified stages (R408). -/
  measured : List Byte := []
  deriving DecidableEq, Repr

/-- A hardware failure that is found (R383, R384). -/
inductive Failure where
  /-- A single fault in a stored word of a bead, corrected as the word is read or scrubbed. -/
  | corrected
  /-- A residue mismatch that the repeat of the word or pass does not show again. -/
  | repeated
  /-- What cannot be corrected: data in memory or L2, by sector; an accumulator slot of a bead. -/
  | data (sector : Nat)
  | slot (bead slot : Nat)
  /-- Register `reg` of a group, of a lane or (`gr`) of the lane's logical group; a sector of a team's window; the address
  that its poison is reported with. -/
  | register (gid : Nat) (gr : Bool) (lane reg : Nat) (va : Dword)
  | window (team sector : Nat) (va : Dword)
  /-- A residue mismatch that recurs: at the word of a group, or in an engine operation. -/
  | lane (gid : Nat)
  | engine (oid : Nat)
  /-- Of divergence records, handles, quire headers, barrier state or a save header of a context. -/
  | state (bead asid : Nat)
  deriving DecidableEq, Repr

/-- What moves next, as far as the schedule says (log 1). -/
inductive Turn where
  /-- A machine event or an input of the table. -/
  | event (i : Instr)
  /-- The next word of a group. -/
  | word (gid : Nat)
  /-- A command message arrives at a queue (R398). -/
  | message (queue : Nat) (msg : BitVec 512)
  /-- Replacement drops a line: of the L1, the sampler cache, the L0 (virtual address) or the translation
  cache of a core (kinds 0 to 3), an L2 line's write mask (kind 4), an entry of its bead's translation cache (kind 5)
  or of its die's walk cache (kind 6: where the entry was read). -/
  | evict (core kind addr : Nat)
  /-- A hardware failure (R383, R384). -/
  | failure (f : Failure)
  deriving DecidableEq, Repr

/-- A saved bead: where its area lies, and what restoration needs beside the area's bytes (R353, log 16). -/
structure SavedBead where
  asid : Nat
  /-- The bead whose area holds the bytes: that it was saved from, but for one whose area is in use (log 16). -/
  bead : Nat
  /-- Under this number, from 128 on, the state keeps the quire, the requests and the bins meanwhile. -/
  home : Nat
  groups : List Group
  teams : List Team
  /-- The segments and conditions in the die state of its part 7, in their order there (R103). -/
  dieSegs : List Seg := []
  dieConds : List (Nat × Cond) := []
  /-- A check of its area has failed: it is not resumed (R354). -/
  failed : Bool
  deriving DecidableEq, Repr

/-! ## The whole machine -/

/-- The state of the module. -/
structure State where
  /-- Counts the steps: what the free values are applied to (log 1). -/
  tick : Nat
  /-- `TIMER` (R322). -/
  timer : Dword
  /-- The group whose word is next at an issue port, and all other resident groups. -/
  grp : Group
  groups : List Group
  teams : List Team
  launches : List Launch
  ctxs : SMap Ctx
  segs : List Seg
  /-- Condition tables: entry `e` of die `d` at `1024 * d + e`. -/
  conds : SMap Cond
  engOps : List EngOp
  /-- Posted graph nodes that have not started (R293). -/
  posted : List Posted
  parents : List Parent
  pool : List Waiting
  queues : SMap Queue
  parts : SMap Part
  beads : SMap Bead
  rods : SMap Rod
  cores : SMap Core
  /-- Walk caches of the dies (R362). -/
  walkers : SMap (List WalkEnt)
  /-- Device memory by physical address; an unlisted byte reads 0 (log 2). -/
  mem : List (Nat × Byte)
  /-- Poisoned sectors (R137). -/
  poison : List Nat
  /-- Byte write masks of L2 lines, by line number (R133). -/
  wmask : SMap (BitVec 256)
  /-- System registers that have been written, by offset in the window (R381). -/
  window : SMap Dword
  tgen : Word
  shoot : Option Shoot
  shootErr : Bool
  doneGen : Word
  errcnt : Word
  /-- Module power of the last period and the part outside the rods (R391), and periods above CAP. -/
  modpwr : Nat
  outside : Nat
  overCap : Nat
  /-- Next ticket of the SC sequencer (R152). -/
  scTicket : Nat
  /-- The next name of a group, team, launch, operation or element (log 1). -/
  nextId : Nat
  /-- Saved beads, oldest first. -/
  saved : List SavedBead
  flash : Flash
  boot : Boot
  out : List Out
  agenda : List Turn
  deriving DecidableEq, Repr

/-- The machine right after module reset (R3, R85, R322, R379, R382, R386, R391). -/
def State.reset : State :=
  { tick := 0, timer := 0, grp := {}, groups := [], teams := [], launches := [], ctxs := [], segs := [],
    conds := [], engOps := [], posted := [], parents := [], pool := [], queues := [], parts := [], beads := [],
    rods := [], cores := [], walkers := [], mem := [], poison := [], wmask := [], window := [], tgen := 0, shoot := none,
    shootErr := false, doneGen := 0, errcnt := 0, modpwr := 0, outside := 0, overCap := 0, scTicket := 0,
    nextId := 1, saved := [], flash := {}, boot := {}, out := [], agenda := [] }

end Sys2Proof.Machine
end

