-- ==== Sys2Proof/Machine/Access.lean ====
section
/-! DEFINITION. Reading and updating the tables of the state: groups, teams, launches, contexts, beads,
rods, partitions, queues, and the system register window (R379 to R393). -/

namespace Sys2Proof.Machine

/-! ## Tables -/

/-- Every resident group; the idle focus has name 0 and no live lane. -/
def State.allGroups (s : State) : List Group := s.grp :: s.groups

/-- The group of a name. -/
def State.findGroup (s : State) (gid : Nat) : Option Group :=
  s.allGroups.find? (fun g => g.gid == gid && gid != 0)

/-- Update the group of a name, in a saved area if it is saved. -/
def State.updGroupAny (s : State) (gid : Nat) (f : Group → Group) : State :=
  { s with
    grp := if s.grp.gid = gid then f s.grp else s.grp
    groups := s.groups.map (fun g => if g.gid = gid then f g else g)
    saved := s.saved.map (fun x => { x with groups := x.groups.map (fun g => if g.gid = gid then f g else g) }) }

/-- Update the group of a name. -/
def State.updGroup (s : State) (gid : Nat) (f : Group → Group) : State :=
  if s.grp.gid = gid then { s with grp := f s.grp }
  else { s with groups := s.groups.map (fun g => if g.gid = gid then f g else g) }

/-- Update the group whose word is next. -/
def State.setGrp (s : State) (g : Group) : State := { s with grp := g }

/-- Remove a group; the focus becomes idle when it was it. -/
def State.dropGroup (s : State) (gid : Nat) : State :=
  if s.grp.gid = gid then { s with grp := {} }
  else { s with groups := s.groups.filter (fun g => g.gid != gid) }

/-- Make a group the one whose word is next; the former focus joins the others unless it is idle. -/
def State.focusOn (s : State) (gid : Nat) : State :=
  if s.grp.gid = gid then s
  else match s.groups.find? (fun g => g.gid == gid) with
    | none => s
    | some g =>
      let rest := s.groups.filter (fun x => x.gid != gid)
      { s with grp := g, groups := if s.grp.gid = 0 then rest else s.grp :: rest }

/-- The team of a name. -/
def State.findTeam (s : State) (tid : Nat) : Option Team := s.teams.find? (fun t => t.tid == tid)
/-- A team whose window takes bytes, in turn; a store of all 64 bytes of a sector clears its poison (R137). -/
def Team.writeWindow (t : Team) (cells : List (Nat × Byte)) : Team :=
  { t with spad := cells.foldl (fun m c => SMap.set 0 m c.1 c.2) t.spad
           bad := t.bad.filter (fun x => !(List.range 64).all (fun i => cells.any (fun c => c.1 == 64 * x.1 + i))) }
def State.updTeam (s : State) (tid : Nat) (f : Team → Team) : State :=
  { s with teams := s.teams.map (fun t => if t.tid = tid then f t else t) }

/-- The launch of a name. -/
def State.findLaunch (s : State) (lid : Nat) : Option Launch := s.launches.find? (fun l => l.lid == lid)
def State.updLaunch (s : State) (lid : Nat) (f : Launch → Launch) : State :=
  { s with launches := s.launches.map (fun l => if l.lid = lid then f l else l) }

/-- The launch of a group; an empty record when there is none. -/
def State.launchOf (s : State) (g : Group) : Launch :=
  (s.findLaunch g.launch).getD { lid := 0, asid := 0, queue := 0 }

/-- The live context of an address-space identifier (R365, R367). -/
def State.ctx? (s : State) (asid : Nat) : Option Ctx := SMap.find s.ctxs asid
def State.ctx (s : State) (asid : Nat) : Ctx := (s.ctx? asid).getD { asid := asid, part := 0 }
def State.updCtx (s : State) (asid : Nat) (f : Ctx → Ctx) : State :=
  { s with ctxs := SMap.upd s.ctxs asid f }

def State.bead (s : State) (b : Nat) : Bead := SMap.get {} s.beads b
def State.updBead (s : State) (b : Nat) (f : Bead → Bead) : State :=
  { s with beads := SMap.set {} s.beads b (f (s.bead b)) }
def State.rod (s : State) (r : Nat) : Rod := SMap.get {} s.rods r
def State.updRod (s : State) (r : Nat) (f : Rod → Rod) : State :=
  { s with rods := SMap.set {} s.rods r (f (s.rod r)) }
def State.core (s : State) (c : Nat) : Core := SMap.get {} s.cores c
def State.updCore (s : State) (c : Nat) (f : Core → Core) : State :=
  { s with cores := SMap.set {} s.cores c (f (s.core c)) }
def State.part (s : State) (p : Nat) : Part := SMap.get {} s.parts p
def State.updPart (s : State) (p : Nat) (f : Part → Part) : State :=
  { s with parts := SMap.set {} s.parts p (f (s.part p)) }
def State.queue (s : State) (q : Nat) : Queue := SMap.get {} s.queues q
def State.updQueue (s : State) (q : Nat) (f : Queue → Queue) : State :=
  { s with queues := SMap.set {} s.queues q (f (s.queue q)) }

/-- The segment of a spawn number in a context. -/
def State.findSeg (s : State) (asid segid : Nat) : Option Seg :=
  s.segs.find? (fun x => x.asid == asid && x.segid == segid)
def State.updSeg (s : State) (asid segid : Nat) (f : Seg → Seg) : State :=
  { s with segs := s.segs.map (fun x => if x.asid = asid ∧ x.segid = segid then f x else x) }

def State.findOp (s : State) (oid : Nat) : Option EngOp := s.engOps.find? (fun o => o.oid == oid)
def State.updOp (s : State) (oid : Nat) (f : EngOp → EngOp) : State :=
  { s with engOps := s.engOps.map (fun o => if o.oid = oid then f o else o) }

/-- A fresh name (log 1). -/
def State.fresh (s : State) : Nat × State := (s.nextId, { s with nextId := s.nextId + 1 })

/-- A message leaves the module. -/
def State.emit (s : State) (o : Out) : State := { s with out := s.out ++ [o] }

/-! ## Places (R7, R321) -/

def beadOfCore (c : Nat) : Nat := c / 4
def rodOfBead (b : Nat) : Nat := b / 4
def dieOfBead (b : Nat) : Nat := b / 64
def dieOfCore (c : Nat) : Nat := c / 256

/-- The bead of a group. -/
def Group.bead (g : Group) : Nat := beadOfCore g.core

/-! ## The system register window (R381) -/

/-- Offsets of module, partition, bead and rod CSRs, queue descriptors and the context table. -/
def offModule (n : Nat) : Nat := 8 * (n - 0x800)
def offPart (p n : Nat) : Nat := 0x10000 + 0x800 * p + 8 * (n - 0x900)
def offBead (b n : Nat) : Nat := 0x20000 + 0x800 * b + 8 * (n - 0xa00)
def offRod (r n : Nat) : Nat := 0x60000 + 0x800 * r + 8 * (n - 0xb00)
def offQueue (q i : Nat) : Nat := 0x80000 + 64 * q + 8 * i
def offCtx (a : Nat) : Nat := 0xc0000 + 8 * a

/-- Reset value of a stored register: PWRCAP 2,300 (R391); a queue descriptor's CLASS 0b01, WEIGHT 1 and
QUANTUM 1,000 in its first word (R340); all others 0 (R379, R382). -/
def windowReset (off : Nat) : Dword :=
  if off = offModule 0x802 then 2300
  else if 0x80000 ≤ off ∧ off < 0x84000 ∧ off % 64 = 0 then BitVec.ofNat 64 (1000 * 2 ^ 32 + 8 + 2)
  else 0

/-- The stored value at an offset. -/
def State.win (s : State) (off : Nat) : Dword := (SMap.find s.window off).getD (windowReset off)

/-- Store a register. -/
def State.setWin (s : State) (off : Nat) (v : Dword) : State := { s with window := SMap.put s.window off v }

/-- A partition CSR (R379). -/
def State.pcsr (s : State) (p n : Nat) : Nat := (s.win (offPart p n)).toNat

/-- `PCTL`.EN, SORTOK, NOTIFY (R379). -/
def State.partEn (s : State) (p : Nat) : Bool := nbits (s.pcsr p 0x900) 0 1 == 1
def State.partSort (s : State) (p : Nat) : Bool := nbits (s.pcsr p 0x900) 1 1 == 1
def State.partNotify (s : State) (p : Nat) : Bool := nbits (s.pcsr p 0x900) 2 1 == 1
/-- RODMASK (R378). -/
def State.rodMask (s : State) (p : Nat) : Nat := nbits (s.pcsr p 0x901) 0 32
/-- The partition that owns a rod. -/
def State.rodOwner (s : State) (r : Nat) : Option Nat :=
  (List.range 16).find? (fun p => s.partEn p && nbits (s.rodMask p) r 1 == 1)
/-- The beads of a partition, ascending; a bead out of service stays one (R366). -/
def State.partBeads (s : State) (p : Nat) : List Nat :=
  (List.range 128).filter (fun b => nbits (s.rodMask p) (rodOfBead b) 1 == 1)
/-- Position of a bead among the partition's beads (R351). -/
def State.beadIndex (s : State) (p b : Nat) : Nat :=
  ((s.partBeads p).filter (fun x => decide (x < b))).length

/-- A queue descriptor's fields (R340). -/
def State.qdesc (s : State) (q i : Nat) : Nat := (s.win (offQueue q i)).toNat
def State.qEn (s : State) (q : Nat) : Bool := nbits (s.qdesc q 0) 0 1 == 1
def State.qClass (s : State) (q : Nat) : Nat := nbits (s.qdesc q 0) 1 2
def State.qWeight (s : State) (q : Nat) : Nat := max 1 (nbits (s.qdesc q 0) 3 6)
def State.qPart (s : State) (q : Nat) : Nat := nbits (s.qdesc q 0) 12 4
def State.qAsid (s : State) (q : Nat) : Nat := nbits (s.qdesc q 0) 16 8
/-- QUANTUM in µs, clamped (R340). -/
def State.qQuantum (s : State) (q : Nat) : Nat := min 100000 (max 50 (nbits (s.qdesc q 0) 32 32))
def State.qBeads (s : State) (q : Nat) : Nat := nbits (s.qdesc q 1) 32 8
def State.qDeadline (s : State) (q : Nat) : Nat := s.qdesc q 2
def State.qLead (s : State) (q : Nat) : Nat := nbits (s.qdesc q 3) 0 32

/-- Context table entry (R365). -/
def State.ctxValid (s : State) (a : Nat) : Bool := nbits (s.win (offCtx a)).toNat 0 1 == 1
def State.ctxPart (s : State) (a : Nat) : Nat := nbits (s.win (offCtx a)).toNat 4 4
def State.ctxDesc (s : State) (a : Nat) : Nat := nbits (s.win (offCtx a)).toNat 8 48 * 256

/-- 16-bit two's complement. -/
def s16 (x : Int) : Nat := (BitVec.ofInt 16 x).toNat

/-- Throttle or clamp overrides a bead's step (R388, R389, R393). -/
def State.overridden (s : State) (b : Nat) : Bool :=
  let r := s.rod (rodOfBead b)
  r.throt || r.clamp.isSome

/-- The setting step of a bead (R393): the base step of its rod, and one further down where it is trimmed. -/
def State.beadStep (s : State) (b : Nat) : Nat :=
  let n := (s.rod (rodOfBead b)).step
  if (s.bead b).trim then min 4 (n + 1) else n

/-- The settings of a step (R393): lane ratio (0 half, 1 equal, 2 double) and pass code (0, 1, 2 for 1, 2, 4 passes). -/
def stepSetting (n : Nat) : Nat × Nat :=
  match n with
  | 0 => (2, 0)
  | 1 => (1, 0)
  | 2 => (1, 1)
  | 3 => (0, 1)
  | _ => (0, 2)

/-- The settings of a bead as `BCLK` shows them (R393): of a port whose run has not ended yet, those that its next run takes
(DESIGN CHOICE, log 36). -/
def State.beadSetting (s : State) (b : Nat) : Nat × Nat := if s.overridden b then (0, 2) else stepSetting (s.beadStep b)

/-- `PASSES` (R321), as the issue port of the group's run is set (R393). -/
def State.passes (s : State) (g : Group) : Nat := 2 ^ (if s.overridden g.bead then 2 else (stepSetting g.run.step).2)

/-- `CAPACITY` (R405). -/
def State.capacity (s : State) : Nat :=
  let cnt (m n : Nat) : Nat := sumOf ((List.range n).map (fun i => nbits m i 1))
  cnt s.boot.chans 96 + 256 * cnt s.boot.cxl 4 + 4096 * cnt s.boot.eth 8 + (if s.boot.cons then 2 ^ 20 else 0)

/-- `ROD_IMB`, `RODPWR`, `RODTEMP` (R386). -/
def Rod.imb (r : Rod) : Dword :=
  BitVec.ofNat 64 (s16 r.n1 + 2 ^ 16 * s16 r.n2 + 2 ^ 32 * s16 r.n3
    + (if r.fill.any Option.isSome then 2 ^ 48 else 0) + (if r.throt then 2 ^ 49 else 0)
    + (if r.clamp.isSome then 2 ^ 50 else 0))
def Rod.pwr (r : Rod) : Dword :=
  BitVec.ofNat 64 (r.budget % 2 ^ 16 + 2 ^ 16 * (r.power % 2 ^ 16) + 2 ^ 32 * r.ceil + 2 ^ 48 * r.step)
def Rod.tempReg (r : Rod) : Dword := BitVec.ofNat 64 (s16 r.temp + 2 ^ 16 * r.tempBead)

/-- What an 8-byte read of the window returns (R381): reserved offsets and write-only registers 0. -/
def State.readRegister (s : State) (off : Nat) : Dword :=
  if off < 0x800 then
    if off = offModule 0x800 then BitVec.ofNat 64 s.boot.rev.toNat
    else if off = offModule 0x801 then s.tgen.setWidth 64
    else if off = offModule 0x803 then BitVec.ofNat 64 (s.modpwr % 2 ^ 16 + 2 ^ 16 * (s.outside % 2 ^ 16))
    else if off = offModule 0x804 then BitVec.ofNat 64 s.capacity
    else if off = offModule 0x805 then s.errcnt.setWidth 64
    else if off = offModule 0x808 then
      BitVec.ofNat 64 ((if s.shoot.isSome then 1 else 0) + (if s.shootErr then 2 else 0)
        + 2 ^ 32 * s.doneGen.toNat)
    else if off = offModule 0x802 ∨ off = offModule 0x806 ∨ off = offModule 0x807 then s.win off
    else 0
  else if 0x10000 ≤ off ∧ off < 0x18000 then
    let p := (off - 0x10000) / 0x800
    if off = offPart p 0x90d then BitVec.ofNat 64 (s.part p).tail
    else if off = offPart p 0x90e then 0
    else if (off - 0x10000) % 0x800 ≤ 8 * 0x12 then s.win off else 0
  else if 0x20000 ≤ off ∧ off < 0x60000 then
    let b := (off - 0x20000) / 0x800
    let bd := s.bead b
    if off = offBead b 0xa00 then BitVec.ofNat 64 (match bd.occ with | none => 0 | some a => a + 256)
    else if off = offBead b 0xa01 then (if bd.out then 1 else 0)
    else if off = offBead b 0xa02 then
      BitVec.ofNat 64 ((s.beadSetting b).1 + 4 * (s.beadSetting b).2
        + (if s.overridden b then 16 else 0) + (if bd.trim then 32 else 0))
    else 0
  else if 0x60000 ≤ off ∧ off < 0x70000 then
    let r := (off - 0x60000) / 0x800
    let rd := s.rod r
    if off = offRod r 0xb00 then rd.imb
    else if off = offRod r 0xb01 then rd.pwr
    else if off = offRod r 0xb02 then BitVec.ofNat 64 (rd.fillcyc % 2 ^ 32 + 2 ^ 32 * (rd.throtcyc % 2 ^ 32))
    else if off = offRod r 0xb03 then BitVec.ofNat 64 rd.wear
    else if off = offRod r 0xb04 then rd.tempReg
    else 0
  else if 0x80000 ≤ off ∧ off < 0x84000 then
    if off % 64 = 8 then
      -- DEFICIT is kept by the scheduler and read in whole µs, truncated toward zero (R340, R343)
      let q := (off - 0x80000) / 64
      BitVec.ofNat 64 (nbits (s.win off).toNat 32 32 * 2 ^ 32
        + (BitVec.ofInt 32 ((s.queue q).deficit.tdiv 256)).toNat)
    else s.win off
  else if 0xc0000 ≤ off ∧ off < 0xc0800 then s.win off
  else 0

/-- Bits of a register that a write may set; reserved bits and read-only fields read as zero (R2, R379). -/
def writableBits (off : Nat) : Nat :=
  let b (hi lo : Nat) : Nat := 2 ^ (hi + 1) - 2 ^ lo
  if off = offModule 0x802 then b 15 0
  else if off = offModule 0x806 then b 14 1 + b 63 32
  else if off = offModule 0x807 then b 51 16
  else if 0x10000 ≤ off ∧ off < 0x18000 then
    match (off - 0x10000) % 0x800 / 8 with
    | 0 => b 2 0
    | 1 => b 31 0
    | 2 => b 55 12
    | 3 => b 2 0
    | 4 => b 20 0
    | 5 => b 28 0
    | 6 => b 7 0
    | 7 => b 23 0
    | 8 => b 7 0
    | 9 => b 15 0
    | 10 => b 55 6
    | 11 => b 16 0
    | 12 => b 31 0
    | 15 => b 55 8
    | 16 => b 47 0
    | 17 => b 63 0
    | 18 => b 63 0
    | _ => 0
  else if 0x80000 ≤ off ∧ off < 0x84000 then
    match off % 64 / 8 with
    | 0 => b 8 0 + b 23 12 + b 63 32
    | 1 => b 39 32
    | 2 => b 63 0
    | 3 => b 31 0
    | _ => 0
  else if 0xc0000 ≤ off ∧ off < 0xc0800 then b 0 0 + b 7 4 + b 55 8
  else 0

/-- Store what a write leaves in a plain register; PWRCAP is clamped into its range (R391). -/
def State.writePlain (s : State) (off : Nat) (v : Dword) : State :=
  let v' := v &&& BitVec.ofNat 64 (writableBits off)
  if writableBits off = 0 then s
  else if off = offModule 0x802 then s.setWin off (BitVec.ofNat 64 (min 2300 (max 800 v'.toNat)))
  else s.setWin off v'

/-- The time is at or after `t`. -/
def State.reached (s : State) (t : Nat) : Bool := decide (t ≤ s.timer.toNat)

/-! ## Runs (R54 to R57, R61) -/

/-- SPLIT of a slice (R55): 0 subscribed, 1 alone, 2 parked, 3 done. -/
def Div.splitOf (d : Div) (k : Nat) : Nat := nbits d.split.toNat (2 * k) 2
def Div.setSplit (d : Div) (k v : Nat) : Div :=
  { d with split := BitVec.ofNat 64 (d.split.toNat - 2 ^ (2 * k) * d.splitOf k + 2 ^ (2 * k) * (v % 4)) }

/-- A slice's program counter: the lowest of its live lanes; none when it is done (R54). -/
def Div.slicePc (d : Div) (k : Nat) : Option Nat :=
  minOf (((List.range 4).filter (fun i => inMask d.live (4 * k + i))).map
    (fun i => (SMap.look 0 d.pcs (4 * k + i)).toNat))

/-- Slices of a record of `hw` lanes. -/
def slicesOf (hw : Nat) : List Nat := List.range (hw / 4)

/-- The lowest program counter of slices that are not done (R54). -/
def Div.lowest (d : Div) (hw : Nat) : Option Nat := minOf ((slicesOf hw).filterMap d.slicePc)

/-- The state update of R57: `exec` are the slices that executed, `last` the address of their last word. A subscribed
slice that did not execute the run and is no longer at B, an alone slice having branched below it, was neither alone nor
parked; the model parks it (DESIGN CHOICE, log 44). -/
def Div.afterRun (d : Div) (hw : Nat) (exec : List Nat) (last : Nat) : Div :=
  let b := (d.lowest hw).getD d.bcast.toNat
  let d' := (slicesOf hw).foldl (fun d k =>
    match d.slicePc k with
    | none => d.setSplit k 3
    | some pc =>
      if pc = b then d.setSplit k 0
      else if exec.contains k then d.setSplit k (if pc ≤ last then 1 else 2)
      else if d.splitOf k = 0 then d.setSplit k 2 else d) d
  { d' with bcast := BitVec.ofNat 64 b }

/-- The next alone slice from `k` (R56). -/
def Div.aloneFrom (d : Div) (hw k : Nat) : Option Nat :=
  (slicesOf hw).find? (fun j => decide (k ≤ j) && d.splitOf j == 1)

/-- Put lanes at addresses. -/
def setPcs (pcs : SMap Dword) : List (Nat × Nat) → SMap Dword
  | [] => pcs
  | (l, a) :: rest => setPcs (SMap.set 0 pcs l (BitVec.ofNat 64 a)) rest

/-- The run ends, its active lanes at the addresses given (R56, R57). -/
def Group.endRun (g : Group) (next : List (Nat × Nat)) (now : Nat) : Group :=
  let d0 := { g.div with pcs := setPcs g.div.pcs next }
  let d1 := d0.afterRun g.hw g.run.slices g.run.pc.toNat
  let from_ := if g.run.bcast then 0 else (g.run.slices.headD 0) + 1
  { g with
    div := { d1 with next := d1.aloneFrom g.hw from_ }
    run := { g.run with on := false }
    retired := g.retired + 1
    readySince := now
    wait := .ready }

/-- BCAST and the done slices, which follow from the lanes (R54, R55). -/
def Div.settle (d : Div) (hw : Nat) : Div :=
  let d1 := (slicesOf hw).foldl (fun d k => if (d.slicePc k).isNone then d.setSplit k 3 else d) d
  { d1 with bcast := BitVec.ofNat 64 ((d.lowest hw).getD d.bcast.toNat) }

/-- The run stops before its end, before the word at `pc` or after it (a trap, a stop at a wait): its lanes stand there,
and the words from there to its boundary are the rest of it, which goes first when the group resumes (R60, R62). SPLIT
and NEXT stay, since the run is not over: they are derived when its rest ends, so that the runs after it are those of a
run that was not cut (R57, R60). -/
def Group.cutRun (g : Group) (after : Bool) : Group :=
  if g.run.on then
    let a := g.run.pc + (if after then 16 else 0)
    let n := g.run.count + (if after then 1 else 0)
    let lanes := lanesOf (g.run.active &&& g.div.live) g.hw
    { g with
      div := ({ g.div with pcs := setPcs g.div.pcs (lanes.map (fun l => (l, a.toNat))) } : Div).settle g.hw
      run := { g.run with on := false }
      rest := some { g.run with on := false, pc := a, count := n, last := !after && g.run.last }
      passed := false
      slotSince := none }
  else g

/-- A group stopped at a split wait goes on: the words from that word are the rest of the run and want a port (R62, R65).
A wait for slots counts from its first start (R288). -/
def Group.leavePort (g : Group) : Group := { g.cutRun false with slotSince := g.slotSince }

end Sys2Proof.Machine
end

