-- ==== Sys2Proof/Machine/Quire.lean ====
section
/-! DEFINITION. The quire (R34 to R45, R326 to R328) and what happens to an element at its end
(R17, R309). -/

namespace Sys2Proof.Machine

/-! ## Records -/

/-- 16-byte units of a record with `n` link and export words (R35). -/
def recUnits (n : Nat) : Nat := (16 + 4 * n + 15) / 16

/-- Units that a record holds on the chip: a spilled one keeps its header (R41). -/
def QRec.units (r : QRec) : Nat := if r.spilled then 1 else recUnits (r.links.length + r.words.length)

/-- Units of the spill area that a record holds. -/
def QRec.spillUnits (r : QRec) : Nat := if r.spilled then (4 * (r.links.length + r.words.length) + 15) / 16 else 0

/-- Units in use on a bead. -/
def Bead.quireUsed (b : Bead) : Nat := sumOf (b.quire.map QRec.units)
/-- The spilled records of a context whose words lie in the spill area of a bead: a record that was saved with one bead
and restored on another keeps its words where they are (R44, R327). -/
def State.spilledIn (s : State) (asid bead : Nat) : List QRec :=
  s.beads.flatMap (fun b => b.2.quire.filter (fun r => r.spilled && r.asid == asid && r.spBead == bead))
/-- Units of a bead's spill area in use (R327). -/
def State.spillUsed (s : State) (asid bead : Nat) : Nat := sumOf ((s.spilledIn asid bead).map QRec.spillUnits)

/-- The record at a header offset. -/
def Bead.rec? (b : Bead) (off : Nat) : Option QRec := b.quire.find? (fun r => r.off == off)

/-- Lowest offset of a hole of `n` units among spans; failing that, a free header offset. -/
def findHole (spans : List (Nat × Nat)) (n : Nat) : Nat :=
  let cands := 0 :: spans.map (fun x => x.1 + x.2)
  let fits (o : Nat) : Bool := spans.all (fun x => decide (o + n ≤ x.1) || decide (x.1 + x.2 ≤ o))
  match minOf (cands.filter fits) with
  | some o => o
  | none => (lowestFree (spans.map (·.1)) 0 (spans.length + 1)).getD 0

/-- The context's quire capacity on a bead, in units (R40). -/
def State.quireCap (s : State) (asid : Nat) : Nat := min 65536 ((s.ctx asid).qcap / 16)

/-- Drop one reference on a record; records that reach zero are freed in turn (R36). -/
def Bead.drop (b : Bead) : Nat → List Nat → Bead × Bool
  | 0, _ => (b, false)
  | _, [] => (b, false)
  | n + 1, off :: rest =>
    match b.rec? off with
    | none => Bead.drop b n rest
    | some r =>
      if r.refcnt ≤ 1 then
        let b' := { b with quire := b.quire.filter (fun x => x.off != off) }
        ((Bead.drop b' n (r.parent.toList ++ r.links ++ rest)).1, true)
      else
        let b' := { b with quire := b.quire.map (fun x => if x.off = off then { x with refcnt := x.refcnt - 1 } else x) }
        Bead.drop b' n rest

/-- Drop references; a freed record returns the spill timer to zero (R41). -/
def State.dropRefs (s : State) (bead : Nat) (offs : List Nat) : State :=
  let b := s.bead bead
  let fuel := offs.length + sumOf (b.quire.map (fun r => 1 + r.links.length + 1))
  let (b', freed) := b.drop fuel offs
  s.updBead bead (fun _ => if freed && b'.spillFrom.isSome then { b' with spillFrom := some s.timer.toNat } else b')

/-- Take one reference on a record. -/
def State.takeRef (s : State) (bead off : Nat) : State :=
  s.updBead bead (fun b =>
    { b with quire := b.quire.map (fun x => if x.off = off then { x with refcnt := x.refcnt + 1 } else x) })

/-- The lattice entry of a launch. -/
def Launch.lat (l : Launch) (k : Nat) : Lat := l.lattice.getD k {}

/-- An element of the rate receives a record (R34). -/
def Launch.hasRecord (l : Launch) (k : Nat) : Bool := decide (0 < (l.lat k).nexp) || (l.lat k).linken

/-- The rate is a linked rate of some entry. -/
def Launch.isLinked (l : Launch) (k : Nat) : Bool :=
  l.lattice.any (fun e => e.valid && e.linken && e.link == k)

/-- The team rate of a compute lattice: a non-root rate with fan-out LAUNCH under the root (R13). -/
def Launch.teamRate (l : Launch) : Option Nat :=
  (List.range 8).find? (fun k => (l.lat k).valid && !(l.lat k).root && (l.lat k).fanout == 0
    && (l.lat (l.lat k).parent).root)
/-- Its group rate. -/
def Launch.groupRate (l : Launch) : Option Nat :=
  l.teamRate.bind (fun t => (List.range 8).find? (fun k => (l.lat k).valid && (l.lat k).fanout == 0 && (l.lat k).parent == t
    && !(l.lat k).root))

/-- First word of a rate's CODE section (R323, R338). -/
def Launch.section? (l : Launch) (k : Nat) : Option Nat :=
  match l.sect.getD k 0xffffff with
  | 0xffffff => none
  | o => some ((l.codebase.toNat + 256 * o) % 2 ^ 64)

/-- The rates whose children an ended element makes (R17): not the lanes that run with their group, but those of a rate
packed GROUP that has no code (R323). -/
def Launch.childRates (l : Launch) (k : Nat) : List Nat :=
  (List.range 8).filter (fun j => (l.lat j).valid && !(l.lat j).root && (l.lat j).parent == k
    && ((l.lat j).fanout != 6 || ((l.section? k).isNone && l.groupRate != some k)))

/-- Handles of the live elements of a launch (R17). -/
def State.liveHandles (s : State) (lid : Nat) : List Word :=
  ((s.allGroups ++ s.saved.flatMap (·.groups)).filter (fun g => g.launch == lid)).flatMap (fun g =>
    g.elems.map (·.2.handle) ++ g.lgs.map (·.elem.handle))
  ++ ((s.beads.flatMap (·.2.bins)).filter (fun b => b.launch == lid)).flatMap (fun b =>
    b.threads.flatMap (fun t => (t.elem.map (·.handle)).toList))
  ++ (s.parents.filter (fun p => p.launch == lid)).map (·.elem.handle)
  ++ (s.pool.filter (fun p => p.launch == lid)).map (·.elem.handle)

/-- A handle that no live element of the launch bears (R17), nor one of those just made. -/
def State.freshHandle (s : State) (lid : Nat) (own : List Word := []) : Word :=
  let used := own ++ s.liveHandles lid
  let cand := (List.range (used.length + 1)).map (fun i => Config.handleFrom (s.nextId + i))
  match cand.find? (fun h => !used.contains h && h != 0xffffffff) with
  | some h => h
  | none => BitVec.ofNat 32 ((lowestFree (used.map BitVec.toNat) 0 (used.length + 1)).getD 0)

/-! ## Requests -/

/-- A stalled request joins those of the bead, and the spill timer counts (R40, R41). -/
def State.addReq (s : State) (bead : Nat) (r : QReq) : State :=
  s.updBead bead (fun b => { b with
    reqs := b.reqs ++ [r]
    spillFrom := match b.spillFrom with | none => some s.timer.toNat | some t => some t })

/-- Where a record of `n` units goes: the lowest run of free units that takes it whole. -/
def Bead.place (b : Bead) (n : Nat) : Nat := findHole (b.quire.map (fun x => (x.off, x.units))) n

/-- Whether a request of `n` units is granted at once (R40). The spec says only that the record fits; the model asks for
a run of `n` free units below the capacity, since a record's header, links and exports lie one after the other (R35).
That free units which lie apart do not fit it is the model's choice (DESIGN CHOICE, log 44). -/
def State.quireFits (s : State) (bead asid n : Nat) : Bool :=
  decide ((s.bead bead).place n + n ≤ s.quireCap asid)

/-- Put a record on the chip and give it its offset. -/
def State.placeRecord (s : State) (bead : Nat) (r : QRec) : Nat × State :=
  let b := s.bead bead
  let off := b.place (recUnits (r.links.length + r.words.length))
  (off, ({ s with nextId := s.nextId + 1 } : State).updBead bead (fun b =>
    { b with quire := b.quire ++ [{ r with off := off, age := s.nextId }] }))

/-- The parent entry of an element that has ended: its children are still to be made (R17). -/
def mkParent (l : Launch) (bead : Nat) (e : Elem) (record : Option Nat) (regs : SMap Word) (pid : Nat) : Parent :=
  { pid := pid, launch := l.lid, asid := l.asid, bead := bead, elem := e, record := record, regs := regs,
    todo := l.childRates e.rate, kids := [], made := [], vrecs := [] }

/-- References that an element without a record drops when it retires (R36): on its anchor, unless
`qrel` gave it up, and its links. -/
def Elem.refs (e : Elem) : List Nat :=
  (if e.released then [] else e.anchor.toList) ++ (if e.linkHome.isSome then [] else e.links)

/-- What it holds on its own bead, copies on the way to its anchor's included; and on the bead of its parent, while it has
not been dealt (R22). -/
def Elem.heldHere (e : Elem) : List Nat := e.refs ++ e.copyHeld
def Elem.heldAway (e : Elem) : List (Nat × Nat) :=
  e.copyOf.toList ++ (match e.linkHome with | some b => e.links.map (fun o => (b, o)) | none => [])

/-- A linked child of `parent` has its record: note it under the parent (R19). -/
def State.noteLinked (s : State) (parent index off : Nat) : State :=
  { s with parents := s.parents.map (fun p =>
      if p.pid = parent then { p with vrecs := SMap.put p.vrecs index off } else p) }

/-- An element has ended: one child less of its rate is running under its parent. -/
def State.noteEnded (s : State) (parent rate : Nat) : State :=
  { s with parents := s.parents.map (fun p =>
      if p.pid = parent then { p with kids := SMap.set 0 p.kids rate (SMap.get 0 p.kids rate - 1) } else p) }

/-- Finish the end of an element whose record, if it has one, exists: its children are to be made, or it
retires (R17, R36). -/
def State.elementEnded (s : State) (l : Launch) (bead : Nat) (e : Elem) (record : Option Nat)
    (regs : SMap Word) : State :=
  let s1 := if l.isLinked e.rate then
      match record with | some off => s.noteLinked e.parent e.index off | none => s
    else s
  let s2 := s1.noteEnded e.parent e.rate
  if (l.childRates e.rate).isEmpty then
    match record with
    | some off => if l.isLinked e.rate then s2 else s2.dropRefs bead [off]
    | none => s2.dropRefs bead e.refs
  else
    let (pid, s3) := s2.fresh
    { s3 with parents := s3.parents ++ [mkParent l bead e record regs pid] }

/-- The record of an element that ends (R35): its links, exports in ascending order, one fan-out
reference; its child reference passes to it unless it was given up (R36, R37). -/
def mkRecord (l : Launch) (e : Elem) (regs : SMap Word) : QRec :=
  let lt := l.lat e.rate
  { off := 0, parent := if e.released then none else e.anchor, spilled := false, spoff := 0, rate := e.rate,
    handle := e.handle, refcnt := 1, links := e.links,
    words := (List.range lt.nexp).map (fun i => SMap.look 0 regs (lt.expbase + i)), asid := l.asid, age := 0,
    orig := none }

/-- The record of a logical group's element becomes the anchor of the elements of its lanes (log 12). -/
def State.reanchor (s : State) (gid j bead off : Nat) : State :=
  match s.findGroup gid with
  | none => s
  | some g =>
    let mine := g.elems.filter (fun x => x.1 / g.lw == j && !x.2.helper && !x.2.released)
    let s1 := mine.foldl (fun t _ => t.takeRef bead off) s
    let s2 := s1.dropRefs bead (mine.flatMap (·.2.anchor.toList))
    s2.updGroup gid (fun g => { g with elems := g.elems.map (fun (x : Nat × Elem) =>
      if x.1 / g.lw = j ∧ ¬ x.2.helper ∧ ¬ x.2.released then (x.1, { x.2 with anchor := some off }) else x) })

/-- An element's record exists: its section is over (lane 128 and above: the logical group's own
element). -/
def State.afterRecord (s : State) (l : Launch) (gid bead lane : Nat) (e : Elem) (regs : SMap Word) (off : Nat) : State :=
  let s1 := if 128 ≤ lane then s.reanchor gid (lane - 128) bead off else s
  s1.elementEnded l bead e (some off) regs

/-- The end of an element's section: it requests its record and stalls when that does not fit or a
request is stalled (R34, R40); else it ends. The flag says that it stalled. -/
def State.endElement (s : State) (l : Launch) (gid bead lane : Nat) (e : Elem) (regs : SMap Word) : State × Bool :=
  if e.helper then (s, false)
  else if !l.hasRecord e.rate then (s.elementEnded l bead e none regs, false)
  else
    let r := mkRecord l e regs
    let n := recUnits (r.links.length + r.words.length)
    if (s.bead bead).reqs.isEmpty && s.quireFits bead l.asid n then
      let (off, s1) := s.placeRecord bead r
      (s1.afterRecord l gid bead lane e regs off, false)
    else
      (s.addReq bead { gid := gid, lane := lane, record := r, copy := false }, true)

/-! ## Reading ancestors (R26, R27, R39) -/

/-- The record of rate `k` on the anchor chain of a record. -/
def Bead.onChain (b : Bead) (k : Nat) : Nat → Option Nat → Option QRec
  | 0, _ => none
  | _, none => none
  | n + 1, some off =>
    match b.rec? off with
    | none => none
    | some r => if r.rate = k then some r else Bead.onChain b k n r.parent

/-- The first record with links on the chain. -/
def Bead.linkedOnChain (b : Bead) : Nat → Option Nat → Option QRec
  | 0, _ => none
  | _, none => none
  | n + 1, some off =>
    match b.rec? off with
    | none => none
    | some r => if r.links.length = 3 then some r else Bead.linkedOnChain b n r.parent

/-- The record of an element's ancestor of rate `k`, none when its chain lacks it (R37). -/
def Elem.ancestor (b : Bead) (e : Elem) (k : Nat) : Option QRec :=
  if e.released then none else b.onChain k (b.quire.length + 1) e.anchor

/-- The records of the element's vertices (R19): its own links, or those of the linking element above. -/
def Elem.vertexRecs (b : Bead) (e : Elem) : Option (List QRec) :=
  let links := if e.links.length = 3 then some e.links
    else if e.released then none else (b.linkedOnChain (b.quire.length + 1) e.anchor).map (·.links)
  match links with
  | none => none
  | some ls =>
    let rs := ls.filterMap b.rec?
    if rs.length = 3 then some rs else none

/-- Virtual address of export word `i` of a spilled record (R41, R44, R327, R366): in the spill area of the bead that
spilled it. -/
def State.spillAddr (s : State) (r : QRec) (i : Nat) : Nat :=
  let c := s.ctx r.asid
  c.spillbase + s.beadIndex c.part r.spBead * c.spillsize + 16 * r.spoff + 4 * (r.links.length + i)

/-! ## Kills -/

/-- Remove stalled requests of a bead (R328). -/
def State.withdrawReqs (s : State) (bead : Nat) (gone : QReq → Bool) : State :=
  s.updBead bead (fun b =>
    let reqs := b.reqs.filter (fun r => !gone r)
    { b with reqs := reqs, spillFrom := if reqs.isEmpty then none else b.spillFrom })
/-- Those of a group, and of an element without code. -/
def State.withdraw (s : State) (bead gid : Nat) : State := s.withdrawReqs bead (fun r => r.gid == gid)
def State.withdrawElem (s : State) (bead born : Nat) : State := s.withdrawReqs bead (fun r => r.gid == 0 && r.lane == born)

/-- References of the live elements of a group (R36, R45), on its bead and on others; a helper lane holds none (R21). -/
def Group.liveElems (g : Group) : List Elem :=
  (g.elems.filter (fun x => !x.2.helper)).map (·.2) ++ g.lgs.map (·.elem)
def Group.elemRefs (g : Group) : List Nat := g.liveElems.flatMap Elem.heldHere
def Group.awayRefs (g : Group) : List (Nat × Nat) := g.liveElems.flatMap Elem.heldAway

/-- A slot of the bead is freed: the exhaustion timer returns to zero (R288). -/
def State.slotsFreed (s : State) (bead : Nat) : State :=
  s.updBead bead (fun b => { b with exhFrom := b.exhFrom.map (fun _ => s.timer.toNat) })

/-- The group holds accumulator slots. -/
def Group.holdsSlots (g : Group) : Bool := g.lgs.any (fun x => !x.handles.isEmpty)

/-- A group leaves its core: an overlay that no other group there asked for is no longer pinned (R304). -/
def State.unpin (s : State) (g : Group) : State :=
  if g.pins.isEmpty then s
  else
    let kept (n : Nat) : Bool := s.allGroups.any (fun x =>
      x.gid != g.gid && x.core == g.core && x.asid == g.asid && x.pins.contains n)
    s.updCore g.core (fun c => { c with l0 := c.l0.filter (fun w => match w.ovl with
      | none => true
      | some o => w.asid != g.asid || !g.pins.contains o.1 || kept o.1) })

/-- Detach a killed group or operation from every record (R372, R373). -/
def Part.detach (p : Part) (a : Attach) : Part :=
  { p with pend := p.pend.map (fun f => { f with who := f.who.filter (fun x => x != a) }) }

/-- Kill a group: its element references, requests, operations and buffered stores go with it. -/
def State.killGroup (s : State) (gid : Nat) : State :=
  match s.findGroup gid with
  | none => s
  | some g =>
    let s0 := g.awayRefs.foldl (fun t x => t.dropRefs x.1 [x.2]) (s.withdraw g.bead gid)
    let s1 := s0.dropRefs g.bead g.elemRefs
    let s2 := s1.updCore g.core (fun c => { c with rel := c.rel.filter (fun e => e.gid != gid) })
    let s3 := { s2 with
      engOps := s2.engOps.filter (fun o => o.gid != some gid)
      parts := s2.parts.map (fun (x : Nat × Part) => (x.1, x.2.detach (.group gid))) }
    ((if g.holdsSlots then s3.slotsFreed g.bead else s3).unpin g).dropGroup gid

/-- References that the entry of an ended element holds (R36): its record's fan-out, or without a record
its own, and the fan-out of its linked children's records. -/
def Parent.refs (p : Parent) : List Nat :=
  (match p.record with | some off => [off] | none => p.elem.refs) ++ p.vrecs.map (·.2)

/-- Remove ended elements and waiting elements, with their references. -/
def State.dropElements (s : State) (gone : Elem → Bool) : State :=
  let ps := s.parents.filter (fun p => gone p.elem)
  let ws := s.pool.filter (fun w => gone w.elem)
  let s1 := { s with parents := s.parents.filter (fun p => !gone p.elem), pool := s.pool.filter (fun w => !gone w.elem) }
  let s2 := ps.foldl (fun t p => t.dropRefs p.bead p.refs) s1
  ws.foldl (fun t w => if w.elem.helper then t
    else
      let u := w.elem.heldAway.foldl (fun u x => u.dropRefs x.1 [x.2]) t
      match w.bead with
      | some b => u.dropRefs b w.elem.heldHere
      | none => u) s2

/-- Room in the sort area of a context frees: a `regrpk` that waits for it is tried again (R246). -/
def State.roomFrees (s : State) (asid : Nat) : State :=
  let wake (g : Group) : Group :=
    if g.wait = .sortRoom ∧ g.asid = asid then { g.leavePort with wait := .ready, readySince := s.timer.toNat } else g
  { s with grp := wake s.grp, groups := s.groups.map wake }

/-- Kill every group of a team, with its stored threads and the elements below it, and remove the team. -/
def State.killTeam (s : State) (tid : Nat) : State :=
  let gids := (s.allGroups.filter (fun g => g.team == tid && g.gid != 0)).map (·.gid)
  let s1 := gids.foldl State.killGroup s
  let b := (s.findTeam tid).elim 0 (·.bead)
  let stored := (s1.bead b).bins.flatMap (fun x => x.threads.filter (fun t => t.team == tid))
  let refs := stored.flatMap (fun t => t.elem.elim [] Elem.heldHere)
  let s2 := (s1.updBead b (fun x => { x with
    bins := (x.bins.map (fun y => { y with threads := y.threads.filter (fun t => t.team != tid) })).filter (fun y =>
      !y.threads.isEmpty) })).dropRefs b refs
  let s3 := s2.dropElements (fun e => tid != 0 && e.team == tid)
  let s4 := if stored.isEmpty then s3 else s3.roomFrees ((s.findTeam tid).elim 0 (·.asid))
  { s4 with teams := s4.teams.filter (fun t => t.tid != tid) }

end Sys2Proof.Machine
end

