-- ==== Sys2Proof/Machine/Segments.lean ====
section
/-! DEFINITION. Segments and conditions (R83 to R105): likelihood, confirmation, pruning, squash. -/

namespace Sys2Proof.Machine

/-- A condition table entry of a die (R85). -/
def State.cond (s : State) (die e : Nat) : Cond := SMap.get {} s.conds (1024 * die + e)
def State.setCond (s : State) (die e : Nat) (c : Cond) : State :=
  { s with conds := SMap.set {} s.conds (1024 * die + e) c }

/-- The next generation, modulo 2^21, never 0 (R85). -/
def nextGen (g : Nat) : Nat := if (g + 1) % 2 ^ 21 = 0 then 1 else (g + 1) % 2 ^ 21

/-- The handle of an entry (R85). -/
def condHandle (e : Nat) (c : Cond) : Word := BitVec.ofNat 32 (e + 1024 * c.gen)
def handleEntry (h : Word) : Nat := nbits h.toNat 0 10
def handleGen (h : Word) : Nat := nbits h.toNat 10 21
/-- The handle names a live condition of the die (R85). -/
def State.handleLive (s : State) (die : Nat) (h : Word) : Bool :=
  let c := s.cond die (handleEntry h)
  handleGen h != 0 && c.live && c.gen == handleGen h

/-- The segment's state is before its commit. -/
def SegSt.speculative : SegSt → Bool
  | .committed _ => false
  | .again => false
  | .ended => false
  | _ => true

/-- Its team is to be placed: it is pending, or committed and flushed (R79, R90). -/
def SegSt.toPlace : SegSt → Bool
  | .pending => true
  | .again => true
  | _ => false

/-- The team that runs the segment. -/
def SegSt.team? : SegSt → Option Nat
  | .running t => some t
  | .committed t => some t
  | .finished t _ => some t
  | .service t => some t
  | _ => none

/-- Its team is on a bead. -/
def SegSt.placed : SegSt → Bool
  | .running _ => true
  | .committed _ => true
  | .service _ => true
  | _ => false

/-- A group's segment is speculative (R95). -/
def State.speculative (s : State) (g : Group) : Bool :=
  match s.findSeg g.asid g.segid with
  | some x => g.segid != 0 && x.st.speculative
  | none => false

/-- Its own side has won. -/
def State.won (s : State) (x : Seg) : Bool := (s.cond x.die x.cond).resolved == some x.side

/-- The chain of uncommitted segments from a segment up (R89, R91). -/
def State.chain (s : State) (asid : Nat) : Nat → Nat → List Seg
  | 0, _ => []
  | n + 1, segid =>
    match s.findSeg asid segid with
    | some x => if x.st.speculative then x :: s.chain asid n x.parent else []
    | none => []

/-- Confirmed: its side and every side above it have won (R91). -/
def State.confirmed (s : State) (x : Seg) : Bool := (s.chain x.asid 16 x.segid).all s.won

/-- Likelihood code along a chain, from the segment up (R89). -/
def State.likelihood (s : State) : List Seg → Nat
  | [] => 65535
  | x :: above =>
    let p := if s.won x then 256 else x.prob + 1
    (s.likelihood above + 1) * p / 256 - 1

/-- LCODE of a segment (R89). -/
def State.lcode (s : State) (x : Seg) : Nat := s.likelihood (s.chain x.asid 16 x.segid)

/-- The gathering's order (R90): confirmed first, greater L, lower SEGID. -/
def State.ranksBefore (s : State) (x y : Seg) : Bool :=
  let cx := s.confirmed x
  let cy := s.confirmed y
  if cx != cy then cx
  else if s.lcode x != s.lcode y then decide (s.lcode y < s.lcode x)
  else decide (x.segid < y.segid)

/-- The segment that stands first in an order. -/
def bestSeg (before : Seg → Seg → Bool) : List Seg → Option Seg
  | [] => none
  | x :: xs => match bestSeg before xs with
    | none => some x
    | some y => if before y x then some y else some x

/-- Depth of a segment below root code (R88). -/
def State.depth (s : State) (asid segid : Nat) : Nat :=
  if segid = 0 then 0 else (s.findSeg asid segid).elim 0 (·.depth)

/-- Free every resolved condition on which no uncommitted segment stands (R85). -/
def State.freeConds (s : State) : State :=
  { s with conds := s.conds.map (fun (k : Nat × Cond) =>
      if k.2.live && k.2.resolved.isSome &&
          !s.segs.any (fun x => x.st.speculative && 1024 * x.die + x.cond == k.1) then
        (k.1, { gen := nextGen k.2.gen })
      else k) }

/-- Stop a segment's team, if it runs. -/
def State.stopSegTeam (s : State) (x : Seg) : State :=
  match x.st.team? with
  | some t => s.killTeam t
  | none => s

/-- The unresolved conditions that a segment created. -/
def State.ownConds (s : State) (x : Seg) : List (Nat × Cond) :=
  s.conds.filter (fun (k : Nat × Cond) =>
    k.2.live && k.2.resolved.isNone && k.2.asid == x.asid && k.2.creator == x.segid && k.1 / 1024 == x.die)

/-- Free the conditions a segment created, without predictor updates (R93, R94). -/
def State.freeOwnConds (s : State) (x : Seg) : State :=
  (s.ownConds x).foldl (fun t k => { t with conds := SMap.set {} t.conds k.1 { gen := nextGen k.2.gen } }) s

/-- The segments directly below one: those it spawned, and those on conditions it created (R93). -/
def State.below (s : State) (x : Seg) : List Seg :=
  let cs := (s.ownConds x).map (·.1)
  s.segs.filter (fun y => y.asid == x.asid && y.segid != x.segid && y.st.speculative
    && (y.parent == x.segid || cs.contains (1024 * y.die + y.cond)))

/-- Prune segments and everything below them (R93). -/
def State.pruneAll (s : State) : Nat → List Seg → State
  | 0, _ => s
  | _, [] => s
  | n + 1, x :: rest =>
    match s.findSeg x.asid x.segid with
    | none => State.pruneAll s n rest
    | some x =>
      let kids := s.below x
      let s1 := (s.stopSegTeam x).freeOwnConds x
      let s2 := { s1 with segs := s1.segs.filter (fun y => !(y.asid == x.asid && y.segid == x.segid)) }
      State.pruneAll s2 n (kids ++ rest)

/-- Prune these segments (R93). -/
def State.pruneOnly (s : State) (xs : List Seg) : State :=
  s.pruneAll (s.segs.length * (s.segs.length + 2) + xs.length) xs

/-- Prune these segments, then free conditions (R85, R93). -/
def State.prune (s : State) (xs : List Seg) : State := (s.pruneOnly xs).freeConds

/-- Squash a segment (R99): its team stops, its version goes, the segments below are pruned, and it
returns to the gathering, held if a trap stopped it (R102). -/
def State.squash (s : State) (asid segid : Nat) (held : Bool) : State :=
  match s.findSeg asid segid with
  | none => s
  | some x =>
    let s1 := s.prune (s.below x)
    let s2 := (s1.stopSegTeam x).freeOwnConds x
    s2.updSeg asid segid (fun y => { y with st := .pending, held := y.held || held, version := 0, bytes := [],
                                            reads := [], passed := [] })

/-- The segments that a write of sector `sec` violates (R99): `segid` 0 or committed writes memory;
a speculative writer violates later segments only. -/
def State.violated (s : State) (asid segid : Nat) (spec : Bool) (sec : Nat) : List Seg :=
  s.segs.filter (fun x => x.asid == asid && x.segid != segid && x.st.speculative && x.st != .pending
    && x.reads.contains sec && (!spec || decide (segid < x.segid)))

/-- Squash every segment that writes of these sectors violate. -/
def State.squashViolated (s : State) (asid segid : Nat) (spec : Bool) (secs : List Nat) : State :=
  (secs.flatMap (s.violated asid segid spec)).foldl (fun t x => t.squash x.asid x.segid false) s

/-- Predictor entry after a resolution (R94). -/
def predNext (p : Nat) (won : Bool) : Nat :=
  ((p : Int) + (((if won then 255 else 0) - (p : Int)) / 8)).toNat

/-- Update the predictors of the spawn sites of a condition that resolves to a side: once for each segment
that was spawned on it (R94), in the order of the spawns, which the rounding makes visible where segments of both sides
were spawned at one site (DESIGN CHOICE, log 44). -/
def State.train (s : State) (part die side : Nat) (c : Cond) : State :=
  c.spawned.foldl (fun t x =>
    let k := 256 * die + x.1
    t.updPart part (fun p =>
      { p with pred := SMap.set 0x7f p.pred k (predNext (SMap.get 0x7f p.pred k) (x.2 == side)) })) s

/-- The first number from `start` on, around `n` numbers, that is not used. -/
def freeFrom (used : List Nat) (start n : Nat) : Option Nat :=
  ((List.range n).map (fun i => (start + i) % n)).find? (fun i => !used.contains i)

end Sys2Proof.Machine
end

