-- ==== Sys2Proof/Machine/Memory.lean ====
section
/-! DEFINITION. Device memory, translation, caches, versions and the release buffer (R76, R96, R128 to
R157, R358 to R364). -/

namespace Sys2Proof.Machine

/-! ## Bytes of device memory -/

/-- One byte at the home slice; an unlisted byte reads 0 (log 2). -/
def State.byte (s : State) (pa : Nat) : Byte := SMap.get 0 s.mem pa

/-- `n` bytes from a physical address. -/
def State.bytesAt (s : State) (pa n : Nat) : List Byte := SMap.getMany 0 s.mem pa n

/-- A little-endian word of `n` bytes at a physical address. -/
def State.natAtPa (s : State) (pa n : Nat) : Nat := ofLe (s.bytesAt pa n)

/-- Write bytes of memory, keeping the canonical form. -/
def writeBytes (m : List (Nat × Byte)) : List (Nat × Byte) → List (Nat × Byte)
  | [] => m
  | (a, b) :: rest => writeBytes (SMap.set 0 m a b) rest

def sectorOf (pa : Nat) : Nat := pa / 64

/-- Distinct elements, first occurrences kept. -/
def distinct : List Nat → List Nat
  | [] => []
  | x :: xs => x :: (distinct xs).filter (· != x)

/-- Home slice, its die included, and set of a 256-byte line (R132), as one number. -/
def l2Place (line : Nat) : Nat :=
  let pa := 256 * line
  let h := nbits pa 8 7 ^^^ nbits pa 15 7 ^^^ nbits pa 22 7 ^^^ nbits pa 29 7 ^^^ nbits pa 36 7 ^^^ nbits pa 43 7 ^^^ nbits pa 50 6
  256 * h + (nbits pa 15 8 ^^^ nbits pa 23 8)

/-- The sublists of a list. -/
def sublistsOf : List Nat → List (List Nat)
  | [] => [[]]
  | x :: xs => sublistsOf xs ++ (sublistsOf xs).map (x :: ·)

/-- A version that holds the lines `old` finds no line free for one of `lines` (R100): the lines that versions hold in its
set do not all find ways of their own partitions' grants (R132). They do not where some partitions, its own among them,
hold more of them there than they have ways together. Lines of memory, the spill area's among them, give way to it
(log 11). -/
def State.noLine (s : State) (asid segid : Nat) (old lines : List Nat) : Bool :=
  let p := (s.ctx asid).part
  let way (q i : Nat) : Bool := nbits (s.pcsr q 0x907) i 1 == 1
  let linesOf (q : Nat) : List Nat :=
    (s.segs.filter (fun y => y.st.speculative && (s.ctx y.asid).part == q && !(y.asid == asid && y.segid == segid))).flatMap
      (fun y => (distinct (y.bytes.map (fun b => b.1 / 256))).map l2Place)
  let mine := linesOf p ++ lines.map l2Place
  let held (q place : Nat) : Nat := (linesOf q).countP (· == place)
  let full (place : Nat) : Bool :=
    (sublistsOf ((List.range 16).filter (fun q => q != p && held q place != 0))).any (fun qs =>
      decide ((List.range 24).countP (fun i => way p i || qs.any (fun q => way q i))
        < mine.countP (· == place) + sumOf (qs.map (fun q => held q place))))
  (lines.filter (fun l => !old.contains l)).any (fun l => full (l2Place l))

/-- The sectors that bytes lie in. -/
def sectorsOf (bs : List (Nat × Byte)) : List Nat := distinct (bs.map (fun x => sectorOf x.1))

/-- Set mask bits of the L2 lines written (R133). -/
def maskBytes (w : SMap (BitVec 256)) : List (Nat × Byte) → SMap (BitVec 256)
  | [] => w
  | (a, _) :: rest =>
    maskBytes (SMap.set 0 w (a / 256) (SMap.get 0 w (a / 256) ||| BitVec.ofNat 256 (2 ^ (a % 256)))) rest

/-- A write at the home slice is seen by monitors and parked groups (R269, R305). -/
def Group.noteWrite (secs : List Nat) (g : Group) : Group :=
  { g with
    lgs := g.lgs.map (fun lg => if lg.monSet.any secs.contains then { lg with monTrig := true } else lg)
    wait := match g.wait with
      | .park sec w => .park sec (w || secs.contains sec)
      | w => w }

/-- Perform a store at the home slices: memory, write masks, poison (R137), monitors, parked groups. -/
def State.homeStore (s : State) (bs : List (Nat × Byte)) : State :=
  let secs := sectorsOf bs
  let full (sec : Nat) : Bool := decide ((distinct (bs.map (·.1))).countP (fun a => sectorOf a == sec) = 64)
  { s with
    mem := writeBytes s.mem bs
    wmask := maskBytes s.wmask bs
    poison := s.poison.filter (fun p => !(secs.contains p && full p))
    grp := s.grp.noteWrite secs
    groups := s.groups.map (Group.noteWrite secs) }

/-- Lines `lo` to `lo + n - 1` of a run of bytes from `pa`, `len` long: their masks with the run's bits. -/
def runMasks (w : SMap (BitVec 256)) (pa len lo n : Nat) : List (BitVec 256) :=
  (SMap.getMany 0 w lo n).zipIdx.map (fun x =>
    let a := max pa (256 * (lo + x.2))
    let b := min (pa + len) (256 * (lo + x.2) + 256)
    x.1 ||| BitVec.ofNat 256 ((2 ^ (b - a) - 1) * 2 ^ (a % 256)))

/-- Perform a run of stores to consecutive bytes at the home slices: as `homeStore`, at once. -/
def State.homeRun (s : State) (pa : Nat) (bs : List Byte) : State :=
  let n := bs.length
  let lo := pa / 256
  let lines := (pa + n + 255) / 256 - lo
  let secs := (List.range ((pa + n + 63) / 64 - pa / 64)).map (fun i => pa / 64 + i)
  if n = 0 then s
  else { s with
    mem := SMap.putRun 0 s.mem pa bs
    wmask := SMap.putRun 0 s.wmask lo (runMasks s.wmask pa n lo lines)
    poison := s.poison.filter (fun p => !(decide (pa ≤ 64 * p) && decide (64 * p + 64 ≤ pa + n)))
    grp := s.grp.noteWrite secs
    groups := s.groups.map (Group.noteWrite secs) }

/-- Update the sectors that a core's L1 holds with bytes of its own store (R133). -/
def l1Store (l1 : SMap (List Byte)) : List (Nat × Byte) → SMap (List Byte)
  | [] => l1
  | (a, b) :: rest => l1Store (SMap.upd l1 (sectorOf a) (fun d => d.set (a % 64) b)) rest

/-- A store by a non-speculative writer of a context: performed, then violations squash (R99). -/
def State.contextStore (s : State) (asid segid : Nat) (bs : List (Nat × Byte)) : State :=
  (s.homeStore bs).squashViolated asid segid false (sectorsOf bs)

/-- A store into a segment's version (R96); later segments that read its sectors are squashed (R99). -/
def State.versionStore (s : State) (asid segid : Nat) (bs : List (Nat × Byte)) : State :=
  let put (m : List (Nat × Byte)) : List (Nat × Byte) := bs.foldl (fun m b => SMap.put m b.1 b.2) m
  (s.updSeg asid segid (fun x => { x with bytes := put x.bytes })).squashViolated asid segid true (sectorsOf bs)

/-- The byte that a read of the LSU, COPY or MATX path by a segment returns: its version, the nearest
speculative ancestor's, or memory (R96). -/
def versionByte (chain : List Seg) (pa : Nat) : Option Byte :=
  match chain with
  | [] => none
  | x :: rest => match SMap.find x.bytes pa with
    | some b => some b
    | none => versionByte rest pa

/-- Device physical addresses that memory backs (R134, R403, R404). -/
def State.backed (s : State) (pa : Nat) : Bool :=
  let chans := sumOf ((List.range 96).map (fun i => nbits s.boot.chans i 1))
  if pa < 0xc000000000 then decide (pa < 2 ^ 33 * chans)
  else if 0x10000000000 ≤ pa ∧ pa < 0x110000000000 then
    let p := (pa - 0x10000000000) / 2 ^ 42
    decide ((pa - 0x10000000000) % 2 ^ 42 < s.boot.cxlBytes.getD p 0) && nbits s.boot.cxl p 1 == 1
  else false

/-! ## Translation (R358 to R363) -/

/-- The kind of an access, in the ACC codes of R369. -/
inductive Acc where
  | read
  | write
  | atomic
  | fetch
  | table
  deriving DecidableEq, Repr

def Acc.code : Acc → Nat
  | .read => 0
  | .write => 1
  | .atomic => 2
  | .fetch => 3
  | .table => 4

/-- A translation fault: KIND, STAGE (1 or 2), LEVEL, the access, its addresses (R360, R369). -/
structure TFault where
  kind : Nat
  stage : Nat
  level : Nat
  acc : Nat
  va : Nat
  ia : Nat
  deriving DecidableEq, Repr

/-- A leaf found by a walk. -/
structure Leaf where
  addr : Nat
  base : Nat
  size : Nat
  level : Nat
  rd : Bool
  wr : Bool
  ex : Bool
  plc : Nat
  deriving DecidableEq, Repr

/-- Bytes that a leaf of a level maps (R358). -/
def leafSize (lvl : Nat) : Nat := [0, 2 ^ 34, 2 ^ 25, 2 ^ 16].getD lvl 0

/-- One level of a walk on an entry `e` (R359, R360): a fault KIND, a leaf, or the next table. -/
inductive WalkStep where
  | fault (kind : Nat)
  | leaf (l : Leaf)
  | next (table : Nat)
  deriving DecidableEq, Repr

def walkEntry (st lvl e a : Nat) : WalkStep :=
  let adr := nbits e 12 44 * 4096
  let sz := leafSize lvl
  if nbits e 0 1 = 0 then .fault 0
  else if nbits e 7 5 ≠ 0 ∨ nbits e 56 8 ≠ 0 ∨ (nbits e 1 1 = 0 ∧ nbits e 2 5 ≠ 0) then .fault 2
  else if nbits e 1 1 = 1 ∧ 2 ≤ nbits e 5 2 then .fault 2
  else if nbits e 1 1 = 1 then
    if lvl = 0 ∨ adr % sz ≠ 0 then .fault 2
    else if st = 1 ∧ nbits e 52 4 ≠ 0 then .fault 2
    else .leaf { addr := adr + a % sz, base := adr, size := sz, level := lvl, rd := nbits e 2 1 == 1,
                 wr := nbits e 3 1 == 1, ex := nbits e 4 1 == 1, plc := nbits e 5 2 }
  else if lvl = 3 then .fault 2
  else if st = 1 ∧ nbits adr 52 4 ≠ 0 then .fault 2
  else .next adr

/-- Address of the entry at a level (R360). -/
def entryAddr (table a lvl : Nat) : Nat := table + 8 * nbits a (43 - 9 * lvl) 9

/-- Who walks, and the walk cache it may use (R362). -/
structure Walker where
  asid : Nat
  part : Nat
  held : List WalkEnt
  deriving DecidableEq, Repr

/-- The walk cache holds the entry a walk is about to read (R362). -/
def Walker.find (w : Walker) (st at_ : Nat) : Option Nat :=
  (w.held.find? (fun e => e.asid == w.asid && e.part == w.part && e.st == st && e.at_ == at_)).map (·.val)

/-- The walk-cache entry for a table entry of value `v` read at `at_` on the way to `a`. -/
def State.walkNote (s : State) (w : Walker) (st lvl at_ a v : Nat) : WalkEnt :=
  let sz := 2 ^ (43 - 9 * lvl)
  { asid := w.asid, part := w.part, gen := s.tgen.toNat, st := st, at_ := at_, base := a / sz * sz, size := sz, val := v }

/-- Stage-2 walk from a table (R360): KIND and LEVEL on a fault, and the entries it used. -/
def State.walk2 (s : State) (w : Walker) (a : Nat) : Nat → Nat → Nat → Except (Nat × Nat) Leaf × List WalkEnt
  | 0, lvl, _ => (.error (2, lvl), [])
  | n + 1, lvl, table =>
    let ea := entryAddr table a lvl
    let v := (w.find 2 ea).getD (s.natAtPa ea 8)
    match walkEntry 2 lvl v a with
    | .fault k => (.error (k, lvl), [])
    | .leaf l => (.ok l, [s.walkNote w 2 lvl ea a v])
    | .next t =>
      let r := State.walk2 s w a n (lvl + 1) t
      (r.1, s.walkNote w 2 lvl ea a v :: r.2)

/-- Stage-2 translation of an intermediate address for a partition. -/
def State.stage2 (s : State) (w : Walker) (ia : Nat) : Except (Nat × Nat) Leaf × List WalkEnt :=
  s.walk2 w ia 4 0 (nbits (s.pcsr w.part 0x902) 12 44 * 4096)

/-- The read of one stage-1 entry: it goes through stage 2 and needs RD there. An entry that the walk cache holds is not
read. -/
def State.readEntry (s : State) (w : Walker) (va ea : Nat) : Except TFault Nat × List WalkEnt :=
  match w.find 1 ea with
  | some v => (.ok v, [])
  | none =>
    match s.stage2 w ea with
    | (.error (k, l2), n) => (.error ⟨k, 2, l2, Acc.table.code, va, ea⟩, n)
    | (.ok l2, n) =>
      if !l2.rd then (.error ⟨1, 2, l2.level, Acc.table.code, va, ea⟩, n)
      else if !s.backed l2.addr then (.error ⟨4, 2, l2.level, Acc.table.code, va, ea⟩, n)
      else (.ok (s.natAtPa l2.addr 8), n)

/-- Stage-1 walk (R360), and the entries it used. -/
def State.walk1 (s : State) (w : Walker) (va : Nat) (acc : Acc) :
    Nat → Nat → Nat → Except TFault Leaf × List WalkEnt
  | 0, lvl, _ => (.error ⟨2, 1, lvl, acc.code, va, 0⟩, [])
  | n + 1, lvl, table =>
    let ea := entryAddr table va lvl
    match s.readEntry w va ea with
    | (.error f, n2) => (.error f, n2)
    | (.ok v, n2) =>
      match walkEntry 1 lvl v va with
      | .fault k => (.error ⟨k, 1, lvl, acc.code, va, 0⟩, n2)
      | .leaf l => (.ok l, n2 ++ [s.walkNote w 1 lvl ea va v])
      | .next t =>
        let r := State.walk1 s w va acc n (lvl + 1) t
        (r.1, n2 ++ s.walkNote w 1 lvl ea va v :: r.2)

/-- Permissions that an access needs (R360). -/
def permits (acc : Acc) (rd wr ex : Bool) : Bool :=
  match acc with
  | .read => rd
  | .write => wr
  | .atomic => rd && wr
  | .fetch => ex
  | .table => rd

/-- The cache entry that a translation fills, and the table entries that it used. -/
structure Walked where
  pa : Nat
  tlb : Tlb
  used : List WalkEnt
  deriving DecidableEq, Repr

/-- A full two-stage translation with the walk cache given (R360, R361, R362). -/
def State.walkWith (s : State) (w : Walker) (va : Nat) (acc : Acc) : Except TFault Walked :=
  if 2 ^ 52 ≤ va then .error ⟨3, 1, 0, acc.code, va, 0⟩
  else match s.walk1 w va acc 4 0 (s.ctx w.asid).s1root with
    | (.error f, _) => .error f
    | (.ok l1, n1) => match s.stage2 w l1.addr with
      | (.error (k, lv), _) => .error ⟨k, 2, lv, acc.code, va, l1.addr⟩
      | (.ok l2, n2) =>
        if !permits acc l1.rd l1.wr l1.ex then .error ⟨1, 1, l1.level, acc.code, va, 0⟩
        else if !permits acc l2.rd l2.wr l2.ex then .error ⟨1, 2, l2.level, acc.code, va, l1.addr⟩
        else if !s.backed l2.addr then .error ⟨4, 2, l2.level, acc.code, va, l1.addr⟩
        else
          let sz := min l1.size l2.size
          .ok { pa := l2.addr
                tlb := { asid := w.asid, part := w.part, gen := s.tgen.toNat, vbase := va / sz * sz,
                         ibase := l1.addr / sz * sz, pbase := l2.addr / sz * sz, size := sz,
                         rd := l1.rd && l2.rd, wr := l1.wr && l2.wr, ex := l1.ex && l2.ex,
                         plc := if l2.plc ≠ 0 then l2.plc else l1.plc }
                used := n1 ++ n2 }

/-- A walk by the walker of a die. Where the walk cache's entries deny the access, it walks once more, from the tables
alone (R362, R364). -/
def State.walk (s : State) (die asid part va : Nat) (acc : Acc) : Except TFault Walked :=
  match s.walkWith ⟨asid, part, SMap.get [] s.walkers die⟩ va acc with
  | .ok x => .ok x
  | .error f => if f.kind = 1 then s.walkWith ⟨asid, part, []⟩ va acc else .error f

/-- A cache entry that covers an address. -/
def Tlb.covers (e : Tlb) (asid part va : Nat) : Bool :=
  e.asid == asid && e.part == part && decide (e.vbase ≤ va) && decide (va < e.vbase + e.size)

/-- Look an access up in the caches (R362): denied or missing gives none. -/
def tlbFind (es : List Tlb) (asid part va : Nat) (acc : Acc) : Option Nat :=
  match es.find? (fun e => e.covers asid part va) with
  | some e => if permits acc e.rd e.wr e.ex then some (e.pbase + (va - e.vbase)) else none
  | none => none

/-- Keep at most `n` entries, oldest dropped. -/
def keepNew (n : Nat) (es : List Tlb) (e : Tlb) : List Tlb :=
  let es' := es.filter (fun x => !(x.asid == e.asid && x.part == e.part && x.vbase == e.vbase && x.size == e.size))
  (es' ++ [e]).drop (es'.length + 1 - n)

/-- The walk cache with one more table entry: at most 512, oldest dropped (R362). -/
def keepWalk (es : List WalkEnt) (e : WalkEnt) : List WalkEnt :=
  let es' := es.filter (fun x => !(x.asid == e.asid && x.part == e.part && x.st == e.st && x.at_ == e.at_))
  (es' ++ [e]).drop (es'.length + 1 - 512)

/-- What a walk leaves in the caches of a die, a bead and a core (R362). -/
def State.fillCaches (s : State) (core : Option Nat) (bead : Nat) (x : Walked) : State :=
  let die := dieOfBead bead
  let s1 := { s with walkers := SMap.put s.walkers die (x.used.foldl keepWalk (SMap.get [] s.walkers die)) }
  let s2 := s1.updBead bead (fun b => { b with tlb2 := keepNew 1024 b.tlb2 x.tlb })
  match core with
  | none => s2
  | some c => s2.updCore c (fun y => { y with tlb := keepNew 64 y.tlb x.tlb })

/-- What a cache serves: an address that memory backs (R134); else the access walks. -/
def State.cached (s : State) (es : List Tlb) (asid part va : Nat) (acc : Acc) : Option Nat :=
  (tlbFind es asid part va acc).filter s.backed

/-- Translate an access of a core (or, without a core, of an engine or agent of a bead). A walk fills the
caches; a fault is held in none (R362). -/
def State.translate (s : State) (core : Option Nat) (bead asid va : Nat) (acc : Acc) :
    Except TFault Nat × State :=
  let part := (s.ctx asid).part
  let c := core.elim {} s.core
  match s.cached c.tlb asid part va acc with
  | some pa => (.ok pa, s)
  | none =>
    match s.cached (s.bead bead).tlb2 asid part va acc with
    | some pa => (.ok pa, s)
    | none =>
      match s.walk (dieOfBead bead) asid part va acc with
      | .error f => (.error f, s)
      | .ok x => (.ok x.pa, s.fillCaches core bead x)

/-- The translation that serves an address of a core now. -/
def State.pageOf (s : State) (core bead asid va : Nat) : Option Tlb :=
  ((s.core core).tlb ++ (s.bead bead).tlb2).find? (fun e => e.covers asid (s.ctx asid).part va)

/-- Translate `n` bytes from a virtual address, page by page (R250): physical addresses of the bytes, or
the lowest faulting address. -/
def State.translateRange (s : State) (core : Option Nat) (bead asid : Nat) (acc : Acc) :
    Nat → Nat → Except TFault (List Nat) × State
  | _, 0 => (.ok [], s)
  | va, n + 1 =>
    match s.translate core bead asid (va % 2 ^ 64) acc with
    | (.error f, s1) => (.error f, s1)
    | (.ok pa, s1) =>
      match State.translateRange s1 core bead asid acc (va + 1) n with
      | (.error f, s2) => (.error f, s2)
      | (.ok pas, s2) => (.ok (pa :: pas), s2)

/-! ## Accesses of groups -/

/-- How an access of one lane ends. -/
inductive Got (α : Type) where
  | ok (v : α)
  /-- A translation fault (R75). -/
  | fault (f : TFault)
  /-- Poison at a virtual sector address (R137). -/
  | poison (va : Nat)
  deriving DecidableEq, Repr

/-- Read sets grow by the sectors that do not come from the segment's own version (R99). -/
def State.noteReads (s : State) (asid segid : Nat) (pas : List Nat) : State :=
  s.updSeg asid segid (fun x =>
    { x with reads := distinct (x.reads ++ ((pas.filter (fun a => (SMap.find x.bytes a).isNone)).map sectorOf)) })

/-- Reads of the SAMP path return memory and never a version: all their sectors enter the read set (R96, R99, R140). -/
def State.noteSamp (s : State) (asid segid : Nat) (pas : List Nat) : State :=
  s.updSeg asid segid (fun x => { x with reads := distinct (x.reads ++ pas.map sectorOf) })

/-- The bytes of a group's own buffered stores (R76). -/
def Core.buffered (c : Core) (gid : Nat) (window : Bool) (team a : Nat) : Option Byte :=
  match c.rel.find? (fun e => e.gid == gid && e.window == window && (!window || e.team == team)
      && e.sector == sectorOf a) with
  | some e => (e.bytes.find? (fun x => x.1 == a % 64)).map (·.2)
  | none => none

/-- Sectors that a core's L1 holds: what the division in force leaves of the SRAM (R7, R129). -/
def State.l1Sectors (s : State) (core : Nat) : Nat := 512 * (8 - (s.core core).spq)

/-- Put a sector into a cache of `cap` sectors; of a full one which sector goes is open (log 6). -/
def putSector (cap k : Nat) (m : SMap (List Byte)) (sec : Nat) (d : List Byte) : SMap (List Byte) :=
  SMap.put (if (SMap.find m sec).isSome || decide (m.length < cap) then m else m.eraseIdx (k % m.length)) sec d

/-- Fill a sector of a core's L1 from its home (R133); a poisoned one fills nothing (R137). -/
def State.fillL1 (s : State) (core sec : Nat) : State :=
  s.updCore core (fun c =>
    if (SMap.find c.l1 sec).isSome || s.poison.contains sec then c
    else { c with l1 := putSector (s.l1Sectors core) (Config.allocFrom s.tick) c.l1 sec (s.bytesAt (64 * sec) 64) })

/-- A read at the home slice refreshes the sector in its core's L1, so that no later read of the core
returns an older value (R141); a poisoned one fills nothing (R137). -/
def State.freshenL1 (s : State) (core sec : Nat) : State :=
  if s.poison.contains sec then s
  else s.updCore core (fun c => { c with l1 := SMap.upd c.l1 sec (fun _ => s.bytesAt (64 * sec) 64) })

/-- A load of physical bytes by a group on the LSU path: its own buffered stores; while speculative its
versions and the home slice (R96, R140); else the L1, which a load fills unless it bypasses it. -/
def State.lsuBytes (s : State) (g : Group) (bypass : Bool) (pas : List Nat) : List Byte × State :=
  let spec := s.speculative g
  let chain := s.chain g.asid 16 g.segid
  let s1 := if spec then s.noteReads g.asid g.segid pas
            else if bypass then (distinct (pas.map sectorOf)).foldl (fun t sec => t.freshenL1 g.core sec) s
            else (distinct (pas.map sectorOf)).foldl (fun t sec => t.fillL1 g.core sec) s
  let c := s1.core g.core
  let one (pa : Nat) : Byte :=
    match c.buffered g.gid false g.team pa with
    | some b => b
    | none =>
      if spec then (versionByte chain pa).getD (s1.byte pa)
      else if bypass then s1.byte pa
      else match SMap.find c.l1 (sectorOf pa) with
        | some d => d.getD (pa % 64) 0
        | none => s1.byte pa
  (pas.map one, s1)

/-- The first of some physical bytes that lies in a poisoned sector and that `own` does not supply (R137). -/
def State.poisonedBut (s : State) (own : Nat → Bool) (pas : List Nat) : Option Nat :=
  (pas.zipIdx.find? (fun x => s.poison.contains (sectorOf x.1) && !own x.1)).map (·.2)
def State.poisoned (s : State) (pas : List Nat) : Option Nat := s.poisonedBut (fun _ => false) pas

/-- A byte that a load of a group takes from elsewhere than its home slice: from its own buffered stores, its versions,
or a sector that its L1 holds. -/
def State.supplied (s : State) (g : Group) (bypass : Bool) (pa : Nat) : Bool :=
  ((s.core g.core).buffered g.gid false g.team pa).isSome
  || (if s.speculative g then (versionByte (s.chain g.asid 16 g.segid) pa).isSome
      else !bypass && (SMap.find (s.core g.core).l1 (sectorOf pa)).isSome)

/-- One lane's load of `n` bytes (R250): translation, poison, value. -/
def State.loadLane (s : State) (g : Group) (bypass : Bool) (va n : Nat) : Got (List Byte) × State :=
  match s.translateRange (some g.core) g.bead g.asid .read va n with
  | (.error f, s1) => (.fault f, s1)
  | (.ok pas, s1) =>
    match s1.poisonedBut (s1.supplied g bypass) pas with
    | some i => (.poison ((va + i) % 2 ^ 64 / 64 * 64), s1)
    | none =>
      let (bs, s2) := s1.lsuBytes g bypass pas
      (.ok bs, s2)

/-- A read of an engine or device agent of the COPY, MATX or NET path, served by L2 (R96, R138); poison is named
by its first byte (R279). -/
def State.engineRead (s : State) (bead asid segid va n : Nat) : Got (List Byte) × State :=
  match s.translateRange none bead asid .read va n with
  | (.error f, s1) => (.fault f, s1)
  | (.ok pas, s1) =>
    let chain := s1.chain asid 16 segid
    match s1.poisonedBut (fun pa => (versionByte chain pa).isSome) pas with
    | some i => (.poison ((va + i) % 2 ^ 64), s1)
    | none =>
      let s2 := if chain.isEmpty then s1 else s1.noteReads asid segid pas
      (.ok (pas.map (fun pa => (versionByte chain pa).getD (s1.byte pa))), s2)

/-- A write of an engine or device agent (R96, R138). -/
def State.engineWrite (s : State) (bead asid segid va : Nat) (bs : List Byte) : Got Unit × State :=
  match s.translateRange none bead asid .write va bs.length with
  | (.error f, s1) => (.fault f, s1)
  | (.ok pas, s1) =>
    let cells := pas.zip bs
    if (s1.chain asid 16 segid).isEmpty then (.ok (), s1.contextStore asid segid cells)
    else (.ok (), s1.versionStore asid segid cells)

/-! ## The release buffer (R76 to R78) -/

/-- Put bytes into a core's release buffer, merging into the group's entries. -/
def relStore (rel : List RelEnt) (gid : Nat) (window : Bool) (team : Nat) : List (Nat × Byte) → List RelEnt
  | [] => rel
  | (a, b) :: rest =>
    let sec := sectorOf a
    let hit (e : RelEnt) : Bool := e.gid == gid && e.window == window && (!window || e.team == team) && e.sector == sec
    let rel' := if rel.any hit then
        rel.map (fun e => if hit e then { e with bytes := (a % 64, b) :: e.bytes.filter (fun x => x.1 != a % 64) } else e)
      else rel ++ [{ gid := gid, window := window, team := team, sector := sec, bytes := [(a % 64, b)] }]
    relStore rel' gid window team rest

/-- Perform a group's buffered stores and leave the buffer (R154). -/
def State.flushRelease (s : State) (g : Group) : State :=
  let mine := (s.core g.core).rel.filter (fun e => e.gid == g.gid)
  let s0 := s.updCore g.core (fun c => { c with rel := c.rel.filter (fun e => e.gid != g.gid) })
  mine.foldl (fun t e =>
    let cells := e.bytes.map (fun x => (64 * e.sector + x.1, x.2))
    if e.window then
      t.updTeam e.team (fun tm => tm.writeWindow cells)
    else if t.speculative g then t.versionStore g.asid g.segid cells
    else (t.updCore g.core (fun c => { c with l1 := l1Store c.l1 cells })).contextStore g.asid g.segid cells) s0

/-- A group's stores of physical bytes: buffered in a region, into its version while speculative, else
performed, its core's L1 copies updated (R76, R96, R133). -/
def State.groupStore (s : State) (g : Group) (cells : List (Nat × Byte)) : State :=
  if g.div.inreg then s.updCore g.core (fun c => { c with rel := relStore c.rel g.gid false g.team cells })
  else if s.speculative g then s.versionStore g.asid g.segid cells
  else (s.updCore g.core (fun c => { c with l1 := l1Store c.l1 cells })).contextStore g.asid g.segid cells

/-- Acquire at bead scope or wider: the core's L1 is invalidated (R149). -/
def State.dropL1 (s : State) (core : Nat) : State := s.updCore core (fun c => { c with l1 := [] })
/-- Invalidate a core's sampler cache (R139, R150). -/
def State.dropSamp (s : State) (core : Nat) : State := s.updCore core (fun c => { c with samp := [] })
/-- Every core of a bead drops both: the acquire of a group that starts or goes on there (R86, R147, R157). -/
def State.acquireBead (s : State) (b : Nat) : State :=
  (List.range 4).foldl (fun t i => (t.dropL1 (4 * b + i)).dropSamp (4 * b + i)) s

/-- A SAMP read of physical bytes by a group (R139, R140, R410). One of a speculative group bypasses the sampler cache;
sectors that the cache holds of it leave, so that no later read of the core returns an earlier value. -/
def State.sampBytes (s : State) (g : Group) (pas : List Nat) : List Byte × State :=
  if s.speculative g then
    (pas.map s.byte, (s.noteSamp g.asid g.segid pas).updCore g.core (fun c => { c with
      samp := c.samp.filter (fun x => !(pas.map sectorOf).contains x.1) }))
  else
    let s1 := (distinct (pas.map sectorOf)).foldl (fun t sec =>
      t.updCore g.core (fun c => if (SMap.find c.samp sec).isSome then c
        else { c with samp := SMap.put c.samp sec (t.bytesAt (64 * sec) 64) })) s
    let c := s1.core g.core
    (pas.map (fun pa => match SMap.find c.samp (sectorOf pa) with
      | some d => d.getD (pa % 64) 0
      | none => s1.byte pa), s1)

/-- One lane's SAMP read of `n` bytes (R242, R262, R337). -/
def State.sampLane (s : State) (g : Group) (va n : Nat) : Got (List Byte) × State :=
  match s.translateRange (some g.core) g.bead g.asid .read va n with
  | (.error f, s1) => (.fault { f with va := va }, s1)
  | (.ok pas, s1) =>
    let held (pa : Nat) : Bool := !s1.speculative g && (SMap.find (s1.core g.core).samp (sectorOf pa)).isSome
    match s1.poisoned (pas.filter (fun pa => !held pa)) with
    | some _ => (.poison (va / 64 * 64), s1)
    | none =>
      let (bs, s2) := s1.sampBytes g pas
      (.ok bs, s2)

end Sys2Proof.Machine
end

