-- ==== Sys2Proof/Machine/Ops.lean ====
section
/-! DEFINITION. Named operations over groups: registers and predicates, runs and their end (R54 to R62),
idempotent regions (R76, R77), taking a trap and returning from it (R313 to R319, R102), the fault records
that leave the group (R368, R372), and the end of threads and groups (R309). -/

namespace Sys2Proof.Machine

/-! ## Lanes, registers, predicates -/

/-- Logical group of a lane (R72). -/
def Group.lgOf (g : Group) (l : Nat) : Nat := l / g.lw
/-- The state of logical group `j`. -/
def Group.lg (g : Group) (j : Nat) : LGroup := g.lgs.getD j {}
def Group.updLg (g : Group) (j : Nat) (f : LGroup → LGroup) : Group :=
  { g with lgs := (List.range (max g.lgs.length (j + 1))).map (fun i => if i = j then f (g.lg i) else g.lg i) }
/-- Lanes of logical group `j`. -/
def Group.lgMask (g : Group) (j : Nat) : Mask := laneRange (j * g.lw) g.lw
/-- Number of logical groups. -/
def Group.nLg (g : Group) : Nat := g.hw / g.lw

/-- A rate's registers are held once per group (R48). -/
def Launch.isGroupRate (l : Launch) (k : Nat) : Bool := (l.lat k).pack == 1
/-- The rate of a register (R23). -/
def Launch.regRate (l : Launch) (r : Nat) : Nat := SMap.get l.regDflt l.regRates r

/-- A lane's own register, or the group-rate register of its logical group. -/
def Group.reg (g : Group) (groupRate : Bool) (l r : Nat) : Word :=
  if groupRate then SMap.look 0 (g.lg (g.lgOf l)).gregs r else SMap.look 0 g.regs (128 * r + l)

/-- Where `Group.bad` lists a register. -/
def Group.badKey (g : Group) (groupRate : Bool) (l r : Nat) : Nat :=
  if groupRate then 2 ^ 20 + 2048 * g.lgOf l + r else 128 * r + l

/-- The address of the poison that a register holds (R384). -/
def Group.regBad (g : Group) (groupRate : Bool) (l r : Nat) : Option Dword := SMap.find g.bad (g.badKey groupRate l r)

/-- Write it; a write clears its poison (R137). -/
def Group.setReg (g : Group) (groupRate : Bool) (l r : Nat) (v : Word) : Group :=
  let g1 := { g with bad := SMap.del g.bad (g.badKey groupRate l r) }
  if groupRate then g1.updLg (g.lgOf l) (fun lg => { lg with gregs := SMap.set 0 lg.gregs r v })
  else { g1 with regs := SMap.set 0 g.regs (128 * r + l) v }

/-- Predicate `p` of a lane; `p0` reads 1 (R49). -/
def Group.predOf (g : Group) (p l : Nat) : Bool := p == 0 || inMask (SMap.look 0 g.preds p) l

/-- Write predicate `p` of the lanes of a mask; no word writes `p0` (R49). -/
def Group.setPred (g : Group) (p : Nat) (lanes : Mask) (v : Bool) : Group :=
  if p = 0 then g
  else
    let old := SMap.look 0 g.preds p
    { g with preds := SMap.set 0 g.preds p (if v then old ||| lanes else old &&& ~~~ lanes) }

/-- Program counter of a lane: an active lane of the run in progress stands at its word. -/
def Group.pcOf (g : Group) (l : Nat) : Nat :=
  if g.run.on && inMask g.run.active l then g.run.pc.toNat else (SMap.look 0 g.div.pcs l).toNat

/-! ## The next run (R56, R62) -/

/-- The rest of a cut run can go on: its live lanes stand where it was cut. -/
def Group.restStands (g : Group) (r : Run) : Bool :=
  let lanes := lanesOf (r.active &&& g.div.live) g.hw
  !lanes.isEmpty && lanes.all (fun l => SMap.look 0 g.div.pcs l == r.pc)

/-- The next run of the divergence record begins (R56): the alone slice that NEXT names, else the subscribed slices. -/
def Group.nextRun (g : Group) : Group :=
  let mk (ks : List Nat) (pc : Nat) (b : Bool) : Group :=
    let act := maskOf ((lanesOf g.div.live g.hw).filter (fun l =>
      ks.contains (l / 4) && (SMap.look 0 g.div.pcs l).toNat == pc))
    { g with
      run := { on := true, active := act, slices := ks, bcast := b, pc := BitVec.ofNat 64 pc, rate := g.run.rate,
               count := 0 }
      rest := none
      fresh := false }
  match g.div.next with
  | some k => mk [k] ((g.div.slicePc k).getD 0) false
  | none => mk ((slicesOf g.hw).filter (fun k => g.div.splitOf k == 0)) g.div.bcast.toNat true

/-- What runs next begins: the rest of a run that was cut (R62), else the next run. Where the lanes of the rest no longer
stand at the cut, the run ended there. -/
def Group.beginRun (g : Group) : Group :=
  match g.rest with
  | some r => if g.restStands r then
      { g with run := { r with on := true, active := r.active &&& g.div.live }, rest := none, fresh := false }
    else
      let d := g.div.afterRun g.hw r.slices (r.pc.toNat - 16)
      ({ g with div := { d with next := d.aloneFrom g.hw 0 } } : Group).nextRun
  | none => g.nextRun

/-- The word is done and has no transfer of control (R61). -/
def Group.wordDone (g : Group) (h : Hdr) (now : Nat) : Group :=
  let g1 := { g with words := g.words + 1, div := { g.div with pend := 0 } }
  if h.b = 1 then
    g1.endRun ((lanesOf (g.run.active &&& g.div.live) g.hw).map (fun l => (l, g.run.pc.toNat + 16))) now
  else { g1 with run := { g1.run with pc := g1.run.pc + 16, count := g1.run.count + 1 }, wait := .ready }

/-- The word of the focus is done. -/
def State.done (s : State) (h : Hdr) : State := s.setGrp (s.grp.wordDone h s.timer.toNat)

/-- A word that ends its run is done, and the lanes given take the addresses given, the run's other
lanes the following word. -/
def State.doneAt (s : State) (moved : List (Nat × Nat)) : State :=
  let g := s.grp
  let lanes := lanesOf (g.run.active &&& g.div.live) g.hw
  let next := lanes.map (fun l => match moved.find? (fun x => x.1 == l) with
    | some x => x
    | none => (l, g.run.pc.toNat + 16))
  s.setGrp ({ g with words := g.words + 1, div := { g.div with pend := 0 } }.endRun next s.timer.toNat)

/-- The word waits: the group is not ready until the wait ends, and the word then executes (R62). -/
def State.waitAt (s : State) (w : Wait) : State := s.setGrp { s.grp with wait := w }

/-! ## Limits of a speculative segment (R100) -/

/-- Sectors that a segment has written or holds in the release buffer for its version (R100). -/
def State.writeSet (s : State) (g : Group) : List Nat :=
  match s.findSeg g.asid g.segid with
  | some x => distinct (x.bytes.map (fun b => sectorOf b.1)
      ++ ((s.core g.core).rel.filter (fun e => e.gid == g.gid && !e.window)).map (·.sector))
  | none => []

/-- Limits of the read and write sets (R100): a word that takes its segment past one, or finds no line for the version,
waits, with no lane performed; `t` is the state after the word. -/
def State.limited (s t : State) : State :=
  if s.speculative s.grp then
    match t.findSeg s.grp.asid s.grp.segid with
    | some x =>
      if 8192 < x.reads.length ∨ 4096 < (t.writeSet s.grp).length
          ∨ t.noLine x.asid x.segid (distinct ((s.writeSet s.grp).map (· / 4))) (distinct ((t.writeSet s.grp).map (· / 4))) = true
      then s.waitAt (.split .commit) else t
    | none => t
  else t

/-! ## Idempotent regions (R76, R77) -/

/-- The region ends: its buffered stores are performed (R154). -/
def State.endRegion (s : State) : State :=
  if s.grp.div.inreg then
    let s1 := s.flushRelease s.grp
    s1.setGrp { s1.grp with div := { s1.grp.div with inreg := false, rstart := 0, rmask := 0 } }
  else s

/-- The region is killed: its stores are discarded and the group stands at RSTART (R77). -/
def Group.toRegionStart (g : Group) : Group :=
  let lanes := lanesOf g.div.rmask g.hw
  let d0 := { g.div with pcs := setPcs g.div.pcs (lanes.map (fun l => (l, g.div.rstart.toNat))),
                         live := g.div.rmask, pend := 0, next := none, inreg := false, rstart := 0, rmask := 0,
                         bcast := g.div.rstart }
  { g with div := d0.afterRun g.hw [] 0, run := { g.run with on := false }, rest := none }

def State.killRegion (s : State) (gid : Nat) : State :=
  match s.findGroup gid with
  | none => s
  | some g =>
    if g.div.inreg then
      (s.updCore g.core (fun c => { c with rel := c.rel.filter (fun e => e.gid != gid) })).updGroup gid
        Group.toRegionStart
    else s

/-! ## Fault records (R368, R369, R372) -/

/-- The coalescing key agrees (R372). -/
def FRec.sameKey (a b : FRec) : Bool :=
  (a.cause == 0x11 || a.cause == 0x17) && a.cause == b.cause && a.asid == b.asid && a.stage == b.stage
    && a.kind == b.kind
    && (if a.stage = 0 then a.va.toNat / 65536 == b.va.toNat / 65536 else a.ia.toNat / 65536 == b.ia.toNat / 65536)

/-- A fault leaves the group: it attaches to an unanswered record of its key or makes its own. -/
def addFault (pend : List FPend) (r : FRec) (who : Attach) : List FPend :=
  match pend with
  | [] => [{ rec_ := r, who := [who], seq := none }]
  | p :: rest =>
    if p.rec_.sameKey r then
      (if p.seq.isNone then
        { p with rec_ := { p.rec_ with coal := true, waiters := p.rec_.waiters + 1 }, who := p.who ++ [who] }
       else { p with who := p.who ++ [who] }) :: rest
    else p :: addFault rest r who

/-- Records of a partition that the steward cores hold until they are written (R368). -/
def Part.held (p : Part) : Nat := p.pend.countP (fun x => x.seq.isNone)

/-- The steward cores hold at most 4,096 records of a partition (R368): one more that attaches to none is not held, and
what made it stays stopped (DESIGN CHOICE, log 44). -/
def State.recordFault (s : State) (r : FRec) (who : Attach) : State :=
  s.updPart r.part (fun p =>
    if 4096 ≤ p.held ∧ ¬ p.pend.any (fun x => x.rec_.sameKey r) then p else { p with pend := addFault p.pend r who })

/-! ## Taking a trap (R313 to R316, R102) -/

/-- A trap that a word or a moment raises: cause, DETAIL, `TRAPINFO`, and what the fault record of a
system cause holds of the access. -/
structure Trap where
  cause : Nat
  detail : Nat := 0
  info : Dword := 0
  /-- `TRAPINFO` is a lane mask: each member of a pair holds its own lanes' (R73, R194). -/
  lanes : Option Mask := none
  /-- The resume point is before the word (R37, R59), not the word. -/
  before : Bool := false
  /-- Where it stands when that is not where the group runs next: an `exit` word, at a quire overflow (R42). -/
  pc : Option Nat := none
  rec_ : FRec := {}
  deriving DecidableEq, Repr

/-- Kind of the cause (R314). -/
def Trap.system (t : Trap) : Bool := decide (0x10 ≤ t.cause)
/-- Its resume point is "the word" (R314). -/
def Trap.atWord (t : Trap) : Bool := [0x03, 0x04, 0x05, 0x07].contains t.cause && !t.before

/-- The part of a lane mask that belongs to member `m` of a pair (R73). -/
def memberMask (x : Mask) (m : Nat) : Nat := nbits x.toNat (64 * m) 64

/-- A lane mask as the 64 bits of a fault record: of a pair, the first member that holds lanes (DESIGN CHOICE, log 44). -/
def mask64 (m : Mask) : Dword := if m.setWidth 64 = (0 : Dword) then (m >>> 64).setWidth 64 else m.setWidth 64

/-- `TRAPINFO` of member `m` (R73, R194). -/
def Trap.infoOf (t : Trap) (m : Nat) : Dword := match t.lanes with
  | some x => BitVec.ofNat 64 (memberMask x m)
  | none => t.info

/-- A trap of which `TRAPINFO` holds a lane mask. -/
def maskTrap (cause : Nat) (m : Mask) : Trap := { cause := cause, info := mask64 m, lanes := some m }

/-- `TRAPCAUSE` (R313). -/
def trapCause (cause detail : Nat) (sys esc held intrap : Bool) : Word :=
  BitVec.ofNat 32 (cause + (if sys then 256 else 0) + (if esc then 512 else 0) + (if held then 1024 else 0)
    + 4096 * detail + (if intrap then 2 ^ 31 else 0))

/-- INTRAP (R313) and EN of `USER_TVEC` (R315). -/
def Group.inTrap (g : Group) : Bool := g.trapcause.getLsbD 31
def Group.tvecEn (g : Group) : Bool := g.utvec.getLsbD 0

/-- The handler's address for a rate (R315). -/
def Group.handler (g : Group) (rate : Nat) : Nat := nbits g.utvec.toNat 8 44 * 256 + 256 * rate

/-- Every lane of a group at one address, converged (R316). -/
def Div.converge (d : Div) (hw a : Nat) : Div :=
  let lanes := lanesOf d.live hw
  let d0 := { d with pcs := setPcs d.pcs (lanes.map (fun l => (l, a))), next := none, bcast := BitVec.ofNat 64 a }
  d0.afterRun hw [] 0

/-- Monitors are cleared by the delivery of a trap and by pre-emption (R271). -/
def Group.clearMonitors (g : Group) : Group :=
  { g with lgs := g.lgs.map (fun lg => { lg with monSet := [], monTrig := false }) }

/-- Delivery to the user handler (R316): the group stands at its resume points. -/
def Group.deliver (g : Group) (t : Trap) (held : Bool) (word : Nat) : Group :=
  let g1 := g.clearMonitors
  { g1 with
    tsave := g.div
    trest := g.rest
    rest := none
    trapcause := trapCause t.cause t.detail false false held true
    trapinfo := t.infoOf 0
    trapinfoHi := t.infoOf 1
    tcmp := if t.cause = 0x06 then 0 else g.tcmp
    div := ({ g.div with pend := 0 }).converge g.hw (g.handler g.run.rate)
    run := { g.run with on := false }
    trapPc := if t.atWord then some (BitVec.ofNat 64 word) else none
    passed := false
    slotSince := none
    wait := .ready }

/-- A system cause stops the group at its resume point (R313, R316). It is no delivery: monitors stay (R271). -/
def Group.stopFor (g : Group) (t : Trap) (esc held : Bool) : Group :=
  { g with
    trapcause := trapCause t.cause t.detail true esc held g.inTrap
    trapinfo := t.infoOf 0
    trapinfoHi := t.infoOf 1
    tcmp := if t.cause = 0x06 then 0 else g.tcmp
    slotSince := none
    wait := .stopped }

/-- The members of a pair that take a trap: at a division event each that has event lanes (R194); else the first one
with pending lanes, or with lanes in `TRAPINFO` (DESIGN CHOICE, log 44). -/
def Trap.members (t : Trap) (pend : Mask) : List Nat :=
  let of (m : Mask) : List Nat := [0, 1].filter (fun i => memberMask m i != 0)
  let events := of (t.lanes.getD 0)
  if t.cause = 0x02 then (if events = [] then [0] else events)
  else ((of pend ++ events).head?.getD 0) :: []

/-- The fault record of a group's trap (R369), for one member of a pair. -/
def State.trapRecord (s : State) (g : Group) (t : Trap) (esc : Bool) (pc m : Nat) : FRec :=
  { t.rec_ with
    cause := t.cause
    asid := g.asid
    part := (s.ctx g.asid).part
    bead := g.bead
    core := g.core % 4
    slot := g.slot + m
    esc := esc
    pc := BitVec.ofNat 64 pc
    pend := BitVec.ofNat 64 (memberMask g.div.pend m)
    segid := g.segid
    info := t.infoOf m }

/-- The team of the group does not let it issue: it is being saved (R349, R350) or restored (R355). -/
def State.teamHolds (s : State) (g : Group) : Bool :=
  (match s.findTeam g.team with
    | some t => t.restoring || t.stop == some .save
    | none => false)
  || (g.team == 0 && (s.bead g.bead).stop.isSome)

/-- The run of the group ends at its word, before it or, with `after`, past it (R62, R314). -/
def Group.stopRun (g : Group) (after : Bool) (now : Nat) : Group :=
  if after && g.run.on && g.run.last then
    g.endRun ((lanesOf (g.run.active &&& g.div.live) g.hw).map (fun l => (l, g.run.pc.toNat + 16))) now
  else g.cutRun after

/-- A record leaves the group; of a group that is being stopped it waits until the group is resumed (R350). -/
def State.sendRecord (s : State) (g : Group) (r : FRec) : State :=
  if s.teamHolds g then s.updGroup g.gid (fun x => { x with owed := x.owed ++ [r] }) else s.recordFault r (.group g.gid)

/-- Take a trap in the group whose word is next. `word` is the trapping word; with `after` the resume
point is the following word, where the active lanes then stand (R314). A group in an idempotent region
resumes at RSTART (R77). In a speculative segment the trap is held; when it recurs it is delivered
(R102). -/
def State.trap (s : State) (t : Trap) (after : Bool) : State :=
  let word := s.grp.run.pc.toNat
  let g := s.grp.stopRun after s.timer.toNat
  let gid := g.gid
  let seg := s.findSeg g.asid g.segid
  let spec := s.speculative s.grp
  let held := match seg with | some x => x.held && spec | none => false
  if spec && !held then s.squash g.asid g.segid true
  else
    let s1 := if held then
        match seg with
        | some x => (match x.st.team? with
          | some tm => s.updSeg g.asid g.segid (fun y => { y with st := .service tm })
          | none => s)
        | none => s
      else s
    let wasIn := g.div.inreg
    let rpc := if wasIn then g.div.rstart.toNat
      else if let some a := t.pc then a
      else if s.grp.run.on then (if after then word + 16 else word)
      else g.beginRun.run.pc.toNat
    let s2 := (s1.setGrp g).killRegion gid
    let g2 := s2.grp
    if !t.system && g2.tvecEn && !g2.inTrap then s2.setGrp (g2.deliver t held word)
    else
      let esc := !t.system
      (t.members g2.div.pend).foldl (fun u m => u.sendRecord g2 (s2.trapRecord g2 t esc rpc m)) (s2.setGrp (g2.stopFor t esc held))

/-- Illegal state with a lane mask, at the word (R314). -/
def State.illegalMask (s : State) (m : Mask) : State := s.trap (maskTrap 0x07 m) false
/-- Illegal state with another detail. -/
def State.illegalState (s : State) (detail : Nat) (info : Dword) : State :=
  s.trap { cause := 0x07, detail := detail, info := info } false
/-- Illegal instruction (R187). -/
def State.illegalInstr (s : State) (r : Reject) : State :=
  s.trap { cause := 0x10, info := BitVec.ofNat 64 (r.reason + 256 * r.lo + 65536 * r.hi) } false
/-- Access violation of a lane of a logical group (R253). -/
def State.accessViolation (s : State) (kind lane a : Nat) : State :=
  s.trap { cause := 0x03, info := BitVec.ofNat 64 (kind + 16 * (lane % 128) + 2 ^ 12 * (a % 2 ^ 52)) } false

/-- The record part of a translation fault (R369). -/
def TFault.rec_ (f : TFault) (path : Nat) : FRec :=
  { kind := f.kind, stage := f.stage - 1, level := f.level, acc := f.acc, path := path,
    va := BitVec.ofNat 64 f.va, ia := BitVec.ofNat 64 f.ia }

/-- What stopped one lane of a word (R75). -/
inductive LaneStop where
  | fault (f : TFault)
  | poison (va : Nat)
  deriving DecidableEq, Repr

/-- The poison fault of lanes that stopped: the lowest sector address (R137, R314). -/
def State.poisonTrap (s : State) (stops : List (Nat × LaneStop)) (path acc : Nat) : State :=
  match minOf (stops.filterMap (fun x => match x.2 with | .poison a => some a | .fault _ => none)) with
  | some a => s.trap { cause := 0x14, info := BitVec.ofNat 64 a,
                       rec_ := { path := path, acc := acc, va := BitVec.ofNat 64 a } } false
  | none => s

/-- The faults of a word whose other lanes completed: the stopped lanes enter PEND, and the group takes
the lowest cause with the lowest address (R75, R314). `acc` is the kind of access that met poison (R369). -/
def State.stopLanes (s : State) (stops : List (Nat × LaneStop)) (path acc : Nat) : State :=
  let s1 := s.setGrp { s.grp with div := { s.grp.div with pend := maskOf (stops.map (·.1)) } }
  let faults := stops.filterMap (fun x => match x.2 with | .fault f => some f | .poison _ => none)
  match minOf (faults.map (·.va)) with
  | some a =>
    match faults.find? (fun f => f.va == a) with
    | some f => s1.trap { cause := 0x11, info := BitVec.ofNat 64 a, rec_ := f.rec_ path } false
    | none => s1
  | none => s1.poisonTrap stops path acc

/-- `USER_TVEC` without its reserved bits (R2, R315). -/
def utvecOf (v : Nat) : Dword := BitVec.ofNat 64 (nbits v 0 1 + 256 * nbits v 8 44)

/-- The rest of a cut run moves past its first word. -/
def Run.skipWord (r : Run) : Option Run :=
  if r.last then none else some { r with pc := r.pc + 16, count := r.count + 1 }

/-- Return from a user handler (R319): the state saved at delivery comes back, less the lanes that
ended in the handler; with `skip` the lanes at the trapping word move past it. A region that the handler opened
stays open: R76 does not end it here. -/
def Group.returnFrom (g : Group) (skip : Bool) : Group :=
  let d := g.tsave
  let live := g.div.live &&& d.live
  let back (l : Nat) : Nat := (SMap.look 0 d.pcs l).toNat
  let moved : List (Nat × Nat) := match g.trapPc, skip with
    | some w, true => ((lanesOf live g.hw).filter (fun l => back l == w.toNat)).map (fun l => (l, back l + 16))
    | _, _ => []
  let d0 := { d with live := live, pcs := setPcs d.pcs moved,
                     pend := if skip && g.trapPc.isSome then 0 else d.pend,
                     inreg := g.div.inreg, rstart := g.div.rstart, rmask := g.div.rmask }
  let rest := match g.trest, g.trapPc, skip with
    | some r, some w, true => if r.pc = w then r.skipWord else some r
    | r, _, _ => r
  let last := (g.trest.elim 0 (·.pc.toNat))
  -- a run whose rest is still to come is not over: its slices are settled at its end (R57, R62)
  let d1 := if rest.isSome then d0.settle g.hw else d0.afterRun g.hw (g.trest.elim [] (·.slices)) last
  { g with
    div := { d1 with next := if rest.isNone ∧ g.trest.isSome then d1.aloneFrom g.hw (g.trest.elim 0 (fun r => if r.bcast then 0 else r.slices.headD 0 + 1))
                             else match d.next with | some k => (if d1.splitOf k = 1 then some k else none) | none => none }
    rest := rest
    trest := none
    trapcause := g.trapcause &&& 0x7fffffff
    run := { g.run with on := false }
    retired := g.retired + 1
    words := g.words + 1
    trapPc := none }

/-! ## The end of threads, groups and teams (R309, R95, R342) -/

/-- An ended element has children still to be made on its bead (R17); the teams of a compute root are dealt to
any bead (R347). -/
def State.staysFor (s : State) (p : Parent) : Bool :=
  !p.todo.isEmpty && !(p.elem.team == 0 && (match s.findLaunch p.launch with
    | some l => l.teamRate.isSome
    | none => true))

/-- Nothing of its occupant remains on a bead (R342): no group, engine operation, record, slot, stored thread or element,
and no queue of the context has an unplaced team or a pending segment. Ended elements whose children are still to be made,
and elements that wait for lanes, count as what remains (DESIGN CHOICE, log 44). -/
def State.vacant (s : State) (b : Nat) (bd : Bead) : Bool := match bd.occ with
  | none => false
  | some a =>
    !(s.allGroups.any (fun g => g.gid != 0 && g.bead == b)
      || s.engOps.any (fun o => o.bead == b && o.asid == a && (match o.gid with
          | some gid => (s.findGroup gid).isSome
          | none => true))
      || !bd.quire.isEmpty || !bd.bins.isEmpty || bd.stop.isSome
      || s.teams.any (fun t => t.bead == b)
      || s.launches.any (fun l => l.asid == a && l.begun.isNone || l.asid == a && !l.migrated && decide (l.nextTeam < l.teams)
        || l.asid == a && !l.again.isEmpty)
      || s.segs.any (fun x => x.asid == a && x.st.toPlace)
      || s.parents.any (fun p => p.asid == a && p.bead == b && s.staysFor p)
      || s.pool.any (fun p => p.asid == a && (p.bead == none || p.bead == some b)))

/-- The group waits for accumulator slots at its word, or is about to try it again (R288). -/
def Group.seeksSlots (g : Group) : Bool :=
  g.slotSince.isSome && (match g.wait with | .slots _ _ => true | .ready => true | _ => false)

/-- The exhaustion timer of a bead on which no non-speculative group waits for slots returns to zero (R288). -/
def State.settleSlots (s : State) : State :=
  { s with beads := s.beads.map (fun (x : Nat × Bead) =>
      (x.1, if x.2.exhFrom.isSome && !s.allGroups.any (fun g => g.bead == x.1 && g.seeksSlots && !s.speculative g)
        then { x.2 with exhFrom := none } else x.2)) }

/-- The beads of which nothing remains have no occupant (R342). -/
def State.vacateAll (s : State) : State :=
  { s with beads := s.beads.map (fun (x : Nat × Bead) =>
      (x.1, if s.vacant x.1 x.2 then { x.2 with occ := none, gapOf := none } else x.2)) }

/-- A team of a launch that retired some runs, or a committed segment, which counts as one, has ended (R348). -/
def State.siblingEnded (s : State) (launch runs : Nat) : State :=
  s.updLaunch launch (fun l => { l with ended := l.ended + 1, endedRuns := l.endedRuns + runs })

/-- A team whose groups and stored threads are all gone has ended (R95, R348). -/
def State.teamEnded (s : State) (tid : Nat) : State :=
  match s.findTeam tid with
  | none => s
  | some t =>
    if s.allGroups.any (fun g => g.team == tid && g.gid != 0)
        || s.parents.any (fun p => p.elem.team == tid) || s.pool.any (fun p => p.elem.team == tid)
        || (s.bead t.bead).bins.any (fun x => x.threads.any (fun y => y.team == tid)) then s
    else
      let s1 := { s with teams := s.teams.filter (fun x => x.tid != tid) }
      let s2 := if t.segid = 0 then
          s1.siblingEnded t.launch t.retired
        else match s1.findSeg t.asid t.segid with
          | some x => (match x.st with
            | .committed _ => ({ s1.siblingEnded t.launch t.retired with segs := s1.segs.filter (fun y =>
                !(y.asid == t.asid && y.segid == t.segid)) }).freeConds
            | .running _ => s1.updSeg t.asid t.segid (fun y => { y with st := .finished tid t.retired })
            | _ => s1)
          | none => s1
      s2

/-- Registers of an element as it ends: a lane's own, or the group-rate registers (R35). -/
def laneRegs (g : Group) (l : Nat) : SMap Word :=
  (g.regs.filter (fun x => x.1 % 128 == l)).map (fun x => (x.1 / 128, x.2))

/-- Remove a group that has ended: its handles are released, its slot is free (R287, R309). -/
def State.removeGroup (s : State) (gid : Nat) : State :=
  match s.findGroup gid with
  | none => s
  | some g =>
    let s1 := s.updTeam g.team (fun t => { t with retired := t.retired + g.retired })
    let s2 := s1.unpin g
    let s3 := (if g.holdsSlots then s2.slotsFreed g.bead else s2).dropGroup gid
    if g.team = 0 then s3 else s3.teamEnded g.team

/-- A lane's element ends its section (R309). -/
def State.endLaneElem (s : State) (gid lane : Nat) : State :=
  match s.findGroup gid with
  | none => s
  | some g =>
    match SMap.find g.elems lane with
    | none => s
    | some e =>
      let l := s.launchOf g
      let (s1, st) := s.endElement l gid g.bead lane e (laneRegs g lane)
      s1.updGroup gid (fun g => { g with
        elems := if st then SMap.upd g.elems lane (fun e => { e with stalled := true }) else SMap.del g.elems lane })

/-- An element of the group has a stalled request. -/
def Group.anyStalled (g : Group) : Bool := g.elems.any (·.2.stalled) || g.lgs.any (·.elem.stalled)

/-- An operation of the group's tables is still in progress (R298). -/
def Group.opsBusy (g : Group) : Bool := g.lgs.any (fun lg => lg.ops.any (·.err.isNone))

/-- A logical group is over (R71, R298, R309): none of its lanes is live or waits at `regrp`, and no operation of its table is
in progress. -/
def Group.lgOver (g : Group) (j : Nat) : Bool :=
  g.div.live &&& g.lgMask j == 0 && !g.keys.any (fun x => g.lgOf x.1 == j) && (g.lg j).ops.all (·.err.isSome)

/-- A logical group releases its handles and its monitor (R287, R309). -/
def State.releaseLg (s : State) (gid j : Nat) : State :=
  match s.findGroup gid with
  | none => s
  | some g =>
    (if (g.lg j).handles.isEmpty then s else s.slotsFreed g.bead).updGroup gid (fun g =>
      g.updLg j (fun x => { x with handles := [], monSet := [], monTrig := false }))

/-- A logical group that is over ends (R14, R17, R309): its own element of a GROUP rate, then those of its lanes that end
with it; with none of their requests stalled, what it holds is released. -/
def State.endLogical (s : State) (gid j : Nat) : State :=
  match s.findGroup gid with
  | none => s
  | some g =>
    let l := s.launchOf g
    let e := (g.lg j).elem
    let s1 := if l.isGroupRate e.rate && e.present && !e.stalled then
        let (t, st) := s.endElement l gid g.bead (128 + j) e (g.lg j).gregs
        t.updGroup gid (fun g => g.updLg j (fun lg => { lg with elem := if st then { lg.elem with stalled := true } else {} }))
      else s
    let mine := g.endedLanes.filter (fun l => g.lgOf l == j)
    let s2 := mine.foldl (fun t l => t.endLaneElem gid l)
      (s1.updGroup gid (fun g => { g with endedLanes := g.endedLanes.filter (fun l => g.lgOf l != j) }))
    match s2.findGroup gid with
    | none => s2
    | some g2 => if (g2.lg j).elem.stalled || g2.elems.any (fun x => g2.lgOf x.1 == j && x.2.stalled) then s2
      else s2.releaseLg gid j

/-- A stalled request keeps its group from issuing (R40); a wait for something else stands first. -/
def Wait.stall : Wait → Wait
  | .ready => .quire
  | .ending => .quire
  | .regrp => .quire
  | w => w

/-- The logical groups that are over end; when no live lane of the group remains it waits for its operations and its
stalled requests, then ends (R298, R309, R40). -/
def State.groupMayEnd (s : State) (gid : Nat) : State :=
  match s.findGroup gid with
  | none => s
  | some g0 =>
    let s1 := ((List.range g0.nLg).filter g0.lgOver).foldl (fun t j => t.endLogical gid j) s
    match s1.findGroup gid with
    | none => s1
    | some g =>
      if g.div.live = 0 ∧ g.keys.isEmpty = false then s1.updGroup gid (fun g => { g with wait := .regrp })
      else if g.anyStalled then s1.updGroup gid (fun g => { g with wait := g.wait.stall })
      else if g.div.live ≠ 0 then s1
      else if g.opsBusy then s1.updGroup gid (fun g => { g with wait := .ending })
      else s1.removeGroup gid

/-- Lanes of a group end their threads (R309). Where the co-resident group rate has records, a lane's
element ends with its group (log 12). -/
def State.endLanes (s : State) (gid : Nat) (lanes : List Nat) : State :=
  match s.findGroup gid with
  | none => s
  | some g =>
    let l := s.launchOf g
    let defer := match latCoGroup l.lattice g.rate with | some k => l.hasRecord k | none => false
    let s1 := s.updGroup gid (fun g => { g with
      div := { g.div with live := g.div.live &&& ~~~ maskOf lanes
                          pcs := setPcs g.div.pcs (lanes.map (fun l => (l, g.run.pc.toNat))) }
      lgs := g.lgs.zipIdx.map (fun x =>
        let mine := lanes.filter (fun l => g.lgOf l == x.2)
        if mine.isEmpty then x.1 else { x.1 with lastEnded := mine })
      endedLanes := if defer then g.endedLanes ++ lanes else g.endedLanes })
    if defer then s1 else lanes.foldl (fun t l => t.endLaneElem gid l) s1

end Sys2Proof.Machine
end

