-- ==== Sys2Proof/Machine/Flags.lean ====
section
/-! DEFINITION. `FPMODE`, `FPFLAGS` and `DIVZ_EN` of a logical group (R122, R123, R194), the effective
rounding mode (R117), flushing of subnormals (R122, R201), and the integer condition codes (R197). -/

namespace Sys2Proof.Machine

/-- `FPMODE`.RM, FTZ, DAZ (R122). -/
def LGroup.rm (x : LGroup) : Rm := Rm.ofCode (nbits x.fpmode.toNat 0 2)
def LGroup.ftz (x : LGroup) : Bool := x.fpmode.getLsbD 2
def LGroup.daz (x : LGroup) : Bool := x.fpmode.getLsbD 3

/-- Flags raised by a lane are ORed into its logical group's `FPFLAGS` (R123). -/
def Group.raise (g : Group) (l : Nat) (fl : Word) : Group :=
  if fl = 0 then g else g.updLg (g.lgOf l) (fun x => { x with fpflags := x.fpflags ||| fl })

/-- The effective rounding of a word without a format slot (R117); override 0b11 is illegal there. -/
def LGroup.rmOf (x : LGroup) (field : Nat) : Rm :=
  match field with
  | 0 => x.rm
  | 1 => .rne
  | _ => .rz

/-- The effective rounding of a word with a format slot (R117). -/
def LGroup.rmSlot (x : LGroup) (field : Nat) (slot : Word) : Rm :=
  match field with
  | 0 => if slotRnd slot = 5 then x.rm else Rm.ofCode (slotRnd slot)
  | 1 => .rne
  | 2 => .rz
  | _ => .rs

/-- A subnormal input read as a zero of its sign (R122). -/
def Fmt.dazIn (t : Fmt) (on : Bool) (bits : Nat) : Nat :=
  if on && t.subnormal bits then t.zero (t.negative bits) else bits

/-- A subnormal result replaced by a zero of its sign, which sets UF and NX (R201). -/
def Fmt.ftzOut (t : Fmt) (on : Bool) (r : FRes) : FRes :=
  if on && t.subnormal r.1 then (t.zero (t.negative r.1), r.2 ||| fUF ||| fNX) else r

/-- Modifiers by the sign bit: the absolute value first, then the negation (R178). -/
def Fmt.modify (t : Fmt) (abs neg : BitVec 1) (bits : Nat) : Nat :=
  let a := if abs = 1 then bits % t.signBit else bits
  if neg = 1 then (if t.signBit ≤ a then a - t.signBit else a + t.signBit) else a

/-- Modifiers on both halves of a packed pair (R207). -/
def Fmt.modify2 (t : Fmt) (abs neg : BitVec 1) (bits : Nat) : Nat :=
  t.modify abs neg (bits % 65536) + 65536 * t.modify abs neg (bits / 65536)

/-- Integer condition codes 0 to 5 (R197). -/
def condInt (cond : Nat) (a b : Int) : Bool :=
  match cond with
  | 0 => decide (a = b)
  | 1 => decide (a ≠ b)
  | 2 => decide (a < b)
  | 3 => decide (a ≤ b)
  | 4 => decide (a > b)
  | _ => decide (a ≥ b)

end Sys2Proof.Machine
end

