-- ==== Sys2Proof/Machine/Operands.lean ====
section
/-! DEFINITION. Operands: the lanes that execute a word, special operands (R163, R164), own, broadcast
and interpolated reads (R26 to R31, R37, R39), address forms (R166), and the common course of a word. -/

namespace Sys2Proof.Machine

/-! ## Lanes that execute a word -/

/-- The launch of the focus group. -/
def State.curLaunch (s : State) : Launch := s.launchOf s.grp

/-- Put a line into L0, of 4,096 words (R7); of a full one which line goes, of those that no frame pins, is open (log 6). -/
def putLine (k : Nat) (l0 : List CodeLine) (w : CodeLine) : List CodeLine :=
  if l0.length < 4096 then w :: l0
  else
    let free := l0.filter (·.ovl.isNone)
    w :: (free.eraseIdx (k % free.length) ++ l0.filter (·.ovl.isSome))

/-- Lanes whose predicate holds and that are not done with the word (R75, R176). -/
def Group.admits (g : Group) (h : Hdr) (l : Nat) : Bool :=
  (g.predOf h.pred.toNat l != (h.pneg == 1)) && (g.div.pend == 0 || inMask g.div.pend l)

/-- The lanes for which a word is evaluated: at a lane-class rate the active lanes that its predicate
admits; at a rate packed GROUP one for each logical group, its lowest live lane (R330). -/
def Group.execLanes (g : Group) (l : Launch) (h : Hdr) : List Nat :=
  if l.isGroupRate h.rate.toNat then
    ((List.range g.nLg).filterMap (fun j =>
      if g.run.active &&& g.lgMask j ≠ 0 then lowLane (g.div.live &&& g.lgMask j) g.hw else none)).filter (g.admits h)
  else (lanesOf g.run.active g.hw).filter (g.admits h)

/-- The word's rate is packed GROUP. -/
def State.wordGr (s : State) (h : Hdr) : Bool := s.curLaunch.isGroupRate h.rate.toNat

/-- The lanes to which a word applies, each with the lane for which it is evaluated: at a rate packed
GROUP every active lane of the logical group (R330). -/
def State.movers (s : State) (h : Hdr) (lanes : List Nat) : List (Nat × Nat) :=
  let g := s.grp
  if s.wordGr h then
    lanes.flatMap (fun l => (lanesOf (g.run.active &&& g.div.live &&& g.lgMask (g.lgOf l)) g.hw).map (fun x => (x, l)))
  else lanes.map (fun l => (l, l))

/-- The lowest of some lanes in each logical group that has one. -/
def Group.heads (g : Group) (lanes : List Nat) : List Nat :=
  (distinct (lanes.map g.lgOf)).filterMap (fun j => lanes.find? (fun l => g.lgOf l == j))

/-- Every logical group with an active lane is converged (R59, R72, R73). -/
def Group.converged (g : Group) : Bool :=
  (List.range g.nLg).all (fun j =>
    g.run.active &&& g.lgMask j == 0 || g.div.live &&& g.lgMask j &&& ~~~ g.run.active == 0)

/-- The element of a lane, or of its logical group at a rate packed GROUP. -/
def Group.elemOf (g : Group) (gr : Bool) (l : Nat) : Elem :=
  if gr then (g.lg (g.lgOf l)).elem else SMap.get {} g.elems l

/-- The lane is a helper lane (R21). -/
def Group.helper (g : Group) (gr : Bool) (l : Nat) : Bool := !gr && (g.elemOf false l).helper

/-! ## Special operands (R163, R164) -/

/-- Kinds of position (R164). -/
inductive Pos where
  | i32
  | i64
  | f32
  | f64
  | half (t : Fmt)
  deriving DecidableEq, Repr

/-- The constant n of code `sc(n)`. -/
def scOf (code : Nat) : Int := (code : Int) - 0x120

/-- The 32-bit value of a special operand in an integer position. -/
def Group.special (g : Group) (l : Launch) (k lane code : Nat) (imm : Word) : Word :=
  let gr := l.isGroupRate k
  let e := g.elemOf gr lane
  match code with
  | 0 => 0
  | 1 => if (l.lat k).pack ≤ 1 then 0 else BitVec.ofNat 32 (lane % g.lw)
  | 2 => BitVec.ofNat 32 (g.lg (g.lgOf lane)).gindex
  | 3 => if g.helper gr lane then 0xffffffff else BitVec.ofNat 32 e.index
  | 4 => if g.helper gr lane then 0xffffffff else e.handle
  | 5 => BitVec.ofNat 32 g.lw
  | 6 => imm
  | c => BitVec.ofInt 32 (scOf c)

/-- A special operand in a position, as a pattern of 32 or 64 bits. -/
def specialAt (p : Pos) (code : Nat) (v : Word) : Nat :=
  let sc := decide (0x100 ≤ code)
  match p with
  | .i32 => v.toNat
  | .i64 => if sc || code == 6 then (v.signExtend 64).toNat else v.toNat
  | .f32 => if sc then (fp32.ofInt .rne (scOf code)).1 else v.toNat
  | .f64 =>
    if sc then (fp64.ofInt .rne (scOf code)).1
    else if code = 6 then (fp64.convert fp32 .rne false 0 v.toNat).1
    else v.toNat
  | .half t => if sc then (t.ofInt .rne (scOf code)).1 * 65537 else v.toNat

/-! ## Interpolation (R29 to R31) -/

/-- A quotient of integers rounded once to FP32; a zero quotient is +0 (R30). -/
def ratio32 (n d : Int) : Nat :=
  if n = 0 then 0
  else
    let s := 64 + bitLen d.natAbs
    let x := n.natAbs * 2 ^ s
    let (m, e) := stick (x / d.natAbs) (-(s : Int)) (x % d.natAbs != 0)
    (fp32.round .rne false 0 (decide (n < 0) != decide (d < 0)) m e).1

/-- The cross product. -/
def cross (ax ay bx by_ : Int) : Int := ax * by_ - ay * bx

/-- Edge function `i` of a primitive at a point, and `A` (R30). -/
def edgeFn (v : List Int) (px py : Int) (i : Nat) : Int :=
  let x (j : Nat) : Int := v.getD (2 * (j % 3)) 0
  let y (j : Nat) : Int := v.getD (2 * (j % 3) + 1) 0
  cross (x (i + 2) - x (i + 1)) (y (i + 2) - y (i + 1)) (px - x (i + 1)) (py - y (i + 1))
def area (v : List Int) : Int :=
  cross (v.getD 4 0 - v.getD 2 0) (v.getD 5 0 - v.getD 3 0) (v.getD 0 0 - v.getD 2 0) (v.getD 1 0 - v.getD 3 0)

/-- Barycentrics of a point (R30). -/
def baryAt (v : List Int) (px py : Int) (i : Nat) : Nat := ratio32 (edgeFn v px py i) (area v)

/-- FP32 operations under round-to-nearest-even, without flags (R31, R241, R259, R284). -/
def nAdd (a b : Nat) : Nat := (fp32.add .rne a b).1
def nSub (a b : Nat) : Nat := (fp32.sub .rne a b).1
def nMul (a b : Nat) : Nat := (fp32.mul .rne a b).1
def nDiv (a b : Nat) : Nat := (fp32.div .rne a b).1
def nFma (a b c : Nat) : Nat := (fp32.fma .rne a b c).1
def nMax (a b : Nat) : Nat := (fp32.minMax true a b).1
def nMin (a b : Nat) : Nat := (fp32.minMax false a b).1
def fOne : Nat := 0x3f800000

/-- Linear and perspective interpolation of vertex values (R31); `w` are the clip w of the vertices. -/
def interpLin (v : List Int) (px py : Int) (a0 a1 a2 : Nat) : Nat :=
  nFma (baryAt v px py 2) (nSub a2 a0) (nFma (baryAt v px py 1) (nSub a1 a0) a0)
def interpPersp (v : List Int) (px py : Int) (w0 w1 w2 a0 a1 a2 : Nat) : Nat :=
  let t (i w : Nat) : Nat := nMul (baryAt v px py i) (nDiv fOne w)
  let den := nAdd (nAdd (t 0 w0) (t 1 w1)) (t 2 w2)
  let p1 := nDiv (t 1 w1) den
  let p2 := nDiv (t 2 w2) den
  nFma p2 (nSub a2 a0) (nFma p1 (nSub a1 a0) a0)

/-! ## Reading registers (R26 to R28, R37, R39) -/

/-- How a register read ends. -/
inductive Rd where
  | val (w : Word)
  /-- The element's chain lacks the record (R37). -/
  | missing
  /-- Spilled words whose translation fails (R39). -/
  | unmapped (units rate : Nat) (f : TFault)
  /-- Poison in spilled words (R39, R137). -/
  | poison (va : Nat)
  deriving DecidableEq, Repr

/-- Export word `i` of a record. -/
def State.recWord (s : State) (bead : Nat) (r : QRec) (i : Nat) : Rd :=
  if !r.spilled then .val (r.words.getD i 0)
  else
    let va := s.spillAddr r i
    match (s.translate none bead r.asid va .read).1 with
    | .error f => .unmapped r.spillUnits r.rate f
    | .ok pa => if s.poison.contains (sectorOf pa) then .poison (va / 64 * 64)
                else .val (BitVec.ofNat 32 (s.natAtPa pa 4))

/-- Combine three reads. -/
def Rd.three (a b c : Rd) (f : Nat → Nat → Nat → Nat) : Rd :=
  match a, b, c with
  | .val x, .val y, .val z => .val (BitVec.ofNat 32 (f x.toNat y.toNat z.toNat))
  | .val _, .val _, r => r
  | .val _, r, _ => r
  | r, _, _ => r

/-- A vertex-rate register under an inheritance mode (R28, R31). -/
def State.vertexReg (s : State) (bead : Nat) (l : Launch) (k : Nat) (e : Elem) (mode i : Nat) : Rd :=
  match e.vertexRecs (s.bead bead) with
  | some [v0, v1, v2] =>
    let a (v : QRec) : Rd := s.recWord bead v i
    let w (v : QRec) : Nat := (v.words.getD 3 0).toNat
    if (l.lat k).linken then a ([v0, v1, v2, v0].getD mode v0)
    else match mode with
      | 1 => (a v0).three (a v1) (a v2) (interpLin e.verts e.px e.py)
      | 2 => (a v0).three (a v1) (a v2) (interpPersp e.verts e.px e.py (w v0) (w v1) (w v2))
      | _ => a v0
  | _ => .missing

/-- A register of the group itself: poison or its value (R384). -/
def Group.readOwn (g : Group) (gr : Bool) (lane r : Nat) : Rd :=
  match g.regBad gr lane r with
  | some va => .poison va.toNat
  | none => .val (g.reg gr lane r)

/-- Register `r` as lane `lane` of the focus reads it at rate `k` under an inheritance mode (R27, R28). -/
def State.readReg (s : State) (k mode lane r : Nat) : Rd :=
  let g := s.grp
  let l := s.curLaunch
  let gr := l.isGroupRate k
  let o := l.regRate r
  if o = k then g.readOwn gr lane r
  else if latCoGroup l.lattice k = some o then g.readOwn true lane r
  else
    let e := g.elemOf gr lane
    let i := r - (l.lat o).expbase
    let v := if (latLinked l.lattice k).contains o then s.vertexReg g.bead l k e mode i
      else match e.ancestor (s.bead g.bead) o with
        | none => .missing
        | some q => s.recWord g.bead q i
    if v = .missing ∧ e.helper = true then .val (Config.helperReads (s.tick + lane)) else v

/-- A source operand: its field, its inheritance mode and how many registers it takes. -/
structure Opnd where
  field : Nat
  mode : Nat := 0
  n : Nat := 1
  deriving DecidableEq, Repr

/-- The reads of an operand; a special operand reads no register. -/
def State.opndReads (s : State) (k lane : Nat) (o : Opnd) : List Rd :=
  if 2048 ≤ o.field then [] else (List.range o.n).map (fun i => s.readReg k o.mode lane (o.field + i))

/-- Register `i` of an operand, as 32 bits of an integer position. -/
def State.opndWord (s : State) (h : Hdr) (imm : Word) (lane : Nat) (o : Opnd) (i : Nat) : Word :=
  if 2048 ≤ o.field then s.grp.special s.curLaunch h.rate.toNat lane (o.field - 2048) imm
  else match s.readReg h.rate.toNat o.mode lane (o.field + i) with
    | .val w => w
    | _ => 0

/-- The registers of an operand; each register of a run that selects a special operand reads it. -/
def State.opndRun (s : State) (h : Hdr) (imm : Word) (lane : Nat) (o : Opnd) : List Word :=
  (List.range o.n).map (s.opndWord h imm lane o)

/-- An operand in a position of 32 or 64 bits (R164, R189). -/
def State.opnd (s : State) (h : Hdr) (imm : Word) (p : Pos) (lane : Nat) (o : Opnd) : Nat :=
  if 2048 ≤ o.field then
    specialAt p (o.field - 2048) (s.grp.special s.curLaunch h.rate.toNat lane (o.field - 2048) imm)
  else match p with
    | .i64 => (s.opndWord h imm lane o 0).toNat + 2 ^ 32 * (s.opndWord h imm lane o 1).toNat
    | .f64 => (s.opndWord h imm lane o 0).toNat + 2 ^ 32 * (s.opndWord h imm lane o 1).toNat
    | _ => (s.opndWord h imm lane o 0).toNat

/-! ## Operands that cannot be read -/

/-- `TRAPINFO` of the quire overflow fault (R42). -/
def quireInfo (units bead rate : Nat) (unmapped : Bool) (used : Nat) : Dword :=
  BitVec.ofNat 64 (units % 2 ^ 16 + 2 ^ 16 * bead + 2 ^ 24 * rate + (if unmapped then 2 ^ 27 else 0)
    + 2 ^ 32 * used)

/-- The reads of the operands of a word, lane by lane. -/
def State.allReads (s : State) (k : Nat) (ops : List Opnd) (lanes : List Nat) : List (Nat × List Rd) :=
  lanes.map (fun l => (l, ops.flatMap (s.opndReads k l)))

/-- The lanes of a word that meet poison in spilled words, each with its lowest sector (R39, R137). -/
def State.poisonLanes (s : State) (k : Nat) (ops : List Opnd) (lanes : List Nat) : List (Nat × Nat) :=
  (s.allReads k ops lanes).filterMap (fun x =>
    (minOf (x.2.filterMap (fun r => match r with | .poison a => some a | _ => none))).map (fun a => (x.1, a)))

/-- The trap of a word some operand of which cannot be read (R37, R39, R75): the lowest cause. -/
def State.readTrap (s : State) (k : Nat) (ops : List Opnd) (lanes : List Nat) : Option Trap :=
  let all := s.allReads k ops lanes
  let lacking := (all.filter (fun x => x.2.contains .missing)).map (·.1)
  if !lacking.isEmpty then some { maskTrap 0x07 (maskOf lacking) with before := true }
  else
    match (all.flatMap (·.2)).findSome? (fun r => match r with | .unmapped u rt f => some (u, rt, f) | _ => none) with
    | some (u, rt, f) =>
      let b := s.grp.bead
      some { cause := 0x12, info := quireInfo u b rt true (s.spillUsed s.grp.asid b), rec_ := f.rec_ 6 }
    | none => (minOf ((s.poisonLanes k ops lanes).map (·.2))).map (fun a =>
        { cause := 0x14, info := BitVec.ofNat 64 a, rec_ := { path := 6, va := BitVec.ofNat 64 a } })

/-- Every operand of the word can be read by every lane that executes it. -/
def State.readable (s : State) (h : Hdr) (ops : List Opnd) : Prop :=
  s.readTrap h.rate.toNat ops (s.grp.execLanes s.curLaunch h) = none

/-- An overflow fault returns the spill timer to zero (R328). -/
def State.overflowTaken (s : State) (t : Trap) : State :=
  if t.cause = 0x12 then s.updBead s.grp.bead (fun b => { b with spillFrom := b.spillFrom.map (fun _ => s.timer.toNat) }) else s

/-- A word with these operands: it takes its effect `f` on the lanes that execute it, unless one of its operands cannot be
read. Then it traps, with no lane performed; but where lanes only meet poison in spilled words, `some_` is the word on the
other lanes, and those stop (R75, R137). -/
def State.withOpsOr (s : State) (h : Hdr) (ops : List Opnd) (some_ : List Nat → List (Nat × LaneStop) → State)
    (f : List Nat → State) : State :=
  let lanes := s.grp.execLanes s.curLaunch h
  match s.readTrap h.rate.toNat ops lanes with
  | some t =>
    if t.cause = 0x14 then
      let bad := s.poisonLanes h.rate.toNat ops lanes
      some_ (lanes.filter (fun l => !bad.any (fun x => x.1 == l))) (bad.map (fun x => (x.1, .poison x.2)))
    else (s.overflowTaken t).trap t false
  | none => f lanes

/-- Poison in spilled operands of a word that is performed as a whole: no lane is performed, and all that execute it are
pending (R39, R75). -/
def State.pendAll (s : State) (h : Hdr) (stops : List (Nat × LaneStop)) : State :=
  (s.setGrp { s.grp with div := { s.grp.div with pend := maskOf (s.grp.execLanes s.curLaunch h) } }).poisonTrap stops 6 0

/-- A word whose lanes are performed one by one: `f` performs the lanes given, beside those that met poison in a spilled
operand (R75, R137). -/
def State.withLanes (s : State) (h : Hdr) (ops : List Opnd) (f : List Nat → List (Nat × LaneStop) → State) : State :=
  s.withOpsOr h ops f (fun lanes => f lanes [])

/-- The lanes that meet poison in registers of their own which a word reads beside its operands (R384), and the others. -/
def State.ownPoison (s : State) (gr : Bool) (rs : List Nat) (lanes : List Nat) : List (Nat × LaneStop) × List Nat :=
  let bad (l : Nat) : Option Dword := rs.findSome? (s.grp.regBad gr l)
  (lanes.filterMap (fun l => (bad l).map (fun a => (l, .poison a.toNat))), lanes.filter (fun l => (bad l).isNone))

/-- The word is done, unless some of its lanes stopped on poison in a spilled operand. -/
def State.doneBut (s : State) (h : Hdr) (bad : List (Nat × LaneStop)) : State :=
  if bad.isEmpty then s.done h else s.stopLanes bad 6 0

/-- A word that is performed as a whole (R39, R75). -/
def State.withOps (s : State) (h : Hdr) (ops : List Opnd) (f : List Nat → State) : State :=
  s.withOpsOr h ops (fun _ stops => s.pendAll h stops) f

/-- A group-wide word: the group is converged, or the word traps with the active mask (R59). -/
def State.groupWide (s : State) (f : State) : State :=
  if s.grp.converged then f else s.trap { maskTrap 0x07 s.grp.run.active with before := true } false

/-! ## Results -/

/-- Write consecutive registers of a lane. -/
def Group.writeRun (g : Group) (gr : Bool) (l r : Nat) : List Word → Group
  | [] => g
  | w :: ws => Group.writeRun (g.setReg gr l r w) gr l (r + 1) ws

/-- What a lane of a word writes: registers from the destination, a predicate, flags. -/
structure LaneOut where
  regs : List Word := []
  pred : Option Bool := none
  flags : Word := 0
  deriving DecidableEq, Repr

/-- A predicate result: at a rate packed GROUP it is written in every live lane (R330). -/
def Group.writePred (g : Group) (gr : Bool) (l p : Nat) (b : Bool) : Group :=
  g.setPred p (if gr then g.div.live &&& g.lgMask (g.lgOf l) else oneLane l) b

/-- Write a lane's results. -/
def Group.writeOut (g : Group) (gr : Bool) (l d : Nat) (o : LaneOut) : Group :=
  let g1 := g.writeRun gr l d o.regs
  let g2 := match o.pred with
    | some b => g1.writePred gr l d b
    | none => g1
  g2.raise l o.flags

/-- Write the results of the lanes given. -/
def State.writeLanes (s : State) (h : Hdr) (d : Nat) (outs : List (Nat × LaneOut)) : State :=
  let gr := s.curLaunch.isGroupRate h.rate.toNat
  s.setGrp (outs.foldl (fun g x => g.writeOut gr x.1 d x.2) s.grp)

/-- Finish a word some of whose lanes may have stopped (R75). -/
def State.finish (s : State) (h : Hdr) (d : Nat) (outs : List (Nat × LaneOut)) (stops : List (Nat × LaneStop))
    (path acc : Nat) : State :=
  let s1 := s.writeLanes h d outs
  if stops.isEmpty then s1.done h else s1.stopLanes stops path acc

/-- A word that computes on registers: every lane's result from its own operands, all read first (R189). A lane that meets
poison in a spilled operand stops; the others are performed (R75, R137). -/
def State.laneWord (s : State) (h : Hdr) (d : Nat) (ops : List Opnd) (f : Nat → LaneOut) : State :=
  s.withOpsOr h ops (fun lanes stops => (s.writeLanes h d (lanes.map (fun l => (l, f l)))).stopLanes stops 6 0)
    (fun lanes => (s.writeLanes h d (lanes.map (fun l => (l, f l)))).done h)

/-! ## Operands of the layouts -/

/-- Sources of an arithmetic word (R178). -/
def opA (f : FA) (n : Nat) : Opnd := { field := f.sa.toNat, mode := nbits f.inh.toNat 0 2, n := n }
def opB (f : FA) (n : Nat) : Opnd := { field := f.sb.toNat, mode := nbits f.inh.toNat 2 2, n := n }
def opC (f : FA) (n : Nat) : Opnd := { field := f.sc.toNat, mode := nbits f.inh.toNat 4 2, n := n }
/-- A source of another layout, read own-or-broadcast (R26). -/
def opX (field : BitVec 12) (n : Nat) : Opnd := { field := field.toNat, n := n }

/-- Registers of a 64-bit result. -/
def pairOf (v : Nat) : List Word := [BitVec.ofNat 32 v, BitVec.ofNat 32 (v / 2 ^ 32)]

/-- The memory address of a lane (R166): base pair, scaled index, offset, modulo 2^64. -/
def State.memAddr (s : State) (h : Hdr) (f : FM) (lane : Nat) : Nat :=
  let base := s.opnd h f.imm .i64 lane (opX f.a 2)
  let index := s.opnd h f.imm .i32 lane (opX f.b 1)
  (base + index * 2 ^ f.shift.toNat + (f.imm.signExtend 64).toNat) % 2 ^ 64

/-- The window offset of a lane (R166, R252): one 32-bit base, modulo 2^32. -/
def State.padAddr (s : State) (h : Hdr) (f : FM) (lane : Nat) : Nat :=
  let base := s.opnd h f.imm .i32 lane (opX f.a 1)
  let index := s.opnd h f.imm .i32 lane (opX f.b 1)
  (base + index * 2 ^ f.shift.toNat + f.imm.toNat) % 2 ^ 32

end Sys2Proof.Machine
end

