-- ==== Sys2Proof/Machine/FloatOps.lean ====
section
/-! DEFINITION. FP32, packed, dot-product and FP64 instructions and conversions: opcodes 0x40 to 0x6d
(R201 to R215). -/

namespace Sys2Proof.Machine

/-- The logical group's floating state for a lane. -/
def State.fp (s : State) (l : Nat) : LGroup := s.grp.lg (s.grp.lgOf l)

/-- FP32 sources after modifiers and DAZ (R201). -/
def State.f32A (s : State) (h : Hdr) (f : FA) (l : Nat) : Nat :=
  fp32.dazIn (s.fp l).daz (fp32.modify f.absa f.nega (s.opnd h f.imm .f32 l (opA f 1)))
def State.f32B (s : State) (h : Hdr) (f : FA) (l : Nat) : Nat :=
  fp32.dazIn (s.fp l).daz (fp32.modify f.absb f.negb (s.opnd h f.imm .f32 l (opB f 1)))
def State.f32C (s : State) (h : Hdr) (f : FA) (l : Nat) : Nat :=
  fp32.dazIn (s.fp l).daz (fp32.modify f.absc f.negc (s.opnd h f.imm .f32 l (opC f 1)))

/-- The effective rounding of a word without a slot (R117). -/
def State.rm (s : State) (f : FA) (l : Nat) : Rm := (s.fp l).rmOf f.rm.toNat

/-- An FP32 result with FTZ (R201). -/
def State.outF32 (s : State) (l : Nat) (r : FRes) : LaneOut :=
  let q := fp32.ftzOut (s.fp l).ftz r
  { regs := [BitVec.ofNat 32 q.1], flags := q.2 }

/-- FP32 words of one, two and three sources (R201). -/
def State.f1 (s : State) (h : Hdr) (f : FA) (r : Rm → Nat → FRes) : State :=
  s.laneWord h f.d.toNat [opA f 1] (fun l => s.outF32 l (r (s.rm f l) (s.f32A h f l)))
def State.f2 (s : State) (h : Hdr) (f : FA) (r : Rm → Nat → Nat → FRes) : State :=
  s.laneWord h f.d.toNat [opA f 1, opB f 1] (fun l => s.outF32 l (r (s.rm f l) (s.f32A h f l) (s.f32B h f l)))
def State.f3 (s : State) (h : Hdr) (f : FA) (r : Rm → Nat → Nat → Nat → FRes) : State :=
  s.laneWord h f.d.toNat [opA f 1, opB f 1, opC f 1] (fun l =>
    s.outF32 l (r (s.rm f l) (s.f32A h f l) (s.f32B h f l) (s.f32C h f l)))

/-! ## FP32 (R202 to R206) -/

/-- `fadd` (R202). -/
def execFadd (h : Hdr) (f : FA) (s : State) : Host.Outcome State Fault Refusal := .next (s.f2 h f fp32.add)
/-- `fsub` (R202). -/
def execFsub (h : Hdr) (f : FA) (s : State) : Host.Outcome State Fault Refusal := .next (s.f2 h f fp32.sub)
/-- `fmul` (R202). -/
def execFmul (h : Hdr) (f : FA) (s : State) : Host.Outcome State Fault Refusal := .next (s.f2 h f fp32.mul)
/-- `ffma` (R202). -/
def execFfma (h : Hdr) (f : FA) (s : State) : Host.Outcome State Fault Refusal := .next (s.f3 h f fp32.fma)
/-- `fmin` (R121). -/
def execFmin (h : Hdr) (f : FA) (s : State) : Host.Outcome State Fault Refusal :=
  .next (s.f2 h f (fun _ => fp32.minMax false))
/-- `fmax` (R121). -/
def execFmax (h : Hdr) (f : FA) (s : State) : Host.Outcome State Fault Refusal :=
  .next (s.f2 h f (fun _ => fp32.minMax true))
/-- `fdiv` (R202). -/
def execFdiv (h : Hdr) (f : FA) (s : State) : Host.Outcome State Fault Refusal := .next (s.f2 h f fp32.div)
/-- `frcp` (R202): `fdiv` of one. -/
def execFrcp (h : Hdr) (f : FA) (s : State) : Host.Outcome State Fault Refusal :=
  .next (s.f1 h f (fun m a => fp32.div m fOne a))
/-- `frsq` (R202). -/
def execFrsq (h : Hdr) (f : FA) (s : State) : Host.Outcome State Fault Refusal := .next (s.f1 h f fp32.rsq)
/-- `fsqrt` (R202). -/
def execFsqrt (h : Hdr) (f : FA) (s : State) : Host.Outcome State Fault Refusal := .next (s.f1 h f fp32.sqrt)
/-- `fexp2` (R203). -/
def execFexp2 (h : Hdr) (f : FA) (s : State) : Host.Outcome State Fault Refusal := .next (s.f1 h f (fun _ => exp2F))
/-- `flog2` (R203). -/
def execFlog2 (h : Hdr) (f : FA) (s : State) : Host.Outcome State Fault Refusal := .next (s.f1 h f (fun _ => log2F))
/-- `fsin` (R203). -/
def execFsin (h : Hdr) (f : FA) (s : State) : Host.Outcome State Fault Refusal :=
  .next (s.f1 h f (fun _ => sinCosF true))
/-- `fcos` (R203). -/
def execFcos (h : Hdr) (f : FA) (s : State) : Host.Outcome State Fault Refusal :=
  .next (s.f1 h f (fun _ => sinCosF false))
/-- `ffloor` (R204). -/
def execFfloor (h : Hdr) (f : FA) (s : State) : Host.Outcome State Fault Refusal :=
  .next (s.f1 h f (fun _ => fp32.integral .rn))
/-- `fceil` (R204). -/
def execFceil (h : Hdr) (f : FA) (s : State) : Host.Outcome State Fault Refusal :=
  .next (s.f1 h f (fun _ => fp32.integral .rp))
/-- `ftrunc` (R204). -/
def execFtrunc (h : Hdr) (f : FA) (s : State) : Host.Outcome State Fault Refusal :=
  .next (s.f1 h f (fun _ => fp32.integral .rz))
/-- `frnd` (R204). -/
def execFrnd (h : Hdr) (f : FA) (s : State) : Host.Outcome State Fault Refusal :=
  .next (s.f1 h f (fun _ => fp32.integral .rne))
/-- `ffract` (R204). -/
def execFfract (h : Hdr) (f : FA) (s : State) : Host.Outcome State Fault Refusal :=
  .next (s.f1 h f (fun _ => fp32.fract))

/-- A compare's result in a predicate or a register (R198, R205). -/
def outCmp (toReg : Bool) (r : Bool × Word) : LaneOut :=
  if toReg then { regs := [if r.1 then 0xffffffff else 0], flags := r.2 } else { pred := some r.1, flags := r.2 }

/-- `fcmp` (R205). -/
def execFcmp (h : Hdr) (f : FA) (s : State) : Host.Outcome State Fault Refusal :=
  .next (s.laneWord h f.d.toNat [opA f 1, opB f 1] (fun l =>
    outCmp false (fp32.compare f.sub.toNat (s.f32A h f l) (s.f32B h f l))))
/-- `fcmp.r` (R205). -/
def execFcmpR (h : Hdr) (f : FA) (s : State) : Host.Outcome State Fault Refusal :=
  .next (s.laneWord h f.d.toNat [opA f 1, opB f 1] (fun l =>
    outCmp true (fp32.compare f.sub.toNat (s.f32A h f l) (s.f32B h f l))))
/-- `fclass`: the raw bits, no flag (R206). -/
def execFclass (h : Hdr) (f : FA) (s : State) : Host.Outcome State Fault Refusal :=
  .next (s.laneWord h f.d.toNat [opA f 1] (fun l =>
    { regs := [BitVec.ofNat 32 (fp32.classify (s.opnd h f.imm .f32 l (opA f 1)))] }))

/-! ## Packed and dot products (R207, R208) -/

def halfFmt : Half → Fmt
  | .f16 => fp16
  | .bf16 => bf16

/-- Half `i` of a packed pair. -/
def halfOf (x i : Nat) : Nat := x / 65536 ^ i % 65536

/-- `hfma2` (R207). -/
def execHfma2 (t : Half) (h : Hdr) (f : FA) (s : State) : Host.Outcome State Fault Refusal :=
  let m := halfFmt t
  .next (s.laneWord h f.d.toNat [opA f 1, opB f 1, opC f 1] (fun l =>
    let a := m.modify2 f.absa f.nega (s.opnd h f.imm (.half m) l (opA f 1))
    let b := m.modify2 f.absb f.negb (s.opnd h f.imm (.half m) l (opB f 1))
    let c := m.modify2 f.absc f.negc (s.opnd h f.imm (.half m) l (opC f 1))
    let d (x i : Nat) : Nat := m.dazIn (s.fp l).daz (halfOf x i)
    let r (i : Nat) : FRes := m.ftzOut (s.fp l).ftz (m.fma (s.rm f l) (d a i) (d b i) (d c i))
    { regs := [BitVec.ofNat 32 ((r 0).1 + 65536 * (r 1).1)], flags := (r 0).2 ||| (r 1).2 }))

/-- `fdot2` (R208): modifiers on C only, DAZ on every input. -/
def execFdot2 (t : Half) (h : Hdr) (f : FA) (s : State) : Host.Outcome State Fault Refusal :=
  let m := halfFmt t
  .next (s.laneWord h f.d.toNat [opA f 1, opB f 1, opC f 1] (fun l =>
    let vs (x : Nat) : List Val := [0, 1].map (fun i => m.value (m.dazIn (s.fp l).daz (halfOf x i)))
    let a := vs (s.opnd h f.imm (.half m) l (opA f 1))
    let b := vs (s.opnd h f.imm (.half m) l (opB f 1))
    s.outF32 l (dotV fp32 (s.rm f l) a b (fp32.value (s.f32C h f l)))))

/-- The launch's format slot that a word names (R114). -/
def State.slot (s : State) (fmt : BitVec 3) : Word := s.curLaunch.slots.getD fmt.toNat 0

/-- `fdot4` (R208): E4M3 or E5M2 by the slot; no DAZ on the 8-bit inputs. A small constant as A or B is the integer's 32-bit
pattern (DESIGN CHOICE, log 45). -/
def execFdot4 (h : Hdr) (f : FA) (s : State) : Host.Outcome State Fault Refusal :=
  let slot := s.slot f.fmt
  let m := if slotFmt slot = 3 then e4m3 else e5m2
  .next (s.laneWord h f.d.toNat [opA f 1, opB f 1, opC f 1] (fun l =>
    let vs (x : Nat) : List Val := (List.range 4).map (fun i => m.value (x / 256 ^ i % 256))
    let a := vs (s.opnd h f.imm .i32 l (opA f 1))
    let b := vs (s.opnd h f.imm .i32 l (opB f 1))
    s.outF32 l (dotV fp32 ((s.fp l).rmSlot f.rm.toNat slot) a b (fp32.value (s.f32C h f l)))))

/-! ## FP64 (R209) -/

def State.f64A (s : State) (h : Hdr) (f : FA) (l : Nat) : Nat :=
  fp64.modify f.absa f.nega (s.opnd h f.imm .f64 l (opA f 2))
def State.f64B (s : State) (h : Hdr) (f : FA) (l : Nat) : Nat :=
  fp64.modify f.absb f.negb (s.opnd h f.imm .f64 l (opB f 2))
def State.f64C (s : State) (h : Hdr) (f : FA) (l : Nat) : Nat :=
  fp64.modify f.absc f.negc (s.opnd h f.imm .f64 l (opC f 2))

/-- An FP64 result: no FTZ. -/
def outF64 (r : FRes) : LaneOut := { regs := pairOf r.1, flags := r.2 }

/-- FP64 words of two sources. -/
def State.d2 (s : State) (h : Hdr) (f : FA) (r : Rm → Nat → Nat → FRes) : State :=
  s.laneWord h f.d.toNat [opA f 2, opB f 2] (fun l => outF64 (r (s.rm f l) (s.f64A h f l) (s.f64B h f l)))

/-- `dadd` (R209). -/
def execDadd (h : Hdr) (f : FA) (s : State) : Host.Outcome State Fault Refusal := .next (s.d2 h f fp64.add)
/-- `dmul` (R209). -/
def execDmul (h : Hdr) (f : FA) (s : State) : Host.Outcome State Fault Refusal := .next (s.d2 h f fp64.mul)
/-- `dfma` (R209). -/
def execDfma (h : Hdr) (f : FA) (s : State) : Host.Outcome State Fault Refusal :=
  .next (s.laneWord h f.d.toNat [opA f 2, opB f 2, opC f 2] (fun l =>
    outF64 (fp64.fma (s.rm f l) (s.f64A h f l) (s.f64B h f l) (s.f64C h f l))))
/-- `ddiv` (R209). -/
def execDdiv (h : Hdr) (f : FA) (s : State) : Host.Outcome State Fault Refusal := .next (s.d2 h f fp64.div)
/-- `dcmp` (R209). -/
def execDcmp (h : Hdr) (f : FA) (s : State) : Host.Outcome State Fault Refusal :=
  .next (s.laneWord h f.d.toNat [opA f 2, opB f 2] (fun l =>
    outCmp false (fp64.compare f.sub.toNat (s.f64A h f l) (s.f64B h f l))))
/-- `dcmp.r` (R209). -/
def execDcmpR (h : Hdr) (f : FA) (s : State) : Host.Outcome State Fault Refusal :=
  .next (s.laneWord h f.d.toNat [opA f 2, opB f 2] (fun l =>
    outCmp true (fp64.compare f.sub.toNat (s.f64A h f l) (s.f64B h f l))))

/-! ## Conversions (R210 to R215) -/

/-- Whether SUB`[0]` names FP64 (R210). -/
def subF64 (f : FA) : Bool := f.sub.getLsbD 0

/-- `cvti2f` (R210). -/
def execCvti2f (sg : Sgn) (v : Wid) (h : Hdr) (f : FA) (s : State) : Host.Outcome State Fault Refusal :=
  let w := match v with | .w32 => 32 | .w64 => 64
  let a := opA f (w / 32)
  .next (s.laneWord h f.d.toNat [a] (fun l =>
    let x := s.opnd h f.imm (match v with | .w32 => .i32 | .w64 => .i64) l a
    let i : Int := match sg with | .s => (BitVec.ofNat w x).toInt | .u => x
    if subF64 f then outF64 (fp64.ofInt (s.rm f l) i)
    else
      let r := fp32.ofInt (s.rm f l) i
      { regs := [BitVec.ofNat 32 r.1], flags := r.2 }))

/-- `cvtf2i` (R210, R120): modifiers, no DAZ. -/
def execCvtf2i (sg : Sgn) (v : Wid) (h : Hdr) (f : FA) (s : State) : Host.Outcome State Fault Refusal :=
  let w := match v with | .w32 => 32 | .w64 => 64
  .next (s.laneWord h f.d.toNat [opA f (if subF64 f then 2 else 1)] (fun l =>
    let r := if subF64 f then fp64.toInt (s.rm f l) (sg == .s) w (s.f64A h f l)
      else fp32.toInt (s.rm f l) (sg == .s) w (fp32.modify f.absa f.nega (s.opnd h f.imm .f32 l (opA f 1)))
    { regs := match v with | .w32 => [BitVec.ofNat 32 r.1] | .w64 => pairOf r.1, flags := r.2 }))

/-- `cvtff.f64` (R211). -/
def execCvtffF64 (h : Hdr) (f : FA) (s : State) : Host.Outcome State Fault Refusal :=
  .next (s.laneWord h f.d.toNat [opA f 1] (fun l =>
    outF64 (fp64.convert fp32 .rne false 0 (fp32.modify f.absa f.nega (s.opnd h f.imm .f32 l (opA f 1))))))
/-- `cvtff.f32` (R211). -/
def execCvtffF32 (h : Hdr) (f : FA) (s : State) : Host.Outcome State Fault Refusal :=
  .next (s.laneWord h f.d.toNat [opA f 2] (fun l =>
    let r := fp32.convert fp64 (s.rm f l) false 0 (s.f64A h f l)
    { regs := [BitVec.ofNat 32 r.1], flags := r.2 }))

/-- The floating format of an FMT code (R115). -/
def fmtOf (code : Nat) : Fmt :=
  match code with
  | 0 => fp32
  | 1 => fp16
  | 2 => bf16
  | 3 => e4m3
  | 4 => e5m2
  | _ => fp64

/-- Bits of an element of an FMT code (R115). -/
def fmtBits (code : Nat) : Nat := [32, 16, 16, 8, 8, 8, 4, 64, 8, 8, 4, 4, 16, 16, 32, 32, 64, 64].getD code 32
/-- A signed integer format. -/
def fmtSigned (code : Nat) : Bool := code % 2 == 0

/-- Random operands of the elements of a conversion (R213). -/
def randomAt (u i : Nat) : Nat := (u + i * 0x2545f491) % 2 ^ 32

/-- Elements of `w` bits packed into registers, lowest first (R107). -/
def packBits (w : Nat) (els : List Nat) : Nat := (els.zipIdx.map (fun (x : Nat × Nat) => x.1 * 2 ^ (w * x.2))).foldl (· + ·) 0
def packRegs (w : Nat) (els : List Nat) : List Word :=
  let v := packBits w els
  (List.range ((w * els.length + 31) / 32)).map (fun i => BitVec.ofNat 32 (v / 2 ^ (32 * i)))
/-- Elements of `w` bits of registers. -/
def unpackRegs (w n : Nat) (rs : List Word) : List Nat :=
  let v := packBits 32 (rs.map BitVec.toNat)
  (List.range n).map (fun i => v / 2 ^ (w * i) % 2 ^ w)

/-- One element into a format that is not a block format (R119, R120). -/
def narrowElem (slot : Word) (rm : Rm) (u : Nat) (x : Word) : FRes :=
  let c := slotFmt slot
  if c ≤ 4 then (fmtOf c).convert fp32 rm (slotSat slot) u x.toNat
  else narrowInt (fmtSigned c) (fmtBits c) (slotSat slot) (if fmtSigned c then x.toInt else (x.toNat : Int))

/-- Conversion of wide registers through a slot: the narrow registers and flags (R212, R213). -/
def narrowRegs (slot : Word) (rm : Rm) (u : Nat) (xs : List Word) : List Word × Word :=
  let c := slotFmt slot
  if c = 5 ∨ c = 6 then
    let (els, x0, x1, fl) := toBlock (c == 6) rm (slotSat slot) (xs.map (fun x => fp32.value x.toNat))
      ((List.range xs.length).map (randomAt u))
    (packRegs (fmtBits c) els ++ [BitVec.ofNat 32 (x0 + 256 * x1)], fl)
  else
    let es := xs.zipIdx.map (fun (x : Word × Nat) => narrowElem slot rm (randomAt u x.2) x.1)
    (packRegs (fmtBits c) (es.map (·.1)), es.foldl (fun fl e => fl ||| e.2) 0)

/-- One element on the wide side, and whether it is a signalling NaN (R113, R215). -/
def wideElem (c : Nat) (e : Nat) : Word × Word :=
  if c ≤ 4 then
    let r := fp32.convert (fmtOf c) .rne false 0 e
    (BitVec.ofNat 32 r.1, r.2 &&& fNV)
  else (if fmtSigned c then (BitVec.ofInt 32 (BitVec.ofNat (fmtBits c) e).toInt) else BitVec.ofNat 32 e, 0)

/-- A block element on the wide side (R113). -/
def wideBlock (bfp4 : Bool) (x0 x1 e : Nat) : Word :=
  match blockValue bfp4 x0 x1 e with
  | .fin n m x => BitVec.ofNat 32 (fp32.round .rne false 0 n m x).1
  | _ => BitVec.ofNat 32 fp32.qnan

/-- Narrow registers to wide ones (R215). -/
def wideRegs (slot : Word) (rs : List Word) : List Word × Word :=
  let c := slotFmt slot
  let es := unpackRegs (fmtBits c) (fmtCount c) rs
  if c = 5 ∨ c = 6 then
    let sc := (rs.getLastD 0).toNat
    (es.map (wideBlock (c == 6) (sc % 256) (sc / 256 % 256)), 0)
  else
    let ws := es.map (wideElem c)
    (ws.map (·.1), ws.foldl (fun fl e => fl ||| e.2) 0)

/-- The effective rounding of a conversion through a slot (R117). -/
def State.rmS (s : State) (f : FA) (l : Nat) : Rm := (s.fp l).rmSlot f.rm.toNat (s.slot f.fmt)

/-- A slot word's rounding is stochastic whatever `FPMODE` holds (R117, R213). -/
def isStochastic (f : FA) (slot : Word) : Bool := f.rm == 3 || (f.rm == 0 && slotRnd slot == 4)

/-- `cvtfmt` (R213). -/
def execCvtfmt (h : Hdr) (f : FA) (s : State) : Host.Outcome State Fault Refusal :=
  let slot := s.slot f.fmt
  let a := opA f (max 1 (fmtCount (slotFmt slot)))
  let rs := isStochastic f slot
  .next (s.laneWord h f.d.toNat (a :: if rs then [opB f 1] else []) (fun l =>
    let u := if rs then s.opnd h f.imm .i32 l (opB f 1) else 0
    let r := narrowRegs slot (s.rmS f l) u (s.opndRun h f.imm l a)
    { regs := r.1, flags := r.2 }))

/-- `packh` (R214): NEGC and ABSC have no effect on the random operand (DESIGN CHOICE, log 45). -/
def execPackh (h : Hdr) (f : FA) (s : State) : Host.Outcome State Fault Refusal :=
  let slot := s.slot f.fmt
  let m := fmtOf (slotFmt slot)
  let rs := isStochastic f slot
  .next (s.laneWord h f.d.toNat ([opA f 1, opB f 1] ++ if rs then [opC f 1] else []) (fun l =>
    let u := if rs then s.opnd h f.imm .i32 l (opC f 1) else 0
    let a := fp32.modify f.absa f.nega (s.opnd h f.imm .f32 l (opA f 1))
    let b := fp32.modify f.absb f.negb (s.opnd h f.imm .f32 l (opB f 1))
    let lo := m.convert fp32 (s.rmS f l) (slotSat slot) u a
    let hi := m.convert fp32 (s.rmS f l) (slotSat slot) (randomAt u 1) b
    { regs := [BitVec.ofNat 32 (lo.1 + 65536 * hi.1)], flags := lo.2 ||| hi.2 }))

/-- `unpackh` (R215). A small constant as source is the integer's 32-bit pattern (DESIGN CHOICE, log 45). -/
def execUnpackh (h : Hdr) (f : FA) (s : State) : Host.Outcome State Fault Refusal :=
  let slot := s.slot f.fmt
  let a := opA f (max 1 (fmtNarrow (slotFmt slot)))
  .next (s.laneWord h f.d.toNat [a] (fun l =>
    let r := wideRegs slot (s.opndRun h f.imm l a)
    { regs := r.1, flags := r.2 }))

end Sys2Proof.Machine
end

