-- ==== Sys2Proof/Machine/Cross.lean ====
section
/-! DEFINITION. Cross-lane instructions and random numbers: opcodes 0x80 to 0x8f (R217 to R227). -/

namespace Sys2Proof.Machine

/-- Live lanes of a logical group. -/
def Group.liveOf (g : Group) (j : Nat) : List Nat := lanesOf (g.div.live &&& g.lgMask j) g.hw

/-- A group-wide register word: `f` gives the results of a logical group from its live lanes (R218). Every
operand is read in every live lane before any result is written. -/
def State.crossWord (s : State) (h : Hdr) (d : Nat) (ops : List Opnd) (f : Nat → List Nat → Nat → LaneOut) : State :=
  s.groupWide (
    let lanes := s.grp.execLanes s.curLaunch h
    let js := (List.range s.grp.nLg).filter (fun j => lanes.any (fun l => s.grp.lgOf l == j))
    let read := js.flatMap s.grp.liveOf
    match s.readTrap h.rate.toNat ops read with
    | some t =>
      if t.cause = 0x14 then s.pendAll h ((s.poisonLanes h.rate.toNat ops read).map (fun x => (x.1, .poison x.2)))
      else (s.overflowTaken t).trap t false
    | none =>
      let outs := js.flatMap (fun j =>
        let out := f j (s.grp.liveOf j)
        (lanes.filter (fun l => s.grp.lgOf l == j)).map (fun l => (l, out l)))
      (s.writeLanes h d outs).done h)

/-! ## Shuffles and broadcast (R221, R222) -/

/-- The offset of a shuffle: b, or the width-relative one. -/
def shflOffset (wrel : Bool) (w b : Nat) : Nat := if wrel then (if b ≤ 7 then w / 2 ^ b else 0) else b

/-- A shuffle whose source lane for lane `l`, within the logical group, is `src l b`. -/
def State.shuffle (s : State) (h : Hdr) (f : FA) (src : Nat → Nat → Int) : State :=
  let a := opA f 1
  let b := opB f 1
  let w := s.grp.lw
  s.crossWord h f.d.toNat [a, b] (fun j live l =>
    let from_ := src (l - j * w) (s.opnd h f.imm .i32 l b)
    let m := j * w + from_.toNat
    let ok := decide (0 ≤ from_) && decide (from_ < w) && live.contains m
    { regs := [s.opndWord h f.imm (if ok then m else l) a 0] })

/-- `shfl.idx` (R221). -/
def execShflIdx (h : Hdr) (f : FA) (s : State) : Host.Outcome State Fault Refusal :=
  .next (s.shuffle h f (fun _ b => ((b % s.grp.lw : Nat) : Int)))
/-- `shfl.xor` (R221). -/
def execShflXor (h : Hdr) (f : FA) (s : State) : Host.Outcome State Fault Refusal :=
  .next (s.shuffle h f (fun l b => ((l ^^^ shflOffset (f.sub.getLsbD 0) s.grp.lw b : Nat) : Int)))
/-- `shfl.up` (R221). -/
def execShflUp (h : Hdr) (f : FA) (s : State) : Host.Outcome State Fault Refusal :=
  .next (s.shuffle h f (fun l b => (l : Int) - shflOffset (f.sub.getLsbD 0) s.grp.lw b))
/-- `shfl.down` (R221). -/
def execShflDown (h : Hdr) (f : FA) (s : State) : Host.Outcome State Fault Refusal :=
  .next (s.shuffle h f (fun l b => (l : Int) + shflOffset (f.sub.getLsbD 0) s.grp.lw b))

/-- `bcast` (R222). -/
def execBcast (h : Hdr) (f : FA) (s : State) : Host.Outcome State Fault Refusal :=
  let a := opA f 1
  let b := opB f 1
  .next (s.crossWord h f.d.toNat [a, b] (fun j live =>
    let m := j * s.grp.lw + s.opnd h f.imm .i32 (live.headD 0) b % s.grp.lw
    let v := if live.contains m then s.opndWord h f.imm m a 0 else 0
    fun _ => { regs := [v] }))

/-! ## Votes (R223) -/

/-- The source predicate of a vote, inverted when `neg`; at a rate packed GROUP the lowest live lane's
(R330). -/
def State.votePred (s : State) (h : Hdr) (f : FA) (live : List Nat) (l : Nat) : Bool :=
  let l' := if s.curLaunch.isGroupRate h.rate.toNat then live.headD l else l
  s.grp.predOf (f.sa.toNat % 16) l' != f.sub.getLsbD 0

/-- `vote.any` (R223). -/
def execVoteAny (h : Hdr) (f : FA) (s : State) : Host.Outcome State Fault Refusal :=
  .next (s.crossWord h f.d.toNat [] (fun _ live =>
    let r := live.any (s.votePred h f live)
    fun _ => { pred := some r }))
/-- `vote.all` (R223). -/
def execVoteAll (h : Hdr) (f : FA) (s : State) : Host.Outcome State Fault Refusal :=
  .next (s.crossWord h f.d.toNat [] (fun _ live =>
    let r := live.all (s.votePred h f live)
    fun _ => { pred := some r }))
/-- `vote.eq` (R223). -/
def execVoteEq (h : Hdr) (f : FA) (s : State) : Host.Outcome State Fault Refusal :=
  let a := opA f 1
  .next (s.crossWord h f.d.toNat [a] (fun _ live =>
    let v (l : Nat) : Word := s.opndWord h f.imm l a 0
    let r := live.all (fun l => v l == v (live.headD 0))
    fun _ => { pred := some r }))
/-- `vote.mask` (R223). -/
def execVoteMask (h : Hdr) (f : FA) (s : State) : Host.Outcome State Fault Refusal :=
  let w := s.grp.lw
  .next (s.crossWord h f.d.toNat [] (fun j live =>
    let m := sumOf ((live.filter (s.votePred h f live)).map (fun l => 2 ^ (l - j * w)))
    let rs : List Word := (List.range ((w + 31) / 32)).map (fun i => BitVec.ofNat 32 (m / 2 ^ (32 * i)))
    fun _ => { regs := rs }))

/-! ## Reductions and scans (R224, R225) -/

/-- A value and the flags raised on the way. -/
abbrev Red := Option Nat

/-- Combine present values (R224). -/
def redComb (op : Nat → Nat → FRes) (a b : Red) : Red × Word :=
  match a, b with
  | none, _ => (b, 0)
  | _, none => (a, 0)
  | some x, some y => (some (op x y).1, (op x y).2)

/-- One step of the tree of R224: lanes whose bit `s` is 0 take their partner's value in. -/
def redStep (op : Nat → Nat → FRes) (st : Nat) (xs : List Red) : List Red × Word :=
  let ys := xs.zipIdx.map (fun (x : Red × Nat) =>
    if x.2 / st % 2 = 0 then redComb op x.1 (xs.getD (x.2 + st) none) else (x.1, 0))
  (ys.map (·.1), ys.foldl (fun f y => f ||| y.2) 0)

/-- One step of the scan of R225. -/
def scanStep (op : Nat → Nat → FRes) (st : Nat) (xs : List Red) : List Red × Word :=
  let ys := xs.zipIdx.map (fun (x : Red × Nat) =>
    if st ≤ x.2 then redComb op (xs.getD (x.2 - st) none) x.1 else (x.1, 0))
  (ys.map (·.1), ys.foldl (fun f y => f ||| y.2) 0)

/-- The steps for distances 1, 2, 4 … below the width. -/
def logSteps (step : Nat → List Red → List Red × Word) (w : Nat) : Nat → Nat → List Red × Word → List Red × Word
  | 0, _, x => x
  | n + 1, st, x =>
    if w ≤ st then x
    else
      let y := step st x.1
      logSteps step w n (2 * st) (y.1, x.2 ||| y.2)

/-- The integer operations of R224. -/
def redInt (code : Nat) (a b : Nat) : FRes :=
  let lt := decide ((BitVec.ofNat 32 a).toInt ≤ (BitVec.ofNat 32 b).toInt)
  (match code with
    | 0 => (a + b) % 2 ^ 32
    | 1 => if lt then a else b
    | 2 => min a b
    | 3 => if lt then b else a
    | 4 => max a b
    | 5 => a &&& b
    | 6 => a ||| b
    | _ => a ^^^ b, 0)

/-- The floating operations of R224. -/
def redFlt (x : LGroup) (rm : Rm) (code : Nat) (a b : Nat) : FRes :=
  let a' := fp32.dazIn x.daz a
  let b' := fp32.dazIn x.daz b
  fp32.ftzOut x.ftz (if code = 0 then fp32.add rm a' b' else fp32.minMax (code == 2) a' b')

/-- Identities of exclusive scans (R225). -/
def redIdent (t : RedTy) (code : Nat) : Nat :=
  match t with
  | .int => [0, 0x7fffffff, 0xffffffff, 0x80000000, 0, 0xffffffff, 0, 0].getD code 0
  | .flt => [0x80000000, 0x7f800000, 0xff800000].getD code 0

/-- A NaN becomes the canonical one. -/
def canonNan (x : Nat) : Nat := if (fp32.value x).isNan then fp32.qnan else x

/-- The values that enter: present in live lanes only. -/
def State.redInputs (s : State) (h : Hdr) (f : FA) (t : RedTy) (j : Nat) (live : List Nat) : List Red :=
  let a := opA f 1
  (List.range s.grp.lw).map (fun i =>
    let l := j * s.grp.lw + i
    if live.contains l then
      some (match t with
        | .int => s.opnd h f.imm .i32 l a
        | .flt => fp32.dazIn (s.fp l).daz (fp32.modify f.absa f.nega (s.opnd h f.imm .f32 l a)))
    else none)

/-- The operation of a reduction or scan in a logical group. -/
def State.redOp (s : State) (f : FA) (t : RedTy) (j : Nat) : Nat → Nat → FRes :=
  let x := s.grp.lg j
  match t with
  | .int => redInt (f.sub.toNat % 8)
  | .flt => redFlt x (x.rmOf f.rm.toNat) (f.sub.toNat % 8)

/-- The result pattern, NaNs canonical in the floating forms. -/
def redOut (t : RedTy) (x : Nat) : Word := BitVec.ofNat 32 (match t with | .int => x | .flt => canonNan x)

/-- `lred` (R224). -/
def execLred (t : RedTy) (h : Hdr) (f : FA) (s : State) : Host.Outcome State Fault Refusal :=
  .next (s.crossWord h f.d.toNat [opA f 1] (fun j live =>
    let r := logSteps (redStep (s.redOp f t j)) s.grp.lw 8 1 (s.redInputs h f t j live, 0)
    fun _ => { regs := [redOut t ((r.1.headD none).getD 0)], flags := r.2 }))

/-- `lscan` (R225). -/
def execLscan (t : RedTy) (h : Hdr) (f : FA) (s : State) : Host.Outcome State Fault Refusal :=
  let w := s.grp.lw
  .next (s.crossWord h f.d.toNat [opA f 1] (fun j live =>
    let r := logSteps (scanStep (s.redOp f t j)) w 8 1 (s.redInputs h f t j live, 0)
    let excl := f.sub.getLsbD 3
    fun l =>
      let i := l - j * w
      let v := if excl then (if i = 0 then none else r.1.getD (i - 1) none) else r.1.getD i none
      { regs := [redOut t (v.getD (redIdent t (f.sub.toNat % 8)))], flags := r.2 }))

/-! ## Sampling and random numbers (R226, R227) -/

/-- A weight as a finite non-negative value; none for one that counts as zero (R226). -/
def weightOf (x : Nat) : Option Term :=
  match fp32.value x with
  | .fin false m e => if m = 0 then none else some ⟨false, m, e⟩
  | _ => none

/-- The lowest lane whose prefix sum exceeds the threshold (R226); `ws` are weights in common units. -/
def csampPick (u total : Nat) : List (Nat × Nat) → Nat → Option Nat
  | [], _ => none
  | (l, x) :: rest, acc => if u * total < (acc + x) * 2 ^ 32 then some l else csampPick u total rest (acc + x)

/-- The choice of `csamp` among the live lanes with their weights (R226); lanes within the group. -/
def csampChoose (u : Nat) (ws : List (Nat × Nat)) : Word :=
  match ws.find? (fun x => fp32.value x.2 == .inf false) with
  | some x => BitVec.ofNat 32 x.1
  | none =>
    let q := lowExp (ws.filterMap (fun x => weightOf x.2))
    let units := ws.map (fun (x : Nat × Nat) => (x.1, match weightOf x.2 with | some t => (sumUnits q [t]).toNat | none => 0))
    let total := sumOf (units.map (·.2))
    if total = 0 then 0xffffffff
    else match csampPick u total units 0 with
      | some l => BitVec.ofNat 32 l
      | none => 0xffffffff

/-- `csamp` (R226). -/
def execCsamp (h : Hdr) (f : FA) (s : State) : Host.Outcome State Fault Refusal :=
  let a := opA f 1
  let b := opB f 1
  .next (s.crossWord h f.d.toNat [a, b] (fun j live =>
    let u := s.opnd h f.imm .i32 (live.headD 0) b
    let c := csampChoose u (live.map (fun l => (l - j * s.grp.lw, s.opnd h f.imm .f32 l a)))
    fun _ => { regs := [c] }))

/-- The mixing function of R227. -/
def mix32 (x : Word) : Word :=
  let x1 := x ^^^ (x >>> 16)
  let x2 := x1 * 0x7feb352d
  let x3 := x2 ^^^ (x2 >>> 15)
  let x4 := x3 * 0x846ca68b
  x4 ^^^ (x4 >>> 16)

/-- `prng` (R227). -/
def execPrng (h : Hdr) (f : FA) (s : State) : Host.Outcome State Fault Refusal :=
  let a := opA f 1
  let b := opB f 1
  .next (s.laneWord h f.d.toNat [a, b] (fun l =>
    let lane := s.grp.special s.curLaunch h.rate.toNat l 1 0
    { regs := [mix32 (s.opndWord h f.imm l b 0 + mix32 (s.opndWord h f.imm l a 0 ^^^ (lane * 0x9e3779b9)))] }))

/-- `hrnd` (R227). -/
def execHrnd (h : Hdr) (f : FA) (s : State) : Host.Outcome State Fault Refusal :=
  let a := opA f 2
  let b := opB f 1
  .next (s.laneWord h f.d.toNat [a, b] (fun l =>
    let x := s.opnd h f.imm .i64 l a
    { regs := [mix32 (BitVec.ofNat 32 (x / 2 ^ 32)
        ^^^ mix32 (BitVec.ofNat 32 x ^^^ mix32 (s.opndWord h f.imm l b 0)))] }))

end Sys2Proof.Machine
end

