-- ==== Sys2Proof/Machine/MemOps.lean ====
section
/-! DEFINITION. Loads and stores, scratchpad access, prefetch and cache operations, and atomics: opcodes
0xa0 to 0xa6 and 0xab to 0xaf (R250 to R256, R263 to R266). -/

namespace Sys2Proof.Machine

/-! ## Common parts -/

/-- Bytes of a SIZE code (R250). -/
def sizeBytes (f : FM) : Nat := 2 ^ f.size.toNat
/-- Registers that a value of the SIZE takes. -/
def sizeRegs (f : FM) : Nat := if f.size.toNat = 3 then 2 else if f.size.toNat = 4 then 4 else 1

/-- The registers that a loaded value writes (R250). -/
def loadRegs (f : FM) (bs : List Byte) : List Word :=
  let x := ofLe bs
  let sx (w : Nat) : Word := if f.sign = 1 then BitVec.ofInt 32 (sxNat x w) else BitVec.ofNat 32 x
  match f.size.toNat with
  | 0 => [sx 8]
  | 1 => [sx 16]
  | 2 => [BitVec.ofNat 32 x]
  | 3 => pairOf x
  | _ => (List.range 4).map (fun i => BitVec.ofNat 32 (x / 2 ^ (32 * i)))

/-- The value of a data operand, as a number (R250). -/
def State.dataNat (s : State) (h : Hdr) (f : FM) (field : BitVec 12) (lane : Nat) : Nat :=
  match sizeRegs f with
  | 1 => s.opnd h f.imm .i32 lane (opX field 1)
  | 2 => s.opnd h f.imm .i64 lane (opX field 2)
  | _ => ((s.opndRun h f.imm lane (opX field 4)).map BitVec.toNat).foldr (fun x r => x + 2 ^ 32 * r) 0

/-- The bytes that a lane stores. -/
def State.dataBytes (s : State) (h : Hdr) (f : FM) (lane : Nat) : List Byte :=
  leBytes (s.dataNat h f f.c lane) (sizeBytes f)

/-- A word of R100 in a speculative group waits at the word until its segment commits. -/
def State.holdSpec (s : State) (always : Bool) (f : State) : State :=
  if always && s.speculative s.grp then s.waitAt (.split .commit) else f

/-- Lanes that a word's stores and atomics are performed for: not helper lanes (R21). -/
def State.realLanes (s : State) (h : Hdr) (lanes : List Nat) : List Nat :=
  lanes.filter (fun l => !s.grp.helper (s.curLaunch.isGroupRate h.rate.toNat) l)

/-! ## Loads and stores (R250, R251) -/

/-- The lanes of a load in turn: what each writes, and those that stopped. -/
def State.loadAll (s : State) (g : Group) (bypass : Bool) (n : Nat) (regs : List Byte → List Word) :
    List (Nat × Nat) → State × List (Nat × LaneOut) × List (Nat × LaneStop)
  | [] => (s, [], [])
  | (l, va) :: rest =>
    let (r, s1) := s.loadLane g bypass va n
    let (s2, outs, stops) := State.loadAll s1 g bypass n regs rest
    match r with
    | .ok bs => (s2, (l, { regs := regs bs }) :: outs, stops)
    | .fault f => (s2, outs, (l, .fault f) :: stops)
    | .poison a => (s2, outs, (l, .poison a) :: stops)

/-- `ld` (R250). -/
def execLd (h : Hdr) (f : FM) (s : State) : Host.Outcome State Fault Refusal :=
  .next (s.withLanes h [opX f.a 2, opX f.b 1] (fun lanes bad =>
    let (s1, outs, stops) := s.loadAll s.grp (f.e.toNat == 2) (sizeBytes f) (loadRegs f)
      (lanes.map (fun l => (l, s.memAddr h f l)))
    s.limited (s1.finish h f.d.toNat outs (stops ++ bad) 0 0)))

/-- What a store word does before it is performed: the bytes of each lane, by physical address, and the
lanes that stopped. -/
def State.storePlan (s : State) (g : Group) :
    List (Nat × Nat × List Byte) → State × List (Nat × Byte) × List (Nat × LaneStop)
  | [] => (s, [], [])
  | (l, va, bs) :: rest =>
    let (r, s1) := s.translateRange (some g.core) g.bead g.asid .write va bs.length
    let (s2, cells, stops) := State.storePlan s1 g rest
    match r with
    | .ok pas => (s2, pas.zip bs ++ cells, stops)
    | .error f => (s2, cells, (l, .fault f) :: stops)

/-- How a store finds the release buffer (R76, R78): it may proceed, its region must end first, or it
waits. -/
inductive RoomFor where
  | yes
  | endRegion
  | wait (need : Nat)
  deriving DecidableEq, Repr

def State.relRoom (s : State) (g : Group) (window : Bool) (secs : List Nat) : RoomFor :=
  let rel := (s.core g.core).rel
  let mine (e : RelEnt) (sec : Nat) : Bool :=
    e.gid == g.gid && e.window == window && (!window || e.team == g.team) && e.sector == sec
  let need := (secs.filter (fun sec => !rel.any (fun e => mine e sec))).length
  if !g.div.inreg || decide (rel.length + need ≤ 64) then .yes
  else if rel.all (fun e => e.gid == g.gid) then .endRegion
  else .wait need

/-- `st` (R250). -/
def execSt (h : Hdr) (f : FM) (s : State) : Host.Outcome State Fault Refusal :=
  .next (s.withLanes h [opX f.a 2, opX f.b 1, opX f.c (sizeRegs f)] (fun lanes bad =>
    let (s1, cells, stops0) := s.storePlan s.grp
      ((s.realLanes h lanes).map (fun l => (l, s.memAddr h f l, s.dataBytes h f l)))
    let stops := stops0 ++ bad
    match s1.relRoom s1.grp false (sectorsOf cells) with
    | .wait n => s.waitAt (.split (.buffer n))
    | .yes => s.limited ((s1.groupStore s1.grp cells).finish h 0 [] stops 0 1)
    | .endRegion =>
      let s2 := s1.endRegion
      s.limited ((s2.groupStore s2.grp cells).finish h 0 [] stops 0 1)))

/-! ## Scratchpad (R252, R253) -/

/-- Window bytes of the focus group's team (R50). -/
def State.spw (s : State) : Nat := ((s.findTeam s.grp.team).map (·.spw)).getD 0

/-- The KIND of an access violation of a window access of `n` bytes at an offset (R252, R253, R265). -/
def padViolation (spw n : Nat) (aligned : Bool) (off : Nat) : Option Nat :=
  if spw < off + n then some 0 else if aligned && off % n != 0 then some 1 else none

/-- A window word: no lane performs it when some lane's access is a violation. -/
def State.padWord (s : State) (n : Nat) (aligned : Bool) (offs : List (Nat × Nat)) (f : State) : State :=
  match offs.findSome? (fun (x : Nat × Nat) => (padViolation s.spw n aligned x.2).map (fun k => (k, x))) with
  | some (k, l, off) => s.accessViolation k (l % s.grp.lw) off
  | none => f

/-- One byte of the team window, as a group sees it: its own buffered stores first (R76). -/
def State.padByte (s : State) (g : Group) (off : Nat) : Byte :=
  ((s.core g.core).buffered g.gid true g.team off).getD
    (match s.findTeam g.team with | some t => SMap.get 0 t.spad off | none => 0)

/-- Bytes of the team window. -/
def State.padBytes (s : State) (g : Group) (off n : Nat) : List Byte := (List.range n).map (fun i => s.padByte g (off + i))

/-- The poison that a group's read of the window meets: its lowest poisoned sector, where its buffered stores do not supply
all that it reads there (R137, R384). -/
def State.padPoison (s : State) (g : Group) (off n : Nat) : Option Nat :=
  ((s.findTeam g.team).bind (fun t => t.bad.find? (fun x => (List.range n).any (fun i =>
    (off + i) / 64 == x.1 && ((s.core g.core).buffered g.gid true g.team (off + i)).isNone)))).map (fun x => x.2.toNat)

/-- The lanes of a window read that meet poison; the others perform it. -/
def State.padStops (s : State) (g : Group) (n : Nat) (offs : List (Nat × Nat)) : List (Nat × LaneStop) :=
  offs.filterMap (fun x => (s.padPoison g x.2 n).map (fun a => (x.1, .poison a)))

/-- Store bytes of the team window: buffered in a region, else performed (R76). -/
def State.padStore (s : State) (g : Group) (cells : List (Nat × Byte)) : State :=
  if g.div.inreg then s.updCore g.core (fun c => { c with rel := relStore c.rel g.gid true g.team cells })
  else s.updTeam g.team (fun t => t.writeWindow cells)

/-- Bytes at consecutive places. -/
def cellsAt (off : Nat) (bs : List Byte) : List (Nat × Byte) := bs.zipIdx.map (fun (x : Byte × Nat) => (off + x.2, x.1))

/-- `lds` (R252). -/
def execLds (h : Hdr) (f : FM) (s : State) : Host.Outcome State Fault Refusal :=
  let n := sizeBytes f
  .next (s.withLanes h [opX f.a 1, opX f.b 1] (fun lanes bad =>
    let offs := lanes.map (fun l => (l, s.padAddr h f l))
    let stops := s.padStops s.grp n offs
    s.padWord n false offs
      ((s.writeLanes h f.d.toNat ((offs.filter (fun x => !stops.any (fun y => y.1 == x.1))).map (fun x =>
        (x.1, { regs := loadRegs f (s.padBytes s.grp x.2 n) })))).doneBut h (stops ++ bad))))

/-- `sts` (R252). -/
def execSts (h : Hdr) (f : FM) (s : State) : Host.Outcome State Fault Refusal :=
  let n := sizeBytes f
  .next (s.withLanes h [opX f.a 1, opX f.b 1, opX f.c (sizeRegs f)] (fun lanes0 bad =>
    let lanes := s.realLanes h lanes0
    s.padWord n false (lanes.map (fun l => (l, s.padAddr h f l))) (
      let cells := lanes.flatMap (fun l => cellsAt (s.padAddr h f l) (s.dataBytes h f l))
      match s.relRoom s.grp true (sectorsOf cells) with
      | .wait n => s.waitAt (.split (.buffer n))
      | .yes => (s.padStore s.grp cells).doneBut h bad
      | .endRegion =>
        let s1 := s.endRegion
        (s1.padStore s1.grp cells).doneBut h bad)))

/-! ## Prefetch and cache operations (R254 to R256) -/

/-- Do something for the physical address of each lane whose address can be read; others are ignored. -/
def State.eachLine (s : State) (g : Group) (f : State → Nat → State) : List Nat → State
  | [] => s
  | va :: rest =>
    match s.translate (some g.core) g.bead g.asid va .read with
    | (.error _, s1) => State.eachLine s1 g f rest
    | (.ok pa, s1) => State.eachLine (f s1 pa) g f rest

/-- `pf` (R254): the four sectors of the line (R133); a lane in a poisoned sector is ignored. -/
def execPf (h : Hdr) (f : FM) (s : State) : Host.Outcome State Fault Refusal :=
  let core := s.grp.core
  let fill (t : State) (pa : Nat) : State :=
    if f.e.toNat = 1 ∨ t.poison.contains (sectorOf pa) then t else (List.range 4).foldl (fun u i => u.fillL1 core (pa / 256 * 4 + i)) t
  .next (s.withLanes h [opX f.a 2, opX f.b 1] (fun lanes bad =>
    (s.eachLine s.grp fill (lanes.map (s.memAddr h f))).doneBut h bad))

/-- Drop the sectors of a 256-byte line from a cache. -/
def dropLine (m : SMap (List Byte)) (pa : Nat) : SMap (List Byte) := m.filter (fun x => x.1 / 4 != pa / 256)

/-- `cinv` (R255, R100). -/
def execCinv (h : Hdr) (f : FM) (s : State) : Host.Outcome State Fault Refusal :=
  let drop (t : State) (pa : Nat) : State :=
    t.updCore s.grp.core (fun c => { c with
      l1 := if f.e.getLsbD 0 then dropLine c.l1 pa else c.l1
      samp := if f.e.getLsbD 1 then dropLine c.samp pa else c.samp })
  .next (s.holdSpec true (s.withOps h [opX f.a 2, opX f.b 1] (fun lanes =>
    (s.eachLine s.grp drop (lanes.map (s.memAddr h f))).done h)))

/-- `cwb` (R256). -/
def execCwb (h : Hdr) (f : FM) (s : State) : Host.Outcome State Fault Refusal :=
  let clean (t : State) (pa : Nat) : State :=
    if t.poison.contains (sectorOf pa) then t else { t with wmask := SMap.del t.wmask (pa / 256) }
  .next (s.withLanes h [opX f.a 2, opX f.b 1] (fun lanes bad =>
    (s.eachLine s.grp clean (lanes.map (s.memAddr h f))).doneBut h bad))

/-! ## Atomics (R263 to R266, R151 to R153) -/

/-- The new value of an atomic of `w` bits (R263). -/
def atomicNew (op w old c : Nat) : Nat :=
  let sg (x : Nat) : Int := sxNat x w
  match op with
  | 0 => (old + c) % 2 ^ w
  | 1 => if sg c < sg old then c else old
  | 2 => min old c
  | 3 => if sg old < sg c then c else old
  | 4 => max old c
  | 5 => old &&& c
  | 6 => old ||| c
  | 7 => old ^^^ c
  | 8 => c
  | 9 => canonNan (nAdd old c)
  | 10 => nMin old c
  | _ => nMax old c

/-- The acquire half of a fence or atomic: at bead scope or wider the core's L1 is invalidated (R149). -/
def State.acquire (s : State) (order scope : Nat) : State :=
  if order % 2 = 1 ∧ 2 ≤ scope then s.dropL1 s.grp.core else s

/-- One lane's atomic on physical bytes (R151): in the core's L1 at group or core scope, at the home slice
above; `new` gives the value to store, none where the location stays unchanged. The old value. -/
def State.atomicAt (s : State) (g : Group) (scope : Nat) (pas : List Nat) (new : Nat → Option Nat) : Nat × State :=
  let (bs, s1) := s.lsuBytes g (decide (2 ≤ scope)) pas
  let old := ofLe bs
  match new old with
  | none => (old, s1)
  | some v => (old, s1.groupStore g (pas.zip (leBytes v pas.length)))

/-- The lanes of an atomic word in turn (R265). -/
def State.atomicAll (s : State) (g : Group) (scope n : Nat) (new : Nat → Nat → Option Nat) :
    List (Nat × Nat) → State × List (Nat × Nat) × List (Nat × LaneStop)
  | [] => (s, [], [])
  | (l, va) :: rest =>
    let (r, s1) := s.translateRange (some g.core) g.bead g.asid .atomic va n
    let (stop, old, s2) : Option LaneStop × Nat × State := match r with
      | .error f => (some (.fault f), 0, s1)
      | .ok pas => match s1.poisonedBut (s1.supplied g (decide (2 ≤ scope))) pas with
        | some _ => (some (.poison (va / 64 * 64)), 0, s1)
        | none =>
          let (x, t) := s1.atomicAt g scope pas (new l)
          (none, x, t)
    let (s3, olds, stops) := State.atomicAll s2 g scope n new rest
    match stop with
    | some x => (s3, olds, (l, x) :: stops)
    | none => (s3, (l, old) :: olds, stops)

/-- The registers of an atomic's old value. -/
def oldRegs (n old : Nat) : List Word := if n = 8 then pairOf old else [BitVec.ofNat 32 old]

/-- Path mask bit of an engine operation (R138): copy 2, matx 3, net 4; 5 for the graph walker. -/
def OpKind.path : OpKind → Nat
  | .tcopy _ _ _ => 2
  | .chain _ _ _ _ _ => 2
  | .copyCmd _ _ _ => 2
  | .mma _ _ _ _ _ _ _ _ _ => 3
  | .accld _ _ _ _ => 3
  | .accst _ _ _ _ => 3
  | .accz _ => 3
  | .accrel _ => 3
  | .nput _ _ _ _ => 4
  | .nget _ _ _ _ => 4
  | .nsig _ _ _ => 4
  | .launchNode _ _ => 5
  | .join => 5
  | .tpost _ => 5
  | .starting _ => 5
  | .finishing _ => 5

/-- The group has an engine operation in progress on a class of the mask (R150), among the logical groups
given. -/
def State.opsOn (s : State) (gid : Nat) (lgs : List Nat) (mask : Nat) : Bool :=
  s.engOps.any (fun o => o.gid == some gid && lgs.contains o.lg && nbits mask o.kind.path 1 == 1)

/-- The path classes for whose engine operations a fence waits: those named, and NET where it releases at system scope
(R267). -/
def fenceWaits (first order scope : Nat) : Nat := if 2 ≤ order ∧ 5 ≤ scope then first ||| 16 else first

/-- A fence in logical groups `js` waits for engine operations of classes of a mask, else it goes on (R150, R267). -/
def State.afterOps (s : State) (js : List Nat) (mask : Nat) (f : State) : State :=
  if s.opsOn s.grp.gid js mask then s.waitAt (.split (.paths js mask)) else f

/-- A misaligned lane of an atomic word on memory takes the access violation, and no lane is performed
(R265). -/
def State.alignedWord (s : State) (n : Nat) (addrs : List (Nat × Nat)) (f : State) : State :=
  match addrs.find? (fun x => x.2 % n != 0) with
  | some x => s.accessViolation 1 (x.1 % s.grp.lw) x.2
  | none => f

/-- An atomic word on memory (R265, R266): `new` is the value each lane stores in place of the old one. Its release half
at system scope waits as that fence does (R267).
The SC form takes tickets (R152). -/
def State.atomicWord (s : State) (h : Hdr) (f : FM) (ops : List Opnd) (n scope : Nat)
    (new : Nat → Nat → Option Nat) : State :=
  s.holdSpec true (s.withLanes h ([opX f.a 2, opX f.b 1] ++ ops) (fun lanes0 bad =>
    let lanes := s.realLanes h lanes0
    let addrs := lanes.map (fun l => (l, s.memAddr h f l))
    s.alignedWord n addrs (s.afterOps (distinct (lanes0.map s.grp.lgOf)) (fenceWaits 0 f.order.toNat scope) (
      let (s1, olds, stops) := s.atomicAll s.grp scope n new addrs
      let s2 := { s1 with scTicket := s1.scTicket + (if f.scf = 1 then olds.length else 0) }
      let s3 := if olds.isEmpty then s2 else s2.acquire f.order.toNat scope
      s3.finish h f.d.toNat (olds.map (fun x => (x.1, { regs := oldRegs n x.2 }))) (stops ++ bad) 0 2))))

/-- Operand c of an atomic as a number: of the floating ones an FP32 value (R164, R263). -/
def State.atomC (s : State) (h : Hdr) (f : FM) (lane : Nat) : Nat :=
  if 9 ≤ f.e.toNat % 16 then s.opnd h f.imm .f32 lane (opX f.c 1) else s.dataNat h f f.c lane

/-- `atom` (R263). -/
def execAtom (h : Hdr) (f : FM) (s0 : State) : Host.Outcome State Fault Refusal :=
  let s := s0.endRegion
  let n := sizeBytes f
  .next (s.atomicWord h f [opX f.c (sizeRegs f)] n f.scope.toNat (fun l old =>
    some (atomicNew (f.e.toNat % 16) (8 * n) old (s.atomC h f l))))

/-- `cas` (R264). -/
def execCas (h : Hdr) (f : FM) (s0 : State) : Host.Outcome State Fault Refusal :=
  let s := s0.endRegion
  let n := sizeBytes f
  .next (s.atomicWord h f [opX f.c (sizeRegs f), opX f.e (sizeRegs f)] n f.scope.toNat (fun l old =>
    if old = s.dataNat h f f.c l then some (s.dataNat h f f.e l) else none))

/-- `vbat` (R153): at device scope, whatever the scope field says. -/
def execVbat (h : Hdr) (f : FM) (s0 : State) : Host.Outcome State Fault Refusal :=
  let s := s0.endRegion
  .next (s.atomicWord h f [opX f.c 2] 8 4 (fun l old => some (min old (s.opnd h f.imm .i64 l (opX f.c 2)))))

/-- The lanes of an atomic word on the team window in turn. -/
def State.padAtomics (s : State) (g : Group) (n : Nat) (new : Nat → Nat → Option Nat) :
    List (Nat × Nat) → State × List (Nat × Nat)
  | [] => (s, [])
  | (l, off) :: rest =>
    let old := ofLe (s.padBytes g off n)
    let s1 := match new l old with
      | some v => s.padStore g (cellsAt off (leBytes v n))
      | none => s
    let (s2, olds) := State.padAtomics s1 g n new rest
    (s2, (l, old) :: olds)

/-- An atomic word on the team window (R263 to R266, R151). -/
def State.padAtomic (s : State) (h : Hdr) (f : FM) (ops : List Opnd) (n : Nat) (new : Nat → Nat → Option Nat) : State :=
  s.withLanes h ([opX f.a 1, opX f.b 1] ++ ops) (fun lanes0 bad =>
    let lanes := s.realLanes h lanes0
    let offs := lanes.map (fun l => (l, s.padAddr h f l))
    s.padWord n true offs (
      let stops := s.padStops s.grp n offs
      let (s1, olds) := s.padAtomics s.grp n new (offs.filter (fun x => !stops.any (fun y => y.1 == x.1)))
      let s2 := if olds.isEmpty then s1 else s1.acquire f.order.toNat f.scope.toNat
      (s2.writeLanes h f.d.toNat (olds.map (fun x => (x.1, { regs := oldRegs n x.2 })))).doneBut h (stops ++ bad)))

/-- `atom.sp` (R263). -/
def execAtomSp (h : Hdr) (f : FM) (s0 : State) : Host.Outcome State Fault Refusal :=
  let s := s0.endRegion
  let n := sizeBytes f
  .next (s.padAtomic h f [opX f.c (sizeRegs f)] n (fun l old =>
    some (atomicNew (f.e.toNat % 16) (8 * n) old (s.atomC h f l))))

/-- `cas.sp` (R264). -/
def execCasSp (h : Hdr) (f : FM) (s0 : State) : Host.Outcome State Fault Refusal :=
  let s := s0.endRegion
  let n := sizeBytes f
  .next (s.padAtomic h f [opX f.c (sizeRegs f), opX f.e (sizeRegs f)] n (fun l old =>
    if old = s.dataNat h f f.c l then some (s.dataNat h f f.e l) else none))

/-- `tkt` (R272): relaxed, one indivisible step for the word. -/
def execTkt (h : Hdr) (f : FM) (s0 : State) : Host.Outcome State Fault Refusal :=
  let s := s0.endRegion
  .next (s.withLanes h [opX f.a 1, opX f.b 1] (fun lanes0 bad =>
    let lanes := s.realLanes h lanes0
    let offs := lanes.map (fun l => (l, s.padAddr h f l))
    s.padWord 4 true offs (
      let stops := s.padStops s.grp 4 offs
      let (s1, olds) := s.padAtomics s.grp 4 (fun _ old => some ((old + 1) % 2 ^ 32))
        (offs.filter (fun x => !stops.any (fun y => y.1 == x.1)))
      (s1.writeLanes h f.d.toNat (olds.map (fun x => (x.1, { regs := oldRegs 4 x.2 })))).doneBut h (stops ++ bad))))

end Sys2Proof.Machine
end

