-- ==== Sys2Proof/Machine/Sync.lean ====
section
/-! DEFINITION. Fences, barriers, monitors: opcodes 0xc0 to 0xc5 (R146, R150, R67 to R70, R266 to R271). -/

namespace Sys2Proof.Machine

/-! ## Fences -/

/-- Cores of a thread's instance at a scope (R145). -/
def scopeCores (core scope : Nat) : List Nat :=
  match scope with
  | 0 => [core]
  | 1 => [core]
  | 2 => List.range' (core / 4 * 4) 4
  | 3 => List.range' (core / 256 * 256) 256
  | _ => List.range 512

/-- `fence` (R146, R149): a release finds every store of the group performed already; an acquire
invalidates the core's L1. -/
def execFence (h : Hdr) (f : FM) (s0 : State) : Host.Outcome State Fault Refusal :=
  let s := s0.endRegion
  .next (s.holdSpec (decide (4 ≤ f.scope.toNat)) (s.withOps h [] (fun lanes =>
    s.afterOps (distinct (lanes.map s.grp.lgOf)) (fenceWaits 0 f.order.toNat f.scope.toNat)
      ((if lanes.isEmpty then s else s.acquire f.order.toNat f.scope.toNat).done h))))

/-- The SAMP reads of lanes have returned their values (R332). -/
def Group.sampDone (g : Group) (lanes : List Nat) : Group :=
  { g with windows := (g.windows.map (fun w => if w.samp then
      { w with left := w.left.filter (fun x => !lanes.contains x.1) } else w)).filter (fun w => !w.left.isEmpty) }

/-- `xfence` (R150, R332). With LSU in the second set the core's L1 is dropped at any scope, since engine writes leave its
copies as they are; with SAMP in the first set the results of the lanes' earlier SAMP reads are there. -/
def execXfence (h : Hdr) (f : FM) (s0 : State) : Host.Outcome State Fault Refusal :=
  let s := s0.endRegion
  let first := f.e.toNat % 32
  let second := f.e.toNat / 32 % 32
  .next (s.holdSpec (decide (4 ≤ f.scope.toNat)) (s.withOps h [] (fun lanes =>
    s.afterOps (distinct (lanes.map s.grp.lgOf)) (fenceWaits first 3 f.scope.toNat)
      (if lanes.isEmpty then s.done h
      else
        let s1 := if nbits second 0 1 = 1 then s.dropL1 s.grp.core else s.acquire 3 f.scope.toNat
        let s2 := if nbits second 1 1 = 1 then
            (scopeCores s.grp.core f.scope.toNat).foldl (fun t c =>
              if (SMap.find t.cores c).isSome then t.dropSamp c else t) s1
          else s1
        let s3 := if nbits first 1 1 = 1 then s2.setGrp (s2.grp.sampDone ((s.movers h lanes).map (·.1))) else s2
        s3.done h))))

/-! ## Barriers (R67 to R69, R268) -/

/-- A barrier of a team; one that nothing has used holds 0. -/
def State.barrierOf (s : State) (team bar : Nat) : Barrier :=
  ((s.findTeam team).map (fun t => SMap.get {} t.bars bar)).getD {}

/-- One arrival (R68): the barrier after it, none when it is an error. -/
def Barrier.arrive (b : Barrier) (n t : Nat) : Option Barrier :=
  let tgt := if b.count = 0 then t else b.target
  if n = 0 ∨ 65535 < t ∨ t < n ∨ t ≠ tgt ∨ tgt < b.count + n then none
  else if b.count + n = tgt then some { phase := b.phase + 1, count := 0, target := 0 }
  else some { phase := b.phase, count := b.count + n, target := tgt }

/-- The arrivals of a word in lane order: the barrier after them, the phases observed, and the lane whose
arrival is an error. -/
def arriveAll (b : Barrier) : List (Nat × Nat × Nat) → Barrier × List (Nat × Word) × Option Nat
  | [] => (b, [], none)
  | (l, n, t) :: rest =>
    match b.arrive n t with
    | none => (b, [], some l)
    | some b' =>
      let (b2, ps, bad) := arriveAll b' rest
      (b2, (l, b.phase) :: ps, bad)

/-- `bar.arv` (R68, R268, R330). -/
def execBarArv (h : Hdr) (f : FM) (s0 : State) : Host.Outcome State Fault Refusal :=
  let s := s0.endRegion
  let bar := f.e.toNat / 2 % 16
  .next (s.withOps h [opX f.a 1, opX f.b 1] (fun lanes =>
    let (b, phases, bad) := arriveAll (s.barrierOf s.grp.team bar)
      (lanes.map (fun l => (l, s.opnd h f.imm .i32 l (opX f.a 1), s.opnd h f.imm .i32 l (opX f.b 1))))
    let s1 := s.updTeam s.grp.team (fun t => { t with bars := SMap.set {} t.bars bar b })
    let s2 := if f.e.getLsbD 0 then s1
      else s1.writeLanes h f.d.toNat (phases.map (fun x => (x.1, { regs := [x.2] })))
    match bad with
    | some l => s2.illegalState 4 (BitVec.ofNat 64 (bar + 16 * (l % s.grp.lw)))
    | none => s2.done h))

/-- `bar.wait` (R69): a lane whose value differs from the phase does not wait; the word ends its run and is
an acquire at bead scope. -/
def execBarWait (h : Hdr) (f : FM) (s : State) : Host.Outcome State Fault Refusal :=
  let bar := f.e.toNat / 2 % 16
  .next (s.withOps h [opX f.a 1] (fun lanes =>
    let ph := (s.barrierOf s.grp.team bar).phase
    if !s.grp.passed && lanes.any (fun l => s.opndWord h f.imm l (opX f.a 1) 0 == ph) then s.waitAt (.barrier bar ph)
    else
      let s1 := if lanes.isEmpty then s else s.dropL1 s.grp.core
      (s1.setGrp { s1.grp with passed := false }).doneAt []))

/-! ## Monitor and wait (R269 to R271) -/

/-- A location that `mon` may add: the lane, its virtual address and its physical sector. -/
structure MonAt where
  lane : Nat
  va : Nat
  sec : Nat
  deriving DecidableEq, Repr

/-- The lowest lane that would bring a set to nine sectors (R269). -/
def monOver (set : List Nat) : List MonAt → Option MonAt
  | [] => none
  | m :: rest =>
    if set.contains m.sec then monOver set rest
    else if 8 ≤ set.length then some m else monOver (set ++ [m.sec]) rest

/-- Sectors joined by lanes that performed their load. -/
def monJoin (set : List Nat) (secs : List Nat) : List Nat := distinct (set ++ secs)

/-- `mon` (R269). -/
def execMon (h : Hdr) (f : FM) (s0 : State) : Host.Outcome State Fault Refusal :=
  let s := s0.endRegion
  let n := sizeBytes f
  .next (s.holdSpec true (s.withOps h [opX f.a 2, opX f.b 1] (fun lanes =>
    let addrs := lanes.map (fun l => (l, s.memAddr h f l))
    s.alignedWord n addrs (
      let g := s.grp
      let js := distinct (lanes.map g.lgOf)
      let at_ := addrs.filterMap (fun (x : Nat × Nat) =>
        match (s.translate (some g.core) g.bead g.asid x.2 .read).1 with
        | .ok pa => some ({ lane := x.1, va := x.2, sec := sectorOf pa } : MonAt)
        | .error _ => none)
      let ofLg (j : Nat) : List MonAt := at_.filter (fun m => g.lgOf m.lane == j && !s.poison.contains m.sec)
      match js.findSome? (fun j => monOver (g.lg j).monSet (ofLg j)) with
      | some m => s.illegalState 3 (BitVec.ofNat 64 (m.va / 64 * 64))
      | none =>
        let g1 := js.foldl (fun g j => g.updLg j (fun x =>
          { x with monTrig := if x.monSet.isEmpty then false else x.monTrig
                   monSet := monJoin x.monSet ((ofLg j).map (·.sec)) })) g
        let (s1, outs, stops) := (s.setGrp g1).loadAll g1 true n (loadRegs f) addrs
        s1.finish h f.d.toNat outs stops 0 0))))

/-- `mwait` (R270): the group waits while the monitor of a logical group that executes it is set and
untriggered; each has its own timeout, that of its lowest active lane (R71, R271). -/
def execMwait (h : Hdr) (f : FM) (s0 : State) : Host.Outcome State Fault Refusal :=
  let s := s0.endRegion
  .next (s.holdSpec true (s.withOps h [opX f.a 1] (fun lanes =>
    let g := s.grp
    let js := distinct (lanes.map g.lgOf)
    let waits := js.filter (fun j => !(g.lg j).monSet.isEmpty && !(g.lg j).monTrig)
    match waits with
    | [] =>
      let st (l : Nat) : Word := if (g.lg (g.lgOf l)).monSet.isEmpty then 1 else 0
      let s1 := s.writeLanes h f.d.toNat (lanes.map (fun l => (l, { regs := [st l] })))
      (s1.setGrp (js.foldl (fun g j => g.updLg j (fun x => { x with monSet := [], monTrig := false })) s1.grp)).doneAt []
    | ws =>
      let timeout (j : Nat) : Nat := ((lanes.filter (fun l => g.lgOf l == j)).head?).elim 0 (fun l => s.opnd h f.imm .i32 l (opX f.a 1))
      s.waitAt (.monitor js ((ws.filter (fun j => timeout j != 0)).map (fun j =>
        { lg := j, at_ := s.timer.toNat + timeout j, timeout := BitVec.ofNat 32 (timeout j) }))))))

end Sys2Proof.Machine
end

