-- ==== Sys2Proof/Machine/Accept.lean ====
section
/-! DEFINITION. Acceptance of engine words: opcodes 0xd0 to 0xd7 and 0xd9 to 0xdb (R274 to R278, R281 to R290,
R294). What the engines then do stands in Engines.lean. -/

namespace Sys2Proof.Machine

/-! ## Accumulator slots (R131, R286, R288, R98) -/

/-- Slots of a bead that handles of a group hold. -/
def Group.slotsHeld (g : Group) : List Nat := g.lgs.flatMap (fun x => x.handles.flatMap (fun (h : Nat × Handle) => h.2.slots))

/-- Groups on a bead. -/
def State.onBead (s : State) (b : Nat) : List Group := s.allGroups.filter (fun g => g.gid != 0 && g.bead == b)

/-- The free list of a bead, ascending. -/
def State.freeSlots (s : State) (b : Nat) : List Nat :=
  let used := (s.onBead b).flatMap Group.slotsHeld
  (List.range 128).filter (fun x => !used.contains x)

/-- `need` slots are free on the group's bead, within the context's limit (R288). -/
def State.slotsAvail (s : State) (g : Group) (need : Nat) : Bool :=
  let mine := ((s.onBead g.bead).filter (fun x => x.asid == g.asid)).flatMap Group.slotsHeld
  decide (need ≤ (s.freeSlots g.bead).length) && decide (mine.length + need ≤ (s.ctx g.asid).acap)

/-- Running unconfirmed segments that hold slots on a bead (R98). -/
def State.slotHolders (s : State) (b : Nat) : List Seg :=
  s.segs.filter (fun x => x.st.speculative && !s.confirmed x && (s.onBead b).any (fun g =>
    g.asid == x.asid && g.segid == x.segid && g.holdsSlots))

/-- Squash holders, the lowest L first and on equal L the higher SEGID, until the slots are free (R98). -/
def State.slotSquash (s : State) (g : Group) (need : Nat) : Nat → State
  | 0 => s
  | n + 1 =>
    if s.slotsAvail g need then s
    else
      match bestSeg (fun x y => decide (s.lcode x < s.lcode y) || (s.lcode x == s.lcode y && decide (y.segid < x.segid)))
          (s.slotHolders g.bead) with
      | none => s
      | some x => State.slotSquash (s.squash x.asid x.segid false) g need n

/-- Another group of the bead waits for slots without being speculative. -/
def State.slotWaiters (s : State) (g : Group) : List Group :=
  (s.onBead g.bead).filter (fun x => x.gid != g.gid && x.slotSince.isSome && !s.speculative x)

/-- A waiting group is older than this one. -/
def State.olderWaits (s : State) (g : Group) : Bool :=
  (s.slotWaiters g).any (fun x => match g.slotSince, x.slotSince with
    | some a, some b => decide (b < a) || (b == a && decide (x.gid < g.gid))
    | _, _ => true)

/-- The focus waits for slots; the bead's exhaustion timer starts with the first that does (R288). -/
def State.waitSlots (s : State) (need hd : Nat) : State :=
  let g := s.grp
  let now := s.timer.toNat
  let s1 := s.setGrp { g with wait := .slots need hd, slotSince := some (g.slotSince.getD now) }
  if s.speculative g || !(s.slotWaiters g).isEmpty then s1
  else s1.updBead g.bead (fun b => { b with exhFrom := some (match g.slotSince, b.exhFrom with
    | some _, some t => t
    | _, _ => now) })

/-- Slots for a word that binds handles: the state after the squashes of R98, and whether it may bind. -/
def State.roomForSlots (s : State) (need : Nat) : State × Bool :=
  let g := s.grp
  if need = 0 then (s, true)
  else if s.speculative g then (s, (s.slotWaiters g).isEmpty && s.slotsAvail g need)
  else
    let s1 := s.slotSquash g need s.segs.length
    (s1, !s1.olderWaits g && s1.slotsAvail g need)

/-- Slots that a kind takes (R286). -/
def HKind.size : HKind → Nat
  | .f64 => 2
  | _ => 1

/-- The kind that a matrix input's slot gives (R286). -/
def kindOfSlot (slot : Word) : HKind := if slotFmt slot = 7 then .f64 else if slotFmt slot = 8 then .i32 else .f32

/-- Bind a handle of a logical group to free slots. -/
def State.bind (s : State) (j n : Nat) (k : HKind) : State :=
  let slots := (s.freeSlots s.grp.bead).take k.size
  s.setGrp { s.grp.updLg j (fun x => { x with handles := SMap.put x.handles n { kind := k, slots := slots } }) with
    slotSince := none }

/-! ## The operation table (R276, R277, R279) -/

/-- What an attempt to accept comes to for one logical group. -/
inductive EngTry where
  | trap (t : Trap)
  /-- A load of the word stopped. -/
  | stop (x : LaneStop)
  | ok (s : State) (k : OpKind)
  /-- Accepted and complete at once. -/
  | instant (s : State)
  deriving DecidableEq, Repr

/-- The lowest free entry of a table of 32. -/
def LGroup.freeEntry (x : LGroup) : Option Nat := lowestFree (x.ops.map (·.entry)) 0 32

/-- The next SEQ, modulo 2^27, skipping 0 (R276). -/
def nextSeq (q : Nat) : Nat := if (q + 1) % 2 ^ 27 = 0 then 1 else (q + 1) % 2 ^ 27

/-- The token of an entry. -/
def tokenOf (entry seq : Nat) : Word := BitVec.ofNat 32 (entry + 32 * seq)

/-- The engine-fault trap of an entry that holds an error (R279). -/
def engineFault (o : OpEnt) : Trap :=
  { cause := 0x04, info := match o.err with
    | some (k, a) => BitVec.ofNat 64 (k + 16 * o.entry + 2 ^ 12 * (a.toNat % 2 ^ 52))
    | none => 0 }

/-- Take an entry: its number and token. -/
def LGroup.takeEntry (x : LGroup) : Nat × Word × LGroup :=
  let e := x.freeEntry.getD 0
  (e, tokenOf e x.seq, { x with seq := nextSeq x.seq })

/-- Accept an operation for a logical group: it enters the table and the list of operations. -/
def State.accept (s : State) (j : Nat) (k : OpKind) : State × Word :=
  let g := s.grp
  let (e, tok, x) := (g.lg j).takeEntry
  let (oid, s1) := s.fresh
  let ent : OpEnt := { entry := e, seq := (g.lg j).seq, op := oid, err := none }
  let op : EngOp := { oid := oid, asid := g.asid, launch := g.launch, gid := some g.gid, lg := j, entry := e, token := tok,
                      team := g.team, segid := g.segid, bead := g.bead, core := g.core, kind := k, done := 0, paused := false,
                      queue := 0 }
  ({ s1.setGrp (g.updLg j (fun _ => { x with ops := x.ops ++ [ent] })) with engOps := s1.engOps ++ [op] }, tok)

/-- Logical groups of the word, each with the lane its sources are read from (R275); on replay those with lanes in PEND
(R336). -/
def Group.engLanes (g : Group) : List (Nat × Nat) :=
  (List.range g.nLg).filterMap (fun j =>
    if g.run.active &&& g.lgMask j ≠ 0 && (g.div.pend == 0 || g.div.pend &&& g.lgMask j ≠ 0) then ((g.liveOf j).head?).map (fun l => (j, l)) else none)

/-- An operand of an engine word cannot be read: poison in spilled words stops every logical group of it (R39, R75). -/
def State.engStops (s : State) (js : List (Nat × Nat)) (t : Trap) : State :=
  let g := s.grp
  if t.cause = 0x14 then (s.setGrp { g with div := { g.div with pend := maskOf (js.flatMap (fun x => g.liveOf x.1)) } }).trap t false
  else (s.overflowTaken t).trap t false

/-- The token written to D in every live lane of a logical group. -/
def State.tokenOut (s : State) (h : Hdr) (d j : Nat) (tok : Word) : State :=
  let gr := s.curLaunch.isGroupRate h.rate.toNat
  s.setGrp ((s.grp.liveOf j).foldl (fun g l => g.setReg gr l d tok) s.grp)

/-- Accept the word for its logical groups in turn: one whose loads stop leaves the others accepted (R75, R336); a trap
stops them all. -/
def State.acceptAll (s : State) (h : Hdr) (d : Nat) (try_ : State → Nat → Nat → EngTry) :
    List (Nat × Nat) → Except Trap (State × List (Nat × LaneStop))
  | [] => .ok (s, [])
  | (j, l) :: rest =>
    match try_ s j l with
    | .trap t => .error t
    | .stop x => (State.acceptAll s h d try_ rest).map (fun r => (r.1, (s.grp.liveOf j).map (fun l => (l, x)) ++ r.2))
    | .instant s1 =>
      let (_, tok, x) := (s1.grp.lg j).takeEntry
      State.acceptAll ((s1.setGrp (s1.grp.updLg j (fun _ => x))).tokenOut h d j tok) h d try_ rest
    | .ok s1 k =>
      let (s2, tok) := s1.accept j k
      State.acceptAll (s2.tokenOut h d j tok) h d try_ rest

/-- An `accrel` of handle `n` is still in progress in a logical group. -/
def State.releasing (s : State) (gid n : Nat) : Bool :=
  s.engOps.any (fun o => o.gid == some gid && (match o.kind with | .accrel t => t == n | _ => false))

/-- Passes of a matrix operation (R290). -/
def matrixPasses (slot : Word) (k : Nat) : Nat :=
  let d := match slotFmt slot with
    | 0 => 4
    | 1 => 32
    | 2 => 32
    | 6 => 256
    | 7 => 1
    | _ => 128
  (k + d - 1) / d
def State.slotOf (s : State) (launch n : Nat) : Word :=
  match s.findLaunch launch with | some l => l.slots.getD n 0 | none => 0
/-- Outstanding requests of a bead's reservation table (R291), of its resident groups: those of saved groups are queued
elsewhere (R298). -/
def State.reserved (s : State) (b : Nat) : Nat :=
  s.engOps.countP (fun o => o.bead == b && (o.gid.bind s.findGroup).isSome && (match o.kind with
    | .mma _ _ _ k _ _ n _ _ => decide (o.done < matrixPasses (s.slotOf o.launch n) k)
    | _ => false))

/-- The error entry on which a word finds its table full (R279). -/
def LGroup.allErrors (x : LGroup) : Option OpEnt :=
  if x.freeEntry.isNone && x.ops.all (·.err.isSome) then x.ops.find? (·.entry == 0) else none

/-- Free an entry. -/
def LGroup.freeEnt (x : LGroup) (e : Nat) : LGroup := { x with ops := x.ops.filter (fun o => o.entry != e) }

/-- An engine word (R274 to R277): `hd` is the handle it names, `need` the slots a logical group's handle
lacks, `matx` the reservation entries it takes. The word is accepted whole, for each of its logical groups,
or waits. -/
def State.engineWord (s0 : State) (h : Hdr) (d : Nat) (ops : List Opnd) (hd : Option Nat) (need : Nat → Nat)
    (matx : Nat) (try_ : State → Nat → Nat → EngTry) : State :=
  let s := s0.endRegion
  s.groupWide (
    let g := s.grp
    let js := g.engLanes
    match s.readTrap h.rate.toNat ops (js.map (·.2)) with
    | some t => s.engStops js t
    | none =>
      match js.findSome? (fun x => ((g.lg x.1).allErrors).map (fun o => (x.1, o))) with
      | some (j, o) => (s.setGrp (g.updLg j (fun x => x.freeEnt o.entry))).trap (engineFault o) false
      | none =>
        if js.any (fun x => (g.lg x.1).freeEntry.isNone) then s.waitAt (.split .table)
        else if (match hd with | some n => s.releasing g.gid n | none => false) then
          s.waitAt (.split (.handle (hd.getD 0)))
        else if matx ≠ 0 ∧ 32 < s.reserved g.bead + js.length then s.waitAt (.split (.matrix js.length))
        else
          let n := sumOf (js.map (fun x => need x.1))
          let (s1, ok) := s.roomForSlots n
          if !ok then s1.waitSlots n (hd.getD 0)
          else
            match s1.acceptAll h d try_ js with
            | .ok (s2, []) => s2.done h
            | .ok (s2, stops) => s2.stopLanes stops 0 0
            | .error t => s1.trap t false)

/-- The illegal-state trap at acceptance. -/
def badState (detail : Nat) (info : Nat) : EngTry := .trap { cause := 0x07, detail := detail, info := BitVec.ofNat 64 info }
/-- The access-violation trap at acceptance: KIND 0, LANE 0 (R281, R290). -/
def badPad (off : Nat) : EngTry := .trap { cause := 0x03, info := BitVec.ofNat 64 (2 ^ 12 * (off % 2 ^ 32)) }

/-! ## Copy (R281, R282) -/

/-- A copy descriptor (R281). -/
structure CopyDesc where
  esz : Nat
  srcsp : Bool
  dstsp : Bool
  /-- Extent, source stride, destination stride of each dimension. -/
  dims : List (Nat × Int × Int)
  deriving DecidableEq, Repr

/-- Read a descriptor of 256 bytes; none where it breaks the table. -/
def copyDesc (bs : List Byte) : Option CopyDesc :=
  let x := ofLe bs
  let nd := nbits x 0 4
  if nd = 0 ∨ 12 < nd ∨ 4 < nbits x 4 3 ∨ nbits x 9 119 ≠ 0 ∨ nbits x (128 + 160 * nd) (2048 - (128 + 160 * nd)) ≠ 0 then none
  else some { esz := nbits x 4 3, srcsp := nbits x 7 1 == 1, dstsp := nbits x 8 1 == 1,
              dims := (List.range nd).map (fun d => (nbits x (160 * d + 128) 32, sxNat (nbits x (160 * d + 160) 64) 64,
                sxNat (nbits x (160 * d + 224) 64) 64)) }

/-- Elements of a copy. -/
def CopyDesc.count (c : CopyDesc) : Nat := c.dims.foldl (fun n d => n * d.1) 1

/-- The offset of element `k` on the source or the destination side, dimension 0 fastest (R282). -/
def copyOffset (src : Bool) : List (Nat × Int × Int) → Nat → Int
  | [], _ => 0
  | (n, ss, ds) :: rest, k => (k % n : Nat) * (if src then ss else ds) + copyOffset src rest (k / n)

/-- Address of element `k`: modulo 2^64, or a window offset modulo 2^32. -/
def CopyDesc.addr (c : CopyDesc) (src : Bool) (base k : Nat) : Nat :=
  let a := (base : Int) + copyOffset src c.dims k
  if (if src then c.srcsp else c.dstsp) then (a % 2 ^ 32).toNat else (a % 2 ^ 64).toNat

/-- The first element whose bytes reach SPW on a window side (R281): its offset. -/
def CopyDesc.reaches (c : CopyDesc) (a b spw : Nat) : Option Nat :=
  let bad (src : Bool) (base k : Nat) : Option Nat :=
    let off := c.addr src base k
    if (if src then c.srcsp else c.dstsp) && decide (spw < off + 2 ^ c.esz) then some off else none
  (List.range c.count).findSome? (fun k => (bad true a k).orElse (fun _ => bad false b k))

/-- The checks of a copy made at acceptance (R281). -/
def copyChecks (bs : List Byte) (a b desc spw : Nat) : Option EngTry :=
  match copyDesc bs with
  | none => some (badState 3 desc)
  | some c => (c.reaches a b spw).map badPad

/-- Operands of an engine word as pairs and words. -/
def State.pairAt (s : State) (h : Hdr) (f : FE) (l : Nat) (x : BitVec 12) : Nat := s.opnd h f.imm .i64 l (opX x 2)
def State.wordAt (s : State) (h : Hdr) (f : FE) (l : Nat) (x : BitVec 12) : Nat := s.opnd h f.imm .i32 l (opX x 1)

/-- `tcopy` (R281, R282). -/
def execTcopy (h : Hdr) (f : FE) (s : State) : Host.Outcome State Fault Refusal :=
  .next (s.limited (s.engineWord h f.d.toNat [opX f.a 2, opX f.b 2, opX f.c 2] none (fun _ => 0) 0 (fun t _ l =>
    let a := t.pairAt h f l f.a
    let b := t.pairAt h f l f.b
    let desc := t.pairAt h f l f.c
    if desc % 16 ≠ 0 then badState 3 desc
    else
      let (r, t1) := t.loadLane t.grp false desc 256
      match r with
      | .fault x => .stop (.fault x)
      | .poison x => .stop (.poison x)
      | .ok bs => match copyChecks bs a b desc t1.spw with
        | some e => e
        | none => .ok t1 (.tcopy (BitVec.ofNat 64 a) (BitVec.ofNat 64 b) bs))))

/-! ## Chain (R283 to R285) -/

/-- The position of the first `cvt` whose slot the chain cannot use (R285); `cs` are the constants left. -/
def chainBad (slots : List Word) : List Nat → List Word → Nat → Option Nat
  | [], _, _ => none
  | c :: codes, cs, i =>
    let n := chainConsts c
    let slot := slots.getD ((cs.headD 0).toNat % 8) 0
    if c = 15 ∧ (8 ≤ (cs.headD 0).toNat ∨ [5, 6, 7].contains (slotFmt slot) ∨ slotRnd slot = 4 ∨ slotRnd slot = 5) then some i
    else chainBad slots codes (cs.drop n) (i + 1)

/-- Registers of a parameter run (R283). -/
def chainRun (ops : Nat) : Nat := 1 + sumOf ((chainCodes ops 8).map chainConsts)

/-- `chain` (R283 to R285). -/
def execChain (h : Hdr) (f : FE) (s : State) : Host.Outcome State Fault Refusal :=
  let run := opX f.c (chainRun f.imm.toNat)
  .next (s.engineWord h f.d.toNat [opX f.a 2, opX f.b 2, run] none (fun _ => 0) 0 (fun t _ l =>
    let ps := t.opndRun h f.imm l run
    match chainBad t.curLaunch.slots (chainCodes f.imm.toNat 8) (ps.drop 1) 0 with
    | some i => badState 5 i
    | none => .ok t (.chain (BitVec.ofNat 64 (t.pairAt h f l f.a)) (BitVec.ofNat 64 (t.pairAt h f l f.b)) f.fmt.toNat
        f.imm ps)))

/-! ## Matrix and tiles (R286 to R290) -/

/-- Handle `n` of a logical group. -/
def State.hnd (s : State) (j n : Nat) : Option Handle := SMap.find (s.grp.lg j).handles n

/-- Slots that a logical group's handle lacks for a binding of a kind. -/
def State.lacks (s : State) (n : Nat) (k : HKind) (j : Nat) : Nat := if (s.hnd j n).isNone then k.size else 0

/-- Bind a handle, or require it bound with the kind (R286). -/
def State.bindOr (s : State) (j n : Nat) (k : HKind) (f : State → EngTry) : EngTry :=
  match s.hnd j n with
  | none => f (s.bind j n k)
  | some x => if x.kind = k then f s else badState 2 n

/-- Bytes of a line of K elements (R290, R111). -/
def lineBytes (code k : Nat) : Nat :=
  match code with
  | 5 => k / 32 * 34
  | 6 => k / 32 * 18
  | c => k * fmtBits c / 8

/-- The checks of `mma` on its operands (R290). -/
def mmaChecks (code a b k as_ bs spw : Nat) : Option EngTry :=
  let len := lineBytes code k
  if a % 16 ≠ 0 then some (badState 5 a)
  else if b % 16 ≠ 0 then some (badState 5 b)
  else if k = 0 ∨ 65536 < k ∨ ((code = 5 ∨ code = 6) ∧ k % 32 ≠ 0) then some (badState 5 k)
  else
    let lines := (List.range 64).map (fun i => a + 16 * as_ * i) ++ (List.range 64).map (fun j => b + 16 * bs * j)
    (lines.find? (fun o => decide (spw < o + len))).map badPad

/-- `mma` (R290). -/
def execMma (h : Hdr) (f : FE) (s : State) : Host.Outcome State Fault Refusal :=
  let slot := s.slot f.fmt
  let kind := kindOfSlot slot
  let n := f.hd.toNat
  let set := f.sub.getLsbD 0
  let as_ := f.imm.toNat % 65536
  let bs := f.imm.toNat / 65536
  .next (s.engineWord h f.d.toNat [opX f.a 1, opX f.b 1, opX f.c 1] (some n) (fun j => if set then s.lacks n kind j else 0) 1
    (fun t j l =>
      let a := t.wordAt h f l f.a
      let b := t.wordAt h f l f.b
      let k := t.wordAt h f l f.c
      match mmaChecks (slotFmt slot) a b k as_ bs t.spw with
      | some e => e
      | none =>
        let op : OpKind := .mma n a b k as_ bs f.fmt.toNat (f.sat == 1) set
        if set then t.bindOr j n kind (fun t1 => .ok t1 op)
        else match t.hnd j n with
          | some x => if x.kind = kind then .ok t op else badState 2 n
          | none => badState 2 n))

/-- The kind that a memory slot gives a tile (R289). -/
def kindOfMemSlot (slot : Word) : HKind :=
  if slotFmt slot = 7 then .f64 else if slotFmt slot = 8 ∨ slotFmt slot = 14 then .i32 else .f32

/-- `accld` (R289). -/
def execAccld (h : Hdr) (f : FE) (s : State) : Host.Outcome State Fault Refusal :=
  let kind := kindOfMemSlot (s.slot f.fmt)
  let n := f.hd.toNat
  .next (s.engineWord h f.d.toNat [opX f.a 2, opX f.b 1] (some n) (s.lacks n kind) 0 (fun t j l =>
    t.bindOr j n kind (fun t1 => .ok t1 (.accld n (BitVec.ofNat 64 (t.pairAt h f l f.a))
      (BitVec.ofNat 32 (t.wordAt h f l f.b)) f.fmt.toNat))))

/-- `accst` (R289): FP32 also stores an `f64` tile. -/
def execAccst (h : Hdr) (f : FE) (s : State) : Host.Outcome State Fault Refusal :=
  let slot := s.slot f.fmt
  let n := f.hs.toNat
  .next (s.engineWord h f.d.toNat [opX f.a 2, opX f.b 1] (some n) (fun _ => 0) 0 (fun t j l =>
    match t.hnd j n with
    | none => badState 2 n
    | some x =>
      if x.kind = kindOfMemSlot slot ∨ (x.kind = .f64 ∧ slotFmt slot = 0) then
        .ok t (.accst n (BitVec.ofNat 64 (t.pairAt h f l f.a)) (BitVec.ofNat 32 (t.wordAt h f l f.b)) f.fmt.toNat)
      else badState 2 n))

/-- The kind of a code of `accz` (R274). -/
def kindOfCode (c : Nat) : HKind := if c = 0 then .f32 else if c = 1 then .i32 else .f64

/-- `accz` (R287). -/
def execAccz (h : Hdr) (f : FE) (s : State) : Host.Outcome State Fault Refusal :=
  let kind := kindOfCode (f.sub.toNat % 4)
  let n := f.hd.toNat
  .next (s.engineWord h f.d.toNat [] (some n) (s.lacks n kind) 0 (fun t j _ =>
    t.bindOr j n kind (fun t1 => .ok t1 (.accz n))))

/-- `accrel` (R287): of an unbound handle it has no effect. -/
def execAccrel (h : Hdr) (f : FE) (s : State) : Host.Outcome State Fault Refusal :=
  let n := f.hd.toNat
  .next (s.engineWord h f.d.toNat [] (some n) (fun _ => 0) 0 (fun t j _ =>
    if (t.hnd j n).isNone then .instant t else .ok t (.accrel n)))

/-! ## Network (R294, R402) -/

/-- A peer table entry, where it is configured. -/
def peerEntry (bs : List Byte) : Option Peer :=
  let x := ofLe bs
  if nbits x 0 1 = 1 then
    some { addr := BitVec.ofNat 128 (nbits x 128 128), job := BitVec.ofNat 24 (nbits x 16 24), ports := BitVec.ofNat 8 (nbits x 8 8) }
  else none

/-- Read the entry that a word names, at acceptance (R402). -/
def State.withPeer (s : State) (f : FE) (k : State → Peer → EngTry) : EngTry :=
  let g := s.grp
  let n := f.imm.toNat % 256
  let (r, s1) := s.engineRead g.bead g.asid g.segid ((s.ctx g.asid).peerptr + 32 * n) 32
  match r with
  | .fault x => .stop (.fault x)
  | .poison x => .stop (.poison (x / 64 * 64))
  | .ok bs => match peerEntry bs with
    | none => badState 5 n
    | some dst => k s1 dst

/-- A network word: in a speculative segment it waits until commit (R100). -/
def State.netWord (s : State) (h : Hdr) (f : FE) (ops : List Opnd) (k : State → Nat → Peer → EngTry) : State :=
  s.endRegion.holdSpec true (s.engineWord h f.d.toNat ops none (fun _ => 0) 0 (fun t _ l =>
    t.withPeer f (fun t1 dst => k t1 l dst)))

/-- `nput` (R294): a length of 0 completes at once. -/
def execNput (h : Hdr) (f : FE) (s : State) : Host.Outcome State Fault Refusal :=
  .next (s.netWord h f [opX f.a 2, opX f.b 2, opX f.c 1] (fun t l dst =>
    let n := t.wordAt h f l f.c
    if n = 0 then .instant t
    else .ok t (.nput (BitVec.ofNat 64 (t.pairAt h f l f.a)) (BitVec.ofNat 64 (t.pairAt h f l f.b)) n dst)))

/-- `nget` (R294). -/
def execNget (h : Hdr) (f : FE) (s : State) : Host.Outcome State Fault Refusal :=
  .next (s.netWord h f [opX f.a 2, opX f.b 2, opX f.c 1] (fun t l dst =>
    let n := t.wordAt h f l f.c
    if n = 0 then .instant t
    else .ok t (.nget (BitVec.ofNat 64 (t.pairAt h f l f.a)) (BitVec.ofNat 64 (t.pairAt h f l f.b)) n dst)))

/-- `nsig` (R294): the remote word must be a multiple of 8. -/
def execNsig (h : Hdr) (f : FE) (s : State) : Host.Outcome State Fault Refusal :=
  .next (s.netWord h f [opX f.b 2, opX f.c 1] (fun t l dst =>
    let b := t.pairAt h f l f.b
    if b % 8 ≠ 0 then badState 3 b
    else .ok t (.nsig (BitVec.ofNat 64 b) (BitVec.ofNat 32 (t.wordAt h f l f.c)) dst)))

/-! ## Waiting (R278, R279) -/

/-- What an `ewait` finds in a table. -/
inductive EwaitRes where
  | ready
  | wait
  | error (o : OpEnt)
  deriving DecidableEq, Repr

def LGroup.ewait (x : LGroup) (tok : Nat) : EwaitRes :=
  let mine := if tok = 0 then x.ops else x.ops.filter (fun o => o.entry == tok % 32 && o.seq == tok / 32)
  match (minOf ((mine.filter (·.err.isSome)).map (·.entry))).bind (fun e => mine.find? (fun o => o.entry == e)) with
  | some o => .error o
  | none => if mine.isEmpty then .ready else .wait

/-- `ewait` (R278, R279). -/
def execEwait (h : Hdr) (f : FE) (s0 : State) : Host.Outcome State Fault Refusal :=
  let s := s0.endRegion
  let ops := [opX f.a 1]
  .next (s.groupWide (
    let g := s.grp
    let js := g.engLanes
    match s.readTrap h.rate.toNat ops (js.map (·.2)) with
    | some t => s.engStops js t
    | none =>
      let rs := js.map (fun x => (x.1, (g.lg x.1).ewait (s.wordAt h f x.2 f.a)))
      match rs.findSome? (fun x => match x.2 with | .error o => some (x.1, o) | _ => none) with
      | some (j, o) => (s.setGrp (g.updLg j (fun x => x.freeEnt o.entry))).trap (engineFault o) false
      | none =>
        if rs.any (fun x => x.2 == .wait) then s.waitAt .engine
        else (js.foldl (fun t x => t.tokenOut h f.d.toNat x.1 0) s).doneAt []))

end Sys2Proof.Machine
end

