-- ==== Sys2Proof/Machine/Arith.lean ====
section
/-! DEFINITION. Integer arithmetic, logic, shifts, bit fields, compares, selects, moves and address
arithmetic: opcodes 0x00 to 0x3a (R188 to R200). -/

namespace Sys2Proof.Machine

/-- Bits, registers and position of a width suffix. -/
def widBits : Wid → Nat
  | .w32 => 32
  | .w64 => 64
def widRegs : Wid → Nat
  | .w32 => 1
  | .w64 => 2
def widPos : Wid → Pos
  | .w32 => .i32
  | .w64 => .i64

/-- The registers of an integer result, modulo 2^32 or 2^64 (R192). -/
def outInt : Wid → Nat → List Word
  | .w32, x => [BitVec.ofNat 32 x]
  | .w64, x => pairOf x

/-- Two's-complement value of a pattern. -/
def sInt (w x : Nat) : Int := (BitVec.ofNat w x).toInt
/-- An operand's value under a signedness suffix. -/
def sgnInt (sg : Sgn) (w x : Nat) : Int := match sg with | .s => sInt w x | .u => (x : Int)
/-- The pattern of a value modulo a power of two. -/
def patOf (w : Nat) (x : Int) : Nat := (BitVec.ofInt w x).toNat

/-- A word with one integer source. -/
def State.int1 (s : State) (h : Hdr) (f : FA) (v : Wid) (r : Nat → Nat) : State :=
  let a := opA f (widRegs v)
  s.laneWord h f.d.toNat [a] (fun l => { regs := outInt v (r (s.opnd h f.imm (widPos v) l a)) })

/-- A word with two integer sources. -/
def State.int2 (s : State) (h : Hdr) (f : FA) (v : Wid) (r : Nat → Nat → Nat) : State :=
  let a := opA f (widRegs v)
  let b := opB f (widRegs v)
  s.laneWord h f.d.toNat [a, b] (fun l =>
    { regs := outInt v (r (s.opnd h f.imm (widPos v) l a) (s.opnd h f.imm (widPos v) l b)) })

/-- A word with three integer sources. -/
def State.int3 (s : State) (h : Hdr) (f : FA) (v : Wid) (r : Nat → Nat → Nat → Nat) : State :=
  let a := opA f (widRegs v)
  let b := opB f (widRegs v)
  let c := opC f (widRegs v)
  s.laneWord h f.d.toNat [a, b, c] (fun l =>
    { regs := outInt v (r (s.opnd h f.imm (widPos v) l a) (s.opnd h f.imm (widPos v) l b)
        (s.opnd h f.imm (widPos v) l c)) })

/-- A word that shifts: B is one register (R195). -/
def State.shift2 (s : State) (h : Hdr) (f : FA) (v : Wid) (r : Nat → Nat → Nat) : State :=
  let a := opA f (widRegs v)
  let b := opB f 1
  s.laneWord h f.d.toNat [a, b] (fun l =>
    { regs := outInt v (r (s.opnd h f.imm (widPos v) l a) (s.opnd h f.imm .i32 l b % widBits v)) })

/-! ## Integer arithmetic (R192, R193) -/

/-- `iadd` (R192). -/
def execIadd (v : Wid) (h : Hdr) (f : FA) (s : State) : Host.Outcome State Fault Refusal :=
  .next (s.int2 h f v (fun a b => a + b))
/-- `isub` (R192). -/
def execIsub (v : Wid) (h : Hdr) (f : FA) (s : State) : Host.Outcome State Fault Refusal :=
  .next (s.int2 h f v (fun a b => a + (2 ^ widBits v - b)))
/-- `imul` (R192). -/
def execImul (v : Wid) (h : Hdr) (f : FA) (s : State) : Host.Outcome State Fault Refusal :=
  .next (s.int2 h f v (fun a b => a * b))
/-- High half of the product (R192). -/
def mulHigh (sg : Sgn) (a b : Nat) : Nat := patOf 64 (sgnInt sg 32 a * sgnInt sg 32 b) / 2 ^ 32
/-- `imulh` (R192). -/
def execImulh (sg : Sgn) (h : Hdr) (f : FA) (s : State) : Host.Outcome State Fault Refusal :=
  .next (s.int2 h f .w32 (mulHigh sg))
/-- `imad` (R192). -/
def execImad (v : Wid) (h : Hdr) (f : FA) (s : State) : Host.Outcome State Fault Refusal :=
  .next (s.int3 h f v (fun a b c => a * b + c))
/-- `imin` (R192). -/
def execImin (sg : Sgn) (h : Hdr) (f : FA) (s : State) : Host.Outcome State Fault Refusal :=
  .next (s.int2 h f .w32 (fun a b => if sgnInt sg 32 a ≤ sgnInt sg 32 b then a else b))
/-- `imax` (R192). -/
def execImax (sg : Sgn) (h : Hdr) (f : FA) (s : State) : Host.Outcome State Fault Refusal :=
  .next (s.int2 h f .w32 (fun a b => if sgnInt sg 32 a ≤ sgnInt sg 32 b then b else a))
/-- `iabs` (R192). -/
def execIabs (h : Hdr) (f : FA) (s : State) : Host.Outcome State Fault Refusal :=
  .next (s.int1 h f .w32 (fun a => (sInt 32 a).natAbs))
/-- `ineg` (R192). -/
def execIneg (h : Hdr) (f : FA) (s : State) : Host.Outcome State Fault Refusal :=
  .next (s.int1 h f .w32 (fun a => 2 ^ 32 - a))
/-- `iaddsat` (R192). -/
def execIaddsat (sg : Sgn) (h : Hdr) (f : FA) (s : State) : Host.Outcome State Fault Refusal :=
  .next (s.int2 h f .w32 (fun a b => patOf 32 (clampInt (sg == .s) 32 (sgnInt sg 32 a + sgnInt sg 32 b))))
/-- `isubsat` (R192). -/
def execIsubsat (sg : Sgn) (h : Hdr) (f : FA) (s : State) : Host.Outcome State Fault Refusal :=
  .next (s.int2 h f .w32 (fun a b => patOf 32 (clampInt (sg == .s) 32 (sgnInt sg 32 a - sgnInt sg 32 b))))

/-- Quotient, remainder and whether it is an event (R193). -/
def divide (sg : Sgn) (a b : Nat) : Nat × Nat × Bool :=
  if b = 0 then (0xffffffff, a, true)
  else if sg = .s ∧ a = 0x80000000 ∧ b = 0xffffffff then (0x80000000, 0, true)
  else (patOf 32 ((sgnInt sg 32 a).tdiv (sgnInt sg 32 b)), patOf 32 ((sgnInt sg 32 a).tmod (sgnInt sg 32 b)), false)

/-- A division word: results and IDIV first; then, where `DIVZ_EN`.EN is set, the trap after the word with
the mask of event lanes (R193, R194); lanes of a logical group whose EN is 0 are left out of it (DESIGN CHOICE, log 45). -/
def State.divWord (s : State) (h : Hdr) (f : FA) (sg : Sgn) (rem : Bool) : State :=
  let a := opA f 1
  let b := opB f 1
  let before := if s.grp.div.pend = 0 then 0 else s.grp.div.events
  s.withLanes h [a, b] (fun lanes bad =>
    let q (l : Nat) : Nat × Nat × Bool := divide sg (s.opnd h f.imm .i32 l a) (s.opnd h f.imm .i32 l b)
    let out (l : Nat) : LaneOut :=
      { regs := [BitVec.ofNat 32 (if rem then (q l).2.1 else (q l).1)], flags := if (q l).2.2 then fIDIV else 0 }
    let s1 := s.writeLanes h f.d.toNat (lanes.map (fun l => (l, out l)))
    let ev := lanes.filter (fun l => (q l).2.2 && (s.grp.lg (s.grp.lgOf l)).divzEn.getLsbD 0)
    let events := before ||| maskOf ev
    if !bad.isEmpty then (s1.setGrp { s1.grp with div := { s1.grp.div with events := events } }).stopLanes bad 6 0
    else if events = 0 then s1.done h
    else (s1.setGrp { s1.grp with words := s1.grp.words + 1, div := { s1.grp.div with pend := 0 } }).trap
      (maskTrap 0x02 events) true)

/-- `idiv` (R193). -/
def execIdiv (sg : Sgn) (h : Hdr) (f : FA) (s : State) : Host.Outcome State Fault Refusal :=
  .next (s.divWord h f sg false)
/-- `irem` (R193). -/
def execIrem (sg : Sgn) (h : Hdr) (f : FA) (s : State) : Host.Outcome State Fault Refusal :=
  .next (s.divWord h f sg true)

/-! ## Logic, shifts and bits (R195, R196) -/

/-- `and` (R195). -/
def execAndB (h : Hdr) (f : FA) (s : State) : Host.Outcome State Fault Refusal :=
  .next (s.int2 h f .w32 (fun a b => a &&& b))
/-- `or` (R195). -/
def execOrB (h : Hdr) (f : FA) (s : State) : Host.Outcome State Fault Refusal :=
  .next (s.int2 h f .w32 (fun a b => a ||| b))
/-- `xor` (R195). -/
def execXorB (h : Hdr) (f : FA) (s : State) : Host.Outcome State Fault Refusal :=
  .next (s.int2 h f .w32 (fun a b => a ^^^ b))
/-- `andn` (R195). -/
def execAndn (h : Hdr) (f : FA) (s : State) : Host.Outcome State Fault Refusal :=
  .next (s.int2 h f .w32 (fun a b => a &&& (b ^^^ 0xffffffff)))

/-- The bits of a table look-up by three bits (R195). -/
def lop3Bits (lut a b c : Nat) : Nat :=
  sumOf ((List.range 32).map (fun i => nbits lut (4 * nbits c i 1 + 2 * nbits b i 1 + nbits a i 1) 1 * 2 ^ i))
/-- `lop3` (R195). -/
def execLop3 (h : Hdr) (f : FA) (s : State) : Host.Outcome State Fault Refusal :=
  .next (s.int3 h f .w32 (lop3Bits f.sub.toNat))
/-- `shl` (R195). -/
def execShl (v : Wid) (h : Hdr) (f : FA) (s : State) : Host.Outcome State Fault Refusal :=
  .next (s.shift2 h f v (fun a n => a * 2 ^ n))
/-- `shr` (R195). -/
def execShr (v : Wid) (h : Hdr) (f : FA) (s : State) : Host.Outcome State Fault Refusal :=
  .next (s.shift2 h f v (fun a n => a / 2 ^ n))
/-- `sar` (R195). -/
def execSar (v : Wid) (h : Hdr) (f : FA) (s : State) : Host.Outcome State Fault Refusal :=
  .next (s.shift2 h f v (fun a n => patOf (widBits v) (sInt (widBits v) a / ((2 ^ n : Nat) : Int))))
/-- `rot` (R195). -/
def execRot (h : Hdr) (f : FA) (s : State) : Host.Outcome State Fault Refusal :=
  .next (s.shift2 h f .w32 (fun a n => a * 2 ^ n + a / 2 ^ (32 - n)))
/-- Number of 1 bits. -/
def popCount (a : Nat) : Nat := sumOf ((List.range 32).map (fun i => nbits a i 1))
/-- `popc` (R195). -/
def execPopc (h : Hdr) (f : FA) (s : State) : Host.Outcome State Fault Refusal :=
  .next (s.int1 h f .w32 popCount)
/-- `clz` (R195). -/
def execClz (h : Hdr) (f : FA) (s : State) : Host.Outcome State Fault Refusal :=
  .next (s.int1 h f .w32 (fun a => 32 - bitLen a))
/-- Number of trailing 0 bits. -/
def trailZeros (a : Nat) : Nat := ((List.range 32).find? (fun i => nbits a i 1 == 1)).getD 32
/-- `ctz` (R195). -/
def execCtz (h : Hdr) (f : FA) (s : State) : Host.Outcome State Fault Refusal :=
  .next (s.int1 h f .w32 trailZeros)
/-- Bit `i` of the result is bit `31 - i`. -/
def revBits (a : Nat) : Nat := sumOf ((List.range 32).map (fun i => nbits a (31 - i) 1 * 2 ^ i))
/-- `brev` (R195). -/
def execBrev (h : Hdr) (f : FA) (s : State) : Host.Outcome State Fault Refusal :=
  .next (s.int1 h f .w32 revBits)

/-- Position and length of a bit-field descriptor (R196). -/
def fieldPos (b : Nat) : Nat := min (b % 256) 32
def fieldLen (b : Nat) : Nat := min (b / 256 % 256) (32 - fieldPos b)
/-- Extraction (R196). -/
def extractField (sg : Sgn) (a b : Nat) : Nat :=
  let n := fieldLen b
  let x := a / 2 ^ fieldPos b % 2 ^ n
  if n = 0 then 0 else match sg with | .s => patOf 32 (sInt n x) | .u => x
/-- `bfe` (R196). -/
def execBfe (sg : Sgn) (h : Hdr) (f : FA) (s : State) : Host.Outcome State Fault Refusal :=
  .next (s.int2 h f .w32 (extractField sg))
/-- Insertion (R196). -/
def insertField (a b c : Nat) : Nat :=
  let p := fieldPos b
  let m := (2 ^ fieldLen b - 1) * 2 ^ p
  (c &&& (m ^^^ 0xffffffff)) ||| ((a * 2 ^ p) &&& m)
/-- `bfi` (R196). -/
def execBfi (h : Hdr) (f : FA) (s : State) : Host.Outcome State Fault Refusal :=
  .next (s.int3 h f .w32 insertField)

/-! ## Compare, select, move (R197 to R199) -/

/-- All ones where a condition holds (R198). -/
def maskWord (b : Bool) : Word := if b then 0xffffffff else 0

/-- A compare into a predicate or, with `toReg`, a register (R198). -/
def State.cmpWord (s : State) (h : Hdr) (f : FA) (sg : Sgn) (v : Wid) (toReg : Bool) : State :=
  let a := opA f (widRegs v)
  let b := opB f (widRegs v)
  let c (l : Nat) : Bool := condInt f.sub.toNat (sgnInt sg (widBits v) (s.opnd h f.imm (widPos v) l a))
    (sgnInt sg (widBits v) (s.opnd h f.imm (widPos v) l b))
  s.laneWord h f.d.toNat [a, b] (fun l => if toReg then { regs := [maskWord (c l)] } else { pred := some (c l) })

/-- `icmp` (R198). -/
def execIcmp (sg : Sgn) (v : Wid) (h : Hdr) (f : FA) (s : State) : Host.Outcome State Fault Refusal :=
  .next (s.cmpWord h f sg v false)
/-- `icmp.r` (R198). -/
def execIcmpR (sg : Sgn) (h : Hdr) (f : FA) (s : State) : Host.Outcome State Fault Refusal :=
  .next (s.cmpWord h f sg .w32 true)
/-- `sel` (R199): the predicate of SC, negated by SUB`[0]`. -/
def execSel (v : Wid) (h : Hdr) (f : FA) (s : State) : Host.Outcome State Fault Refusal :=
  let a := opA f (widRegs v)
  let b := opB f (widRegs v)
  .next (s.laneWord h f.d.toNat [a, b] (fun l =>
    let p := s.grp.predOf (f.sc.toNat % 16) l != f.sub.getLsbD 0
    { regs := outInt v (s.opnd h f.imm (widPos v) l (if p then a else b)) }))
/-- `mov` (R199). -/
def execMov (v : Wid) (h : Hdr) (f : FA) (s : State) : Host.Outcome State Fault Refusal :=
  .next (s.int1 h f v id)
/-- `movi` (R199). -/
def execMovi (h : Hdr) (f : FA) (s : State) : Host.Outcome State Fault Refusal :=
  .next (s.laneWord h f.d.toNat [] (fun _ => { regs := [f.imm] }))

/-! ## Address arithmetic (R200) -/

/-- `aadd`: a pair plus a sign-extended register (R200). -/
def execAadd (h : Hdr) (f : FA) (s : State) : Host.Outcome State Fault Refusal :=
  let a := opA f 2
  let b := opB f 1
  .next (s.laneWord h f.d.toNat [a, b] (fun l =>
    { regs := pairOf (s.opnd h f.imm .i64 l a + patOf 64 (sInt 32 (s.opnd h f.imm .i32 l b))) }))
/-- `alea` (R200). -/
def execAlea (h : Hdr) (f : FA) (s : State) : Host.Outcome State Fault Refusal :=
  let a := opA f 2
  let b := opB f 1
  .next (s.laneWord h f.d.toNat [a, b] (fun l =>
    { regs := pairOf (s.opnd h f.imm .i64 l a + s.opnd h f.imm .i32 l b * 2 ^ f.sub.toNat
        + (f.imm.signExtend 64).toNat) }))
/-- `amul` (R200). -/
def execAmul (h : Hdr) (f : FA) (s : State) : Host.Outcome State Fault Refusal :=
  let a := opA f 1
  let b := opB f 1
  .next (s.laneWord h f.d.toNat [a, b] (fun l =>
    { regs := pairOf (s.opnd h f.imm .i32 l a * s.opnd h f.imm .i32 l b) }))
/-- `acmp` (R200). -/
def execAcmp (h : Hdr) (f : FA) (s : State) : Host.Outcome State Fault Refusal :=
  .next (s.cmpWord h f .u .w64 false)
/-- `acmp.r` (R200). -/
def execAcmpR (h : Hdr) (f : FA) (s : State) : Host.Outcome State Fault Refusal :=
  .next (s.cmpWord h f .u .w64 true)

end Sys2Proof.Machine
end

