-- ==== Sys2Proof/Machine/Raster.lean ====
section
/-! DEFINITION. Coverage and the triangle walk (R29, R30, R232 to R235), and the tests of a traversal
(R237 to R241). -/

namespace Sys2Proof.Machine

/-! ## Coverage -/

/-- Sample positions in 1/16 pixel (R29). -/
def samplePos (spp s : Nat) : Int × Int :=
  ((match spp with
    | 1 => [(8, 8)]
    | 2 => [(4, 4), (12, 12)]
    | 4 => [(6, 2), (14, 6), (2, 10), (10, 14)]
    | _ => [(9, 5), (7, 11), (13, 9), (5, 3), (3, 13), (1, 7), (11, 15), (15, 1)] : List (Int × Int))).getD s (8, 8)

/-- A sample's position in 1/256 pixel. -/
def samplePoint (x y spp s : Nat) : Int × Int :=
  (256 * (x : Int) + 16 * (samplePos spp s).1, 256 * (y : Int) + 16 * (samplePos spp s).2)

/-- The centre of a coarse pixel of size `c` (R29). -/
def centrePoint (x y c : Nat) : Int × Int := (256 * (x : Int) + 128 * (c : Int), 256 * (y : Int) + 128 * (c : Int))

/-- A scissor in pixels, its far ends exclusive. -/
structure Scissor where
  x0 : Nat
  y0 : Nat
  x1 : Nat
  y1 : Nat
  deriving DecidableEq, Repr

/-- The whole screen (R235). -/
def fullScreen : Scissor := ⟨0, 0, 16384, 16384⟩

/-- A primitive that covers nothing: no area, or a coordinate that reaches 2^23 (R233). -/
def culled (v : List Int) : Bool := decide (area v = 0) || v.any (fun x => decide (2 ^ 23 ≤ x.natAbs))

/-- Edge `i` admits a point (R233). -/
def edgeIn (v : List Int) (px py : Int) (i : Nat) : Bool :=
  let sg : Int := if 0 < area v then 1 else -1
  let e := sg * edgeFn v px py i
  let j := 2 * ((i + 1) % 3)
  let k := 2 * ((i + 2) % 3)
  let dx := sg * (v.getD k 0 - v.getD j 0)
  let dy := sg * (v.getD (k + 1) 0 - v.getD (j + 1) 0)
  decide (0 < e) || (decide (e = 0) && (decide (0 < dy) || (decide (dy = 0) && decide (dx < 0))))

/-- A point is covered (R233). -/
def coveredAt (v : List Int) (sc : Scissor) (px py : Int) : Bool :=
  decide (256 * (sc.x0 : Int) ≤ px) && decide (px < 256 * (sc.x1 : Int)) && decide (256 * (sc.y0 : Int) ≤ py)
    && decide (py < 256 * (sc.y1 : Int)) && !culled v && (List.range 3).all (edgeIn v px py)

/-- The coverage mask of a coarse pixel (R234). -/
def coverMask (v : List Int) (sc : Scissor) (x y c spp : Nat) : Nat :=
  sumOf ((List.range (c * c * spp)).map (fun b =>
    let s := b % spp
    let q := b / spp
    let p := samplePoint (x + q % c) (y + q / c) spp s
    if coveredAt v sc p.1 p.2 then 2 ^ b else 0))

/-! ## The walk (R234) -/

/-- The candidate blocks: first column and row, columns, rows. -/
structure Blocks where
  bx : Nat
  byy : Nat
  cols : Nat
  rows : Nat
  deriving DecidableEq, Repr

/-- Candidate blocks of a triangle under a scissor. -/
def blocksOf (v : List Int) (sc : Scissor) (c : Nat) : Blocks :=
  let xs := [v.getD 0 0, v.getD 2 0, v.getD 4 0]
  let ys := [v.getD 1 0, v.getD 3 0, v.getD 5 0]
  let lo (l : List Int) (s : Nat) : Int := max (l.foldl min (l.headD 0)) (256 * (s : Int))
  let hi (l : List Int) (s : Nat) : Int := min (l.foldl max (l.headD 0)) (256 * (s : Int))
  let x0 := lo xs sc.x0
  let x1 := hi xs sc.x1
  let y0 := lo ys sc.y0
  let y1 := hi ys sc.y1
  let sz : Int := 512 * c
  if x1 ≤ x0 ∨ y1 ≤ y0 ∨ culled v then ⟨0, 0, 0, 0⟩
  else
    let a := (x0 / sz).toNat
    let b := (y0 / sz).toNat
    ⟨a, b, ((x1 - 1) / sz).toNat + 1 - a, ((y1 - 1) / sz).toNat + 1 - b⟩

def Blocks.count (b : Blocks) : Nat := b.cols * b.rows

/-- First pixel of coarse pixel `q` (0 to 3) of block `n`. -/
def Blocks.pixel (b : Blocks) (c n q : Nat) : Nat × Nat :=
  (2 * c * (b.bx + n % b.cols) + c * (q % 2), 2 * c * (b.byy + n / b.cols) + c * (q / 2))

/-- Block `n` holds a covered sample. -/
def Blocks.holds (b : Blocks) (v : List Int) (sc : Scissor) (c spp n : Nat) : Bool :=
  (List.range 4).any (fun q => coverMask v sc (b.pixel c n q).1 (b.pixel c n q).2 c spp != 0)

/-- Blocks visited from `n`, at most `fuel` examined and `slots` filled: the filled blocks and the next
number. -/
def Blocks.visit (b : Blocks) (v : List Int) (sc : Scissor) (c spp : Nat) : Nat → Nat → Nat → List Nat × Nat
  | 0, _, n => ([], n)
  | fuel + 1, slots, n =>
    if b.count ≤ n ∨ slots = 0 then ([], n)
    else if b.holds v sc c spp n then
      let r := Blocks.visit b v sc c spp fuel (slots - 1) (n + 1)
      (n :: r.1, r.2)
    else Blocks.visit b v sc c spp fuel slots (n + 1)

/-! ## Screen positions (R235) -/

/-- A screen coordinate from a clip coordinate and w; none where it culls. -/
def screenCoord (x w : Nat) : Option Int :=
  let p := nMul (nMul x (nDiv fOne w)) 0x43800000
  match fp32.value p with
  | .fin n m e =>
    let k := (roundUnits .rne 0 n m e 0).1
    if 2 ^ 23 ≤ k then none else some (if n then -(k : Int) else k)
  | _ => none

/-- Clip w is finite and positive (R31). -/
def goodW (w : Nat) : Bool :=
  match fp32.value w with
  | .fin n m _ => !n && m != 0
  | _ => false

/-- The screen vertices of three clip positions x, y, z, w; none where the primitive is culled. -/
def screenVerts (ps : List (List Word)) : Option (List Int) :=
  let vs := ps.flatMap (fun p =>
    let w := (p.getD 3 0).toNat
    if goodW w then [screenCoord (p.getD 0 0).toNat w, screenCoord (p.getD 1 0).toNat w] else [none, none])
  if vs.contains none then none
  else
    let v := vs.filterMap id
    if culled v then none else some v

/-! ## Traversal tests (R241) -/

/-- Ordered comparisons of FP32 patterns. -/
def leF (a b : Nat) : Bool := (fp32.compare 3 a b).1
def ltF (a b : Nat) : Bool := (fp32.compare 2 a b).1
def geF (a b : Nat) : Bool := (fp32.compare 5 a b).1

/-- FP32 vectors. -/
structure V3 where
  x : Nat
  y : Nat
  z : Nat
  deriving DecidableEq, Repr

def V3.sub (a b : V3) : V3 := ⟨nSub a.x b.x, nSub a.y b.y, nSub a.z b.z⟩
def V3.dot (a b : V3) : Nat := nFma a.z b.z (nFma a.y b.y (nMul a.x b.x))
/-- The opposite pattern. -/
def negF (x : Nat) : Nat := fp32.modify 0 1 x
def V3.cross (a b : V3) : V3 :=
  let c (p q r t : Nat) : Nat := nFma p q (negF (nMul r t))
  ⟨c a.y b.z a.z b.y, c a.z b.x a.x b.z, c a.x b.y a.y b.x⟩

/-- Three numbers of a list of words. -/
def v3At (ws : List Word) (i : Nat) : V3 := ⟨(ws.getD i 0).toNat, (ws.getD (i + 1) 0).toNat, (ws.getD (i + 2) 0).toNat⟩

/-- The box test; `o`, `d` are the ray's origin and direction. -/
def boxHit (bmin bmax o d : V3) (tmin tcur : Nat) : Bool :=
  let axis (lo hi oo dd : Nat) : Nat × Nat :=
    let inv := nDiv fOne dd
    let t0 := nMul (nSub lo oo) inv
    let t1 := nMul (nSub hi oo) inv
    (nMin t0 t1, nMax t0 t1)
  let x := axis bmin.x bmax.x o.x d.x
  let y := axis bmin.y bmax.y o.y d.y
  let z := axis bmin.z bmax.z o.z d.z
  let near := nMax (nMax x.1 y.1) z.1
  let far := nMin (nMin x.2 y.2) z.2
  leF near far && geF far tmin && ltF near tcur

/-- The triangle test: t, u, v of a hit. -/
def triHit (v0 v1 v2 o d : V3) (tmin tcur : Nat) : Option (Nat × Nat × Nat) :=
  let e1 := v1.sub v0
  let e2 := v2.sub v0
  let pv := d.cross e2
  let det := e1.dot pv
  let tv := o.sub v0
  let qv := tv.cross e1
  let u := nDiv (tv.dot pv) det
  let v := nDiv (d.dot qv) det
  let t := nDiv (e2.dot qv) det
  if (fp32.value det).isNan || (fp32.compare 0 det 0).1 then none
  else if geF u 0 && geF v 0 && leF (nAdd u v) fOne && leF tmin t && ltF t tcur then some (t, u, v)
  else none

end Sys2Proof.Machine
end

