-- ==== Sys2Proof/Machine/Rate.lean ====
section
/-! DEFINITION. Rate and graphics instructions: opcodes 0x90 to 0x99 (R228 to R247). -/

namespace Sys2Proof.Machine

/-- Update the element of a lane, or of its logical group at a rate packed GROUP. -/
def Group.updElem (g : Group) (gr : Bool) (l : Nat) (f : Elem → Elem) : Group :=
  if gr then g.updLg (g.lgOf l) (fun x => { x with elem := f x.elem })
  else { g with elems := SMap.upd g.elems l f }

/-! ## Release, children, elements (R37, R228 to R231) -/

/-- One element gives up its inheritance (R37). -/
def State.releaseOne (s : State) (gr : Bool) (l : Nat) : State :=
  let e := s.grp.elemOf gr l
  match e.anchor with
  | some off =>
    if e.released || e.helper then s
    else (s.setGrp (s.grp.updElem gr l (fun e => { e with released := true }))).dropRefs s.grp.bead [off]
  | none => s

/-- `qrel` (R37, R228). -/
def execQrel (h : Hdr) (_f : FA) (s : State) : Host.Outcome State Fault Refusal :=
  .next (s.withOps h [] (fun lanes => (lanes.foldl (fun t l => t.releaseOne (s.wordGr h) l) s).done h))

/-- Most children of one rate (R229). -/
def maxChildren : Nat := 16777216

/-- `emitc` (R229). -/
def execEmitc (h : Hdr) (f : FA) (s0 : State) : Host.Outcome State Fault Refusal :=
  let s := s0.endRegion
  let gr := s.wordGr h
  let a := opA f 1
  let cr := (s.curLaunch.lat (f.sub.toNat % 8)).countreg
  .next (s.withLanes h [a] (fun lanes0 bad0 =>
    let (own, lanes) := s.ownPoison gr [cr] lanes0
    let bad := own ++ bad0
    let c (l : Nat) : Nat := (s.grp.reg gr l cr).toNat
    let n (l : Nat) : Nat := s.opnd h f.imm .i32 l a
    let real := lanes.filter (fun l => !s.grp.helper gr l)
    match real.find? (fun l => decide (maxChildren < c l + n l)) with
    | some l => s.illegalState 1 (BitVec.ofNat 64 (cr + 2 ^ 32 * min (c l + n l) 0xffffffff))
    | none =>
      let s1 := s.writeLanes h f.d.toNat (lanes.map (fun l => (l, { regs := [s.grp.reg gr l cr] })))
      (s1.writeLanes h cr (real.map (fun l => (l, { regs := [BitVec.ofNat 32 (c l + n l)] })))).doneBut h bad))

/-- The handle that `elem` reads for a lane: of its element or of an ancestor; none when the chain lacks
it (R230, R37). -/
def State.elemHandle (s : State) (k j lane : Nat) : Option Word :=
  let l := s.curLaunch
  let gr := l.isGroupRate k
  let e := s.grp.elemOf gr lane
  if s.grp.helper gr lane then some 0xffffffff
  else if j = k then some e.handle
  else if latCoGroup l.lattice k = some j then some (s.grp.lg (s.grp.lgOf lane)).elem.handle
  else (e.ancestor (s.bead s.grp.bead) j).map (·.handle)

/-- `elem` (R230). A chain that lacks the ancestor is the trap of R37, before the word (R314). -/
def execElem (h : Hdr) (f : FA) (s : State) : Host.Outcome State Fault Refusal :=
  let k := h.rate.toNat
  let gr := s.wordGr h
  let what := f.sub.toNat % 4
  let j := f.sub.toNat / 4 % 8
  .next (s.withOps h [] (fun lanes =>
    let lacking := if what = 1 then lanes.filter (fun l => (s.elemHandle k j l).isNone) else []
    if !lacking.isEmpty then s.trap { maskTrap 0x07 (maskOf lacking) with before := true } false
    else
      let out (l : Nat) : List Word :=
        let e := s.grp.elemOf gr l
        match what with
        | 0 => [s.grp.special s.curLaunch k l 3 0]
        | 1 => [(s.elemHandle k j l).getD 0]
        | 2 => [BitVec.ofInt 32 e.px, BitVec.ofInt 32 e.py]
        | _ => [e.samp]
      (s.writeLanes h f.d.toNat (lanes.map (fun l => (l, { regs := out l })))).done h))

/-- `bary` (R231). -/
def execBary (h : Hdr) (f : FA) (s : State) : Host.Outcome State Fault Refusal :=
  .next (s.laneWord h f.d.toNat [] (fun l =>
    let e := s.grp.elemOf (s.wordGr h) l
    { regs := (List.range 3).map (fun i => BitVec.ofNat 32 (baryAt e.verts e.px e.py i)) }))

/-! ## The triangle walk (R232 to R235) -/

/-- What a `rast` issue finds for one logical group: the blocks filled and the next token. -/
structure Walk where
  verts : List Int
  scissor : Scissor
  blocks : Blocks
  filled : List Nat
  token : Word
  deriving DecidableEq, Repr

/-- The scissor of two registers (R232). -/
def scissorOf (a b : Nat) : Scissor :=
  ⟨a % 65536, a / 65536, min (b % 65536) 16384, min (b / 65536) 16384⟩

/-- The walk of one issue (R234). -/
def walkOf (v : List Int) (sc : Scissor) (c spp w token : Nat) : Walk :=
  let b := blocksOf v sc c
  let r := if culled v then ([], b.count) else b.visit v sc c spp 64 (w / 4) token
  { verts := v, scissor := sc, blocks := b, filled := r.1,
    token := if r.2 < b.count then BitVec.ofNat 32 r.2 else 0xffffffff }

/-- What lane `i` of the logical group receives (R234). -/
def Walk.lane (k : Walk) (c spp i : Nat) : List Word :=
  let nm := (c * c * spp + 31) / 32
  match k.filled[i / 4]? with
  | none => 0xffffffff :: List.replicate (nm + 3) 0
  | some n =>
    let p := k.blocks.pixel c n (i % 4)
    let m := coverMask k.verts k.scissor p.1 p.2 c spp
    let q := centrePoint p.1 p.2 c
    BitVec.ofNat 32 (p.1 + 65536 * p.2) :: ((List.range nm).map (fun j => BitVec.ofNat 32 (m / 2 ^ (32 * j)))
      ++ (List.range 3).map (fun j => BitVec.ofNat 32 (baryAt k.verts q.1 q.2 j)))

/-- `rast` (R232, R234). -/
def execRast (h : Hdr) (f : FA) (s : State) : Host.Outcome State Fault Refusal :=
  let c := 2 ^ (f.sub.toNat % 4)
  let spp := 2 ^ (f.sub.toNat / 4 % 4)
  let g := s.grp
  let walk (live : List Nat) : Walk :=
    let l := live.headD 0
    let r (b i : Nat) : Word := g.reg true l (b + i)
    let vs := (List.range 6).map (fun i => (r f.sa.toNat i).toInt)
    walkOf vs (scissorOf (r f.sb.toNat 0).toNat (r f.sb.toNat 1).toNat) c spp g.lw (r f.sc.toNat 0).toNat
  .next (s.groupWide (
    let lanes := g.execLanes s.curLaunch h
    let js := (List.range g.nLg).filter (fun j => lanes.any (fun l => g.lgOf l == j))
    let runs := (List.range 6).map (f.sa.toNat + ·) ++ [f.sb.toNat, f.sb.toNat + 1, f.sc.toNat]
    let (own, _) := s.ownPoison true runs (js.map (fun j => (g.liveOf j).headD 0))
    let walks := js.map (fun j => (j, walk (g.liveOf j)))
    let outs := walks.flatMap (fun x =>
      (lanes.filter (fun l => g.lgOf l == x.1)).map (fun l =>
        (l, ({ regs := x.2.lane c spp (l - x.1 * g.lw) } : LaneOut))))
    if !own.isEmpty then s.pendAll h own
    else
    let s1 := s.writeLanes h f.d.toNat outs
    (s1.setGrp (walks.foldl (fun g x => g.setReg true (x.1 * g.lw) f.sc.toNat x.2.token) s1.grp)).done h))

/-! ## Rays (R236) -/

/-- `raygen` calls that an element may make (R236). -/
def maxRays : Nat := 65536

/-- `raygen` (R236). -/
def execRaygen (h : Hdr) (f : FA) (s0 : State) : Host.Outcome State Fault Refusal :=
  let s := s0.endRegion
  let gr := s.wordGr h
  let a := opA f (f.sub.toNat % 16 + 1)
  let k := f.sub.toNat / 16 % 8
  .next (s.withLanes h [a] (fun lanes0 bad =>
    let lanes := lanes0.filter (fun l => !s.grp.helper gr l)
    let full := lanes.filter (fun l => decide (maxRays ≤ (s.grp.elemOf gr l).rays.length))
    if !full.isEmpty then s.illegalMask (maskOf full)
    else
      let kid (l : Nat) : RayKid :=
        { rate := k
          regs := (s.opndRun h f.imm l a).zipIdx.map (fun (x : Word × Nat) => (f.sb.toNat + x.2, x.1)) }
      let idx (l : Nat) : Word := BitVec.ofNat 32 (((s.grp.elemOf gr l).rays.filter (fun r => r.rate == k)).length)
      let s1 := s.writeLanes h f.d.toNat (lanes.map (fun l => (l, { regs := [idx l] })))
      (s1.setGrp (lanes.foldl (fun g l => g.updElem gr l (fun e => { e with rays := e.rays ++ [kid l] }))
        s1.grp)).doneBut h bad))

/-! ## Traversal (R237 to R243) -/

/-- The traversal state (R239). -/
structure Trav where
  node : Nat
  res : Nat
  hashit : Bool
  tcur : Nat
  hitleaf : Word
  hita : Word
  hitb : Word
  pleaf : Word
  tmin : Nat
  deriving DecidableEq, Repr

/-- The end of a walk (R237). -/
def travEnd : Nat := 0x7fffffff

def Trav.ofWords (ws : List Word) : Trav :=
  let w (i : Nat) : Word := ws.getD i 0
  { node := (w 0).toNat, res := nbits (w 1).toNat 0 2, hashit := (w 1).getLsbD 2, tcur := (w 2).toNat,
    hitleaf := w 3, hita := w 4, hitb := w 5, pleaf := w 6, tmin := (w 7).toNat }

def Trav.toWords (t : Trav) : List Word :=
  [BitVec.ofNat 32 t.node, BitVec.ofNat 32 (t.res + if t.hashit then 4 else 0), BitVec.ofNat 32 t.tcur, t.hitleaf,
   t.hita, t.hitb, t.pleaf, BitVec.ofNat 32 t.tmin]

/-- The state at the start of a walk (R240); `ray` is the run of eight. -/
def Trav.start (ray : List Word) : Trav :=
  { node := 0, res := 3, hashit := false, tcur := (ray.getD 7 0).toNat, hitleaf := 0xffffffff, hita := 0, hitb := 0,
    pleaf := 0xffffffff, tmin := (ray.getD 6 0).toNat }

/-- The end of a lane that stops for no other reason (R240). -/
def Trav.finish (t : Trav) : Trav :=
  { t with res := if t.node = travEnd then (if t.hashit then 1 else 0) else 3 }

/-- What the leaf record does to the state (R238, R240); the flag says that the lane stops. -/
def Trav.leaf (t : Trav) (ws : List Word) (idx miss : Nat) (o d : V3) : Trav × Bool :=
  let on := { t with node := miss }
  match nbits (ws.getD 9 0).toNat 0 2 with
  | 1 => ({ on with pleaf := BitVec.ofNat 32 idx, res := 2 }, true)
  | 0 =>
    match triHit (v3At ws 0) (v3At ws 3) (v3At ws 6) o d t.tmin t.tcur with
    | some (x, u, v) =>
      ({ on with tcur := x, hitleaf := BitVec.ofNat 32 idx, hita := BitVec.ofNat 32 u, hitb := BitVec.ofNat 32 v,
                 hashit := true }, false)
    | none => (on, false)
  | _ => (on, false)

/-- The 32-bit words of bytes. -/
def wordsOf (bs : List Byte) : List Word :=
  (List.range (bs.length / 4)).map (fun i => BitVec.ofNat 32 (ofLe ((bs.drop (4 * i)).take 4)))

/-- How a SAMP read stopped a lane. -/
def Got.stop? {α : Type} : Got α → Option LaneStop
  | .ok _ => none
  | .fault f => some (.fault f)
  | .poison a => some (.poison a)

/-- The walk of one lane, at most `n` more nodes (R240, R242). -/
def State.travLane (s : State) (g : Group) (nodes leaves : Nat) (o d : V3) : Nat → Trav → Trav × Option LaneStop × State
  | 0, t => (t.finish, none, s)
  | n + 1, t =>
    if t.node = travEnd then (t.finish, none, s)
    else
      let (r, s1) := s.sampLane g ((nodes + 32 * t.node) % 2 ^ 64) 32
      match r with
      | .fault f => ({ t with res := 3 }, some (.fault f), s1)
      | .poison a => ({ t with res := 3 }, some (.poison a), s1)
      | .ok bs =>
        let ws := wordsOf bs
        let miss := nbits (ws.getD 6 0).toNat 0 31
        let idx := (ws.getD 7 0).toNat
        if !boxHit (v3At ws 0) (v3At ws 3) o d t.tmin t.tcur then
          State.travLane s1 g nodes leaves o d n { t with node := miss }
        else if (ws.getD 6 0).getLsbD 31 = false then
          State.travLane s1 g nodes leaves o d n { t with node := (t.node + 1) % 2 ^ 32 }
        else
          let (q, s2) := s1.sampLane g ((leaves + 48 * idx) % 2 ^ 64) 48
          match q with
          | .fault f => ({ t with res := 3 }, some (.fault f), s2)
          | .poison a => ({ t with res := 3 }, some (.poison a), s2)
          | .ok lb =>
            let (t', stop) := t.leaf (wordsOf lb) idx miss o d
            if stop then (t', none, s2) else State.travLane s2 g nodes leaves o d n t'

/-- A lane of a traversal goes on from the state in its registers (R240). -/
def State.travResumes (s : State) (f : FA) (l : Nat) : Bool := f.sub.getLsbD 0 || inMask s.grp.div.pend l

/-- The lanes of a traversal in turn: what each writes, and those that stopped. -/
def State.travAll (s : State) (h : Hdr) (f : FA) : List Nat → State × List (Nat × LaneOut) × List (Nat × LaneStop)
  | [] => (s, [], [])
  | l :: rest =>
    let g := s.grp
    let gr := s.wordGr h
    let ray := s.opndRun h f.imm l (opA f 8)
    let nodes := s.opnd h f.imm .i64 l (opB f 2)
    let leaves := s.opnd h f.imm .i64 l (opC f 2)
    let t0 := if s.travResumes f l then
        Trav.ofWords ((List.range 8).map (fun i => g.reg gr l (f.d.toNat + i)))
      else Trav.start ray
    let (t, stop, s1) := s.travLane g nodes leaves (v3At ray 0) (v3At ray 3) 64 t0
    let (s2, outs, stops) := State.travAll s1 h f rest
    (s2, (l, { regs := t.toWords }) :: outs, (match stop with | some x => (l, x) :: stops | none => stops))

/-- `trav` (R240, R242). -/
def execTrav (h : Hdr) (f : FA) (s : State) : Host.Outcome State Fault Refusal :=
  .next (s.withLanes h [opA f 8, opB f 2, opC f 2] (fun lanes bad =>
    let old := (List.range 8).map (f.d.toNat + ·)
    let (own, _) := s.ownPoison (s.wordGr h) old (lanes.filter (s.travResumes f))
    let (s1, outs, stops) := s.travAll h f (lanes.filter (fun l => !own.any (fun x => x.1 == l)))
    s.limited (s1.finish h f.d.toNat outs (stops ++ own ++ bad) 1 0)))

/-- `travr` (R243). -/
def execTravr (h : Hdr) (f : FA) (s : State) : Host.Outcome State Fault Refusal :=
  .next (s.withLanes h [opA f 1, opB f 1, opC f 1] (fun lanes0 bad =>
    let gr := s.wordGr h
    let (own, lanes) := s.ownPoison gr ((List.range 8).map (f.d.toNat + ·)) lanes0
    let out (l : Nat) : LaneOut :=
      let t := Trav.ofWords ((List.range 8).map (fun i => s.grp.reg gr l (f.d.toNat + i)))
      let x := s.opnd h f.imm .f32 l (opA f 1)
      if t.res = 2 ∧ leF t.tmin x ∧ ltF x t.tcur then
        { regs := { t with
            tcur := x
            hitleaf := t.pleaf
            hita := s.opndWord h f.imm l (opB f 1) 0
            hitb := s.opndWord h f.imm l (opC f 1) 0
            hashit := true }.toWords }
      else {}
    (s.writeLanes h f.d.toNat (lanes.map (fun l => (l, out l)))).doneBut h (own ++ bad)))

/-! ## Regrouping (R244 to R246) -/

/-- A logical group of a team: group index, hardware group and place in it. -/
structure Member where
  gindex : Nat
  gid : Nat
  lg : Nat
  deriving DecidableEq, Repr

/-- Insert in order of the group index. -/
def insertMember (m : Member) : List Member → List Member
  | [] => [m]
  | x :: xs => if m.gindex < x.gindex then m :: x :: xs else x :: insertMember m xs

/-- The live logical groups of a team that share a role, by group index (R244, R72). -/
def State.regrpSet (s : State) (team role : Nat) : List Member :=
  ((s.allGroups.filter (fun g => g.team == team && g.gid != 0)).flatMap (fun g =>
    (g.lgs.zipIdx.filter (fun x => x.1.role == role
        && (g.div.live &&& g.lgMask x.2 != 0 || g.keys.any (fun k => inMask (g.lgMask x.2) k.1)))).map
      (fun x => ({ gindex := x.1.gindex, gid := g.gid, lg := x.2 } : Member)))).foldr insertMember []

/-- A thread that moves: its key, its group and lane. -/
structure Mover where
  key : Nat
  gid : Nat
  lane : Nat
  deriving DecidableEq, Repr

/-- Insert in order of the key; equal keys keep the order of the groups. -/
def insertMover (m : Mover) : List Mover → List Mover
  | [] => [m]
  | x :: xs => if m.key ≤ x.key then m :: x :: xs else x :: insertMover m xs

/-- Take a lane's thread out of a group. -/
def Group.dropLane (g : Group) (l : Nat) : Group :=
  { g with
    regs := g.regs.filter (fun x => x.1 % 128 != l)
    preds := (g.preds.map (fun (x : Nat × Mask) => (x.1, x.2 &&& ~~~ oneLane l))).filter (fun x => x.2 != 0)
    elems := SMap.del g.elems l
    keys := SMap.del g.keys l
    div := { g.div with live := g.div.live &&& ~~~ oneLane l, pcs := SMap.set 0 g.div.pcs l 0 } }

/-- Put a thread's registers in a lane. -/
def Group.putRegs (g : Group) (l : Nat) (rs : List (Nat × Word)) : Group :=
  { g with regs := rs.foldl (fun m x => SMap.set 0 m (128 * x.1 + l) x.2) g.regs }

/-- Put predicates in a lane. -/
def Group.putPreds (g : Group) (l : Nat) (ps : List Nat) : Group :=
  ps.foldl (fun g p => g.setPred p (oneLane l) true) g

/-- A lane's thread, as a bin stores it (R245). -/
def Group.threadOf (g : Group) (l : Nat) (pc : Dword) : Thread :=
  { regs := laneRegs g l, preds := (List.range' 1 15).filter (fun p => g.predOf p l), pc := pc, elem := SMap.find g.elems l }

/-- A thread enters a lane, live. -/
def Group.putThread (g : Group) (l : Nat) (t : Thread) : Group :=
  let g1 := ((g.putRegs l t.regs).putPreds l t.preds)
  { g1 with
    elems := match t.elem with | some e => SMap.put g1.elems l e | none => g1.elems
    div := { (g1.div.setSplit (l / 4) (if g1.run.on then 2 else 0)) with
      live := g1.div.live ||| oneLane l, pcs := SMap.set 0 g1.div.pcs l t.pc } }

/-- Slices that hold no live lane are done; with no run in progress the lowest address is subscribed. -/
def Group.resplit (g : Group) : Group :=
  if g.run.on then g else { g with div := { g.div.afterRun g.hw [] 0 with next := none } }

/-- Exchange the threads of a set all of whose groups have arrived (R244). -/
def State.exchange (s : State) (ms : List Member) : State :=
  let find (gid : Nat) : Group := (s.findGroup gid).getD {}
  let lw := (find ((ms.headD ⟨0, 0, 0⟩).gid)).lw
  let moves := (List.range lw).flatMap (fun l =>
    let ts := (ms.filterMap (fun m =>
      let g := find m.gid
      (SMap.find g.keys (m.lg * lw + l)).map (fun k => ({ key := k.toNat, gid := m.gid, lane := m.lg * lw + l } : Mover)))).foldr
      insertMover []
    (ts.zip ms).map (fun (x : Mover × Member) => (x, l)))
  let threads := moves.map (fun (x : (Mover × Member) × Nat) =>
    let g := find x.1.1.gid
    (x.1.2.gid, x.1.2.lg * lw + x.2, g.threadOf x.1.1.lane (SMap.look 0 g.div.pcs x.1.1.lane)))
  let s1 := ms.foldl (fun (t : State) m => t.updGroup m.gid (fun g =>
    (lanesOf (g.lgMask m.lg) g.hw).foldl Group.dropLane g)) s
  let s2 := threads.foldl (fun (t : State) (x : Nat × Nat × Thread) =>
    t.updGroup x.1 (fun g => g.putThread x.2.1 x.2.2)) s1
  ms.foldl (fun (t : State) m =>
    match t.findGroup m.gid with
    | none => t
    | some g =>
      let t1 := (t.dropL1 g.core).updGroup m.gid (fun g =>
        { g.resplit with windows := [], wait := if g.wait = .regrp then .ready else g.wait })
      if g.div.live = 0 then t1.groupMayEnd m.gid else t1) s2

/-- The exchange of a role takes place once every live group of its set has arrived (R244). -/
def State.tryExchange (s : State) (team role : Nat) : State :=
  let ms := s.regrpSet team role
  let arrived (m : Member) : Bool := match s.findGroup m.gid with
    | some g => g.div.live &&& g.lgMask m.lg == 0
    | none => true
  if !ms.isEmpty && ms.all arrived then s.exchange ms else s

/-- Look at every role of a team; a group that ends is no longer waited for. -/
def State.tryExchanges (s : State) (team : Nat) : State :=
  if team = 0 || !s.allGroups.any (fun g => g.team == team && !g.keys.isEmpty) then s
  else
    (distinct ((s.allGroups.filter (fun g => g.team == team)).flatMap (fun g => g.lgs.map (·.role)))).foldl
      (fun t r => t.tryExchange team r) s

/-- `regrp` (R244): every live lane of the group arrives. -/
def execRegrp (h : Hdr) (f : FA) (s0 : State) : Host.Outcome State Fault Refusal :=
  let s := s0.endRegion
  .next (s.groupWide (s.withOps h [opA f 1] (fun lanes =>
    let key (l : Nat) : Nat × Word := (l, s.opndWord h f.imm l (opA f 1) 0)
    let s1 := s.writeLanes h f.d.toNat (lanes.map (fun l =>
      (l, { regs := [BitVec.ofNat 32 (s.grp.lg (s.grp.lgOf l)).gindex] })))
    let g1 := s1.grp
    let s2 := (s1.setGrp { g1 with
      keys := lanes.foldl (fun m l => SMap.put m l (key l).2) g1.keys
      div := { g1.div with live := g1.div.live &&& ~~~ maskOf lanes,
                           pcs := setPcs g1.div.pcs (lanes.map (fun l => (l, g1.run.pc.toNat + 16))) } }).doneAt []
    let s3 := if s2.grp.div.live = 0 then s2.waitAt .regrp else s2
    s3.tryExchanges s3.grp.team)))

/-- Where the stored threads of a context lie in its sort area, and their sizes (R245). -/
def State.sortSpans (s : State) (asid : Nat) : List (Nat × Nat) :=
  s.beads.flatMap (fun (b : Nat × Bead) =>
    (b.2.bins.filter (fun n => n.asid == asid)).flatMap (fun n => n.threads.map (fun t => (t.place, t.size))))

/-- Places of `k` threads of `size` bytes, each the lowest that is free; none where the sort area lacks the room. -/
def sortPlaces (limit size : Nat) : Nat → List (Nat × Nat) → Option (List Nat)
  | 0, _ => some []
  | k + 1, spans =>
    let o := findHole spans size
    if limit < o + size then none
    else (sortPlaces limit size k ((o, size) :: spans)).map (o :: ·)

/-- The bytes of a stored thread: 16 of its program counter and predicates, then its registers (R245). -/
def Thread.bytes (t : Thread) (lregs : Nat) : List Byte :=
  leBytes t.pc.toNat 8 ++ leBytes (sumOf (t.preds.map (fun p => 2 ^ p))) 8
    ++ (List.range lregs).flatMap (fun v => leBytes (SMap.look 0 t.regs v).toNat 4)

/-- The thread that stored bytes hold. -/
def threadOfBytes (bs : List Byte) (e : Option Elem) : Thread :=
  let preds := ofLe ((bs.drop 8).take 2)
  { pc := BitVec.ofNat 64 (ofLe (bs.take 8))
    preds := (List.range' 1 15).filter (fun p => preds.testBit p)
    regs := (wordsOf (bs.drop 16)).zipIdx.map (fun x => (x.2, x.1))
    elem := e }

/-- Write a stored thread: the sort area is memory of the context, outside the versions of segments (R96, R247). -/
def State.sortWrite (s : State) (bead asid place : Nat) (bs : List Byte) : Except TFault Unit × State :=
  match s.translateRange none bead asid .write ((s.ctx asid).sortbase + place) bs.length with
  | (.error f, s1) => (.error f, s1)
  | (.ok pas, s1) => (.ok (), s1.homeStore (pas.zip bs))

/-- Store the threads of lanes: the lanes at which the sort area does not translate, and each one's fault. -/
def State.sortStore (s : State) (g : Group) (lregs : Nat) : List (Nat × Nat) → State × List TFault
  | [] => (s, [])
  | (l, o) :: rest =>
    let (r, s1) := s.sortWrite g.bead g.asid o ((g.threadOf l (g.run.pc + 16)).bytes lregs)
    let (s2, fs) := State.sortStore s1 g lregs rest
    (s2, (match r with | .error f => [f] | .ok _ => []) ++ fs)

/-- Put a thread at the end of its bin. -/
def addThread (bins : List Bin) (b : Bin) (t : Stored) : List Bin :=
  let same (x : Bin) : Bool :=
    x.launch == b.launch && x.rate == b.rate && x.segid == b.segid && x.bin == b.bin && x.asid == b.asid
  if bins.any same then bins.map (fun x => if same x then { x with threads := x.threads ++ [t] } else x)
  else bins ++ [{ b with threads := [t] }]

/-- `regrpk` (R245): the live threads go to their bins and the group ends; it waits where there is no room. Where the sort
area does not translate no thread moves, and every lane is pending (R75, DESIGN CHOICE, log 28). -/
def execRegrpk (h : Hdr) (f : FA) (s0 : State) : Host.Outcome State Fault Refusal :=
  let s := s0.endRegion
  let n := f.sub.toNat + 1
  .next (s.groupWide (s.withOps h [opA f 1] (fun lanes =>
    let g := s.grp
    let role := (g.lg ((lanes.head?).elim 0 g.lgOf)).role
    let lregs := ((s.curLaunch.roles[role]?).map (·.lregs)).getD 0
    let size := 16 + 4 * lregs
    match sortPlaces (s.ctx g.asid).sortsize size lanes.length (s.sortSpans g.asid) with
    | none => s.waitAt .sortRoom
    | some places =>
      let at_ := lanes.zip places
      let (s1, faults) := s.sortStore g lregs at_
      match faults with
      | f :: fs => s1.stopLanes (lanes.zipIdx.map (fun x => (x.1, .fault (fs.getD x.2 f)))) 6 1
      | [] =>
        let put (bins : List Bin) (x : Nat × Nat) : List Bin :=
          addThread bins { launch := g.launch, asid := g.asid, rate := g.rate, segid := g.segid
                           bin := s.opnd h f.imm .i32 x.1 (opA f 1) % n, threads := [] }
            { elem := SMap.find g.elems x.1, team := g.team, role := role, place := x.2, size := size }
        let s2 := s1.updBead g.bead (fun b => { b with bins := at_.foldl put b.bins })
        let s3 := (s2.setGrp { s2.grp with
          elems := g.elems.filter (fun x => !lanes.contains x.1)
          div := { g.div with live := g.div.live &&& ~~~ maskOf lanes } }).doneAt []
        s3.groupMayEnd g.gid)))

end Sys2Proof.Machine
end

