-- ==== Sys2Proof/Machine/Control.lean ====
section
/-! DEFINITION. Branches, calls, code overlays, rewritten code, the end of threads: opcodes 0xe0 to 0xea
(R299 to R310). -/

namespace Sys2Proof.Machine

/-! ## Transfers of control (R300 to R302) -/

/-- The rate of the CODE section in which an address lies (R25): of the sections that begin at or below it
the last. -/
def Launch.sectionRate (l : Launch) (a : Nat) : Option Nat :=
  let starts := l.sect.zipIdx.filterMap (fun x =>
    if x.1 = 0xffffff then none else some (x.2, l.codebase.toNat + 256 * x.1))
  (minOf ((starts.filter (fun x => decide (x.2 ≤ a))).map (fun x => a - x.2))).bind (fun d =>
    (starts.find? (fun x => x.2 + d == a)).map (·.1))

/-- The lanes of a word move to their targets, after the link pair is written where there is one; a
target that is no word address stops them all (R302), as does the group-rate section for a group that is
not converged (R25). -/
def State.transfer (s : State) (h : Hdr) (link : Option Nat) (lanes : List Nat) (target : Nat → Nat) : State :=
  let ts := (s.movers h lanes).map (fun x => (x.1, target x.2))
  let bad := ts.filter (fun x => decide (x.2 % 16 ≠ 0) || decide (2 ^ 52 ≤ x.2))
  let l := s.curLaunch
  if !bad.isEmpty then s.illegalMask (maskOf (bad.map (·.1)))
  else if !s.grp.converged && ts.any (fun x => (l.sectionRate x.2).any l.isGroupRate) then
    s.illegalMask s.grp.run.active
  else
    let s1 := match link with
      | some d => s.writeLanes h d (lanes.map (fun x => (x, { regs := pairOf (s.grp.run.pc.toNat + 16) })))
      | none => s
    s1.doneAt ts

/-- The target that IMM gives (R181). -/
def State.labelAt (s : State) (f : FC) : Nat := (s.grp.run.pc.toNat + 16 * (f.imm.signExtend 64).toNat) % 2 ^ 64

/-- The target in a lane's own pair. -/
def State.pairTarget (s : State) (h : Hdr) (f : FC) (l : Nat) : Nat := s.opnd h f.imm .i64 l (opX f.a 2)

/-- `br` (R300). -/
def execBr (h : Hdr) (f : FC) (s : State) : Host.Outcome State Fault Refusal :=
  .next (s.withOps h [] (fun lanes => s.transfer h none lanes (fun _ => s.labelAt f)))

/-- `brp` (R301): uniform over the lanes that execute it; at a rate packed GROUP it is evaluated for each logical group
(R330). -/
def execBrp (h : Hdr) (f : FC) (s : State) : Host.Outcome State Fault Refusal :=
  .next (s.withOps h [] (fun lanes =>
    let q (l : Nat) : Bool := s.grp.predOf (f.a.toNat % 16) l != f.sub.getLsbD 1
    let c := if f.sub.getLsbD 0 then lanes.all q else lanes.any q
    s.transfer h none (if s.wordGr h then lanes.filter q else if c then lanes else []) (fun _ => s.labelAt f)))

/-- `brd` (R302). -/
def execBrd (h : Hdr) (f : FC) (s : State) : Host.Outcome State Fault Refusal :=
  .next (s.withOps h [opX f.a 2] (fun lanes => s.transfer h none lanes (s.pairTarget h f)))

/-- `call` (R302): direct, or through a pair. -/
def execCall (h : Hdr) (f : FC) (s : State) : Host.Outcome State Fault Refusal :=
  .next (if f.sub.getLsbD 0 then
      s.withOps h [opX f.a 2] (fun lanes => s.transfer h (some f.d.toNat) lanes (s.pairTarget h f))
    else s.withOps h [] (fun lanes => s.transfer h (some f.d.toNat) lanes (fun _ => s.labelAt f)))

/-- `ret` (R302): as `brd`. -/
def execRet (h : Hdr) (f : FC) (s : State) : Host.Outcome State Fault Refusal :=
  .next (s.withOps h [opX f.a 2] (fun lanes => s.transfer h none lanes (s.pairTarget h f)))

/-! ## Code overlays (R303 to R305) -/

/-- An overlay table entry (R303). -/
structure OvlEntry where
  present : Bool
  fif : Bool
  addr : Nat
  gen : Nat
  len : Nat
  deriving DecidableEq, Repr

/-- Read an entry of 16 bytes. -/
def ovlEntry (bs : List Byte) : OvlEntry :=
  let x := ofLe bs
  { present := nbits x 0 1 == 1, fif := nbits x 1 1 == 1, addr := nbits x 8 44 * 256, gen := nbits x 52 12,
    len := nbits x 64 16 }

/-- Virtual address of entry `n` of a context's table. -/
def Ctx.ovlAt (c : Ctx) (n : Nat) : Nat := (c.ovlbase + 16 * n) % 2 ^ 64

/-- A word of an overlay frame as memory has it now; none where its sector is poisoned. -/
def State.reload (s : State) (w : CodeLine) : Option CodeLine :=
  if s.poison.contains (sectorOf w.pa) then none else some { w with word := wordOfBytes (s.bytesAt w.pa 16) }

/-- Instruction fetch of a group starts afresh (R307, R308): its loop buffers and the L0 lines of its core
that no overlay frame pins go; the pinned ones are read again. -/
def State.refetch (s : State) : State :=
  let s1 := s.setGrp { s.grp with loops := [] }
  s1.updCore s.grp.core (fun c => { c with l0 := (c.l0.filter (·.ovl.isSome)).filterMap s.reload })

/-- Drop what a core holds of an overlay under another GEN (R305). -/
def Core.dropOverlay (c : Core) (asid n gen lo len : Nat) : Core :=
  { c with l0 := c.l0.filter (fun w => !(w.asid == asid && decide (lo ≤ w.va) && decide (w.va < lo + 16 * len)
      && match w.ovl with | some (m, g) => m != n || g != gen | none => true)) }

/-- The `jfence` of one logical group on entry `n` with word offset `off`: the address to which its lanes move, none where
the word stops (R305). It then stops in all the lanes `all` that execute it. -/
def State.jump (s : State) (h : Hdr) (all : List Nat) (n off : Nat) : State × Option Nat :=
  let g := s.grp
  let c := s.ctx g.asid
  if c.ovlcount ≤ n then (s.illegalState 5 (BitVec.ofNat 64 n), none)
  else
    match s.translate (some g.core) g.bead g.asid (c.ovlAt n) .atomic with
    | (.error x, s1) => (s1.stopLanes ((s.movers h all).map (fun l => (l.1, .fault x))) 0 2, none)
    | (.ok pa, s1) =>
      if s1.poison.contains (sectorOf pa) then
        (s1.stopLanes ((s.movers h all).map (fun l => (l.1, .poison (c.ovlAt n / 64 * 64)))) 0 2, none)
      else
        let e := ovlEntry (s1.bytesAt pa 16)
        if e.present then
          if e.len ≤ off then (s1.illegalState 5 (BitVec.ofNat 64 off), none)
          else (((s1.dropL1 g.core).refetch).updCore g.core (fun x => x.dropOverlay g.asid n e.gen e.addr e.len),
            some ((e.addr + 16 * off) % 2 ^ 64))
        else if !e.fif then
          -- this step alone sets FIF, and so this group alone takes the trap
          ((s1.contextStore g.asid g.segid [(pa, s1.byte pa ||| 2)]).trap { cause := 0x15, info := BitVec.ofNat 64 n } false, none)
        else (s1.waitAt (.park (sectorOf pa) false), none)

/-- The `jfence` of each logical group in turn, each with the operands of its lowest executing lane (R71, R305): where they
move to, by that lane; none where one of them stops. -/
def State.jumps (s : State) (h : Hdr) (all : List Nat) (at_ : Nat → Nat × Nat) : List Nat → State × Option (List (Nat × Nat))
  | [] => (s, some [])
  | l :: ls =>
    match s.jump h all (at_ l).1 (at_ l).2 with
    | (t, none) => (t, none)
    | (t, some a) => match State.jumps t h all at_ ls with
      | (u, none) => (u, none)
      | (u, some xs) => (u, some ((l, a) :: xs))

/-- `jfence` (R305): index and offset come from the lowest active lane of a logical group; no lane moves unless all do. -/
def execJfence (h : Hdr) (f : FC) (s : State) : Host.Outcome State Fault Refusal :=
  .next (s.withOps h [opX f.a 1, opX f.b 1] (fun lanes =>
    let at_ (l : Nat) : Nat × Nat := (s.opnd h f.imm .i32 l (opX f.a 1), s.opnd h f.imm .i32 l (opX f.b 1))
    match s.jumps h lanes at_ (s.grp.heads lanes) with
    | (t, none) => t
    | (t, some to_) =>
      let u := if f.sub.getLsbD 0 then
          t.writeLanes h f.d.toNat (lanes.map (fun x => (x, { regs := pairOf (s.grp.run.pc.toNat + 16) })))
        else t
      u.doneAt ((s.movers h lanes).map (fun x =>
        (x.1, ((to_.find? (fun y => s.grp.lgOf y.1 == s.grp.lgOf x.1)).map (·.2)).getD 0)))))

/-- Frames of 256 words that a length of words takes. -/
def framesOf (words : Nat) : Nat := (words + 255) / 256

/-- Frames that a core's pinned overlays take: words of one overlay share theirs. -/
def Core.framesUsed (c : Core) : Nat :=
  let keys := (c.l0.filterMap (fun w => w.ovl.map (fun o => (w.asid, o)))).eraseDups
  sumOf (keys.map (fun k => framesOf (c.l0.countP (fun w => w.asid == k.1 && w.ovl == some k.2))))

/-- Words of an overlay, fetched into a core; none where a translation fails or poison is met. -/
def State.overlayLines (s : State) (core bead asid n gen : Nat) : Nat → Nat → State × Option (List CodeLine)
  | _, 0 => (s, some [])
  | va, k + 1 =>
    match s.translate (some core) bead asid va .fetch with
    | (.error _, s1) => (s1, none)
    | (.ok pa, s1) =>
      if s1.poison.contains (sectorOf pa) then (s1, none)
      else
        let w : CodeLine := { asid := asid, va := va, pa := pa, tgen := s1.tgen.toNat, page := s1.pageOf core bead asid va,
                              word := wordOfBytes (s1.bytesAt pa 16), ovl := some (n, gen) }
        match State.overlayLines s1 core bead asid n gen (va + 16) k with
        | (s2, some ws) => (s2, some (w :: ws))
        | (s2, none) => (s2, none)

/-- Load overlay `n` into the core's frames and pin it, or drop the request (R304). -/
def State.pinOverlay (s : State) (n : Nat) : State :=
  let g := s.grp
  let c := s.ctx g.asid
  let pinned (t : State) : State := t.setGrp { t.grp with pins := distinct (t.grp.pins ++ [n]) }
  if c.ovlcount ≤ n then s
  else
    match s.translate (some g.core) g.bead g.asid (c.ovlAt n) .read with
    | (.error _, s1) => s1
    | (.ok pa, s1) =>
      let e := ovlEntry (s1.bytesAt pa 16)
      let co := s1.core g.core
      if !e.present || s1.poison.contains (sectorOf pa) then s1
      else if co.l0.any (fun w => w.asid == g.asid && w.ovl == some (n, e.gen)) then pinned s1
      else if 4 < co.framesUsed + framesOf e.len then s1
      else match s1.overlayLines g.core g.bead g.asid n e.gen e.addr e.len with
        | (s2, some ws) => pinned (s2.updCore g.core (fun x => { x with l0 := ws.foldr (fun w l => putLine (Config.allocFrom s2.tick) l w) x.l0 }))
        | (s2, none) => s2

/-- `cfetch` (R304): it neither waits nor traps. -/
def execCfetch (h : Hdr) (f : FC) (s : State) : Host.Outcome State Fault Refusal :=
  .next (s.withOps h [opX f.a 1] (fun lanes =>
    ((s.grp.heads lanes).foldl (fun t l => t.pinOverlay (s.opnd h f.imm .i32 l (opX f.a 1))) s).done h))

/-- `ifence` (R307): an acquire at device scope for data and instruction fetch; in a speculative segment it
waits until commit. -/
def execIfence (h : Hdr) (_f : FC) (s0 : State) : Host.Outcome State Fault Refusal :=
  let s := s0.endRegion
  .next (s.holdSpec true (s.withOps h [] (fun lanes =>
    if lanes.isEmpty then s.doneAt [] else ((s.dropL1 s.grp.core).refetch).doneAt [])))

/-! ## Ending and yielding (R309, R310) -/

/-- Count registers of an element of rate `k` that exceed the limit (R18): register and count. -/
def Launch.overCount (l : Launch) (k : Nat) (read : Nat → Word) : Option (Nat × Nat) :=
  (l.lattice.filter (fun e => e.valid && !e.root && e.parent == k && (e.fanout == 1 || e.fanout == 2))).findSome? (fun e =>
    let n := (read e.countreg).toNat
    if maxChildren < n then some (e.countreg, n) else none)

/-- The count of a section that the lanes given would end, and that is too great (R18): of a lane's own
element, or of a logical group's when none of its lanes stays live. -/
def State.badCount (s : State) (lanes : List Nat) : Option (Nat × Nat) :=
  let g := s.grp
  let l := s.curLaunch
  let own := lanes.findSome? (fun x => match SMap.find g.elems x with
    | some e => if e.helper then none else l.overCount e.rate (fun r => g.reg false x r)
    | none => none)
  let left := g.div.live &&& ~~~ maskOf lanes
  own.orElse (fun _ => (List.range g.nLg).findSome? (fun j =>
    let e := (g.lg j).elem
    if ¬ e.present ∨ left &&& g.lgMask j ≠ 0 ∨ ¬ l.isGroupRate e.rate then none
    else l.overCount e.rate (fun r => g.reg true (j * g.lw) r)))

/-- Threads end at an ending word (R309). -/
def State.endThreads (s : State) (lanes : List Nat) : State :=
  let gid := s.grp.gid
  match s.badCount lanes with
  | some (r, n) => s.illegalState 1 (BitVec.ofNat 64 (r + 2 ^ 32 * n))
  | none =>
    let team := s.grp.team
    (((s.endLanes gid lanes).doneAt []).groupMayEnd gid).tryExchanges team

/-- `exit` (R309). -/
def execExitW (h : Hdr) (_f : FC) (s0 : State) : Host.Outcome State Fault Refusal :=
  let s := s0.endRegion
  .next (s.withOps h [] (fun lanes =>
    if lanes.isEmpty then s.doneAt [] else s.endThreads ((s.movers h lanes).map (·.1))))

/-- `yield` (R310). -/
def execYield (_h : Hdr) (_f : FC) (s : State) : Host.Outcome State Fault Refusal := .next (s.doneAt [])

/-- `nop` (R310). -/
def execNop (h : Hdr) (_f : FC) (s : State) : Host.Outcome State Fault Refusal := .next (s.done h)

end Sys2Proof.Machine
end

