-- ==== Sys2Proof/Machine/SegWords.lean ====
section
/-! DEFINITION. Segment instructions: opcodes 0xeb to 0xf0 (R86 to R95, R105, R311, R312, R331). -/

namespace Sys2Proof.Machine

/-! ## Spawning (R86 to R88) -/

/-- The probability code of an FP32 value (R87). -/
def probCode (x : Nat) : Nat :=
  match fp32.value x with
  | .fin false m e =>
    -- ceil(x · 256), for m · 2^e
    let k := e + 8
    let c := if 0 ≤ k then (if m = 0 then 0 else if 9 < k then 256 else m * 2 ^ k.toNat)
      else (m + 2 ^ (-k).toNat - 1) / 2 ^ (-k).toNat
    min 256 (max 1 c) - 1
  | .inf false => 255
  | _ => 0

/-- The segments above one that a group spawns: its own and those above that; none in root code. -/
def State.aboveOf (s : State) (g : Group) : List Nat :=
  if g.segid = 0 then [] else g.segid :: (match s.findSeg g.asid g.segid with | some y => y.above | none => [])

/-- A spawn for one logical group: the state after it and the value of `vD`, or a trap. -/
def State.spawnOne (s : State) (prob : Nat) (vc : Word) (stype side : Nat) (args : List Word) :
    Except Nat (State × Word) :=
  let g := s.grp
  let die := dieOfCore g.core
  let new := vc == 0
  let c := s.cond die (handleEntry vc)
  if !new && !s.handleLive die vc then .error vc.toNat
  else if !new && c.resolved.isSome && c.resolved != some side then .ok (s, vc)
  else
    let pending := s.segs.countP (fun x => x.die == die && x.st == .pending)
    let entry := if new then
        freeFrom (((List.range 1024).filter (fun e => (s.cond die e).live))) (Config.allocFrom s.tick % 1024) 1024
      else some (handleEntry vc)
    let n := (s.ctx g.asid).nextSeg
    if decide (4096 ≤ pending) || entry.isNone || decide (16 ≤ s.depth g.asid g.segid + 1) || decide (0xffffffff < n) then
      .ok (s, if new then 0x80000000 else vc ||| 0x80000000)
    else
      let e := entry.getD 0
      let old := s.cond die e
      let site := nbits g.run.pc.toNat 4 8
      let c1 : Cond := if new then { gen := old.gen, live := true, asid := g.asid, launch := g.launch, creator := g.segid }
        else old
      let root := match s.findSeg g.asid g.segid with
        | some y => if g.segid = 0 then g.team else y.root
        | none => g.team
      let p := if c1.resolved = some side then 0xff else prob
      let x : Seg := { asid := g.asid, segid := n, launch := g.launch, die := die, parent := g.segid, cond := e,
                       side := side, prob := p, stype := stype, args := args, depth := s.depth g.asid g.segid + 1, root := root, above := s.aboveOf g, site := site, st := .pending, held := false,
                       version := 0, bytes := [], reads := [], passed := [] }
      let s1 := (s.setCond die e { c1 with spawned := c1.spawned ++ [(site, side)] }).updCtx g.asid (fun k =>
        { k with nextSeg := n + 1 })
      .ok ({ s1 with segs := s1.segs ++ [x] }, condHandle e c1)

/-- The logical groups of a spawn in turn. Where the handle of a later one is not live the word traps and the spawns of
the earlier ones are undone (DESIGN CHOICE, log 44). -/
def State.spawnAll (s : State) (h : Hdr) (f : FC) (nargs : Nat) (prob : Nat → Nat) : List Nat → Except Nat State
  | [] => .ok s
  | l :: rest =>
    match s.spawnOne (prob l) (s.opndWord h f.imm l (opX f.a 1) 0) f.seg.toNat f.side.toNat
        (if nargs = 0 then [] else s.opndRun h f.imm l (opX f.c nargs)) with
    | .error i => .error i
    | .ok (s1, v) => State.spawnAll (s1.writeLanes h f.d.toNat [(l, { regs := [v] })]) h f nargs prob rest

/-- A spawn word (R86): the probability of its side by its form. -/
def State.spawnWord (s0 : State) (h : Hdr) (f : FC) (pOps : List Opnd) (prob : State → Nat → Nat) : State :=
  let s := s0.endRegion
  s.groupWide (
    match s.curLaunch.segs[f.seg.toNat]? with
    | none => s.illegalState 5 (BitVec.ofNat 64 f.seg.toNat)
    | some ty =>
      if (ty.nargs = 0) ≠ (f.c.toNat = 0x800) ∨ (ty.nargs ≠ 0 ∧ 0x800 ≤ f.c.toNat) then
        s.illegalState 5 (BitVec.ofNat 64 f.seg.toNat)
      else
        s.withOps h ([opX f.a 1] ++ pOps ++ (if ty.nargs = 0 then [] else [opX f.c ty.nargs])) (fun lanes =>
          match s.spawnAll h f ty.nargs (prob s) lanes with
          | .error i => s.illegalState 5 (BitVec.ofNat 64 i)
          | .ok s1 => s1.done h))

/-- `spawn.i` (R86): P is an immediate. -/
def execSpawnI (h : Hdr) (f : FC) (s : State) : Host.Outcome State Fault Refusal :=
  .next (s.spawnWord h f [] (fun _ _ => f.imm.toNat % 256))

/-- `spawn.r` (R86, R87): P from an FP32 register. -/
def execSpawnR (h : Hdr) (f : FC) (s : State) : Host.Outcome State Fault Refusal :=
  .next (s.spawnWord h f [opX f.b 1] (fun t l => probCode (t.opnd h f.imm .f32 l (opX f.b 1))))

/-- `spawn.h` (R86, R94): P is the predictor entry of the spawn site. -/
def execSpawnH (h : Hdr) (f : FC) (s : State) : Host.Outcome State Fault Refusal :=
  .next (s.spawnWord h f [] (fun t _ =>
    SMap.get 0x7f (t.part (t.ctx t.grp.asid).part).pred (256 * dieOfCore t.grp.core + nbits t.grp.run.pc.toNat 4 8)))

/-! ## Resolution (R92 to R94) -/

/-- Resolve a condition to a side: train, prune the losing side. A condition that this settles is freed once every lane of
the word has resolved. -/
def State.resolveTo (s : State) (die e side : Nat) : State :=
  let c := s.cond die e
  let s1 := (s.setCond die e { c with resolved := some side }).train (s.ctx s.grp.asid).part die side c
  s1.pruneOnly (s1.segs.filter (fun x => x.die == die && x.cond == e && x.side != side && x.st.speculative))

/-- A resolution for one logical group; an error names the handle. -/
def State.resolveOne (s : State) (vc vb : Word) : Except Nat State :=
  let die := dieOfCore s.grp.core
  let side := if vb = 0 then 0 else 1
  if !s.handleLive die vc then .error vc.toNat
  else match (s.cond die (handleEntry vc)).resolved with
    | some x => if x = side then .ok s else .error vc.toNat
    | none => .ok (s.resolveTo die (handleEntry vc) side)

/-- The lanes of a `resolve` in turn; where a later one errs, the word traps and the resolutions of the earlier ones are
undone (DESIGN CHOICE, log 44). -/
def State.resolveAll (s : State) : List (Word × Word) → Except Nat State
  | [] => .ok s
  | (c, b) :: rest =>
    match s.resolveOne c b with
    | .error i => .error i
    | .ok s1 => State.resolveAll s1 rest

/-- `resolve` (R92): in a speculative segment it waits until commit. -/
def execResolve (h : Hdr) (f : FC) (s : State) : Host.Outcome State Fault Refusal :=
  .next (s.holdSpec true (s.groupWide (s.withOps h [opX f.a 1, opX f.b 1] (fun lanes =>
    match s.resolveAll (lanes.map (fun l =>
        (s.opndWord h f.imm l (opX f.a 1) 0, s.opndWord h f.imm l (opX f.b 1) 0))) with
    | .error i => s.illegalState 5 (BitVec.ofNat 64 i)
    | .ok s1 => s1.freeConds.done h))))

/-- `segend` (R95): it ends the group as `exit` does; in root code it is an illegal state. -/
def execSegend (h : Hdr) (_f : FC) (s0 : State) : Host.Outcome State Fault Refusal :=
  let s := s0.endRegion
  .next (s.groupWide (
    if s.grp.segid = 0 then s.illegalMask s.grp.run.active
    else s.withOps h [] (fun lanes => s.endThreads ((s.movers h lanes).map (·.1)))))

/-! ## Segment CSRs (R105) -/

/-- `LKH`. -/
def State.lkh (s : State) (g : Group) : Word :=
  match s.findSeg g.asid g.segid with
  | some x => if g.segid = 0 then 0x3ffff else
      BitVec.ofNat 32 (s.lcode x % 2 ^ 16 + (if s.confirmed x then 2 ^ 16 else 0)
        + (if x.st.speculative then 0 else 2 ^ 17) + (if x.held then 2 ^ 18 else 0))
  | none => 0x3ffff

/-- `VERSION`. -/
def State.version (s : State) (g : Group) : Word :=
  match s.findSeg g.asid g.segid with
  | some x => if g.segid != 0 && x.st.speculative then BitVec.ofNat 32 x.version else 0
  | none => 0

/-- `lkh` (R105, R312). -/
def execLkh (h : Hdr) (f : FC) (s : State) : Host.Outcome State Fault Refusal :=
  .next (s.laneWord h f.d.toNat [] (fun _ => { regs := [s.lkh s.grp] }))

end Sys2Proof.Machine
end

