-- ==== Sys2Proof/Machine/System.lean ====
section
/-! DEFINITION. System instructions: opcodes 0xf8 to 0xfe (R313 to R322). -/

namespace Sys2Proof.Machine

/-! ## Raising a trap (R318) -/

/-- `trap` and `bkpt`: the resume point is the following word; with no lane active they have no effect. -/
def State.raiseWord (s0 : State) (h : Hdr) (f : FS) (cause : Nat) : State :=
  let s := s0.endRegion
  s.withOps h [] (fun lanes =>
    if lanes.isEmpty then s.doneAt []
    else
      let g := s.grp
      (s.setGrp { g with words := g.words + 1, run := { g.run with last := true }, div := { g.div with pend := 0 } }).trap
        { cause := cause, info := f.imm.setWidth 64 } true)

/-- `trap` (R318). -/
def execTrapW (h : Hdr) (f : FS) (s : State) : Host.Outcome State Fault Refusal := .next (s.raiseWord h f 0x01)
/-- `bkpt` (R318). -/
def execBkpt (h : Hdr) (f : FS) (s : State) : Host.Outcome State Fault Refusal := .next (s.raiseWord h f 0x16)

/-- `rfe` (R319). A segment whose held trap was delivered starts again from its beginning (R102). -/
def execRfe (_h : Hdr) (f : FS) (s : State) : Host.Outcome State Fault Refusal :=
  .next (s.groupWide (
    let g := s.grp
    if !g.inTrap then s.illegalMask g.run.active
    else
      let s1 := s.setGrp { g.returnFrom (f.sub.getLsbD 0) with readySince := s.timer.toNat, wait := .ready }
      match s.findSeg g.asid g.segid with
      | some x => (match x.st with
        | .service _ => s1.squash g.asid g.segid true
        | _ => s1)
      | none => s1))

/-! ## CSRs (R183, R320 to R322) -/

/-- What a lane reads from a CSR; `TRAPINFO` is that of its member of a pair (R73, R194). -/
def State.csr (s : State) (lane n : Nat) : Nat :=
  let g := s.grp
  let x := g.lg (g.lgOf lane)
  match n with
  | 0x0 => g.lw
  | 0x1 => s.passes g
  | 0x2 => g.core
  | 0x3 => g.bead
  | 0x4 => rodOfBead g.bead
  | 0x5 => s.timer.toNat
  | 0x6 => g.tcmp.toNat
  | 0x7 => g.trapcause.toNat
  | 0x8 => (if 64 ≤ lane then g.trapinfoHi else g.trapinfo).toNat
  | 0x9 => x.fpmode.toNat
  | 0xa => x.fpflags.toNat
  | 0xb => x.divzEn.toNat
  | 0xc => g.utvec.toNat
  | 0xd => g.segid
  | 0xe => (s.lkh g).toNat
  | _ => (s.version g).toNat

/-- `csrr` (R320). -/
def execCsrr (h : Hdr) (f : FS) (s : State) : Host.Outcome State Fault Refusal :=
  let n := f.csr.toNat
  .next (s.laneWord h f.d.toNat [] (fun l =>
    { regs := if csrWide n then pairOf (s.csr l n) else [BitVec.ofNat 32 (s.csr l n)] }))

/-- Write a CSR of the group, or of the logical group of a lane (R122, R194); reserved bits read zero
(R2). -/
def Group.writeCsr (g : Group) (lane n v : Nat) : Group :=
  let w (k : Nat) : Word := BitVec.ofNat 32 (v % 2 ^ k)
  match n with
  | 0x6 => { g with tcmp := BitVec.ofNat 64 v }
  | 0x9 => g.updLg (g.lgOf lane) (fun x => { x with fpmode := w 4 })
  | 0xa => g.updLg (g.lgOf lane) (fun x => { x with fpflags := w 7 })
  | 0xb => g.updLg (g.lgOf lane) (fun x => { x with divzEn := w 1 })
  | 0xc => { g with utvec := utvecOf v }
  | _ => g

/-- The lanes whose value a CSR write takes: the lowest that executes the word, and for the CSRs of a
logical group the lowest of each. -/
def Group.csrLanes (g : Group) (n : Nat) (lanes : List Nat) : List Nat :=
  if [0x9, 0xa, 0xb].contains n then g.heads lanes else lanes.take 1

/-- `csrw` (R320). -/
def execCsrw (h : Hdr) (f : FS) (s : State) : Host.Outcome State Fault Refusal :=
  let n := f.csr.toNat
  let a := opX f.a (if csrWide n then 2 else 1)
  .next (s.withOps h [a] (fun lanes =>
    (s.setGrp ((s.grp.csrLanes n lanes).foldl (fun g l =>
      g.writeCsr l n (s.opnd h f.imm (if csrWide n then .i64 else .i32) l a)) s.grp)).done h))

/-- `csrw.i` (R320). -/
def execCsrwI (h : Hdr) (f : FS) (s : State) : Host.Outcome State Fault Refusal :=
  let n := f.csr.toNat
  .next (s.withOps h [] (fun lanes =>
    (s.setGrp ((s.grp.csrLanes n lanes).foldl (fun g l => g.writeCsr l n f.imm.toNat) s.grp)).done h))

/-- `tcmp` (R322): 0 disarms. -/
def execTcmp (h : Hdr) (f : FS) (s : State) : Host.Outcome State Fault Refusal :=
  .next (s.withOps h [opX f.a 1] (fun lanes =>
    match lanes with
    | [] => s.done h
    | l :: _ =>
      let a := s.opnd h f.imm .i32 l (opX f.a 1)
      (s.setGrp { s.grp with tcmp := if a = 0 then 0 else s.timer + BitVec.ofNat 64 a }).done h))

end Sys2Proof.Machine
end

