-- ==== Sys2Proof/Machine/Place.lean ====
section
/-! DEFINITION. Placing groups: what a core and a bead hold (R47, R48, R50, R129), how a fresh group starts
(R49, R55), and the copies of records that its elements need (R22, R43, R326). -/

namespace Sys2Proof.Machine

/-! ## Room (R47, R48, R129) -/

/-- What a group takes of its core: slots, lane-class registers per lane, bytes of the group-rate store. -/
structure Need where
  slots : Nat
  lregs : Nat
  gbytes : Nat
  deriving DecidableEq, Repr

/-- A role's budget; the default is role 0's (log 14). -/
def Launch.role (l : Launch) (r : Nat) : Role :=
  l.roles.getD r { entry := 0, lregs := 8, gregs := 8, bal := 1, groups := 1, inseg := false, seg := 0 }

/-- Width of an image (R71, R74) and lanes of its hardware groups. -/
def Launch.width (l : Launch) : Nat := [64, 16, 32, 64, 128].getD l.wcode 64
def Launch.hwLanes (l : Launch) : Nat := max 64 l.width
/-- Logical groups of a hardware group. -/
def Launch.perHw (l : Launch) : Nat := l.hwLanes / l.width

/-- Need of a group of `hw` lanes whose logical groups have these roles: GREGS counts once for every logical group of the
width (R48). Where their roles differ in budget the greatest counts (DESIGN CHOICE, log 44). -/
def Launch.need (l : Launch) (hw : Nat) (roles : List Nat) : Need :=
  { slots := hw / 64
    lregs := hw / 64 * maxOf (roles.map (fun r => (l.role r).lregs))
    gbytes := 4 * (hw / l.width) * maxOf (roles.map (fun r => (l.role r).gregs)) }

/-- Need of a resident group. -/
def State.needOf (s : State) (g : Group) : Need := (s.launchOf g).need g.hw (g.lgs.map (·.role))

/-- A core holds these groups at once (R48). -/
def coreHolds (ns : List Need) : Bool :=
  decide (sumOf (ns.map (·.slots)) ≤ 16) && decide (256 * sumOf (ns.map (·.lregs)) ≤ 512 * 1024)
    && decide (sumOf (ns.map (·.gbytes)) ≤ 64 * 1024)

/-- Groups resident on a core. -/
def State.onCore (s : State) (c : Nat) : List Group := s.allGroups.filter (fun g => g.gid != 0 && g.core == c)

/-- Slots of a core that its groups take: a pair takes two adjacent ones (R73). -/
def State.slotsUsed (s : State) (c : Nat) : List Nat :=
  (s.onCore c).flatMap (fun g => if g.hw = 128 then [g.slot, g.slot + 1] else [g.slot])

/-- The lowest slot for a group of `hw` lanes beside those used (R47, R73). -/
def lowestSlot (used : List Nat) (hw : Nat) : Option Nat :=
  (List.range 16).find? (fun i => !used.contains i && (hw != 128 || (i != 15 && !used.contains (i + 1))))
def State.freeSlot (s : State) (c hw : Nat) : Nat := (lowestSlot (s.slotsUsed c) hw).getD 0

/-- Groups of these lanes find slots beside those used, one after the other. -/
def slotsFit (used : List Nat) : List Nat → Bool
  | [] => true
  | hw :: rest => match lowestSlot used hw with
    | none => false
    | some i => slotsFit (if hw = 128 then i :: (i + 1) :: used else i :: used) rest

/-- Bytes of each core's scratchpad that the teams of a bead take (R50). -/
def State.padUsed (s : State) (bead : Nat) : Nat :=
  sumOf ((s.teams.filter (fun t => t.bead == bead)).map (fun t => (t.spw + 3) / 4))

/-- Groups of a team, hardware group by hardware group: each logical group with its index and role. -/
abbrev Gang := List (List (Nat × Nat))

/-- Cut a list into pieces of `n`; `fuel` at least its length. -/
def chunksOf {α : Type} (n : Nat) : Nat → List α → List (List α)
  | 0, _ => []
  | _, [] => []
  | fuel + 1, x :: xs => ((x :: xs).take n) :: chunksOf n fuel ((x :: xs).drop n)

/-- The gang of these roles (R51): role after role, in their order. Where a hardware group carries several logical groups it
carries consecutive ones, and R47's g counts hardware groups (DESIGN CHOICE, log 44). -/
def Launch.gang (l : Launch) (roles : List Nat) : Gang :=
  let members := roles.flatMap (fun r => List.replicate (l.role r).groups r)
  chunksOf l.perHw members.length (members.zipIdx.map (fun x => (x.2, x.1)))

/-- Roles of the root team, and of a segment type. -/
def Launch.rootRoles (l : Launch) : List Nat := List.range l.nroot
def Launch.segRoles (l : Launch) (t : Nat) : List Nat :=
  match l.segs[t]? with
  | some x => List.range' x.firstRole x.nrole
  | none => []

/-- The hardware groups of a gang that core `c` of a bead takes, by their logical groups' roles (R47). -/
def onGangCore (gang : Gang) (c : Nat) : List (List Nat) :=
  ((gang.zipIdx.filter (fun x => x.2 % 4 == c % 4)).map (fun x => x.1.map (·.2)))

/-- A gang fits beside the groups given: group g on core g mod 4 (R47), the window beside those of the
other teams. -/
def Launch.gangFits (l : Launch) (beside : Nat → List Need) (padFree spw : Nat) (gang : Gang) : Bool :=
  (List.range 4).all (fun c =>
    coreHolds (beside c ++ (onGangCore gang c).map (l.need l.hwLanes)))
  && decide (spw ≤ 4 * padFree)

/-- Scratchpad part of a core of the context (R129). -/
def Ctx.padPart (c : Ctx) : Nat := 32768 * c.spq

/-- Room on a core that is kept for the gangs of teams placed there and not yet started, but for team `own` (R47):
lanes and need of each group. -/
def State.keptOn (s : State) (c own : Nat) : List (Nat × Need) :=
  (s.teams.filter (fun t => !t.gang && t.bead == c / 4 && t.tid != own)).flatMap (fun t =>
    match s.findLaunch t.launch with
    | some l => (onGangCore (l.gang l.rootRoles) c).map (fun rs => (l.hwLanes, l.need l.hwLanes rs))
    | none => [])

/-- What groups of a core take, and what is kept there. -/
def State.takenOn (s : State) (c own : Nat) : List Need := (s.onCore c).map s.needOf ++ (s.keptOn c own).map (·.2)

/-- A core has slots for these groups beside what it holds and keeps. -/
def State.slotsFor (s : State) (c own : Nat) (hws : List Nat) : Bool :=
  slotsFit (s.slotsUsed c) (hws ++ (s.keptOn c own).map (·.1))

/-- Scratchpad part of a core for a context: the division in force, or while no group is resident there the context's own,
which the core then takes (R129). -/
def State.padPart (s : State) (asid core : Nat) : Nat :=
  if (s.onCore core).isEmpty then (s.ctx asid).padPart else 32768 * (s.core core).spq
/-- The least of a bead's cores: a window takes a quarter of its bytes of each (R50). -/
def State.beadPad (s : State) (asid bead : Nat) : Nat :=
  min (min (s.padPart asid (4 * bead)) (s.padPart asid (4 * bead + 1))) (min (s.padPart asid (4 * bead + 2)) (s.padPart asid (4 * bead + 3)))

/-- A gang fits on a bead now; `own` is its team where that has its place there already. -/
def State.roomForGang (s : State) (l : Launch) (bead spw : Nat) (gang : Gang) (own : Nat := 0) : Bool :=
  l.gangFits (fun c => s.takenOn (4 * bead + c) own) (s.beadPad l.asid bead - s.padUsed bead) spw gang
    && (List.range 4).all (fun c => s.slotsFor (4 * bead + c) own ((onGangCore gang c).map (fun _ => l.hwLanes)))

/-- A gang fits on an empty bead (R47). -/
def State.fitsEmpty (s : State) (l : Launch) (spw : Nat) (gang : Gang) : Bool :=
  l.gangFits (fun _ => []) (s.ctx l.asid).padPart spw gang

/-- The area of a bead holds a save of the context that failed its check (R354). -/
def State.areaFailed (s : State) (bead asid : Nat) : Bool := s.saved.any (fun x => x.bead == bead && x.asid == asid && x.failed)

/-- The bead takes new work of a context: it is the occupant, in service, and not being stopped (R342,
R349, R380), and its area can be written: it holds no save that failed its check (DESIGN CHOICE, log 16). -/
def State.takes (s : State) (bead asid : Nat) : Bool :=
  let b := s.bead bead
  let p := (s.ctx asid).part
  b.occ == some asid && !b.out && b.stop.isNone && s.partEn p && s.pcsr p 0x907 != 0 && s.pcsr p 0x908 != 0
    && !s.areaFailed bead asid

/-- A core of the bead that has room for one more group: which of those that have is open (log 6). -/
def State.coreFor (s : State) (bead hw : Nat) (n : Need) (own : Nat := 0) : Option Nat :=
  let k := Config.allocFrom s.tick
  ((List.range 4).map (fun i => 4 * bead + (k + i) % 4)).find? (fun c =>
    coreHolds (n :: s.takenOn c own) && s.slotsFor c own [hw])

/-! ## Rates of a lattice (R9, R22, R323) -/

/-- The rate whose elements are dealt (R22). -/
def Launch.placed (l : Launch) : Nat :=
  ((List.range 8).find? (fun k => (l.lat k).valid && (l.lat k).place)).getD 0
/-- Rate `k` is a proper ancestor of rate `j`. -/
def Launch.above (l : Launch) (k j : Nat) : Bool := (latAncestors l.lattice 8 j).contains k
/-- The lane rate co-resident with a group rate (R25). -/
def Launch.laneRate (l : Launch) (k : Nat) : Option Nat :=
  (List.range 8).find? (fun j => (l.lat j).valid && latCoGroup l.lattice j == some k)
/-! ## A fresh group (R49, R55) -/

/-- The divergence record at a group's start: the filled lanes at their entries. -/
def startDiv (hw : Nat) (lanes : List (Nat × Nat)) : Div :=
  let live := maskOf (lanes.map (·.1))
  let d : Div := { pcs := setPcs [] lanes, live := live }
  let d1 := (slicesOf hw).foldl (fun d k => if (d.slicePc k).isNone then d.setSplit k 3 else d) d
  { (d1.afterRun hw [] 0) with next := none }

/-- A logical group to start: its index, role, own element, and its lanes: place, entry, element,
registers. -/
structure Start where
  gindex : Nat
  role : Nat
  elem : Elem
  gregs : SMap Word
  lanes : List (Nat × Nat × Elem × SMap Word)
  deriving DecidableEq, Repr

/-- Registers of a lane, as the group holds them. -/
def placeRegs (m : SMap Word) (lane : Nat) (rs : SMap Word) : SMap Word :=
  rs.foldl (fun m x => SMap.set 0 m (128 * x.1 + lane) x.2) m

/-- A core that holds no resident group takes the division of a context; its L1 then loses what it held (R129). -/
def State.divide (s : State) (core asid : Nat) : State :=
  let q := (s.ctx asid).spq
  if !(s.onCore core).isEmpty || (s.core core).spq == q then s
  else s.updCore core (fun c => { c with spq := q, l1 := [] })

/-- Start a hardware group on a core: it becomes ready now. Lanes of `Start` count within the logical
group; a lane is live unless its element is missing. -/
def State.startGroup (s : State) (l : Launch) (core team segid rate : Nat) (wait : Wait) (lgs : List Start) : State :=
  let (gid, s1) := (s.divide core l.asid).fresh
  let lw := l.width
  let hw := l.hwLanes
  let lanes := lgs.zipIdx.flatMap (fun x => x.1.lanes.map (fun y => (x.2 * lw + y.1, y.2)))
  let g : Group := {
    gid := gid, asid := l.asid, launch := l.lid, team := team, segid := segid, rate := rate, core := core
    slot := s.freeSlot core hw, hw := hw, lw := lw
    div := startDiv hw (lanes.map (fun x => (x.1, x.2.1)))
    elems := lanes.foldl (fun m x => if x.2.2.1.present || x.2.2.1.helper then SMap.put m x.1 x.2.2.1 else m) []
    regs := lanes.foldl (fun m x => placeRegs m x.1 x.2.2.2) []
    lgs := lgs.map (fun x => { gindex := x.gindex, role := x.role, elem := x.elem, gregs := x.gregs })
    run := { rate := rate }
    wait := wait
    readySince := s.timer.toNat }
  { s1 with groups := s1.groups ++ [g] }

/-! ## Elements -/

/-- A fresh element of a rate with its parent, team and segment; it takes a child reference on its
anchor (R36). `own` are the handles of elements made with it. -/
def State.newElem (s : State) (l : Launch) (bead : Nat) (e : Elem) (own : List Word := []) : Elem × State :=
  let h := s.freshHandle l.lid own
  let e' := { e with present := true, handle := h, born := s.nextId }
  let s1 := { s with nextId := s.nextId + 1 }
  (e', match e.copyOf, e.anchor with
    | some (home, off), _ => s1.takeRef home off
    | none, some off => s1.takeRef bead off
    | none, none => s1)

/-- Fresh elements of lanes `0` to `n - 1` of a co-resident lane rate. -/
def State.newLanes (s : State) (l : Launch) (bead : Nat) (e : Elem) (pc : Nat) (own : List Word) :
    Nat → State × List (Nat × Nat × Elem × SMap Word)
  | 0 => (s, [])
  | n + 1 =>
    let (s1, xs) := State.newLanes s l bead e pc own n
    let (x, s2) := s1.newElem l bead { e with index := n } (own ++ xs.map (·.2.2.1.handle))
    (s2, xs ++ [(n, pc, x, [])])

/-- Handles of the elements of a logical group to start. -/
def Start.handles (x : Start) : List Word := x.elem.handle :: x.lanes.map (·.2.2.1.handle)

/-- Start the logical groups of one hardware group of a gang: their elements, and their lanes'. -/
def State.gangStarts (s : State) (l : Launch) (bead grate : Nat) (base : Elem) (args : SMap Word) (own : List Word) :
    List (Nat × Nat) → State × List Start
  | [] => (s, [])
  | (gi, r) :: rest =>
    let pc := (l.codebase.toNat + (l.role r).entry) % 2 ^ 64
    let (e, s1) := s.newElem l bead { base with rate := grate, index := gi } own
    let (s2, lanes) := match l.laneRate grate with
      | some k => s1.newLanes l bead { base with rate := k } pc (e.handle :: own) l.width
      | none => (s1, (List.range l.width).map (fun i => (i, pc, ({} : Elem), ([] : SMap Word))))
    let x : Start := { gindex := gi, role := r, elem := e, gregs := args, lanes := lanes }
    let (s3, xs) := State.gangStarts s2 l bead grate base args (own ++ x.handles) rest
    (s3, x :: xs)

/-- Start every group of a team at once (R47): group g on core g mod 4, in its lowest free slot. -/
def State.startGang (s : State) (l : Launch) (bead team segid : Nat) (base : Elem) (args : SMap Word) (gang : Gang) :
    State :=
  let grate := l.groupRate.getD 2
  let rate := (l.laneRate grate).getD grate
  gang.zipIdx.foldl (fun t (x : List (Nat × Nat) × Nat) =>
    let (t1, starts) := t.gangStarts l bead grate base args [] x.1
    t1.startGroup l (4 * bead + x.2 % 4) team segid rate .ready starts) s

/-! ## Copies of records (R22, R43, R326) -/

/-- The copy on a bead of a record of another, by the name of that. -/
def Bead.copyFor (b : Bead) (name : Nat) : Option Nat := (b.quire.find? (fun r => r.orig == some name)).map (·.off)

/-- The name of a record: that of its original, if it is a copy. -/
def QRec.name (r : QRec) : Nat := r.orig.getD r.age
def Bead.nameOf (b : Bead) (off : Nat) : Nat := (b.rec? off).elim 0 QRec.name

/-- A record as another bead copies it: anchor and links by name, one reference, its words on the chip (R22, R326). -/
def Bead.snapshot (b : Bead) (r : QRec) : QRec :=
  { r with parent := r.parent.map b.nameOf, links := r.links.map b.nameOf, orig := some r.name
           spilled := false, spoff := 0, spBead := 0, refcnt := 1 }

/-- The records that a copy of one needs: those of its anchor and its links before it, coarsest first (R326). -/
def Bead.needs (b : Bead) : Nat → Nat → List Nat
  | 0, _ => []
  | n + 1, off => match b.rec? off with
    | none => []
    | some r => (r.parent.toList ++ r.links).flatMap (Bead.needs b n) ++ [off]

/-- A list without the elements of another, each once. -/
def minus (xs ys : List Nat) : List Nat := ys.foldl List.erase xs

/-- Deal an element to a bead (R22). Where that holds the originals they are its anchor and its links. On another bead it
needs copies: it takes what they are made of, and gives up its references on the originals, since those on the copies take
their place (R326). -/
def State.dealTo (s : State) (bead : Nat) (e : Elem) : State × Elem :=
  match (e.copyOf.map (·.1)) <|> e.linkHome with
  | none => (s, e)
  | some home =>
    let anchor := e.copyOf.map (·.2)
    let x : Elem := { e with copyOf := none, linkHome := none }
    if home = bead then (s, { x with anchor := anchor <|> e.anchor })
    else
      let b := s.bead home
      let links := if e.linkHome.isSome then e.links else []
      let refs := anchor.toList ++ links
      (if e.helper then s else s.dropRefs home refs,
       { x with
         links := if e.linkHome.isSome then [] else e.links
         bring := some { recs := ((distinct (refs.flatMap (b.needs 16))).filterMap b.rec?).map b.snapshot
                         anchor := anchor.map b.nameOf, links := links.map b.nameOf } })

/-- The element holds one reference on each of these copies. -/
def State.holdCopies (s : State) (bead : Nat) (e : Elem) (cs : List Nat) : State × Elem :=
  let lack := minus cs e.copyHeld
  (lack.foldl (fun t o => t.takeRef bead o) s, { e with copyHeld := e.copyHeld ++ lack })

/-- A copy made for an element: its references on `deps` pass to it, and the element holds it (R326). -/
def Elem.gotCopy (e : Elem) (deps : List Nat) (off : Nat) : Elem := { e with copyHeld := minus e.copyHeld deps ++ [off] }

/-- References that a record holds on others. -/
def QRec.deps (r : QRec) : List Nat := r.parent.toList ++ r.links

/-- How one round of making copies ends. -/
inductive CopyStep where
  /-- The element has what it needs. -/
  | all
  | more
  /-- The next copy does not fit. -/
  | ask (q : QRec)
  /-- The next copy has been asked for already. -/
  | wait
  deriving DecidableEq, Repr

/-- The next record of which an element lacks the copy on a bead: the coarsest first (R326). -/
def State.nextCopy (s : State) (bead : Nat) (e : Elem) : Option QRec :=
  e.bring.bind (fun x => x.recs.find? (fun r => ((s.bead bead).copyFor r.name).isNone))

/-- One copy more for an element on a bead, the coarsest first; with none lacking, they are its anchor and links. -/
def State.copyOnce (s : State) (bead : Nat) (e : Elem) : State × Elem × CopyStep :=
  match e.bring with
  | none => (s, e, .all)
  | some x =>
    let here := s.bead bead
    let copy (n : Nat) : Nat := (here.copyFor n).getD 0
    match s.nextCopy bead e with
    | none =>
      let want := (x.anchor.toList ++ x.links).map copy
      let (s1, e1) := s.holdCopies bead e want
      (s1.dropRefs bead (minus e1.copyHeld want),
       { e1 with anchor := x.anchor.map copy <|> e.anchor
                 links := if x.links.isEmpty then e.links else x.links.map copy
                 bring := none, copyHeld := [] }, .all)
    | some r =>
      let q : QRec := { r with parent := r.parent.map copy, links := r.links.map copy }
      if here.reqs.any (fun y => y.copy && y.record.orig == q.orig) then (s, e, .wait)
      else
        let (s1, e1) := s.holdCopies bead e q.deps
        if here.reqs.isEmpty && s.quireFits bead q.asid (recUnits (q.links.length + q.words.length)) then
          let (off, s2) := s1.placeRecord bead q
          (s2, e1.gotCopy q.deps off, .more)
        else (s1, e1, .ask q)

/-- Make the copies that an element needs, as far as they fit. -/
def State.copyAll (s : State) (bead : Nat) (e : Elem) : Nat → State × Elem × CopyStep
  | 0 => (s, e, .wait)
  | n + 1 =>
    match s.copyOnce bead e with
    | (s1, e1, .more) => State.copyAll s1 bead e1 n
    | r => r

/-- Enough rounds for the eight rates of a lattice and their linked records. -/
def copyRounds : Nat := 64

/-- The elements of a group by lane; 128 and above are those of its logical groups. -/
def Group.allElems (g : Group) : List (Nat × Elem) :=
  g.elems ++ g.lgs.zipIdx.map (fun x => (128 + x.2, x.1.elem))

def Group.setElem (g : Group) (lane : Nat) (e : Elem) : Group :=
  if 128 ≤ lane then g.updLg (lane - 128) (fun x => { x with elem := e })
  else { g with elems := SMap.put g.elems lane e }

/-- A helper lane reads its neighbours' anchor on the bead, without a reference (R21). -/
def Elem.helperAt (b : Bead) (e : Elem) : Elem :=
  match e.helper, e.bring with
  | true, some x => { e with anchor := x.anchor.bind b.copyFor, bring := none }
  | _, _ => e

/-- Request the copies that the elements of a group need, coarsest first (R43, R326): the group becomes
ready when all are made; else its request waits with the others. -/
def State.requestCopies (s : State) (gid : Nat) : List (Nat × Elem) → State
  | [] => s.updGroup gid (fun g => { g with
      elems := g.elems.map (fun (x : Nat × Elem) => (x.1, x.2.helperAt (s.bead g.bead)))
      wait := .ready
      readySince := s.timer.toNat })
  | (lane, e) :: rest =>
    match s.findGroup gid with
    | none => s
    | some g =>
      match s.copyAll g.bead e copyRounds with
      | (s1, e1, .ask q) =>
        let s2 := s1.updGroup gid (fun g => { g.setElem lane e1 with wait := .copies })
        if (s2.bead g.bead).reqs.any (fun r => r.gid == gid && r.copy) then s2
        else s2.addReq g.bead { gid := gid, lane := lane, record := q, copy := true }
      | (s1, e1, .all) => State.requestCopies (s1.updGroup gid (fun g => g.setElem lane e1)) gid rest
      | (s1, e1, _) => s1.updGroup gid (fun g => { g.setElem lane e1 with wait := .copies })

/-- Go on with the copies of a group. -/
def State.goOnCopies (s : State) (gid : Nat) : State :=
  match s.findGroup gid with
  | none => s
  | some g => s.requestCopies gid (g.allElems.filter (fun x => x.2.bring.isSome && !x.2.helper))

/-- The groups of a bead that wait for copies. -/
def State.awaitCopies (s : State) (bead : Nat) : List Nat :=
  (s.allGroups.filter (fun g => g.gid != 0 && g.bead == bead && g.wait == .copies)).map (·.gid)

end Sys2Proof.Machine
end

