-- ==== Sys2Proof/Machine/FanOut.lean ====
section
/-! DEFINITION. Fan-out (R13, R17 to R19, R33, R235, R323): children come into being after their parent's
section has ended, wait for lanes and are dispatched in groups (R14, R20, R325). -/

namespace Sys2Proof.Machine

/-! ## Children -/

/-- What a child element starts with. -/
structure Kid where
  elem : Elem
  regs : SMap Word := []
  deriving DecidableEq, Repr

/-- The anchor of a parent's children (R34, R37). -/
def Parent.anchor (p : Parent) : Option Nat :=
  match p.record with
  | some off => some off
  | none => if p.elem.released then none else p.elem.anchor

/-- What every child takes from its parent. -/
def Parent.base (p : Parent) (k : Nat) : Elem :=
  { rate := k, parent := p.pid, parentBorn := p.elem.born, anchor := p.anchor, px := p.elem.px, py := p.elem.py, cpx := p.elem.cpx,
    cpy := p.elem.cpy, samp := p.elem.samp, verts := p.elem.verts, team := p.elem.team, segid := p.elem.segid }

def Parent.reg (p : Parent) (r : Nat) : Word := SMap.look 0 p.regs r

/-- Children of a rate with fan-out COUNT (R13). -/
def Parent.countKids (p : Parent) (l : Launch) (k : Nat) : List Kid :=
  (List.range (p.reg (l.lat k).countreg).toNat).map (fun i => { elem := { p.base k with index := i } })

/-- Children of fan-out RAYGEN, with the registers copied into each (R236). -/
def Parent.rayKids (p : Parent) (k : Nat) : List Kid :=
  (p.elem.rays.filter (fun r => r.rate == k)).zipIdx.map (fun x =>
    { elem := { p.base k with index := x.2 }, regs := x.1.regs.foldl (fun m y => SMap.set 0 m y.1 y.2) [] })

/-- The four coarse pixels of a block, helper positions included (R234, R235); `i` counts elements. -/
def blockKids (base : Elem) (v : List Int) (b : Blocks) (c spp n i : Nat) : List Kid :=
  let cells := (List.range 4).map (fun q =>
    let p := b.pixel c n q
    (p, coverMask v fullScreen p.1 p.2 c spp))
  (cells.foldl (fun (r : List Kid × Nat) (x : (Nat × Nat) × Nat) =>
    let pt := centrePoint x.1.1 x.1.2 c
    let e : Elem := { base with px := pt.1, py := pt.2, cpx := x.1.1, cpy := x.1.2, cover := x.2, samp := 0 }
    if x.2 = 0 then (r.1 ++ [{ elem := { e with helper := true } }], r.2)
    else (r.1 ++ [{ elem := { e with index := r.2 } }], r.2 + 1)) (([] : List Kid), i)).1

/-- Blocks of a walk in turn. -/
def walkKids (base : Elem) (v : List Int) (b : Blocks) (c spp : Nat) : List Nat → Nat → List Kid
  | [], _ => []
  | n :: rest, i =>
    if b.holds v fullScreen c spp n then
      let ks := blockKids base v b c spp n i
      ks ++ walkKids base v b c spp rest (i + ks.countP (fun k => !k.elem.helper))
    else walkKids base v b c spp rest i

/-- Children of fan-out RAST of a primitive with these screen vertices, none where it is culled (R235). -/
def Parent.rastKids (p : Parent) (l : Launch) (k : Nat) : List Kid :=
  let c := 2 ^ (l.lat k).cpsize
  let spp := 2 ^ (l.lat k).spp
  let v := p.elem.verts
  if v.isEmpty then []
  else
    let b := blocksOf v fullScreen c
    walkKids (p.base k) v b c spp (List.range b.count) 0

/-- Children of fan-out COVER: the covered samples of a coarse pixel, pixel by pixel, sample by sample
(R13, R17). The coarse pixel's size is that of the parent's rate. -/
def Parent.coverKids (p : Parent) (l : Launch) (k : Nat) : List Kid :=
  let c := 2 ^ (l.lat p.elem.rate).cpsize
  let spp := 2 ^ (l.lat p.elem.rate).spp
  let bits := (List.range (c * c * spp)).filter (fun i => nbits p.elem.cover i 1 == 1)
  bits.zipIdx.map (fun x =>
    let sm := x.1 % spp
    let px := x.1 / spp % c
    let py := x.1 / spp / c
    let pt := samplePoint (p.elem.cpx + px) (p.elem.cpy + py) spp sm
    { elem := { p.base k with index := x.2, px := pt.1, py := pt.2, samp := BitVec.ofNat 32 (sm + 8 * px + 64 * py) } })

/-! ## Indices (R18, R19) -/

/-- Address of a primitive's three indices. -/
def Parent.indexAddr (p : Parent) (l : Launch) (k i : Nat) : Nat :=
  let e := l.lat k
  ((p.reg e.auxreg).toNat + 2 ^ 32 * (p.reg (e.auxreg + 1)).toNat + 3 * i * (if e.idx16 then 2 else 1)) % 2 ^ 64

/-- Three indices in bytes. -/
def indicesOf (wide : Bool) (bs : List Byte) : List Nat :=
  (List.range 3).map (fun i => if wide then ofLe ((bs.drop (2 * i)).take 2) else ofLe ((bs.drop i).take 1))

/-- The fault record part of an index read that stopped; `TRAPINFO` is the index address `ia` (R18). -/
def idxFault (ia : Nat) : Got (List Byte) → Option FRec
  | .ok _ => none
  | .fault f => some { f.rec_ 0 with cause := 0x11, info := BitVec.ofNat 64 ia }
  | .poison a => some { cause := 0x14, path := 0, va := BitVec.ofNat 64 (a / 64 * 64), info := BitVec.ofNat 64 ia }

/-- A primitive takes its links once its indices are read and checked: link references and the screen
positions of its vertices (R18, R19, R235). With `away` it is to run on another bead, which needs copies (R22). -/
def State.takeLinks (s : State) (bead : Nat) (away : Bool) (offs : List Nat) (e : Elem) : State × Elem :=
  let recs := offs.filterMap (s.bead bead).rec?
  (offs.foldl (fun t o => t.takeRef bead o) s,
   { e with links := offs, linkHome := if away then some bead else none, idxWait := none
            verts := (screenVerts (recs.map (·.words))).getD [] })

/-- Read the indices of primitive `i` (R18): its links, an index out of range, or a stopped read. It is a load of the
element's segment, which sees its versions and grows its read set (R96, R99). -/
def State.readIndices (s : State) (l : Launch) (p : Parent) (k : Nat) (e : Elem) (away : Bool) : State × Elem :=
  let wide := (l.lat k).idx16
  let (r, s1) := s.engineRead p.bead p.asid e.segid (p.indexAddr l k e.index) (if wide then 6 else 3)
  match r with
  | .ok bs =>
    let ix := indicesOf wide bs
    if ix.any (fun i => decide (SMap.get 0 p.made (l.lat k).link ≤ i)) then (s1, { e with idxBad := true, idxWait := none })
    else s1.takeLinks p.bead away (ix.filterMap (SMap.find p.vrecs)) e
  | r => (s1, { e with idxWait := idxFault (p.indexAddr l k e.index) r })

/-! ## Elements of rates without code (R323) -/

/-- The indices of an element are still to be read, or its illegal-state trap is unanswered (R18). -/
def Elem.idxOpen (e : Elem) : Bool := e.idxBad || e.idxWait.isSome

/-- An element whose rate has no code ends as if its section were one `exit`, its registers zero; `none`
where it cannot: its record does not fit, or its indices are open. -/
def State.endCodeless (s : State) (l : Launch) (e : Elem) (bead : Nat) : Option State :=
  if e.idxOpen then none
  else if !l.hasRecord e.rate then some (s.elementEnded l bead e none [])
  else
    let r := mkRecord l e []
    if (s.bead bead).reqs.isEmpty && s.quireFits bead l.asid (recUnits (r.links.length + r.words.length)) then
      let (off, s1) := s.placeRecord bead r
      some (s1.elementEnded l bead e (some off) [])
    else none

/-! ## The pool of elements that wait for lanes (R20) -/

/-- Remove an entry of the pool, by its element's handle and launch. -/
def State.leavePool (s : State) (ws : List Waiting) : State := { s with pool := s.pool.filter (fun x => !ws.contains x) }

/-- Change the element of an entry of the pool. -/
def State.updWaiting (s : State) (w : Waiting) (e : Elem) : State :=
  { s with pool := s.pool.map (fun y => if y = w then { y with elem := e } else y) }

/-- A trap of an element without code (R18, R42, R323): no group holds it, so it is taken as a system cause, of lane 0, and
its record names no word (DESIGN CHOICE, log 44). In a speculative segment it is held, and delivered when it recurs (R102). -/
def State.elementTrap (s : State) (l : Launch) (bead : Nat) (e : Elem) (r : FRec) : State :=
  let record (t : State) : State := t.recordFault { r with
    asid := l.asid, part := (s.ctx l.asid).part, bead := bead, segid := e.segid } (.element l.lid e.handle)
  match s.findSeg l.asid e.segid with
  | none => record s
  | some x =>
    if e.segid = 0 || !x.st.speculative then record s
    else if x.held then record (match x.st.team? with
      | some tm => s.updSeg l.asid e.segid (fun y => { y with st := .service tm })
      | none => s)
    else s.squash l.asid e.segid true

/-- The trap of a primitive without code whose indices are open (R18). -/
def State.indexTrap (s : State) (l : Launch) (bead : Nat) (e : Elem) : State :=
  s.elementTrap l bead e (e.idxWait.getD { cause := 0x07, esc := true, info := 1 })

/-- Make the copies that a waiting element without code needs; its request joins the others where one does not fit
(R43). -/
def State.copiesFor (s : State) (bead : Nat) (w : Waiting) : State × Waiting × Bool :=
  let (s1, e1, r) := s.copyAll bead w.elem copyRounds
  let asks := match r with | .ask _ => true | _ => false
  let x : Waiting := { w with elem := { e1 with stalled := asks } }
  let s2 := s1.updWaiting w x.elem
  match r with
  | .ask q => (s2.addReq bead { gid := 0, lane := w.elem.born, record := q, copy := true }, x, false)
  | r => (s2, x, r == .all)

/-- An element without code goes on: its copies, then its end; its record's request may have to wait (R40, R323). -/
def State.runCodeless (s : State) (l : Launch) (bead : Nat) (w : Waiting) : State :=
  if w.elem.helper then s.leavePool [w]
  else if w.elem.stalled || w.elem.halted || w.elem.idxOpen then s
  else match s.copiesFor bead w with
    | (s1, _, false) => s1
    | (s1, x, true) => match s1.endCodeless l x.elem bead with
      | some s2 => s2.leavePool [x]
      | none =>
        (s1.addReq bead { gid := 0, lane := x.elem.born, record := mkRecord l x.elem [], copy := false }).updWaiting x
          { x.elem with stalled := true }

/-- A child enters: it waits for a lane on its parent's bead, or to be dealt when its rate is placed
(R22); where its rate has no code it ends at once, or its request stalls (R40, R323). -/
def State.enterPool (s : State) (l : Launch) (bead : Nat) (k : Kid) : State :=
  let deal := k.elem.rate == l.placed
  let e := if deal then { k.elem with anchor := none, copyOf := k.elem.anchor.map (fun o => (bead, o)) } else k.elem
  let w : Waiting := { launch := l.lid, asid := l.asid, bead := if deal then none else some bead, elem := e, regs := k.regs
                       since := s.timer.toNat }
  let s1 : State := { s with pool := s.pool ++ [w] }
  if (l.section? e.rate).isSome then s1
  else if e.idxOpen then s1.indexTrap l bead e
  else if deal then s1
  else s1.runCodeless l bead w

/-- One child comes into being, unless its segment was squashed meanwhile. A helper reads its parent's chain without a
reference of its own (R21). -/
def State.makeKid (s : State) (l : Launch) (p : Parent) (k : Kid) : State :=
  if !s.parents.any (fun q => q.pid == p.pid) then s
  else if k.elem.helper then s.enterPool l p.bead k
  else
    let (e, s1) := s.newElem l p.bead k.elem
    let (s2, e2) := if (l.lat e.rate).fanout = 2 then s1.readIndices l p e.rate e (e.rate == l.placed) else (s1, e)
    s2.enterPool l p.bead { k with elem := e2 }

/-- The children of rate `k` (R13). -/
def Parent.kidsOf (p : Parent) (l : Launch) (k : Nat) : List Kid :=
  match (l.lat k).fanout with
  | 1 => p.countKids l k
  | 2 => p.countKids l k
  | 3 => p.rastKids l k
  | 4 => p.coverKids l k
  | 5 => p.rayKids k
  | 6 => (List.range l.width).map (fun i => { elem := { p.base k with index := i } })
  | _ => []

/-- The parent's entry. -/
def State.findParent (s : State) (pid : Nat) : Option Parent := s.parents.find? (fun p => p.pid == pid)
def State.updParent (s : State) (pid : Nat) (f : Parent → Parent) : State :=
  { s with parents := s.parents.map (fun p => if p.pid = pid then f p else p) }

/-- An index read of a child of this parent has still to succeed (R18). -/
def State.idxPending (s : State) (pid : Nat) : Bool :=
  (s.allGroups ++ s.saved.flatMap (·.groups)).any (fun g => g.elems.any (fun x => x.2.parent == pid && x.2.idxWait.isSome))
    || s.pool.any (fun w => w.elem.parent == pid && w.elem.idxWait.isSome)

/-- The linking rates of a parent have created all their children, their links taken: the fan-out
references of the linked records are dropped (R36). -/
def State.releaseLinked (s : State) (l : Launch) (pid : Nat) : State :=
  match s.findParent pid with
  | none => s
  | some p =>
    if p.vrecs.isEmpty || p.todo.any (fun k => (l.lat k).linken) || s.idxPending pid then s
    else (s.updParent pid (fun q => { q with vrecs := [] })).dropRefs p.bead (p.vrecs.map (·.2))

/-- Fan-out of an element is complete when no child rate is left (R36): its record's fan-out reference is
dropped, or without a record the element retires; the entry goes. -/
def State.fanOutDone (s : State) (l : Launch) (pid : Nat) : State :=
  match (s.releaseLinked l pid).findParent pid with
  | none => s.releaseLinked l pid
  | some p =>
    let s0 := s.releaseLinked l pid
    if !p.todo.isEmpty || !p.vrecs.isEmpty || s0.idxPending pid then s0
    else
      let s1 := { s0 with parents := s0.parents.filter (fun q => q.pid != pid) }
      match p.record with
      | some off => if l.isLinked p.elem.rate then s1 else s1.dropRefs p.bead [off]
      | none => s1.dropRefs p.bead p.elem.refs

/-- Children of an ordinary rate are all made. -/
def State.fanOutRate (s : State) (l : Launch) (p : Parent) (k : Nat) : State :=
  let ks := p.kidsOf l k
  let n := ks.countP (fun x => !x.elem.helper)
  let s1 := s.updParent p.pid (fun q => { q with
    todo := q.todo.filter (· != k), kids := SMap.set 0 q.kids k n, made := SMap.set 0 q.made k n })
  ks.foldl (fun t x => t.makeKid l p x) s1

/-- A linking rate waits until every child of its LINK rate has its record (R19). -/
def Parent.ready (p : Parent) (l : Launch) (k : Nat) : Bool :=
  !(l.lat k).linken || (!p.todo.contains (l.lat k).link && SMap.get 0 p.kids (l.lat k).link == 0)

/-- Teams of a launch are still to be placed or run. -/
def State.teamsLeft (s : State) (l : Launch) : Bool :=
  decide (l.nextTeam < l.teams) || !l.again.isEmpty
    || (s.teams ++ s.saved.flatMap (·.teams)).any (fun t => t.launch == l.lid && t.segid == 0)

/-- The gang of a team whose own element has ended. -/
def State.fanOutTeam (s : State) (l : Launch) (p : Parent) (k : Nat) : State :=
  match s.findTeam p.elem.team with
  | none => s
  | some t =>
    let gang := l.gang l.rootRoles
    if t.stop.isNone && !t.restoring && s.roomForGang l t.bead 0 gang t.tid then
      let s1 := (s.updParent p.pid (fun q => { q with todo := q.todo.filter (· != k) })).updTeam t.tid (fun x => { x with gang := true })
      s1.startGang l t.bead t.tid 0 { p.base 0 with parent := 0 } [] gang
    else s

/-- One rate of a parent's fan-out. -/
def State.fanOutOne (s : State) (l : Launch) (p : Parent) (k : Nat) : State :=
  if (l.lat k).fanout = 0 then
    if l.teamRate = some k then
      (if s.teamsLeft l then s else s.updParent p.pid (fun q => { q with todo := q.todo.filter (· != k) }))
    else s.fanOutTeam l p k
  else if p.ready l k then s.fanOutRate l p k
  else s

/-- `FAN_OUT` (R17): the next child rate of an ended element. -/
def execFanOut (pid : Nat) (s : State) : Host.Outcome State Fault Refusal :=
  .next (match s.findParent pid with
    | none => s
    | some p => match s.findLaunch p.launch with
      | none => s
      | some l =>
        -- the bead of a saved element is kept under a number from 128 on: it is not resident
        if 128 ≤ p.bead then s
        else match p.todo.find? (fun k => (l.lat k).fanout == 0 || p.ready l k) with
        | none => s.fanOutDone l pid
        | some k => (s.fanOutOne l p k).fanOutDone l pid)

/-! ## Dispatching groups (R14, R20, R325) -/

/-- Insert in order of the parents' creation; elements of one parent keep their order. -/
def insertWaiting (w : Waiting) : List Waiting → List Waiting
  | [] => [w]
  | x :: xs => if w.elem.parentBorn ≤ x.elem.parentBorn then w :: x :: xs else x :: insertWaiting w xs

/-- The elements that may share a group with another: those of its team and segment (DESIGN CHOICE, log 44). -/
def Elem.sameHome (e x : Elem) : Bool := x.team == e.team && x.segid == e.segid

/-- Elements that wait for lanes of a rate on a bead, in the order of their parents' creation and, of one
parent, of the walk that made them (R20, R325); those that may share a group with the first. -/
def State.waitingFor (s : State) (bead launch rate : Nat) : List Waiting :=
  match (s.pool.filter (fun w => w.bead == some bead && w.launch == launch && w.elem.rate == rate)).foldr insertWaiting [] with
  | [] => []
  | w :: ws => w :: ws.filter (fun x => w.elem.sameHome x.elem)

/-- The elements of the next group: logical group by logical group (R14, R20). -/
def Launch.fillOf (l : Launch) (k : Nat) (ws : List Waiting) : List (List Waiting) :=
  match (l.lat k).pack with
  | 0 => ws.take 1 |>.map (fun w => [w])
  | 1 => (ws.take l.perHw).map (fun w => [w])
  | 2 => (chunksOf l.width ws.length ws).take l.perHw
  | _ =>
    -- one parent's children only: LANE_PARENT, and QUAD as the example under R33 has it (log 15)
    let mine := (ws.head?).elim [] (fun w => ws.filter (fun x => x.elem.parent == w.elem.parent))
    (chunksOf l.width mine.length mine).take l.perHw

/-- The next group is full. -/
def Launch.full (l : Launch) (k : Nat) (ws : List (List Waiting)) : Bool :=
  (l.lat k).pack ≤ 1 || (decide (ws.length = l.perHw) && ws.all (fun x => decide (x.length = l.width)))

/-- Further elements of the rate are pending under ended parents that a group of `e` may take from (R20). -/
def State.moreComing (s : State) (launch rate : Nat) (e : Elem) : Bool :=
  s.parents.any (fun p => p.launch == launch && p.todo.contains rate && e.sameHome p.elem)

/-- A logical group of fan-out elements: a rate packed GROUP has its own element and its lanes'. -/
def State.elemStart (s : State) (l : Launch) (bead k pc : Nat) (own : List Word) (ws : List Waiting) : State × Start :=
  if (l.lat k).pack = 1 then
    match ws with
    | [] => (s, { gindex := 0, role := 0, elem := {}, gregs := [], lanes := [] })
    | w :: _ =>
      let (s1, lanes) := match l.laneRate k with
        | some j => s.newLanes l bead { w.elem with rate := j, parent := 0, present := false } pc (w.elem.handle :: own) l.width
        | none => (s, (List.range l.width).map (fun i => (i, pc, ({} : Elem), ([] : SMap Word))))
      (s1, { gindex := w.elem.index, role := 0, elem := w.elem, gregs := w.regs, lanes := lanes })
  else
    (s, { gindex := 0, role := 0, elem := {}, gregs := [],
          lanes := ws.zipIdx.map (fun x => (x.2, pc, x.1.elem, x.1.regs)) })

/-- Start a group of waiting elements of one team and segment on a core (R14, R323); it waits first where elements need
copies (R43). -/
def State.startElems (s : State) (l : Launch) (bead core k pc : Nat) (fill : List (List Waiting)) : State :=
  let s0 := s.leavePool fill.flatten
  let (s1, starts) := fill.foldl (fun (r : State × List Start) ws =>
    let (t, x) := r.1.elemStart l bead k pc (r.2.flatMap Start.handles) ws
    (t, r.2 ++ [x])) (s0, [])
  let first := ((fill.headD []).head?).elim ({} : Elem) (·.elem)
  let rate := (l.laneRate k).getD k
  let gid := s1.nextId
  let s2 := s1.startGroup l core first.team first.segid rate .ready starts
  if fill.flatten.any (fun w => w.elem.bring.isSome) then s2.goOnCopies gid else s2

/-- Dispatch the next group of a rate on a bead (R20): a full one, or with `late` or no further element
coming one that is not. -/
def State.dispatchGroup (s : State) (bead launch rate : Nat) (late : Bool) : State :=
  match s.findLaunch launch with
  | none => s
  | some l =>
    let ws := s.waitingFor bead launch rate
    match ws with
    | [] => s
    | w :: _ =>
      match l.section? rate with
      | none => s.runCodeless l bead w
      | some pc =>
        let fill := l.fillOf rate ws
        if !(s.takes bead l.asid) then s
        else if l.full rate fill || late || (l.lat rate).pack != 2 || !s.moreComing launch rate w.elem then
          match s.coreFor bead l.hwLanes (l.need l.hwLanes (fill.map (fun _ => 0))) w.elem.team with
          | some c => s.startElems l bead c rate pc fill
          | none => s
        else s

/-- `GROUP_DISPATCH` (R20). -/
def execGroupDispatch (bead launch rate : Nat) (s : State) : Host.Outcome State Fault Refusal :=
  .next (s.dispatchGroup bead launch rate false)

/-- `GROUP_DISPATCH_TIMEOUT` (R20): 256 front-end cycles after its first element was placed. -/
def execGroupDispatchTimeout (bead launch rate : Nat) (s : State) : Host.Outcome State Fault Refusal :=
  .next (match s.waitingFor bead launch rate with
    | [] => s
    | w :: _ => if s.reached (w.since + 256) then s.dispatchGroup bead launch rate true else s)

end Sys2Proof.Machine
end

