-- ==== Sys2Proof/Machine/Launch.lean ====
section
/-! DEFINITION. Launch records (R338): how the device reads one and checks it (R339, R16, R116), and the
launch that it describes. -/

namespace Sys2Proof.Machine

/-! ## Reading as a device agent -/

/-- The bead whose second-level translation cache serves the agents of a context: its lowest bead. -/
def State.homeBead (s : State) (asid : Nat) : Nat :=
  (((List.range 128).filter (fun b => (s.bead b).occ == some asid)) ++ s.partBeads (s.ctx asid).part).headD 0

/-- Read bytes of a context for a command; none where translation faults or a sector is poisoned. -/
def State.agentRead (s : State) (asid va n : Nat) : Option (List Byte) :=
  match (s.engineRead (s.homeBead asid) asid 0 va n).1 with
  | .ok bs => some bs
  | _ => none

/-! ## The parts of a record (R12, R172, R338) -/

/-- A lattice entry (R12). -/
def latOf (x : Nat) : Lat :=
  { valid := nbits x 0 1 == 1, root := nbits x 1 1 == 1, parent := nbits x 2 3, fanout := nbits x 5 3, pack := nbits x 8 3
    place := nbits x 11 1 == 1, linken := nbits x 12 1 == 1, link := nbits x 13 3, countreg := nbits x 16 11
    auxreg := nbits x 27 11, idx16 := nbits x 38 1 == 1, cpsize := nbits x 39 2, spp := nbits x 41 2, nexp := nbits x 48 8
    expbase := nbits x 64 11, resv := nbits x 43 5 + nbits x 56 8 + nbits x 75 53 }

/-- A ROLES entry, and whether its reserved bits are zero (R172). -/
def roleOfBits (x : Nat) : Role × Bool :=
  ({ entry := nbits x 0 32, lregs := nbits x 32 12, gregs := nbits x 44 12, bal := nbits x 56 2, groups := nbits x 64 7
     inseg := nbits x 71 1 == 1, seg := nbits x 72 6 }, nbits x 58 6 == 0 && nbits x 78 178 == 0)

/-- A SEGMENTS entry (R172). -/
def segTypeOfBits (x : Nat) : SegType × Bool :=
  ({ spw := nbits x 0 32, argbase := nbits x 32 11, nargs := nbits x 43 4, firstRole := nbits x 48 8, nrole := nbits x 56 3
     image := [] }, nbits x 47 1 == 0 && nbits x 59 69 == 0)

/-- The entries of a table of `w` bytes each. -/
def entriesOf (w n : Nat) (bs : List Byte) : List Nat := (List.range n).map (fun i => ofLe ((bs.drop (w * i)).take w))

/-- The bytes of the record's structures. -/
structure RawLaunch where
  /-- The record as one number. -/
  bits : Nat
  segs : List Nat
  imgs : List Nat
  roles : List Nat
  regmap : List Byte
  /-- Root image and segment images, empty where there is none or it is too large to be read. -/
  image : List Byte
  images : List (List Byte)
  /-- An image is larger than its window. -/
  tooLarge : Bool
  deriving DecidableEq, Repr

namespace RawLaunch

def teams (r : RawLaunch) : Nat := nbits r.bits 0 32
def spw (r : RawLaunch) : Nat := nbits r.bits 32 32
def nroot (r : RawLaunch) : Nat := nbits r.bits 68 3
def nseg (r : RawLaunch) : Nat := nbits r.bits 71 7
/-- SECTk (R338). -/
def sect (r : RawLaunch) : List Nat := (List.range 8).map (fun k => nbits r.bits (8 * 0xe0 + 64 + 24 * k) 24)
def lattice (r : RawLaunch) : List Lat := (List.range 8).map (fun k => latOf (nbits r.bits (8 * (0x40 + 16 * k)) 128))
def slots (r : RawLaunch) : List Word := (List.range 8).map (fun k => BitVec.ofNat 32 (nbits r.bits (8 * (0xc0 + 4 * k)) 32))
/-- Register rates of REGMAP other than 0 (R172). -/
def regRates (r : RawLaunch) : SMap Nat :=
  (r.regmap.zipIdx.map (fun x => (x.2, x.1.toNat % 8))).filter (fun x => x.2 != 0)

end RawLaunch

/-- Read all of a list of ranges. -/
def State.readAll (s : State) (asid : Nat) : List (Nat × Nat) → Option (List (List Byte))
  | [] => some []
  | (a, n) :: rest =>
    match s.agentRead asid a n, State.readAll s asid rest with
    | some bs, some bss => some (bs :: bss)
    | _, _ => none

/-- Read a record and the structures that it points to (R338, R339): an image only when its size fits its
window. -/
def State.readRaw (s : State) (asid addr : Nat) : Option RawLaunch := do
  let bs ← s.agentRead asid addr 256
  let x := ofLe bs
  let nseg := nbits x 71 7
  let segs := entriesOf 16 nseg (← s.agentRead asid (nbits x 256 64) (16 * nseg))
  let imgs := entriesOf 16 nseg (← s.agentRead asid (nbits x (8 * 0xe0) 64) (16 * nseg))
  let nroles := nbits x 68 3 + sumOf (segs.map (fun y => nbits y 56 3))
  let roles := entriesOf 32 nroles (← s.agentRead asid (nbits x 192 64) (32 * nroles))
  let regmap ← s.agentRead asid (nbits x 320 64) 2048
  let spad := nbits x 384 64
  let size := nbits x 448 32
  let ok := decide (size ≤ nbits x 32 32)
  let image ← if spad ≠ 0 ∧ ok then s.agentRead asid spad size else some []
  let fits := imgs.zip segs |>.map (fun y => decide (nbits y.1 64 32 ≤ nbits y.2 0 32))
  let images ← s.readAll asid ((imgs.zip fits).map (fun y => if y.2 then (nbits y.1 0 64, nbits y.1 64 32) else (0, 0)))
  return { bits := x, segs := segs, imgs := imgs, roles := roles, regmap := regmap, image := image, images := images,
           tooLarge := (spad != 0 && !ok) || fits.any (!·) }

/-! ## The checks (R339) -/

/-- Code 0x02: reserved fields, counts and cross-references. -/
def RawLaunch.badCounts (r : RawLaunch) : Bool :=
  let x := r.bits
  let segs := r.segs.map segTypeOfBits
  let roles := r.roles.map roleOfBits
  let firsts := (List.range segs.length).map (fun k => r.nroot + sumOf ((segs.take k).map (·.1.nrole)))
  let owner := List.replicate r.nroot (none : Option Nat)
    ++ (segs.zipIdx.flatMap (fun y => List.replicate y.1.1.nrole (some y.2)))
  nbits x 78 50 != 0 || nbits x 480 32 != 0 || segs.any (!·.2) || roles.any (!·.2)
    || r.imgs.any (fun y => nbits y 96 32 != 0)
    || r.teams == 0 || r.nroot == 0 || decide (4 < r.nroot) || decide (64 < r.nseg)
    || roles.any (fun y => y.1.groups == 0 || decide (64 < y.1.groups))
    || segs.any (fun y => decide (8 < y.1.nargs) || y.1.nrole == 0 || decide (4 < y.1.nrole))
    || (segs.zip firsts).any (fun y => y.1.1.firstRole != y.2)
    || (roles.zip owner).any (fun y => match y.2 with
        | none => y.1.1.inseg || y.1.1.seg != 0
        | some k => !y.1.1.inseg || y.1.1.seg != k)

/-- One valid entry of a lattice table keeps the rules of R16. -/
def latEntryOk (es : List Lat) (rates : SMap Nat) (k : Nat) : Bool :=
  let e := es.getD k {}
  let p := es.getD e.parent {}
  let lk := es.getD e.link {}
  (k == 0 || (!e.root && decide (e.parent < k) && p.valid))
    && (!e.place || (latAncestors es 8 k).all (fun j => (es.getD j {}).pack == 0 || (es.getD j {}).pack == 2))
    && (e.fanout != 6 || (e.pack == 3 && p.pack == 1))
    && (e.fanout != 2 || (e.linken && lk.valid && lk.parent == e.parent))
    && (e.fanout != 3 || p.linken) && (e.fanout != 4 || p.fanout == 3) && (e.pack != 4 || e.fanout == 3)
    && decide (e.nexp ≤ 64) && decide (e.expbase + e.nexp ≤ 2048)
    && (List.range e.nexp).all (fun i => SMap.get 0 rates (e.expbase + i) == k)
    && (!e.linken || decide (4 ≤ lk.nexp))
    && e.fanout != 7 && decide (e.pack ≤ 4) && (e.fanout != 3 || e.cpsize != 3)

/-- An entry that is not valid has no ROOT and no reserved code (R16). -/
def latUnusedOk (e : Lat) : Bool := !e.root && e.fanout != 7 && decide (e.pack ≤ 4) && (e.fanout != 3 || e.cpsize != 3)

/-- The lattice table keeps R16. -/
def latticeOk (es : List Lat) (rates : SMap Nat) : Bool :=
  (es.getD 0 {}).valid && (es.getD 0 {}).root
    && es.countP (fun e => e.valid && e.place) == 1
    && es.all (fun e => e.resv == 0)
    && (List.range 8).all (fun k => if (es.getD k {}).valid then latEntryOk es rates k else latUnusedOk (es.getD k {}))

/-- A format slot keeps R116. -/
def slotOk (w : Word) : Bool :=
  let x := w.toNat
  let fmt := nbits x 0 5
  decide (fmt ≤ 17) && nbits x 5 2 == 0 && (nbits x 7 1 == 0 || fmt == 5 || fmt == 6) && decide (nbits x 8 3 ≤ 5)
    && nbits x 12 20 == 0

/-- A budget keeps R48 and the context's cap. -/
def budgetOk (v cap : Nat) : Bool := v % 8 == 0 && decide (8 ≤ v) && decide (v ≤ 2048) && decide (v ≤ cap)

/-- The launch that a record describes. -/
def RawLaunch.launch (r : RawLaunch) (lid asid queue : Nat) (cmd : BitVec 512) : Launch :=
  let l : Launch := {
    lid := lid, asid := asid, queue := queue, teams := r.teams, spw := r.spw, idem := nbits r.bits 64 1 == 1
    wcode := nbits r.bits 65 3, codebase := BitVec.ofNat 64 (nbits r.bits 128 64), lattice := r.lattice, slots := r.slots
    regRates := r.regRates, regDflt := 0, roles := r.roles.map (fun x => (roleOfBits x).1), nroot := r.nroot
    segs := r.segs.zipIdx.map (fun x => { (segTypeOfBits x.1).1 with image := SMap.setMany 0 [] 0 (r.images.getD x.2 []) })
    sect := r.sect, image := SMap.setMany 0 [] 0 r.image, cmd := cmd }
  -- the team count of a graphics launch places no teams (R13)
  if l.teamRate.isNone then { l with nextTeam := l.teams } else l

/-- The checks from 0x02 on, each with whether it fails. -/
def State.launchChecks (s : State) (r : RawLaunch) (l : Launch) : List (Nat × Bool) :=
  let c := s.ctx l.asid
  [(2, r.badCounts),
   (3, !latticeOk r.lattice r.regRates
      || (List.range 8).any (fun k => !(r.lattice.getD k {}).valid && r.sect.getD k 0 != 0xffffff)),
   (4, r.slots.any (fun w => !slotOk w)),
   (5, l.roles.any (fun x => !budgetOk x.lregs c.lcap || !budgetOk x.gregs c.gcap)),
   (6, !s.fitsEmpty l l.spw (l.gang l.rootRoles)
      || (List.range l.segs.length).any (fun t => !s.fitsEmpty l ((l.segs.map (·.spw)).getD t 0) (l.gang (l.segRoles t)))),
   (7, r.tooLarge),
   (8, decide (4 < l.wcode) || (l.wcode == 4 && (List.range l.roles.length).any (fun x => !coreHolds [l.need 128 [x]])))]

/-- Read and check a launch record: the launch, or the lowest failing code (R339). -/
def State.readLaunch (s : State) (asid queue addr : Nat) (cmd : BitVec 512) : Except Nat Launch :=
  if addr % 256 ≠ 0 then .error 1
  else match s.readRaw asid addr with
    | none => .error 1
    | some r =>
      let l := r.launch s.nextId asid queue cmd
      match (s.launchChecks r l).find? (·.2) with
      | some (code, _) => .error code
      | none => .ok l

/-- A launch is taken: no element exists yet, and its start is an acquire at system scope of what the host
wrote (R147). -/
def State.takeLaunch (s : State) (l : Launch) : State :=
  { s with
    launches := s.launches ++ [l], nextId := s.nextId + 1
    cores := s.cores.map (fun (c : Nat × Core) => (c.1, { c.2 with l1 := [] })) }

end Sys2Proof.Machine
end

