-- ==== Sys2Proof/Machine/Save.lean ====
section
/-! DEFINITION. The bytes of a context save area (R351 to R354): how a bead's groups, tiles, scratchpad and
quire are laid out, and how they are read back and checked. -/

namespace Sys2Proof.Machine

/-! ## Sizes and places (R351) -/

/-- NG, and S with the offsets of its parts. -/
def Ctx.savedGroups (c : Ctx) : Nat := 4 * min 16 (min (2048 / c.lcap) (16384 / (c.gcap * c.lpg)))
def Ctx.groupEntry (c : Ctx) : Nat := 2048 + 256 * c.lcap
def Ctx.part3 (c : Ctx) : Nat := 256 + c.savedGroups * c.groupEntry
def Ctx.part4 (c : Ctx) : Nat := c.part3 + c.savedGroups * 4 * c.gcap * c.lpg
def Ctx.part5 (c : Ctx) : Nat := c.part4 + 16384 * c.acap
def Ctx.part6 (c : Ctx) : Nat := c.part5 + 131072 * c.spq
def Ctx.part7 (c : Ctx) : Nat := c.part6 + c.qcap
def Ctx.saveSize (c : Ctx) : Nat := c.part7 + 65536 + 327680

/-- Device physical base of a bead's area (R351, R366). -/
def State.saveArea (s : State) (c : Ctx) (bead : Nat) : Nat := c.savebase + s.beadIndex c.part bead * c.size

/-- One field of an area: offset, bytes, value. -/
structure Field where
  off : Nat
  len : Nat
  val : Nat
  deriving DecidableEq, Repr

def Field.shift (n : Nat) (f : Field) : Field := { f with off := f.off + n }
/-- The bytes from `pos` on that fields in rising order give; between them 0. -/
def fieldBytes (pos : Nat) : List Field → List Byte
  | [] => []
  | f :: fs => List.replicate (f.off - pos) 0 ++ leBytes f.val f.len ++ fieldBytes (f.off + f.len) fs

/-! ## CRC-32C -/

/-- One bit, and one byte, of the reflected CRC with polynomial `0x1edc_6f41`. -/
def crcBit (c : Word) : Word := if c.getLsbD 0 then (c >>> 1) ^^^ 0x82f63b78 else c >>> 1
def crcByte (c : Word) (b : Byte) : Word := (List.range 8).foldl (fun c _ => crcBit c) (c ^^^ b.setWidth 32)
def crc32c (bs : List Byte) : Word := ~~~ (bs.foldl crcByte 0xffffffff)

/-! ## A divergence record (R55) -/

/-- The 704 bytes of member `m`. -/
def Div.fields (d : Div) (m : Nat) : List Field :=
  (List.range 64).map (fun i => ⟨8 * i, 8, (SMap.look 0 d.pcs (64 * m + i)).toNat⟩)
  ++ (List.range 16).map (fun k => ⟨512 + 8 * k, 8, (d.slicePc (16 * m + k)).getD 0⟩)
  ++ [⟨640, 8, memberMask d.live m⟩, ⟨648, 8, memberMask d.pend m⟩, ⟨656, 4, nbits d.split.toNat (32 * m) 32⟩,
      ⟨660, 4, match d.next with | some k => (if k / 16 = m then k % 16 else 16) | none => 16⟩,
      ⟨664, 8, d.bcast.toNat⟩, ⟨672, 8, d.rstart.toNat⟩, ⟨680, 8, memberMask d.rmask m⟩, ⟨688, 8, if d.inreg then 1 else 0⟩]

/-- A program counter of a record: bits [3:0] and [63:52] are zero (R55). -/
def pcOf (v : Nat) : Nat := 16 * nbits v 4 48

/-- Read the members of a record; `rd m off n` reads member `m`'s bytes. -/
def Div.read (rd : Nat → Nat → Nat → Nat) (ms : Nat) : Div :=
  let members := List.range ms
  let mask (off : Nat) : Mask := BitVec.ofNat 128 (sumOf (members.map (fun m => 2 ^ (64 * m) * rd m off 8)))
  { pcs := (members.flatMap (fun m => (List.range 64).map (fun i => (64 * m + i, pcOf (rd m (8 * i) 8))))).foldl
      (fun p x => SMap.set 0 p x.1 (BitVec.ofNat 64 x.2)) []
    live := mask 640
    pend := mask 648
    split := BitVec.ofNat 64 (sumOf (members.map (fun m => 2 ^ (32 * m) * rd m 656 4)))
    next := members.findSome? (fun m => if rd m 660 4 % 32 < 16 then some (16 * m + rd m 660 4 % 32) else none)
    bcast := BitVec.ofNat 64 (pcOf (rd 0 664 8))
    rstart := BitVec.ofNat 64 (pcOf (rd 0 672 8))
    rmask := mask 680
    inreg := rd 0 688 1 % 2 == 1 }

/-- Its slice counters and broadcast address follow from its lane counters and LIVE (R54, R55). -/
def Div.follows (d : Div) (rd : Nat → Nat → Nat → Nat) (ms : Nat) : Bool :=
  (List.range (16 * ms)).all (fun k => match d.slicePc k with
    | some pc => pc == pcOf (rd (k / 16) (512 + 8 * (k % 16)) 8)
    | none => true)
  && (match d.lowest (64 * ms) with
    | some b => (List.range ms).all (fun m => pcOf (rd m 664 8) == b)
    | none => true)

/-! ## A group (R353, parts 2 and 3) -/

def HKind.code : HKind → Nat
  | .f32 => 0
  | .i32 => 1
  | .f64 => 2

/-- The entries of part 2 that a group takes: one for each hardware group. -/
def Group.members (g : Group) : Nat := g.hw / 64

/-- The team byte of a group: its team's place among those saved, 255 for none (log 16). -/
def teamByte (ts : List Team) (tid : Nat) : Nat := if ts.any (fun t => t.tid == tid) then (ts.map (·.tid)).idxOf tid % 255 else 255

/-- A bound handle's two bytes; the version tag of what is saved is clear (R98, R103). -/
def Handle.code (h : Handle) : Nat := h.slots.headD 0 + 256 * h.kind.code + 2 ^ 15
/-- Read a handle back: the second slot of an `f64` tile is the one it had, or the next (log 16). -/
def readHandle (old : Option Handle) (v : Nat) : Option Handle :=
  let kind := [HKind.f32, .i32, .f64].getD (nbits v 8 2) .f32
  let n := v % 128
  let same (h : Handle) : Bool := h.kind == kind && h.slots.headD 0 == n
  if v.testBit 15 then some ((old.filter same).getD { kind := kind, slots := if kind = .f64 then [n, n + 1] else [n] }) else none

/-- Part 2 of member `m`. Of several logical groups the first gives the fields of which the entry has one. -/
def Group.fields (g : Group) (ts : List Team) (lcap m : Nat) : List Field :=
  let lg := g.lg 0
  g.div.fields m ++ (g.tsave.fields m).map (Field.shift 704)
  ++ (List.range 16).map (fun p => ⟨1408 + 8 * p, 8, if p = 0 then 2 ^ 64 - 1 else memberMask (SMap.look 0 g.preds p) m⟩)
  ++ [⟨1536, 4, lg.fpmode.toNat⟩, ⟨1540, 4, lg.fpflags.toNat⟩, ⟨1544, 4, lg.divzEn.toNat⟩, ⟨1548, 4, g.trapcause.toNat⟩,
      ⟨1552, 8, g.utvec.toNat⟩, ⟨1560, 8, g.tcmp.toNat⟩, ⟨1568, 8, (if m = 0 then g.trapinfo else g.trapinfoHi).toNat⟩]
  ++ lg.handles.map (fun (h : Nat × Handle) => ⟨1576 + 2 * h.1, 2, h.2.code⟩)
  ++ [⟨1608, 1, lg.role⟩, ⟨1609, 1, teamByte ts g.team⟩, ⟨1610, 1, lg.gindex⟩, ⟨1611, 1, g.core % 4⟩, ⟨1612, 1, g.slot⟩,
      ⟨1616, 4, g.launch⟩, ⟨1620, 8, g.retired⟩]
  ++ (g.regs.filter (fun (x : Nat × Word) => x.1 % 128 / 64 == m && decide (x.1 / 128 < lcap))).map (fun (x : Nat × Word) =>
      ⟨2048 + 256 * (x.1 / 128) + 4 * (x.1 % 64), 4, x.2.toNat⟩)

/-- Part 3 of a group. -/
def Group.gregFields (g : Group) (gcap : Nat) : List Field :=
  g.lgs.zipIdx.flatMap (fun x => (x.1.gregs.filter (fun (r : Nat × Word) => decide (r.1 < gcap))).map (fun (r : Nat × Word) =>
    ⟨4 * gcap * x.2 + 4 * r.1, 4, r.2.toNat⟩))

/-- Read a group back: `rd m off n` reads part 2 of member `m`, `rg off n` part 3. Reserved bits read zero (R2). -/
def Group.restore (g : Group) (ts : List Team) (lcap gcap : Nat) (rd : Nat → Nat → Nat → Nat) (rg : Nat → Nat → Nat) : Group :=
  let ms := g.members
  let mask (off : Nat) : Mask := BitVec.ofNat 128 (sumOf ((List.range ms).map (fun m => 2 ^ (64 * m) * rd m off 8)))
  let word (off : Nat) : Word := BitVec.ofNat 32 (rd 0 off 4)
  let long (off : Nat) : Dword := BitVec.ofNat 64 (rd 0 off 8)
  let g1 := { g with
    div := Div.read rd ms
    tsave := Div.read (fun m o n => rd m (704 + o) n) ms
    preds := (List.range 15).foldl (fun p i => SMap.set 0 p (i + 1) (mask (1408 + 8 * (i + 1)))) []
    trapcause := word 1548 &&& 0x800ff7ff
    utvec := utvecOf (rd 0 1552 8)
    team := (ts[rd 0 1609 1]?).elim 0 (·.tid)
    core := rd 0 1611 1 % 4
    slot := rd 0 1612 1 % 16
    launch := rd 0 1616 4
    tcmp := long 1560
    trapinfo := long 1568
    trapinfoHi := if ms = 2 then BitVec.ofNat 64 (rd 1 1568 8) else g.trapinfoHi
    retired := rd 0 1620 8
    regs := ((List.range lcap).flatMap (fun v => (List.range (64 * ms)).map (fun l =>
        (128 * v + l, rd (l / 64) (2048 + 256 * v + 4 * (l % 64)) 4)))).foldl
      (fun (r : SMap Word) (x : Nat × Nat) => SMap.set 0 r x.1 (BitVec.ofNat 32 x.2)) [] }
  let g2 := { g1 with lgs := g1.lgs.zipIdx.map (fun (x : LGroup × Nat) => { x.1 with
    gregs := (List.range gcap).foldl (fun r v => SMap.set 0 r v (BitVec.ofNat 32 (rg (4 * gcap * x.2 + 4 * v) 4))) [] }) }
  g2.updLg 0 (fun x => { x with
    fpmode := word 1536 &&& 0xf
    fpflags := word 1540 &&& 0x7f
    divzEn := word 1544 &&& 1
    role := rd 0 1608 1
    gindex := rd 0 1610 1
    handles := (List.range 16).filterMap (fun h => (readHandle (SMap.find x.handles h) (rd 0 (1576 + 2 * h) 2)).map (fun v => (h, v))) })

/-! ## Tiles, scratchpad, quire (R353, parts 4 to 6) -/

/-- Part 4: the tiles of the slots. -/
def Bead.tileFields (b : Bead) (slots : List Nat) : List Field :=
  slots.zipIdx.flatMap (fun x => (b.acc.filter (fun a => a.1 / 4096 == x.1)).map (fun a =>
    ⟨16384 * x.2 + 4 * (a.1 % 4096), 4, a.2.toNat⟩))

/-- Where byte `o` of a team's window lies in part 5: `base` bytes of each core before it (R50). -/
def padPlace (c : Ctx) (t : Team) (base o : Nat) : Nat :=
  let q := t.spw / 4
  c.padPart * (o / q) + base + o % q

/-- Bytes of each core before each team's window. -/
def padBases : List Team → Nat → List (Team × Nat)
  | [], _ => []
  | t :: rest, n => (t, n) :: padBases rest (n + t.spw / 4)

/-- Part 5, core by core. -/
def padFields (c : Ctx) (ts : List Team) : List Field :=
  (List.range 4).flatMap (fun i => (padBases ts 0).flatMap (fun x =>
    (SMap.window x.1.spad (i * (x.1.spw / 4)) (x.1.spw / 4)).map (fun (b : Nat × Byte) =>
      ⟨padPlace c x.1 x.2 b.1, 1, b.2.toNat⟩)))

/-- A record's header (R35). -/
def QRec.header (r : QRec) : Nat :=
  r.parent.getD 0 + (if r.spilled then 2 ^ 16 else 0) + 2 ^ 17 * r.rate + (if r.parent.isSome then 2 ^ 20 else 0)
    + 2 ^ 24 * r.words.length + 2 ^ 32 * r.links.length + 2 ^ 40 * (if r.spilled then r.spoff else 0)
    + 2 ^ 64 * (r.refcnt % 2 ^ 32) + 2 ^ 96 * r.handle.toNat

/-- A record in its on-chip layout. -/
def QRec.fields (r : QRec) : List Field :=
  ⟨16 * r.off, 16, r.header⟩ :: (if r.spilled then [] else
    r.links.zipIdx.map (fun x => ⟨16 * r.off + 16 + 4 * x.2, 4, x.1⟩)
    ++ r.words.zipIdx.map (fun x => ⟨16 * r.off + 16 + 4 * (r.links.length + x.2), 4, x.1.toNat⟩))

/-- Read a record back. -/
def QRec.restore (r : QRec) (rd : Nat → Nat → Nat) : QRec :=
  let h := rd (16 * r.off) 16
  let n := r.links.length
  { r with
    parent := if nbits h 20 1 = 1 then some (nbits h 0 16) else none
    spilled := nbits h 16 1 == 1
    spoff := nbits h 40 24
    refcnt := nbits h 64 32
    handle := BitVec.ofNat 32 (nbits h 96 32)
    links := if r.spilled then r.links else (List.range n).map (fun i => rd (16 * r.off + 16 + 4 * i) 4 % 2 ^ 16)
    words := if r.spilled then r.words else (List.range r.words.length).map (fun i =>
      BitVec.ofNat 32 (rd (16 * r.off + 16 + 4 * (n + i)) 4)) }

/-- Records by their place. -/
def insertRec (r : QRec) : List QRec → List QRec
  | [] => [r]
  | x :: xs => if r.off ≤ x.off then r :: x :: xs else x :: insertRec r xs

/-- 16-byte units up to the last record: QUNITS. -/
def Bead.quireTop (b : Bead) : Nat := maxOf (b.quire.map (fun r => r.off + r.units))

/-- Part 6: records, stalled requests and the spill timer. -/
def Bead.quireFields (b : Bead) (gids : List Nat) (now : Nat) : List Field :=
  let top := 16 * b.quireTop
  (b.quire.foldr insertRec []).flatMap QRec.fields
  ++ b.reqs.zipIdx.map (fun x =>
      ⟨top + 8 * x.2, 8, recUnits (x.1.record.links.length + x.1.record.words.length)
        + 2 ^ 16 * (gids.idxOf x.1.gid % 64) + 2 ^ 22 * (x.1.lane % 64)⟩)
  ++ [⟨top + 8 * b.reqs.length, 4, match b.spillFrom with | some t => min 65536 (now - t) | none => 0⟩]

/-- Read the stalled requests back: `rd off n` reads part 6 from the end of its records on. -/
def readReqs (gids : List Nat) (rd : Nat → Nat → Nat) (rs : List QReq) : List QReq :=
  rs.zipIdx.map (fun x =>
    let v := rd (8 * x.2) 8
    { x.1 with gid := gids.getD (nbits v 16 6) x.1.gid, lane := x.1.lane / 64 * 64 + nbits v 22 6 })

/-- Read the spill timer back. -/
def readTimer (old : Option Nat) (v now : Nat) : Option Nat := if v = 0 then old.map (fun _ => now) else some (now - v)

/-! ## Graph and queue state (R353, part 7): the places within the part are the model's (DESIGN CHOICE, log 16) -/

/-- Fields one after the other from `pos`, each a number of bytes and its value. -/
def packFields (pos : Nat) : List (Nat × Nat) → List Field
  | [] => []
  | (n, v) :: rest => ⟨pos, n, v⟩ :: packFields (pos + n) rest

/-- Threads of a team in the bins of a number. -/
def binCount (bins : List Bin) (tid n : Nat) : Nat :=
  sumOf ((bins.filter (fun b => b.bin == n)).map (fun b => b.threads.countP (fun t => t.team == tid)))

/-- Bytes of a team: its 16 barriers of 12 bytes, and its counts of the 64 bins; then the counts of the threads without a
team. -/
def teamBytes : Nat := 320
def teamsEnd (ts : List Team) : Nat := teamBytes * ts.length + 128
def binCounts (bins : List Bin) (tid : Nat) : List (Nat × Nat) := (List.range 64).map (fun n => (2, binCount bins tid n))
def Team.fields7 (t : Team) (bins : List Bin) : List (Nat × Nat) :=
  (List.range 16).flatMap (fun k =>
    let b := SMap.get {} t.bars k
    [(4, b.phase.toNat), (4, b.count), (4, b.target)])
  ++ binCounts bins t.tid

/-- The threads of a list for which there is room, by team. -/
def keepThreads (room : Nat → Nat) : List Stored → List Stored
  | [] => []
  | t :: ts => if room t.team = 0 then keepThreads room ts
    else t :: keepThreads (fun x => if x = t.team then room x - 1 else room x) ts

/-- Read the bin counts back: of each team and bin number as many threads stay as the area says. -/
def readBins (room : Nat → Nat → Nat) : List Bin → List Bin
  | [] => []
  | b :: bs =>
    let kept := keepThreads (room b.bin) b.threads
    let rest := readBins (fun n t => if n = b.bin then room n t - kept.countP (fun x => x.team == t) else room n t) bs
    if kept.isEmpty then rest else { b with threads := kept } :: rest
/-- The count of a bin for a team in part 7. -/
def binRoom (ts : List Team) (rd : Nat → Nat → Nat) (n tid : Nat) : Nat :=
  let i := (ts.map (·.tid)).idxOf tid
  rd (teamBytes * i + (if i < ts.length then 192 else 0) + 2 * n) 2

/-- Read the barriers of a team back. -/
def readBars (rd : Nat → Nat → Nat) : SMap Barrier :=
  (List.range 16).foldl (fun m k => SMap.set {} m k
    { phase := BitVec.ofNat 32 (rd (12 * k) 4), count := rd (12 * k + 4) 4, target := rd (12 * k + 8) 4 }) []

/-- An entry of an operation table at its place in part 7. -/
structure OpPlace where
  gid : Nat
  lg : Nat
  ent : OpEnt
  off : Nat
  deriving DecidableEq, Repr

/-- The entries in use of the tables of groups, 16 bytes each, from `pos` on. -/
def opPlaces (pos : Nat) : List (Nat × Nat × List OpEnt) → List OpPlace
  | [] => []
  | (g, j, es) :: rest =>
    es.zipIdx.map (fun x => ⟨g, j, x.1, pos + 16 * x.2⟩) ++ opPlaces (pos + 16 * es.length) rest
def Group.tables (g : Group) : List (Nat × Nat × List OpEnt) := g.lgs.zipIdx.map (fun x => (g.gid, x.2, x.1.ops))
/-- Those of a saved bead, after its teams. -/
def tablePlaces (gs : List Group) (ts : List Team) : List OpPlace := opPlaces (teamsEnd ts) (gs.flatMap Group.tables)

/-- An operation is the one of an entry. -/
def OpPlace.is (x : OpPlace) (o : EngOp) : Bool := o.gid == some x.gid && o.lg == x.lg && o.entry == x.ent.entry

/-- Its bytes: SEQ, ENTRY, KIND of an error plus 1, and the error's address or the progress point. -/
def OpPlace.fields (x : OpPlace) (ops : List EngOp) : List Field :=
  packFields x.off [(4, x.ent.seq), (1, x.ent.entry), (1, x.ent.err.elim 0 (fun e => e.1 + 1)), (2, 0),
    (8, match x.ent.err with
      | some e => e.2.toNat
      | none => (ops.find? x.is).elim 0 (·.done))]

/-- The requests of the reservation table: a group's place among those saved, its logical group and the entry. -/
def matrixRequests (gs : List Group) (ops : List EngOp) : List (Nat × Nat) :=
  ops.flatMap (fun o => match o.kind, o.gid with
    | .mma .., some g => if gs.any (fun x => x.gid == g) then [(2, (gs.map (·.gid)).idxOf g), (1, o.lg), (1, o.entry)] else []
    | _, _ => [])
/-- Read them back: `rd off n` reads part 7 from the requests on, the next of which is number `n`. -/
def readRequests (gids : List Nat) (room : Nat) (rd : Nat → Nat → Nat) : Nat → List EngOp → List EngOp
  | _, [] => []
  | n, o :: os => match o.kind, o.gid with
    | .mma .., some g =>
      if gids.contains g ∧ n < room then
        { o with gid := some (gids.getD (rd (4 * n) 2) g), lg := rd (4 * n + 2) 1, entry := rd (4 * n + 3) 1 }
          :: readRequests gids room rd (n + 1) os
      else o :: readRequests gids room rd n os
    | _, _ => o :: readRequests gids room rd n os

/-- A segment's 64 bytes, and a condition's 16 (R103). -/
def Seg.fields7 (x : Seg) (pos : Nat) : List Field :=
  packFields pos ([(4, x.segid), (4, x.parent), (4, x.cond), (4, x.launch), (4, x.stype), (1, x.side), (1, x.prob),
    (1, if x.held then 1 else 0), (1, x.args.length)] ++ x.args.map (fun a => (4, a.toNat)))
def Cond.fields7 (c : Cond) (e pos : Nat) : List Field :=
  packFields pos [(2, e), (1, 1), (1, c.resolved.elim 0 (· + 1)), (4, c.gen), (4, c.creator), (4, c.launch)]

/-- The die state: the segments, then from byte 262,144 of it on the conditions. -/
def dieFields (segs : List Seg) (conds : List (Nat × Cond)) : List Field :=
  ((segs.take 4096).zipIdx.flatMap (fun x => x.1.fields7 (65536 + 64 * x.2)))
    ++ (conds.zipIdx.flatMap (fun x => x.1.2.fields7 (x.1.1 % 1024) (327680 + 16 * x.2)))

/-- Read a segment of the die state back. `above` gives the segments above one. -/
def Seg.restore (x : Seg) (above : Nat → List Nat) (rd : Nat → Nat → Nat) : Seg :=
  let parent := rd 4 4
  { x with
    segid := rd 0 4
    parent := parent
    cond := rd 8 4
    launch := rd 12 4
    stype := rd 16 4
    side := rd 20 1 % 2
    prob := rd 21 1
    held := rd 22 1 % 2 == 1
    args := (List.range (rd 23 1)).map (fun i => BitVec.ofNat 32 (rd (24 + 4 * i) 4))
    above := if parent = x.parent then x.above else if parent = 0 then [] else parent :: above parent }
/-- Read a condition back: its entry and itself. -/
def Cond.restore (c : Cond) (die : Nat) (rd : Nat → Nat → Nat) : Nat × Cond :=
  (1024 * die + rd 0 2 % 1024, { c with
    resolved := if rd 3 1 = 0 then none else some (rd 3 1 - 1)
    gen := rd 4 4
    creator := rd 8 4
    launch := rd 12 4 })

/-- Read the die state of an area back: of what has not changed since it was saved. -/
def State.restoreDie (s : State) (x : SavedBead) (rd : Nat → Nat → Nat) : State :=
  let above (p : Nat) : List Nat := (s.findSeg x.asid p).elim [] (·.above)
  let s1 := (x.dieSegs.take 4096).zipIdx.foldl (fun t y =>
    { t with segs := t.segs.map (fun z => if z = y.1 then z.restore above (fun o n => rd (65536 + 64 * y.2 + o) n) else z) }) s
  x.dieConds.zipIdx.foldl (fun t y =>
    if SMap.find t.conds y.1.1 = some y.1.2 then
      let c := y.1.2.restore (y.1.1 / 1024) (fun o n => rd (327680 + 16 * y.2 + o) n)
      { t with conds := SMap.put (SMap.del t.conds y.1.1) c.1 c.2 }
    else t) s1

/-- What part 7 of a bead is made of beside its groups and teams: the engine operations, and at DIELEAD the
segments and conditions of the context on the die. -/
structure QueueState where
  ops : List EngOp
  segs : List Seg
  conds : List (Nat × Cond)
  deriving DecidableEq, Repr

/-- Where the requests begin. -/
def requestsAt (places : List OpPlace) (ts : List Team) : Nat := teamsEnd ts + 16 * places.length

/-- Part 7. What the first term has no room for is kept by the state alone (log 16). -/
def part7Fields (b : Bead) (gs : List Group) (ts : List Team) (qs : QueueState) : List Field :=
  let places := tablePlaces gs ts
  ((packFields 0 (ts.flatMap (fun t => t.fields7 b.bins) ++ binCounts b.bins 0) ++ places.flatMap (fun x => x.fields qs.ops)
    ++ packFields (requestsAt places ts) (matrixRequests gs qs.ops)).filter (fun f => decide (f.off + f.len ≤ 65536)))
  ++ dieFields qs.segs qs.conds

/-- Read an operation table back, and the progress of an operation: `rd off n` reads part 7. -/
def OpPlace.ents (places : List OpPlace) (gid lg : Nat) (rd : Nat → Nat → Nat) (es : List OpEnt) : List OpEnt :=
  es.map (fun e => match places.find? (fun x => x.gid == gid && x.lg == lg && x.ent.entry == e.entry) with
    | some x => if x.off + 16 ≤ 65536 then
        { e with seq := rd x.off 4 % 2 ^ 27, err := e.err.map (fun _ => ((rd (x.off + 5) 1 - 1) % 16, BitVec.ofNat 64 (rd (x.off + 8) 8))) }
      else e
    | none => e)
def readOp (places : List OpPlace) (rd : Nat → Nat → Nat) (o : EngOp) : EngOp :=
  match places.find? (fun x => x.is o) with
  | some x => if x.ent.err.isNone && x.off + 16 ≤ 65536 then { o with done := rd (x.off + 8) 8 } else o
  | none => o

/-! ## The area (R352 to R354) -/

/-- The first entry of part 2 that each group takes. -/
def entryOfGroups : List Group → Nat → List (Group × Nat)
  | [], _ => []
  | g :: rest, n => (g, n) :: entryOfGroups rest (n + g.members)

/-- Parts 2 to 7 of a bead. -/
def areaFields (c : Ctx) (b : Bead) (gs : List Group) (ts : List Team) (slots : List Nat) (qs : QueueState) (now : Nat) :
    List Field :=
  let es := entryOfGroups gs 0
  es.flatMap (fun x => (List.range x.1.members).flatMap (fun m =>
    (x.1.fields ts c.lcap m).map (Field.shift (256 + (x.2 + m) * c.groupEntry))))
  ++ es.flatMap (fun x => (x.1.gregFields c.gcap).map (Field.shift (c.part3 + x.2 * 4 * c.gcap * c.lpg)))
  ++ (b.tileFields slots).map (Field.shift c.part4)
  ++ (padFields c ts).map (Field.shift c.part5)
  ++ (b.quireFields (gs.map (·.gid)) now).map (Field.shift c.part6)
  ++ (part7Fields b gs ts qs).map (Field.shift c.part7)

/-- The header but CHK (R352). -/
def headerFields (c : Ctx) (bead : Nat) (lead : Bool) (b : Bead) (gs : List Group) (slots : List Nat) (seq : Nat) :
    List Field :=
  [⟨0, 4, 0x4153435a⟩, ⟨4, 2, 1⟩, ⟨6, 1, bead + (if lead then 128 else 0)⟩, ⟨7, 1, c.asid⟩, ⟨8, 4, c.size⟩,
   ⟨12, 4, sumOf (gs.map Group.members) + 128 * slots.length⟩, ⟨16, 4, b.quireTop⟩, ⟨20, 4, b.reqs.length⟩,
   ⟨24, 4, seq⟩]

/-- The bytes of a whole area, CHK included. -/
def areaBytes (c : Ctx) (bead : Nat) (lead : Bool) (b : Bead) (gs : List Group) (ts : List Team) (slots : List Nat)
    (qs : QueueState) (seq now : Nat) : List Byte :=
  let body := fieldBytes 0 (headerFields c bead lead b gs slots seq ++ areaFields c b gs ts slots qs now)
  let bs := body ++ List.replicate (c.size - body.length) 0
  bs.take 28 ++ leBytes (crc32c bs).toNat 4 ++ bs.drop 32

/-- The check of an area that fails first (R354): 0 MAGIC, 1 LVER, 2 SIZE, 3 BEAD, 4 CHK, 5 a divergence
record. -/
def State.areaCheck (s : State) (c : Ctx) (target : Nat) (x : SavedBead) : Option Nat :=
  let base := s.saveArea c x.bead
  let area : SMap Byte := SMap.window s.mem base c.size
  let rd (off n : Nat) : Nat := ofLe (SMap.getMany 0 area (base + off) n)
  let bs := s.bytesAt base c.size
  let chk := crc32c (bs.take 28 ++ [0, 0, 0, 0] ++ bs.drop 32)
  let div (g : Group × Nat) (t : Nat) : Bool :=
    let rdm (m off n : Nat) : Nat := rd (256 + (g.2 + m) * c.groupEntry + t + off) n
    (Div.read rdm g.1.members).follows rdm g.1.members
  let checks := [rd 0 4 == 0x4153435a, rd 4 2 == 1, rd 8 4 == c.size,
    (s.partBeads c.part).contains target && (s.partBeads c.part).contains (rd 6 1 % 128),
    rd 28 4 == chk.toNat, (entryOfGroups x.groups 0).all (fun g => div g 0 && div g 704)]
  (checks.zipIdx.find? (fun y => !y.1)).map (·.2)

end Sys2Proof.Machine
end

