-- ==== Sys2Proof/Machine/Queues.lean ====
section
/-! DEFINITION. Queues (R340, R341, R398 to R400): when a command begins, how it completes, and the kill of a
context (R373). -/

namespace Sys2Proof.Machine

/-! ## Command messages (R398) -/

def cmdOp (c : BitVec 512) : Nat := nbits c.toNat 0 8
/-- CMPL, OVERLAP, CMSG. -/
def cmdReports (c : BitVec 512) : Bool := nbits c.toNat 8 1 == 1
def cmdOverlap (c : BitVec 512) : Bool := nbits c.toNat 9 1 == 1
def cmdByMessage (c : BitVec 512) : Bool := nbits c.toNat 10 1 == 1
def cmdAddr (c : BitVec 512) : Nat := nbits c.toNat 64 64
/-- Argument A0 to A3. -/
def cmdArg (c : BitVec 512) (i : Nat) : Nat := nbits c.toNat (128 + 64 * i) 64

/-- The arguments that an OP does not use. -/
def cmdUnused (c : BitVec 512) : List Nat :=
  match cmdOp c with
  | 1 => [cmdArg c 1, cmdArg c 2, cmdArg c 3]
  | 2 => [cmdArg c 3]
  | 3 => [cmdArg c 2, cmdArg c 3]
  | 4 => [nbits (cmdArg c 2) 2 30, cmdArg c 3]
  | 5 => nbits (cmdArg c 0) 3 61 :: (if cmdArg c 0 = 4 then [nbits (cmdArg c 3) 8 56] else [cmdArg c 1, cmdArg c 2, cmdArg c 3])
  | _ => []

/-- The lowest code under which a command is malformed (R400): 1 reserved OP, 2 reserved field or value, 3
misaligned address. -/
def malformedCode (c : BitVec 512) : Option Nat :=
  let op := cmdOp c
  if op = 0 ∨ 5 < op then some 1
  else if nbits c.toNat 11 21 ≠ 0 ∨ nbits c.toNat 384 128 ≠ 0 ∨ (cmdUnused c).any (· != 0)
      ∨ (op = 4 ∧ cmdArg c 2 % 4 = 3) ∨ (op = 5 ∧ 4 < cmdArg c 0) then some 2
  else if cmdAddr c % 16 ≠ 0 ∨ ((op = 3 ∨ op = 4) ∧ cmdArg c 0 % 8 ≠ 0) then some 3
  else none

/-! ## Completions (R400) -/

/-- The completion record. -/
def completionRecord (q : Nat) (c : BitVec 512) (cls code detail : Nat) : BitVec 128 :=
  BitVec.ofNat 128 (nbits c.toNat 32 32 + 2 ^ 32 * (q % 256) + 2 ^ 40 * cmdOp c + 2 ^ 48 * cls + 2 ^ 56 * (code % 256)
    + 2 ^ 64 * (detail % 2 ^ 64))

/-- A command completes: with CMPL set its record leaves as a message or as a write to CPLADDR. -/
def State.complete (s : State) (q : Nat) (c : BitVec 512) (cls code detail : Nat) : State :=
  if cmdReports c then
    let r := completionRecord q c cls code detail
    s.emit (if cmdByMessage c then .completion q r else .hostWrite q (BitVec.ofNat 64 (cmdAddr c)) r)
  else s

/-! ## When a command begins (R340, R341, R399) -/

/-- The queue takes commands: it is enabled, its partition runs, and its PART is that of the context table
(R340, R365). -/
def State.queueOn (s : State) (q : Nat) : Bool :=
  s.qEn q && s.qClass q != 3 && s.ctxPart (s.qAsid q) == s.qPart q && s.partEn (s.qPart q)

/-- Launches of the queue in progress, those of graph nodes apart. -/
def State.running (s : State) (q : Nat) : List Launch := s.launches.filter (fun l => l.queue == q && l.node.isNone)

/-- A launch has teams, or its root, still to place. -/
def Launch.unplaced (l : Launch) : Bool :=
  l.begun.isNone || decide (l.nextTeam < l.teams) || !l.again.isEmpty

/-- The queue's next command, if it may begin now: no earlier command is in progress, but for a launch with
OVERLAP once the launches before it have no unplaced team, and for a migration of the launch in progress. -/
def State.nextCommand (s : State) (q : Nat) : Option (BitVec 512) :=
  match (s.queue q).cmds with
  | [] => none
  | c :: _ =>
    let rs := s.running q
    if s.queueOn q && (s.queue q).busy.isNone
        && (rs.isEmpty || (cmdOp c == 1 && cmdOverlap c && rs.all (fun l => !l.unplaced))
            || (cmdOp c == 5 && cmdArg c 0 == 4)) then some c
    else none

/-- The command is taken from its queue. -/
def State.popCommand (s : State) (q : Nat) : State := s.updQueue q (fun x => { x with cmds := x.cmds.tail })

/-- Take the next command if it is well-formed, of this OP and acceptable to `want`: on a context that is not
live it completes in error (R399), else `k` has its effect. Commands other than context control wait while the
context is suspended. -/
def State.takeCommand (s : State) (q op : Nat) (want : BitVec 512 → Bool) (k : BitVec 512 → State → State) : State :=
  match s.nextCommand q with
  | none => s
  | some c =>
    if cmdOp c != op || (malformedCode c).isSome || !want c then s
    else match s.ctx? (s.qAsid q) with
      | none => if op = 5 ∧ cmdArg c 0 = 0 then k c (s.popCommand q) else (s.popCommand q).complete q c 5 0 0
      | some x => if x.suspended ∧ op ≠ 5 then s else k c (s.popCommand q)

/-- `MALFORMED_COMMAND` (R400): it does nothing else. -/
def execMalformedCommand (q : Nat) (s : State) : Host.Outcome State Fault Refusal :=
  .next (match s.nextCommand q with
    | none => s
    | some c => match malformedCode c with
      | none => s
      | some code => (s.popCommand q).complete q c 6 code 0)

/-! ## The kill of a context (R373) -/

/-- A bead left by a killed context. -/
def Bead.clearedOf (b : Bead) (asid : Nat) : Bead :=
  if b.occ = some asid then
    { b with occ := none, quire := [], reqs := [], spillFrom := none, exhFrom := none, bins := [], stop := none,
             gapOf := none, gate := [] }
  else { b with quire := b.quire.filter (fun r => r.asid != asid), bins := b.bins.filter (fun x => x.asid != asid)
                gapOf := if b.gapOf = some asid then none else b.gapOf }

/-- Everything of a context is discarded, and it is no longer live. -/
def State.discardContext (s : State) (asid : Nat) : State :=
  let gids := (s.allGroups.filter (fun g => g.gid != 0 && g.asid == asid)).map (·.gid)
  let s1 := gids.foldl State.killGroup s
  let ops := (s1.engOps.filter (fun o => o.asid == asid)).map (·.oid)
  let stored := (s1.saved.filter (fun x => x.asid == asid)).flatMap (fun x => x.groups.map (·.gid))
  { s1 with
    grp := if s1.grp.gid ≠ 0 ∧ s1.grp.asid = asid then {} else s1.grp
    groups := s1.groups.filter (fun g => g.gid == 0 || g.asid != asid)
    teams := s1.teams.filter (fun t => t.asid != asid)
    launches := s1.launches.filter (fun l => l.asid != asid)
    segs := s1.segs.filter (fun x => x.asid != asid)
    conds := s1.conds.map (fun (k : Nat × Cond) => if k.2.live && k.2.asid == asid then (k.1, { gen := nextGen k.2.gen }) else k)
    engOps := s1.engOps.filter (fun o => o.asid != asid)
    posted := s1.posted.filter (fun p => p.asid != asid)
    parents := s1.parents.filter (fun p => p.asid != asid)
    pool := s1.pool.filter (fun p => p.asid != asid)
    saved := s1.saved.filter (fun x => x.asid != asid)
    ctxs := SMap.del s1.ctxs asid
    beads := s1.beads.map (fun (b : Nat × Bead) => (b.1, b.2.clearedOf asid))
    parts := s1.parts.map (fun (p : Nat × Part) => (p.1, stored.foldl (fun p g => p.detach (.group g))
      (ops.foldl (fun p o => p.detach (.op o)) p.2))) }

/-- Commands of a queue in flight and not begun. -/
def State.commandsOf (s : State) (q : Nat) : List (BitVec 512) :=
  (s.running q).map (·.cmd) ++ (s.queue q).busy.toList ++ (s.queue q).cmds

/-- The queues of a context. -/
def State.queuesOf (s : State) (asid : Nat) : List Nat := (List.range 256).filter (fun q => s.qAsid q == asid)

/-- Kill a context (R373): its queues report a context fault for every command in flight or not begun, with
the CAUSE and SEQ of the fault record (R400). -/
def State.killContext (s : State) (asid cause seq : Nat) : State :=
  let qs := s.queuesOf asid
  let lost := qs.flatMap (fun q => (s.commandsOf q).map (fun c => (q, c)))
  let s1 := qs.foldl (fun t q => t.updQueue q (fun x => { x with cmds := [], busy := none, waitUntil := none }))
    (s.discardContext asid)
  lost.foldl (fun t x => t.complete x.1 x.2 3 cause seq) s1

end Sys2Proof.Machine
end

