-- ==== Sys2Proof/Machine/Switch.lean ====
section
/-! DEFINITION. Stopping teams, saving and restoring a bead, and handing it over (R79 to R81, R103, R342,
R345, R348 to R350, R354, R355). -/

namespace Sys2Proof.Machine

/-! ## Stopping (R348 to R350) -/

/-- Teams and groups of a bead. -/
def State.teamsOn (s : State) (b : Nat) : List Team := s.teams.filter (fun t => t.bead == b)

/-- Retired runs of a team, those of its ended groups included (R348). -/
def State.teamRuns (s : State) (t : Team) : Nat :=
  t.retired + sumOf ((s.allGroups.filter (fun g => g.team == t.tid)).map (·.retired))

/-- How a team is stopped (R348). -/
def State.teamWay (s : State) (t : Team) : Way :=
  match s.findLaunch t.launch with
  | none => .save
  | some l =>
    let rt := s.teamRuns t
    let ct := s.timer.toNat - t.startedAt
    if 0 < l.ended ∧ 0 < rt ∧ (l.endedRuns - l.ended * rt) * ct ≤ 6500 * rt * l.ended then .drain
    else if l.idem then .flush else .save

/-- Insert a team number into those to place again. -/
def insertNum (n : Nat) : List Nat → List Nat
  | [] => [n]
  | x :: xs => if n ≤ x then n :: x :: xs else x :: insertNum n xs

/-- A team is flushed (R79, R103, R349): its groups are killed, every segment below it is pruned, and it is
placed again later; a committed segment stays committed (R95). -/
def State.flushTeam (s : State) (t : Team) : State :=
  if t.segid = 0 then
    let s1 := s.prune (s.segs.filter (fun x => x.asid == t.asid && x.root == t.tid))
    (s1.killTeam t.tid).updLaunch t.launch (fun l => { l with again := insertNum t.num l.again })
  else
    let s1 := s.prune (s.segs.filter (fun x => x.asid == t.asid && x.above.contains t.segid))
    (s1.killTeam t.tid).updSeg t.asid t.segid (fun x => { x with st := .again })

/-- The groups of a bead that are stopped for saving leave their idempotent regions at once (R77, R350). -/
def State.leaveRegions (s : State) (b : Nat) (which : Group → Bool) : State :=
  (((s.onBead b).filter (fun g => which g && g.div.inreg)).map (·.gid)).foldl State.killRegion s

/-- Stop one team of a bead in the way chosen for it. -/
def State.stopTeam (s : State) (t : Team) : State :=
  match s.teamWay t with
  | .flush => s.flushTeam t
  | .drain => s.updTeam t.tid (fun x => { x with stop := some .drain })
  | .save => (s.updTeam t.tid (fun x => { x with stop := some .save })).leaveRegions t.bead (fun g => g.team == t.tid)

/-- Stop everything on a bead for another context, or for none (R344, R348, R349): its speculative segments
are squashed (R103), its teams stop in their ways, and groups without a team are saved. -/
def State.stopBead (s : State) (b : Nat) (to_ : Option Nat) : State :=
  if (s.bead b).stop.isSome || (s.bead b).occ.isNone then s
  else
    let spec := s.segs.filter (fun x => x.st.speculative && (match x.st.team?.bind s.findTeam with
      | some t => t.bead == b
      | none => false))
    let s1 := spec.foldl (fun t x => t.squash x.asid x.segid false) s
    let s2 := (s1.teamsOn b).foldl State.stopTeam s1
    (s2.leaveRegions b (fun g => g.team == 0)).updBead b (fun x => { x with
      stop := some { toAsid := to_, drainBy := s.timer.toNat + 6500, saved := false } })

/-- `DRAIN_TIMEOUT` (R349): teams of a bead that have not ended 5 µs after the decision are saved. -/
def execDrainTimeout (bead : Nat) (s : State) : Host.Outcome State Fault Refusal :=
  .next (match (s.bead bead).stop with
    | none => s
    | some st =>
      if s.reached st.drainBy then
        ((s.teamsOn bead).filter (fun t => t.stop == some .drain)).foldl (fun t x =>
          (t.updTeam x.tid (fun y => { y with stop := some .save })).leaveRegions bead (fun g => g.team == x.tid)) s
      else s)

/-! ## Stop cost (R345) -/

/-- A team of a bead is stopped in a way, or squashed: a speculative segment is neither drained nor saved (R348). -/
def State.stopsBy (s : State) (t : Team) : Option Way :=
  match s.findSeg t.asid t.segid with
  | some x => if t.segid != 0 && x.st.speculative then none else some (s.teamWay t)
  | none => some (s.teamWay t)

/-- Bytes that the save of a bead would write: of the teams that are saved and of the groups without a team. -/
def State.saveBytes (s : State) (b : Nat) : Nat :=
  match (s.bead b).occ with
  | none => 0
  | some a =>
    let c := s.ctx a
    let ts := (s.teamsOn b).filter (fun t => s.stopsBy t == some .save)
    let gs := (s.onBead b).filter (fun g => g.team == 0 || ts.any (fun t => t.tid == g.team))
    if gs.isEmpty && ts.isEmpty then 0
    else
      256 + sumOf (gs.map Group.members) * (c.groupEntry + 4 * c.gcap * c.lpg) + 16384 * (gs.flatMap Group.slotsHeld).length
        + sumOf (ts.map (·.spw)) + 16 * (s.bead b).quireTop

/-- Kind of a bead's stop: no group, all drain, flush, save. -/
def State.stopKind (s : State) (b : Nat) : Nat :=
  let gs := s.onBead b
  let ways := (s.teamsOn b).map s.stopsBy
  if gs.isEmpty then 0
  else if gs.any (fun g => g.team == 0) || ways.contains (some .save) then 3
  else if ways.contains (some .flush) then 2
  else 1

/-- Bead `x` is taken before bead `y`. -/
def State.cheaper (s : State) (x y : Nat) : Bool :=
  let kx := s.stopKind x
  let ky := s.stopKind y
  if kx != ky then decide (kx < ky) else if s.saveBytes x != s.saveBytes y then decide (s.saveBytes x < s.saveBytes y)
    else decide (x < y)

def insertBead (s : State) (b : Nat) : List Nat → List Nat
  | [] => [b]
  | x :: xs => if s.cheaper b x then b :: x :: xs else x :: insertBead s b xs

/-- Beads in ascending order of stop cost; one whose rod is clamped is never chosen. -/
def State.byCost (s : State) (bs : List Nat) : List Nat :=
  (bs.filter (fun b => (s.rod (rodOfBead b)).clamp.isNone)).foldr (insertBead s) []

/-! ## Moving what a bead holds -/

/-- References to records of another bead follow it. -/
def Elem.rehome (from_ to_ : Nat) (e : Elem) : Elem :=
  { e with
    copyOf := e.copyOf.map (fun x => if x.1 = from_ then (to_, x.2) else x)
    linkHome := e.linkHome.map (fun b => if b = from_ then to_ else b) }

def Group.rehome (from_ to_ : Nat) (g : Group) : Group :=
  { g with
    elems := g.elems.map (fun (x : Nat × Elem) => (x.1, x.2.rehome from_ to_))
    lgs := g.lgs.map (fun x => { x with elem := x.elem.rehome from_ to_ }) }

/-- The quire of a bead is kept under another number: everything of the context that names it follows. -/
def State.rehome (s : State) (asid from_ to_ : Nat) : State :=
  let g (x : Group) : Group := if x.asid = asid then x.rehome from_ to_ else x
  let bd (n : Nat) : Nat := if n = from_ then to_ else n
  { s with
    grp := g s.grp
    groups := s.groups.map g
    parents := s.parents.map (fun p => if p.asid = asid then { p with bead := bd p.bead } else p)
    pool := s.pool.map (fun w => if w.asid = asid then { w with bead := w.bead.map bd, elem := w.elem.rehome from_ to_ } else w)
    saved := s.saved.map (fun x => { x with groups := x.groups.map g }) }

/-- A group that is saved: it stands at a run boundary or at its word, with no result in flight, no monitor and
no word held by its slices (R80, R81, R271). -/
def Group.quiesced (g : Group) : Group :=
  let g1 := g.cutRun false
  let g2 := g1.clearMonitors
  { g2 with
    windows := []
    loops := []
    pins := []
    wait := match g.wait with
      | .quire => .quire
      | .copies => .copies
      | .ending => .ending
      | .regrp => .regrp
      | .stopped => .stopped
      | _ => .ready }

/-- The bead drops its L0, L1 and sampler caches and the old context's translations (R355). -/
def State.dropCaches (s : State) (b asid : Nat) : State :=
  let s1 := (List.range 4).foldl (fun t i => t.updCore (4 * b + i) (fun c => { c with
    l0 := [], l1 := [], samp := [], rel := [], tlb := c.tlb.filter (fun e => e.asid != asid) })) s
  s1.updBead b (fun x => { x with tlb2 := x.tlb2.filter (fun e => e.asid != asid) })

/-- A bead whose occupants have gone drops everything its caches hold of them (R355). -/
def State.dropAllCaches (s : State) (b : Nat) : State :=
  let s1 := (List.range 4).foldl (fun t i => t.updCore (4 * b + i) (fun c => { c with
    l0 := [], l1 := [], samp := [], rel := [], tlb := [] })) s
  s1.updBead b (fun x => { x with tlb2 := [] })

/-- The area that a bead is saved in: its own, unless that holds a save which has not been restored; then the first of the
partition that does not (log 16). -/
def State.freeArea (s : State) (asid : Nat) (c : Ctx) (b : Nat) : Nat :=
  let used (x : Nat) : Bool := s.saved.any (fun y => y.asid == asid && y.bead == x)
  if used b then ((s.partBeads c.part).find? (fun x => !used x)).getD b else b

/-- Save a bead (R352 to R354): its groups leave their slots, and its area is written. -/
def State.saveBead (s : State) (b asid : Nat) : State :=
  let gs := (s.onBead b).map Group.quiesced
  let ts := (s.teamsOn b).map (fun t => { t with stop := none })
  let bd := s.bead b
  let c := s.ctx asid
  -- the context's lowest bead on the die writes the die state (R351)
  let lead := ((s.partBeads c.part).filter (fun x => dieOfBead x == dieOfBead b && (s.bead x).occ == some asid)).head? == some b
  let qs : QueueState := {
    ops := s.engOps
    segs := if lead then s.segs.filter (fun x => x.asid == asid && x.die == dieOfBead b) else []
    conds := if lead then s.conds.filter (fun k => k.2.live && k.2.asid == asid && k.1 / 1024 == dieOfBead b) else [] }
  if gs.isEmpty && ts.isEmpty && bd.quire.isEmpty && bd.reqs.isEmpty && bd.bins.isEmpty && qs.segs.isEmpty && qs.conds.isEmpty
      && !s.parents.any (fun p => p.asid == asid && p.bead == b && s.staysFor p) && !s.pool.any (fun w => w.asid == asid && w.bead == some b) then s
  else
    let held := gs.flatMap Group.slotsHeld
    let slots := (List.range 128).filter held.contains
    let now := s.timer.toNat
    let a := s.freeArea asid c b
    let seq := SMap.get 0 c.saves a + 1
    let bytes := areaBytes c a lead bd gs ts slots qs seq now
    let base := s.saveArea c a
    let home := 128 + s.nextId
    let gids := gs.map (·.gid)
    let kept : Bead := { quire := bd.quire, reqs := bd.reqs, bins := bd.bins, accPoison := bd.accPoison
                         spillFrom := bd.spillFrom.map (fun t => now - t) }
    let s1 := s.homeRun base bytes
    let s2 : State := { s1 with
      nextId := s1.nextId + 1
      grp := if gids.contains s1.grp.gid then {} else s1.grp
      groups := s1.groups.filter (fun g => !gids.contains g.gid)
      teams := s1.teams.filter (fun t => t.bead != b)
      saved := s1.saved ++ [{ asid := asid, bead := a, home := home, groups := gs, teams := ts, dieSegs := qs.segs, dieConds := qs.conds, failed := false }] }
    let s3 := (s2.updBead b (fun x => { x with quire := [], reqs := [], bins := [], spillFrom := none, exhFrom := none,
                                               accPoison := [], gate := [] })).updBead home (fun _ => kept)
    (s3.rehome asid b home).updCtx asid (fun x => { x with saves := SMap.put x.saves a seq })

/-! ## Restoring (R354, R355) -/

/-- A team's window from part 5. -/
def readPad (c : Ctx) (rd : Nat → Nat → Nat) (t : Team) (base : Nat) : SMap Byte :=
  SMap.setMany 0 [] 0 ((List.range t.spw).map (fun o => BitVec.ofNat 8 (rd (c.part5 + padPlace c t base o) 1)))

/-- The records of a fault that a group took while it was being stopped go out (R350). -/
def State.sendOwed (s : State) (g : Group) : State :=
  g.owed.foldl (fun t r => t.recordFault { r with bead := g.bead, core := g.core % 4 } (.group g.gid))
    (s.updGroup g.gid (fun x => { x with owed := [] }))

/-- The cores of a bead drop their L0: it holds nothing older than what a restored group has acquired (R308, R355). -/
def State.dropL0 (s : State) (b : Nat) : State := (List.range 4).foldl (fun t i => t.updCore (4 * b + i) (fun k => { k with l0 := [] })) s

/-- A restored group on its new bead: a parked group is at its `jfence` again (R305). -/
def Group.onto (g : Group) (b now : Nat) : Group :=
  { g with core := 4 * b + g.core % 4, readySince := now }

/-- Restore a saved bead on bead `b`: a failed check is a context restore error, and none of its groups is
resumed. -/
def State.restoreArea (s : State) (b : Nat) (x : SavedBead) : State :=
  let c := s.ctx x.asid
  let now := s.timer.toNat
  match s.areaCheck c b x with
  | some k =>
    ({ s with saved := s.saved.map (fun y => if y = x then { y with failed := true } else y) }).recordFault
      { cause := 0x19, asid := x.asid, part := c.part, path := 6, bead := x.bead, info := BitVec.ofNat 64 k } .nobody
  | none =>
    let base := s.saveArea c x.bead
    let area : SMap Byte := SMap.window s.mem base c.size
    let rd (off n : Nat) : Nat := ofLe (SMap.getMany 0 area (base + off) n)
    let rd7 (off n : Nat) : Nat := rd (c.part7 + off) n
    -- groups and slots beyond NGS and NACC of the header are not restored (R352)
    let ngs := nbits (rd 12 2) 0 7
    let nacc := nbits (rd 12 2) 7 8
    let places := tablePlaces x.groups x.teams
    let gids := x.groups.map (·.gid)
    let gs := (entryOfGroups x.groups 0).map (fun g =>
      let own := SMap.window area (base + 256 + g.2 * c.groupEntry) (g.1.members * c.groupEntry)
      let g1 := (g.1.restore x.teams c.lcap c.gcap (fun m off n => ofLe (SMap.getMany 0 own (base + 256 + (g.2 + m) * c.groupEntry + off) n))
        (fun off n => rd (c.part3 + g.2 * 4 * c.gcap * c.lpg + off) n)).onto b now
      { g1 with lgs := g1.lgs.zipIdx.map (fun y => { y.1 with ops := OpPlace.ents places g1.gid y.2 rd7 y.1.ops }) })
    let ts := (padBases x.teams 0).zipIdx.map (fun t => { t.1.1 with
      bead := b, restoring := true, spad := readPad c rd t.1.1 t.1.2, bars := readBars (fun o n => rd7 (teamBytes * t.2 + o) n) })
    let kept := s.bead x.home
    let held := gs.flatMap Group.slotsHeld
    let tiles := (((List.range 128).filter held.contains).take nacc).zipIdx.flatMap (fun y =>
      (List.range 4096).map (fun i => (4096 * y.1 + i, rd (c.part4 + 16384 * y.2 + 4 * i) 4)))
    let top := 16 * rd 16 4
    let lost := ((entryOfGroups x.groups 0).filter (fun g => decide (ngs < g.2 + g.1.members))).map (·.1.gid)
    let s0 := s.restoreDie x rd7
    let reqAt := requestsAt places x.teams
    let s1 : State := { s0 with
      groups := s0.groups ++ gs
      teams := s0.teams ++ ts
      saved := s0.saved.filter (fun y => y.home != x.home)
      engOps := readRequests gids ((65536 - reqAt) / 4) (fun o n => rd7 (reqAt + o) n) 0 (s0.engOps.map (fun o => match o.gid with
        | some g => if gids.contains g then { readOp places rd7 o with bead := b, core := 4 * b + o.core % 4 } else o
        | none => o)) }
    let s2 := s1.updBead b (fun y => { y with
      quire := kept.quire.map (fun r => r.restore (fun off n => rd (c.part6 + off) n))
      reqs := readReqs gids (fun off n => rd (c.part6 + top + off) n) (kept.reqs.take (rd 20 4))
      bins := readBins (binRoom x.teams rd7) kept.bins
      accPoison := kept.accPoison
      acc := tiles.foldl (fun (m : SMap Word) (a : Nat × Nat) => SMap.set 0 m a.1 (BitVec.ofNat 32 a.2)) y.acc
      spillFrom := readTimer kept.spillFrom (rd (c.part6 + top + 8 * rd 20 4) 4) now })
    let s3 := s2.rehome x.asid x.home b
    let s4 : State := { s3 with beads := SMap.del s3.beads x.home }
    let s5 := (List.range 4).foldl (fun t i => t.updCore (4 * b + i) (fun k => { k with spq := c.spq })) s4
    let s6 := (gs.filter (fun g => !lost.contains g.gid)).foldl State.sendOwed ((s5.acquireBead b).dropL0 b)
    let s7 := lost.foldl State.killGroup s6
    (gs.filter (fun g => g.wait == .ending)).foldl (fun t g => t.groupMayEnd g.gid) s7

/-- The saved bead of a context that bead `b` restores: the one whose area is its own, else the oldest; none while its own
area holds a save that failed its check (log 16). -/
def State.nextSaved (s : State) (b asid : Nat) : Option SavedBead :=
  let mine := s.saved.filter (fun x => x.asid == asid && !x.failed)
  if s.areaFailed b asid then none else (mine.filter (fun x => x.bead == b) ++ mine).head?

def State.restoreNext (s : State) (b asid : Nat) : State :=
  match s.nextSaved b asid with
  | some x => s.restoreArea b x
  | none => s

/-- `CONTEXT_RESTORE_COMPLETE` (R355): the team issues. -/
def execContextRestoreComplete (team : Nat) (s : State) : Host.Outcome State Fault Refusal :=
  .next (match s.findTeam team with
    | some t => if t.restoring then s.updTeam team (fun x => { x with restoring := false }) else s
    | none => s)

/-! ## Who may use a bead (R343, R346) -/

/-- A queue's context can place work on a bead: a team, or the root or a dealt element, of a taken launch; a
pending segment of the die; a saved bead. -/
def State.canUse (s : State) (q b : Nat) : Bool :=
  let a := s.qAsid q
  let mine := s.launches.filter (fun l => l.queue == q)
  (match s.ctx? a with | some c => !c.suspended | none => false)
    && (mine.any Launch.unplaced || s.pool.any (fun w => w.bead.isNone && mine.any (fun l => l.lid == w.launch))
        || s.segs.any (fun x => x.st.toPlace && x.die == dieOfBead b && mine.any (fun l => l.lid == x.launch))
        || s.saved.any (fun x => x.asid == a && !x.failed
            && (x.groups.any (fun g => mine.any (fun l => l.lid == g.launch)) || x.groups.isEmpty)))

/-- Queues of a partition that can use a bead, in the order of their claims: class by class, the current queue
first, then in ascending number from it on. -/
def State.claims (s : State) (p b : Nat) : List Nat :=
  let qs := (List.range 256).filter (fun q => s.queueOn q && s.qPart q == p && s.canUse q b)
  (List.range 3).flatMap (fun c =>
    let cur := (SMap.find (s.part p).curs c).getD 0
    let mine := qs.filter (fun q => s.qClass q == c)
    mine.filter (fun q => decide (cur ≤ q)) ++ mine.filter (fun q => decide (q < cur)))

/-- The first queue with a claim on a bead, those of launches with IDEM first of their class on a bead that is
filled into a gap (R346). -/
def State.claimant (s : State) (p b : Nat) (gap : Option Nat) : Option Nat :=
  let qs := (s.claims p b).filter (fun q => some (s.qAsid q) != gap)
  match gap with
  | none => qs.head?
  | some _ =>
    let idem (q : Nat) : Bool := s.launches.any (fun l => l.queue == q && l.idem && l.unplaced)
    ((List.range 3).flatMap (fun c =>
      let mine := qs.filter (fun q => s.qClass q == c)
      mine.filter idem ++ mine.filter (fun q => !idem q))).head?

/-- The partition that owns a bead gives it to no one when it may place no team (R380). -/
def State.givable (s : State) (b p : Nat) : Bool :=
  !(s.bead b).out && s.partEn p && s.pcsr p 0x907 != 0 && s.pcsr p 0x908 != 0

/-! ## Hand-over (R342, R355) -/

/-- A group is resident on the bead, or an element of a team that is placed there is still to become one. -/
def State.unitsOn (s : State) (b : Nat) : Bool :=
  !(s.onBead b).isEmpty || !(s.teamsOn b).isEmpty || s.pool.any (fun w => w.bead == some b)
    || s.parents.any (fun p => p.bead == b && s.staysFor p)

/-- Every stop of a bead has ended: no team drains, and no group is in a run. -/
def State.stopsEnded (s : State) (b : Nat) : Bool :=
  (s.teamsOn b).all (fun t => t.stop == some .save)
    && (s.onBead b).all (fun g => !(g.run.on && g.wait == .ready))
    && (s.rod (rodOfBead b)).clamp.isNone

/-- A confirmed segment of the context waits on the die: it is taken before saved teams are restored (R91). -/
def State.segWaits (s : State) (b asid : Nat) : Bool :=
  s.segs.any (fun x => x.asid == asid && x.st.toPlace && x.die == dieOfBead b && s.confirmed x)

/-- A bead that has come to a context restores one of its saved beads, if no segment comes first. -/
def State.restoreFirst (s : State) (b asid : Nat) : State := if s.segWaits b asid then s else s.restoreNext b asid

/-- The bead goes to a context, or to none. -/
def State.giveBead (s : State) (b : Nat) (old : Nat) (to_ gap : Option Nat) : State :=
  ((s.saveBead b old).dropCaches b old).updBead b (fun x => { x with occ := to_, stop := none, gapOf := gap, gate := [] })

/-- `HAND_OVER` (R355): of a bead whose stops have ended; of a bead without occupant; of one whose occupant has
no group there and nothing to place (R346); or the restoration of saved teams on a bead of their context that
has become free. -/
def execHandOver (bead asid : Nat) (s : State) : Host.Outcome State Fault Refusal :=
  .next (
    let b := s.bead bead
    match b.occ, b.stop with
    | some a, some st =>
      let to_ := st.toAsid.filter (fun x => (s.ctx? x).isSome)
      if !s.stopsEnded bead || to_.getD 0 != asid then s
      else
        let s1 := s.giveBead bead a to_ none
        match to_ with
        | some x => if x = a then s1 else s1.restoreFirst bead x
        | none => s1
    | none, _ =>
      match s.rodOwner (rodOfBead bead) with
      | none => s
      | some p =>
        if s.givable bead p && ((s.claimant p bead none).map s.qAsid) == some asid then
          ((s.dropAllCaches bead).updBead bead (fun x => { x with occ := some asid })).restoreFirst bead asid
        else s
    | some a, none =>
      match s.rodOwner (rodOfBead bead) with
      | none => s
      | some p =>
        if s.unitsOn bead || !s.givable bead p then s
        else if a = asid then
          -- what the bead still holds of its context stays (R44)
          if b.quire.isEmpty && b.reqs.isEmpty && b.bins.isEmpty then s.restoreFirst bead a else s
        else if (s.queuesOf a).any (fun q => s.canUse q bead) then s
        else if ((s.claimant p bead (some a)).map s.qAsid) == some asid then
          (s.giveBead bead a (some asid) (some a)).restoreFirst bead asid
        else s)

/-- `GAP_FILL_RECLAIM` (R344): the former occupant's queue wants its bead back. -/
def execGapFillReclaim (bead : Nat) (s : State) : Host.Outcome State Fault Refusal :=
  .next (match (s.bead bead).gapOf with
    | none => s
    | some a => if (s.queuesOf a).any (fun q => s.canUse q bead) then s.stopBead bead (some a) else s)

end Sys2Proof.Machine
end

