-- ==== Sys2Proof/Machine/Dispatcher.lean ====
section
/-! DEFINITION. The dispatcher (R347): teams, segments and dealt elements go to beads; segments are taken, passed
over and committed (R83, R84, R90, R91, R95 to R99); launches complete (R104, R341). -/

namespace Sys2Proof.Machine

/-! ## The cursor (R347) -/

/-- The beads of a launch's context, from the cursor on, around. -/
def State.cursorBeads (s : State) (l : Launch) : List Nat :=
  let bs := (List.range 128).filter (fun b => (s.bead b).occ == some l.asid)
  bs.filter (fun b => decide (l.cursor ≤ b)) ++ bs.filter (fun b => decide (b < l.cursor))

/-- A unit of a launch has gone to a bead: the cursor moves to the bead after it. -/
def State.moveCursor (s : State) (lid b : Nat) : State := s.updLaunch lid (fun l => { l with cursor := (b + 1) % 128 })

/-! ## Segments in the gathering (R90) -/

/-- Pending segments of a context on the die of a bead, and committed ones that are to be placed again (R79). -/
def State.pendingOn (s : State) (b asid : Nat) : List Seg :=
  s.segs.filter (fun x => x.asid == asid && x.die == dieOfBead b && x.st.toPlace)

/-- A held segment is taken only once it is confirmed (R102). -/
def State.mayTake (s : State) (x : Seg) : Bool := !x.held || s.confirmed x

/-- A segment's window bytes, and whether its team fits on a bead. -/
def Launch.segSpw (l : Launch) (t : Nat) : Nat := match l.segs[t]? with | some x => x.spw | none => 0
def State.segFits (s : State) (b : Nat) (x : Seg) : Bool :=
  match s.findLaunch x.launch with
  | some l => s.roomForGang l b (l.segSpw x.stype) (l.gang (l.segRoles x.stype))
  | none => false

/-- A bead takes a unit: the pending segments that stand before it and do not fit have been passed over once
more. -/
def State.countPassed (s : State) (b asid : Nat) (before : Seg → Bool) : State :=
  let missed := ((s.pendingOn b asid).filter (fun x => before x && !s.segFits b x)).map (·.segid)
  { s with segs := s.segs.map (fun x =>
      if x.asid = asid ∧ missed.contains x.segid then { x with passed := SMap.put x.passed b (SMap.get 0 x.passed b + 1) } else x) }

/-- Segments of a context that have reached the limit on a bead and do not bar its gate yet. -/
def State.passDue (s : State) (b asid : Nat) : List Seg :=
  (s.pendingOn b asid).filter (fun x => decide (64 ≤ SMap.get 0 x.passed b) && !(s.bead b).gate.contains (asid, x.segid))

/-- `PASS_OVER_LIMIT` (R90): after 64 pass-overs of a segment the bead takes none that stands after it. -/
def execPassOverLimit (bead : Nat) (s : State) : Host.Outcome State Fault Refusal :=
  .next (match (s.bead bead).occ with
    | none => s
    | some a =>
      let due := s.passDue bead a
      if due.isEmpty then s
      else s.updBead bead (fun b => { b with gate := b.gate ++ due.map (fun x => (a, x.segid)) }))

/-- The segments that hold the bead's gate: still pending, and passed over 64 times. -/
def State.gated (s : State) (b asid : Nat) : List Seg :=
  (s.pendingOn b asid).filter (fun x => (s.bead b).gate.contains (asid, x.segid) && decide (64 ≤ SMap.get 0 x.passed b))

/-- An unstarted team of the context fits on the bead: an unconfirmed segment ranks after it (R90). -/
def State.teamFits (s : State) (b asid : Nat) : Bool :=
  s.launches.any (fun l => l.asid == asid && l.begun.isSome && (decide (l.nextTeam < l.teams) || !l.again.isEmpty)
    && s.roomForGang l b l.spw (l.gang l.rootRoles))

/-- The segment that the bead takes next: of those that fit and that no gate bars, the first in order. -/
def State.segChoice (s : State) (b asid : Nat) : Option Seg :=
  let gs := s.gated b asid
  let ok (x : Seg) : Bool := s.mayTake x && s.segFits b x && gs.all (fun y => y.segid == x.segid || s.ranksBefore x y)
  match bestSeg s.ranksBefore ((s.pendingOn b asid).filter ok) with
  | some x => if s.confirmed x || !s.teamFits b asid then some x else none
  | none => none

/-- Start a segment's team (R83, R84, R96): its window holds the image, its argument registers the spawner's
values, all else is zero. A committed one has no version and stays committed (R79, R95): its cores then drop the copies
that may be older than what its spawner stored (R86, R147). -/
def State.takeSegment (s : State) (b : Nat) (x : Seg) (l : Launch) (version : Nat) : State :=
  let (tid, s1) := s.fresh
  let spw := l.segSpw x.stype
  let st := l.segs.getD x.stype { spw := 0, argbase := 0, nargs := 0, firstRole := 0, nrole := 0, image := [] }
  let t : Team := { tid := tid, asid := x.asid, launch := l.lid, num := 0, segid := x.segid, bead := b, spw := spw
                    spad := st.image, bars := [], startedAt := s.timer.toNat, retired := 0, stop := none, restoring := false }
  let runs : SegSt := if x.st = .again then .committed tid else .running tid
  let args := x.args.zipIdx.foldl (fun (m : SMap Word) (a : Word × Nat) => SMap.set 0 m (st.argbase + a.2) a.1) []
  let s2 := { s1 with teams := s1.teams ++ [t] }
  let s3 := s2.updSeg x.asid x.segid (fun y => { y with st := runs, version := version, bytes := [], reads := [], passed := [] })
  let s4 := s3.updBead b (fun y => { y with gate := y.gate.filter (· != (x.asid, x.segid)) })
  let s5 := if x.st = .again then s4.acquireBead b else s4
  s5.startGang l b tid x.segid { team := tid, segid := x.segid } args (l.gang (l.segRoles x.stype))

/-- Running segments of a context on a die whose squash frees room (R91): unconfirmed ones, the least likely
first, of equals the latest. -/
def State.squashFirst (s : State) (die asid : Nat) : Option Seg :=
  let run := s.segs.filter (fun x => x.asid == asid && x.die == die && x.st.placed && !s.confirmed x)
  bestSeg (fun x y => decide (s.lcode x < s.lcode y) || (s.lcode x == s.lcode y && decide (y.segid < x.segid))) run

/-- The bead whose teams' stops write the fewest bytes; one whose rod is clamped is never chosen (R91, R345). -/
def State.fewestBytes (s : State) (bs : List Nat) : Option Nat :=
  (bs.filter (fun b => (s.rod (rodOfBead b)).clamp.isNone)).foldl (fun (best : Option Nat) b => match best with
    | none => some b
    | some a => if s.saveBytes b < s.saveBytes a then some b else some a) none

/-- A confirmed segment without room on any bead of the partition on its die (R91): an unconfirmed segment of
its context is squashed, or one bead is freed for it. -/
def State.makeRoom (s : State) (p die : Nat) (x : Seg) : State :=
  let bs := (s.partBeads p).filter (fun b => dieOfBead b == die && !(s.bead b).out)
  let free (b : Nat) : Bool := (s.bead b).occ.isNone || (s.takes b x.asid && s.segFits b x)
  let coming (b : Nat) : Bool := match (s.bead b).stop with | some st => st.toAsid == some x.asid | none => false
  if bs.any (fun b => free b || coming b) then s
  else match s.squashFirst die x.asid with
    | some y => s.squash y.asid y.segid false
    | none => match s.fewestBytes bs with
      | some b => s.stopBead b (some x.asid)
      | none => s

/-- A bead of the context takes a segment now: no gate bars it there and it fits (R90). -/
def State.offers (s : State) (b : Nat) (x : Seg) : Bool :=
  s.takes b x.asid && (s.passDue b x.asid).isEmpty && s.segFits b x
    && (s.gated b x.asid).all (fun y => y.segid == x.segid || s.ranksBefore x y)

/-- The bead to which a segment goes: the first on its die, from its launch's cursor on, that has room (R347). -/
def State.offeredTo (s : State) (l : Launch) (x : Seg) : Option Nat :=
  (s.cursorBeads l).find? (fun b => dieOfBead b == x.die && s.offers b x)

/-- A free version number of a die, from 1 on; a committed segment needs none (R96). -/
def State.freeVersion (s : State) (die : Nat) (x : Seg) : Option Nat :=
  if x.st = .again then some 0
  else (freeFrom ((s.segs.filter (fun y => y.die == die && y.version != 0)).map (fun y => y.version - 1))
    (Config.allocFrom s.tick % 2047) 2047).map (· + 1)

/-- `SEGMENT_TAKE` (R90, R91, R96, R347): the bead takes a segment that is offered to it, with a free version number of its
die, and the launch's cursor moves past it; else room is made for a confirmed one. -/
def execSegmentTake (bead : Nat) (s : State) : Host.Outcome State Fault Refusal :=
  .next (
    let die := dieOfBead bead
    let taken : Option State := match (s.bead bead).occ with
      | none => none
      | some a =>
        if !s.takes bead a || !(s.passDue bead a).isEmpty then none
        else match s.segChoice bead a with
          | none => none
          | some x =>
            match s.findLaunch x.launch, s.freeVersion die x with
            | some l, some v =>
              if s.offeredTo l x != some bead then none
              else some (((s.countPassed bead a (fun y => y.segid != x.segid && s.ranksBefore y x)).takeSegment bead x l v).moveCursor
                x.launch bead)
            | _, _ => none
    match taken with
    | some t => t
    | none =>
      match s.rodOwner (rodOfBead bead) with
      | none => s
      | some p =>
        match bestSeg s.ranksBefore (s.segs.filter (fun x =>
            x.die == die && x.st.toPlace && (s.ctx x.asid).part == p && s.confirmed x && !(s.ctx x.asid).suspended)) with
        | some x => s.makeRoom p die x
        | none => s)

/-! ## Commit (R95, R97, R99, R140) -/

/-- A segment stands above another in its chain. -/
def State.isAbove (s : State) (x y : Seg) : Bool := (s.chain y.asid 16 y.segid).any (fun z => z.segid == x.segid)

/-- The segments that the commit of `x` violates (R99): their read sets meet its version, and it is not their
ancestor. -/
def State.commitViolates (s : State) (x : Seg) : List Seg :=
  (distinct (x.bytes.map (fun b => sectorOf b.1))).flatMap (fun sec =>
    (s.violated x.asid x.segid false sec).filter (fun y => decide (x.segid < y.segid) && !s.isAbove x y))

/-- It may commit (R95). -/
def State.mayCommit (s : State) (x : Seg) : Bool :=
  (match x.st with | .running _ => true | .finished _ _ => true | _ => false)
    && s.confirmed x && !s.segs.any (fun y => y.asid == x.asid && decide (y.segid < x.segid) && y.st != .ended)

/-- `SEGMENT_COMMIT` (R95, R97): the version becomes visible as one release at device scope, and the segment's
groups perform an acquire on every path (R140). -/
def execSegmentCommit (asid segid : Nat) (s : State) : Host.Outcome State Fault Refusal :=
  .next (match s.findSeg asid segid with
    | none => s
    | some x =>
      if !s.mayCommit x then s
      else
        let bad := s.commitViolates x
        let s1 := s.homeStore x.bytes
        let s2 : State := bad.foldl (fun t y => t.squash y.asid y.segid false) s1
        let s3 : State := match x.st with
          | .running tm =>
            let cores := (s2.allGroups.filter (fun g => g.team == tm && g.gid != 0)).map (·.core)
            (cores.foldl (fun t c => (t.dropL1 c).dropSamp c) s2).updSeg asid segid (fun y => { y with
              st := .committed tm, bytes := [], reads := [], version := 0 })
          | st =>
            let t := match st with | .finished _ runs => s2.siblingEnded x.launch runs | _ => s2
            { t with segs := t.segs.filter (fun y => !(y.asid == asid && y.segid == segid)) }
        s3.freeConds)

/-! ## Placing units (R47, R347) -/

/-- A confirmed pending segment fits on the bead: it ranks before teams and dealt elements (R90). -/
def State.segFirst (s : State) (b asid : Nat) : Bool := (s.pendingOn b asid).any (fun x => s.confirmed x && s.segFits b x)

/-- A queue of the same context with an earlier claim has a team that fits on the bead (R343), or, on a bead
filled into a gap, a launch with IDEM has one (R346). -/
def State.outranked (s : State) (l : Launch) (b : Nat) : Bool :=
  let order := s.claims (s.ctx l.asid).part b
  s.launches.any (fun x => x.lid != l.lid && x.asid == l.asid && x.unplaced && x.begun.isSome && s.roomForGang x b x.spw (x.gang x.rootRoles)
    && (decide (order.idxOf x.queue < order.idxOf l.queue)
        || ((s.bead b).gapOf.isSome && x.idem && !l.idem && s.qClass x.queue == s.qClass l.queue)))

/-- The bead is empty and a saved bead of the context waits for it: that is restored first (R91). -/
def State.owesRestore (s : State) (b asid : Nat) : Bool := !s.unitsOn b && (s.nextSaved b asid).isSome

/-- The bead may take a unit of a launch. -/
def State.mayPlace (s : State) (l : Launch) (b : Nat) : Bool :=
  s.takes b l.asid && !s.segFirst b l.asid && !s.outranked l b && !s.owesRestore b l.asid

/-- The root element comes into being on the cursor's first bead (R347). -/
def State.placeRoot (s : State) (l : Launch) : State :=
  match (s.cursorBeads l).find? (fun b => s.takes b l.asid) with
  | none => s
  | some b =>
    let (e, s1) := s.newElem l b { rate := 0 }
    (s1.updLaunch l.lid (fun x => { x with begun := some b })).enterPool l b { elem := e }

/-- The ended root element of a launch whose teams are still its children to be. -/
def State.rootParent (s : State) (l : Launch) : Option Parent :=
  s.parents.find? (fun p => p.launch == l.lid && p.elem.team == 0
    && (match l.teamRate with | some k => p.todo.contains k | none => false))

/-- Place a team (R47, R50): its window holds the launch's image. A team rate without code ends at once, and
its groups start together (R323). -/
def State.placeTeam (s : State) (l : Launch) (p : Parent) (k num b : Nat) : State :=
  let (tid, s1) := s.fresh
  let t : Team := { tid := tid, asid := l.asid, launch := l.lid, num := num, segid := 0, bead := b, spw := l.spw
                    spad := l.image, bars := [], startedAt := s.timer.toNat, retired := 0, stop := none, gang := false
                    restoring := false }
  let e0 := (p.base k)
  let (e, s2) := s1.newElem l b { e0 with
    index := num, team := tid, parent := p.pid, anchor := none, copyOf := e0.anchor.map (fun o => (p.bead, o)) }
  let s3 := { s2 with teams := s2.teams ++ [t] }
  let s4 := s3.updLaunch l.lid (fun x => if x.again.isEmpty then { x with nextTeam := x.nextTeam + 1 } else { x with again := x.again.tail })
  let (s5, e1) := s4.dealTo b e
  let w : Waiting := { launch := l.lid, asid := l.asid, bead := some b, elem := e1, regs := [], since := s.timer.toNat }
  let s6 : State := { s5 with pool := s5.pool ++ [w] }
  if (l.section? k).isSome then s6 else s6.runCodeless l b w

/-- The elements that are dealt together with the first: of a rate packed QUAD the four of its block, helpers included,
since they run as a quad (R21, R22). -/
def State.dealtWith (s : State) (l : Launch) (w : Waiting) : List Waiting :=
  if (l.lat w.elem.rate).pack = 4 then (s.pool.filter (fun x => x.launch == l.lid && x.bead.isNone)).take 4 else [w]

/-- Deal the next element of the placed rate (R22). -/
def State.dealElement (s : State) (l : Launch) (w : Waiting) (b : Nat) : State :=
  let (s1, e) := s.dealTo b w.elem
  let x : Waiting := { w with bead := some b, elem := e }
  let s2 : State := { s1 with pool := s1.pool.map (fun y => if y = w then x else y) }
  if (l.section? e.rate).isSome then s2 else s2.runCodeless l b x

/-- `DISPATCH_UNIT` (R347): the launch's root; else its next team; else its next dealt element. -/
def execDispatchUnit (launch : Nat) (s : State) : Host.Outcome State Fault Refusal :=
  .next (match s.findLaunch launch with
    | none => s
    | some l =>
      if (s.ctx l.asid).suspended then s
      else if l.begun.isNone then s.placeRoot l
      else
        let team : Option State :=
          match l.again.head? <|> (if l.nextTeam < l.teams then some l.nextTeam else none), s.rootParent l, l.teamRate with
          | some num, some p, some k =>
            match (s.cursorBeads l).find? (fun b => s.mayPlace l b && s.roomForGang l b l.spw (l.gang l.rootRoles)) with
              | some b => some (((s.countPassed b l.asid s.confirmed).placeTeam l p k num b).moveCursor launch b)
              | none => none
          | _, _, _ => none
        match team with
        | some t => t
        | none =>
          match s.pool.find? (fun w => w.launch == launch && w.bead.isNone) with
          | none => s
          | some w =>
            let room (b : Nat) : Bool := (l.section? w.elem.rate).isNone || (s.coreFor b l.hwLanes (l.need l.hwLanes [0])).isSome
            match (s.cursorBeads l).find? (fun b => s.mayPlace l b && room b) with
            | some b => ((s.dealtWith l w).foldl (fun t x => t.dealElement l x b) (s.countPassed b l.asid s.confirmed)).moveCursor
                launch b
            | none => s)

/-! ## The end of a launch (R104, R341) -/

/-- A part of the launch that must end before it completes: its root, teams, groups and elements, but not its
uncommitted segments. -/
def State.launchBusy (s : State) (l : Launch) : Bool :=
  let spec (segid : Nat) : Bool := segid != 0 && (match s.findSeg l.asid segid with | some x => x.st.speculative | none => false)
  let gs := s.allGroups.filter (fun g => g.gid != 0) ++ s.saved.flatMap (·.groups)
  l.begun.isNone || s.teamsLeft l || (s.teams ++ s.saved.flatMap (·.teams)).any (fun t => t.launch == l.lid && !spec t.segid)
    || gs.any (fun g => g.launch == l.lid && !spec g.segid)
    || s.parents.any (fun p => p.launch == l.lid && !spec p.elem.segid)
    || s.pool.any (fun w => w.launch == l.lid && !spec w.elem.segid)
    || s.segs.any (fun x => x.launch == l.lid && x.asid == l.asid && !x.st.speculative)
    || (l.migrated && !l.targetEnded)

/-- `LAUNCH_COMPLETION` (R104, R341): what is left of its segments is pruned, its unresolved conditions are
freed, and it completes; a graph node that started it goes on (R293). -/
def execLaunchCompletion (launch : Nat) (s : State) : Host.Outcome State Fault Refusal :=
  .next (match s.findLaunch launch with
    | none => s
    | some l =>
      if s.launchBusy l then s
      else
        let s1 := s.prune (s.segs.filter (fun x => x.launch == l.lid && x.asid == l.asid))
        let s2 : State := { s1 with
          conds := s1.conds.map (fun (k : Nat × Cond) =>
            if k.2.live && k.2.resolved.isNone && k.2.launch == l.lid then (k.1, { gen := nextGen k.2.gen }) else k)
          launches := s1.launches.filter (fun x => x.lid != launch)
          engOps := s1.engOps.map (fun o => match o.kind with
            | .launchNode r none => if o.asid = l.asid ∧ o.block.isSome ∧ o.block = l.node then { o with kind := .launchNode r (some true) } else o
            | _ => o) }
        match l.node with | none => s2.complete l.queue l.cmd 0 0 0 | some _ => s2)

/-- `TARGET_REPORT` (R356). -/
def execTargetReport (launch : Nat) (s : State) : Host.Outcome State Fault Refusal :=
  .next (match s.findLaunch launch with
    | none => s
    | some l => if l.migrated && !l.targetEnded then s.updLaunch launch (fun x => { x with targetEnded := true }) else s)

end Sys2Proof.Machine
end

