-- ==== Sys2Proof/Machine/Commands.lean ====
section
/-! DEFINITION. What the commands of a queue do (R338, R339, R341, R356, R365 to R367, R398, R399). -/

namespace Sys2Proof.Machine

/-- Any argument is acceptable. -/
def anyArg (_ : BitVec 512) : Bool := true

/-- `LAUNCH` (R339): the record is checked, and the launch is taken or rejected. -/
def execLaunchCmd (q : Nat) (s : State) : Host.Outcome State Fault Refusal :=
  .next (s.takeCommand q 1 anyArg (fun c t =>
    match t.readLaunch (t.qAsid q) q (cmdArg c 0) c with
    | .error code => t.complete q c 1 code 0
    | .ok l => t.takeLaunch l))

/-- `COPY` (R399): it runs on the COPY path as an engine operation that belongs to no group. -/
def execCopyCmd (q : Nat) (s : State) : Host.Outcome State Fault Refusal :=
  .next (s.takeCommand q 2 anyArg (fun c t =>
    let (oid, t1) := t.fresh
    let b := t.homeBead (t.qAsid q)
    let op : EngOp := { oid := oid, asid := t.qAsid q, launch := 0, gid := none, lg := 0, entry := 0, token := 0, team := 0,
                        segid := 0, bead := b, core := 4 * b, done := 0, paused := false, queue := q
                        kind := .copyCmd (BitVec.ofNat 64 (cmdArg c 0)) (BitVec.ofNat 64 (cmdArg c 1)) (BitVec.ofNat 64 (cmdArg c 2)) }
    { t1.updQueue q (fun x => { x with busy := some c }) with engOps := t1.engOps ++ [op] }))

/-- Write bytes of a context for a command; none where translation faults. -/
def State.agentWrite (s : State) (asid va : Nat) (bs : List Byte) : Option State :=
  match s.engineWrite (s.homeBead asid) asid 0 va bs with
  | (.ok _, t) => some t
  | _ => none

/-- The address of a command can be reached. -/
def State.reaches (s : State) (q : Nat) (c : BitVec 512) (acc : Acc) : Bool :=
  match s.translateRange none (s.homeBead (s.qAsid q)) (s.qAsid q) acc (cmdArg c 0) 8 with
  | (.ok _, _) => true
  | _ => false

/-- `SIGNAL` (R399): a release at system scope, then the store. It waits while its address does not
translate (log 17). -/
def execSignalCmd (q : Nat) (s : State) : Host.Outcome State Fault Refusal :=
  .next (s.takeCommand q 3 (fun c => (s.ctx? (s.qAsid q)).isNone || s.reaches q c .write) (fun c t =>
    match t.agentWrite (t.qAsid q) (cmdArg c 0) (leBytes (cmdArg c 1) 8) with
    | some t1 => t1.complete q c 0 0 0
    | none => t))

/-- The word that a wait-on-value watches, read at its home slice. -/
def State.watched (s : State) (q : Nat) (c : BitVec 512) : Option Nat := (s.agentRead (s.qAsid q) (cmdArg c 0) 8).map ofLe

/-- Its comparison. -/
def waitHolds (c : BitVec 512) (v : Nat) : Bool :=
  match cmdArg c 2 % 4 with
  | 0 => v == cmdArg c 1
  | 1 => v != cmdArg c 1
  | _ => decide (cmdArg c 1 ≤ v)

/-- A command in progress is done: the queue goes on. -/
def State.endCommand (s : State) (q : Nat) : State := s.updQueue q (fun x => { x with busy := none, waitUntil := none })

/-- The wait-on-value command in progress on a queue. -/
def State.waiting? (s : State) (q : Nat) : Option (BitVec 512) := (s.queue q).busy.filter (fun c => cmdOp c == 4)

/-- `WAIT_ON_VALUE` (R399): the command is taken; in progress, it completes when the comparison holds. -/
def execWaitOnValue (q : Nat) (s : State) : Host.Outcome State Fault Refusal :=
  .next (match s.waiting? q with
    | some c => match s.watched q c with
      | some v => if waitHolds c v then (s.endCommand q).complete q c 0 0 0 else s
      | none => s
    | none => s.takeCommand q 4 anyArg (fun c t =>
        let us := nbits (cmdArg c 2) 32 32
        t.updQueue q (fun x => { x with
          busy := some c, waitUntil := if us = 0 then none else some (t.timer.toNat + Config.cyclesPerUs * us) })))

/-- `WAIT_ON_VALUE_TIMEOUT` (R399, R400): it completes in error with the last value read. -/
def execWaitOnValueTimeout (q : Nat) (s : State) : Host.Outcome State Fault Refusal :=
  .next (match s.waiting? q, (s.queue q).waitUntil with
    | some c, some t =>
      if s.reached t then (s.endCommand q).complete q c 4 0 ((s.watched q c).getD 0) else s
    | _, _ => s)

/-! ## Context control (R365 to R367, R399) -/

/-- The descriptor of an address-space identifier as one number; none where DESC is not valid or lies in a
reserved range. -/
def State.descriptor (s : State) (asid : Nat) : Option Nat :=
  if s.ctxValid asid && s.backed (s.ctxDesc asid) then some (s.natAtPa (s.ctxDesc asid) 128) else none

/-- The context that a descriptor describes (R366). -/
def ctxOfBits (x : Nat) : Ctx :=
  let c : Ctx := {
    asid := nbits x 0 8, part := nbits x 8 4, sort := nbits x 12 1 == 1, spq := nbits x 16 3, acap := nbits x 24 8
    lcap := nbits x 32 12, gcap := nbits x 44 12, lpg := nbits x 56 3, qcap := nbits x 64 32, s1root := nbits x 128 64
    savebase := nbits x 192 64, spillbase := nbits x 256 64, spillsize := nbits x 320 32, ovlcount := nbits x 352 32
    ovlbase := nbits x 384 64, sortbase := nbits x 448 64, sortsize := nbits x 512 32, peerptr := nbits x 576 64 }
  { c with size := c.saveSize }

/-- The lowest failing check of a create (R367). -/
def State.createCode (s : State) (asid x : Nat) : Option Nat :=
  let c := ctxOfBits x
  let p := c.part
  let n := (s.partBeads p).length
  let checks : List (Nat × Bool) := [
    (2, nbits x 13 3 != 0 || nbits x 19 5 != 0 || nbits x 59 5 != 0 || nbits x 544 32 != 0 || nbits x 640 384 != 0
        || c.asid != asid || p != s.ctxPart asid),
    (3, !budgetOk c.lcap 2048 || !budgetOk c.gcap 2048 || (c.lpg != 1 && c.lpg != 2 && c.lpg != 4) || decide (128 < c.acap)
        || c.qcap % 16 != 0 || decide (2 ^ 20 < c.qcap) || c.spillsize % 65536 != 0 || decide (2 ^ 28 < c.spillsize)
        || c.savebase % 256 != 0 || c.spillbase % 65536 != 0 || c.ovlbase % 16 != 0 || c.sortbase % 256 != 0),
    (4, decide (nbits (s.pcsr p 0x903) 0 3 < c.spq) || decide (nbits (s.pcsr p 0x904) 0 21 < c.qcap)
        || decide (nbits (s.pcsr p 0x905) 0 29 < c.spillsize) || decide (nbits (s.pcsr p 0x906) 0 8 < c.acap)),
    (5, c.sort && !s.partSort p),
    (6, decide (c.savebase < s.pcsr p 0x90f) || decide (s.pcsr p 0x90f + s.pcsr p 0x910 < c.savebase + n * c.size))]
  (checks.find? (·.2)).map (·.1)

/-- `CONTEXT_CREATE` (R367): S is written into the descriptor and the context becomes live. -/
def execContextCreate (q : Nat) (s : State) : Host.Outcome State Fault Refusal :=
  .next (s.takeCommand q 5 (fun c => cmdArg c 0 == 0) (fun c t =>
    let asid := t.qAsid q
    -- a failed create leaves the context not live: one that was is killed
    let fail (code : Nat) : State := (if (t.ctx? asid).isSome then t.killContext asid 0 0 else t).complete q c 2 code 0
    match t.descriptor asid with
    | none => fail 1
    | some x => match t.createCode asid x with
      | some code => fail code
      | none =>
        let k := ctxOfBits x
        let old := t.ctx? asid
        let k' : Ctx := match old with
          | some o => { k with nextSeg := o.nextSeg, suspended := o.suspended, saves := o.saves }
          | none => k
        let t1 := t.homeRun (t.ctxDesc asid + 12) (leBytes k.size 4)
        ({ t1 with ctxs := SMap.put t1.ctxs asid k' }).complete q c 0 0 0))

/-- A suspend in progress on a queue. -/
def State.suspending? (s : State) (q : Nat) : Option (BitVec 512) :=
  (s.queue q).busy.filter (fun c => cmdOp c == 5 && cmdArg c 0 == 1)

/-- Beads of a context. -/
def State.beadsOf (s : State) (asid : Nat) : List Nat := (List.range 128).filter (fun b => (s.bead b).occ == some asid)

/-- `CONTEXT_SUSPEND` (R344, R399): every bead of the context is pre-empted; in progress, it completes when all
are handed over. -/
def execContextSuspend (q : Nat) (s : State) : Host.Outcome State Fault Refusal :=
  .next (match s.suspending? q with
    | some c => if (s.beadsOf (s.qAsid q)).isEmpty then (s.endCommand q).complete q c 0 0 0 else s
    | none => s.takeCommand q 5 (fun c => cmdArg c 0 == 1) (fun c t =>
        let asid := t.qAsid q
        let t1 := (t.updCtx asid (fun x => { x with suspended := true })).updQueue q (fun x => { x with busy := some c })
        (t1.beadsOf asid).foldl (fun u b => u.stopBead b none) t1))

/-- `CONTEXT_RESUME` (R399): its queues are eligible again. -/
def execContextResume (q : Nat) (s : State) : Host.Outcome State Fault Refusal :=
  .next (s.takeCommand q 5 (fun c => cmdArg c 0 == 2) (fun c t =>
    (t.updCtx (t.qAsid q) (fun x => { x with suspended := false })).complete q c 0 0 0))

/-- `CONTEXT_DESTROY` (R399): the context is killed as under R373, then the command completes. -/
def execContextDestroy (q : Nat) (s : State) : Host.Outcome State Fault Refusal :=
  .next (s.takeCommand q 5 (fun c => cmdArg c 0 == 3) (fun c t => (t.killContext (t.qAsid q) 0 0).complete q c 0 0 0))

/-- A launch that may be migrated, with teams not placed: of a compute lattice, its image declaring a width or the launch
carrying a Griat image; how a launch carries one is open (log 23). -/
def Launch.migratable (l : Launch) : Bool :=
  l.teamRate.isSome && (l.wcode != 0 || Config.carriesGriat (cmdArg l.cmd 0)) && l.unplaced && !l.migrated

/-- The unplaced teams of a launch go to a target device (R356). Teams that were flushed have been placed: they run to their
end on the source (DEDUCED, log 44). -/
def State.migrate (s : State) (c : BitVec 512) (l : Launch) : State :=
  (s.updLaunch l.lid (fun x => { x with nextTeam := x.teams, migrated := true })).emit
    (.migrate (BitVec.ofNat 128 (cmdArg c 1 * 2 ^ 64 + cmdArg c 2)) (cmdArg c 3 % 256) l.teams l.nextTeam
      (BitVec.ofNat 64 (cmdArg l.cmd 0)))

/-- `CONTEXT_MIGRATE` (R356): no further team of the queue's launches is placed here; a launch that may not be
migrated completes on the source. -/
def execContextMigrate (q : Nat) (s : State) : Host.Outcome State Fault Refusal :=
  .next (s.takeCommand q 5 (fun c => cmdArg c 0 == 4) (fun c t =>
    ((((t.running q).filter Launch.migratable)).foldl (fun u l => u.migrate c l) t).complete q c 0 0 0))

end Sys2Proof.Machine
end

