-- ==== Sys2Proof/Machine/Engines.lean ====
section
/-! DEFINITION. What the engines do: copies, chains, tiles, matrix passes, network operations, and how an
operation ends (R277 to R280, R282, R284, R289 to R295). -/

namespace Sys2Proof.Machine

/-! ## One access of an engine -/

/-- How one access, element, row or pass ends. -/
inductive StepRes where
  | ok (s : State)
  | fault (f : TFault)
  | poison (va : Nat)
  /-- A limit of R100 holds the operation until commit. -/
  | held
  deriving DecidableEq, Repr

/-- The limits of R100 after an access of a speculative operation. -/
def State.engLimited (s t : State) (o : EngOp) : StepRes :=
  if (s.chain o.asid 16 o.segid).isEmpty then .ok t
  else match t.findSeg o.asid o.segid with
    | some x =>
      let linesOf (u : State) : List Nat := match u.findSeg o.asid o.segid with
        | some y => distinct (y.bytes.map (fun b => b.1 / 256))
        | none => []
      if 8192 < x.reads.length ∨ 4096 < (distinct (x.bytes.map (fun b => sectorOf b.1))).length
          ∨ t.noLine x.asid x.segid (linesOf s) (linesOf t) = true then .held else .ok t
    | none => .ok t

/-- The window bytes of an operation's team. -/
def State.winBytes (s : State) (team off n : Nat) : List Byte :=
  match s.findTeam team with
  | some t => SMap.getMany 0 t.spad off n
  | none => List.replicate n 0
def State.setWinBytes (s : State) (team off : Nat) (bs : List Byte) : State :=
  s.updTeam team (fun t => t.writeWindow (bs.zipIdx.map (fun x => (off + x.2, x.1))))

/-- The poison that an engine's read of the window meets (R137, R384). -/
def State.winPoison (s : State) (team off n : Nat) : Option Nat :=
  ((s.findTeam team).bind (fun t => t.bad.find? (fun x => decide (off < 64 * x.1 + 64) && decide (64 * x.1 < off + n)))).map
    (fun x => x.2.toNat)

/-- Read bytes and go on with them. -/
def State.opRead (s : State) (o : EngOp) (win : Bool) (a n : Nat) (k : State → List Byte → StepRes) : StepRes :=
  if win then
    match s.winPoison o.team a n with
    | some x => .poison x
    | none => k s (s.winBytes o.team a n)
  else match s.engineRead o.bead o.asid o.segid a n with
    | (.ok bs, t) => k t bs
    | (.fault f, _) => .fault f
    | (.poison x, _) => .poison x

/-- Write bytes. -/
def State.opWrite (s : State) (o : EngOp) (win : Bool) (a : Nat) (bs : List Byte) : StepRes :=
  if win then .ok (s.setWinBytes o.team a bs)
  else match s.engineWrite o.bead o.asid o.segid a bs with
    | (.ok _, t) => .ok t
    | (.fault f, _) => .fault f
    | (.poison x, _) => .poison x

/-! ## Copies and chains -/

/-- One element of a copy (R282). -/
def State.copyStep (s : State) (o : EngOp) (c : CopyDesc) (a b : Nat) (k : Nat) : StepRes :=
  s.opRead o c.srcsp (c.addr true a k) (2 ^ c.esz) (fun t bs => t.opWrite o c.dstsp (c.addr false b k) bs)

/-- FP32 value of a source element of a chain (R283). -/
def chainIn (code x : Nat) : Nat :=
  if code ≤ 4 then (fp32.convert (fmtOf code) .rne false 0 x).1
  else (fp32.ofInt .rne (if fmtSigned code then (BitVec.ofNat (fmtBits code) x).toInt else (x : Int))).1

/-- A value in the format of a slot, as `cvt` makes it (R284). -/
def chainOut (slot : Word) (x : Nat) : Nat :=
  let c := slotFmt slot
  if c ≤ 4 then ((fmtOf c).convert fp32 (Rm.ofCode (slotRnd slot)) (slotSat slot) 0 x).1
  else (fp32.toInt (Rm.ofCode (slotRnd slot)) (fmtSigned c) (fmtBits c) x).1

/-- `gelu` and `sigm` (R284), each step rounded, products from the left. -/
def geluF (x : Nat) : Nat :=
  let x3 := nMul (nMul x x) x
  nMul (nMul 0x3f000000 x) (nAdd fOne (tanhF (nMul 0x3f4c422a (nAdd x (nMul 0x3d372713 x3)))))
def sigmF (x : Nat) : Nat := nDiv fOne (nAdd fOne (exp2F (nMul 0xbfb8aa3b x)).1)

/-- One code of a chain other than `cvt` (R284). -/
def chainCode (code x : Nat) (c : Nat → Nat) : Nat :=
  match code with
  | 1 => nAdd x (c 0)
  | 2 => nMul x (c 0)
  | 3 => nFma x (c 0) (c 1)
  | 4 => nMax x (c 0)
  | 5 => nMin x (c 0)
  | 6 => (exp2F x).1
  | 7 => (log2F x).1
  | 8 => nDiv fOne x
  | 9 => (fp32.rsq .rne x).1
  | 10 => tanhF x
  | 11 => geluF x
  | 12 => sigmF x
  | 13 => nMul x x
  | _ => fp32.modify 1 0 x

/-- The state of a chain at an element: the FP32 value, the slot of the last `cvt`, and its pattern where
that was the last code. -/
structure ChainAt where
  x : Nat
  slot : Option Word
  bits : Option Nat
  deriving DecidableEq, Repr

/-- The codes of a chain in turn (R283, R284). -/
def chainRunAt (slots : List Word) : List Nat → List Word → ChainAt → ChainAt
  | [], _, st => st
  | code :: codes, cs, st =>
    let c (i : Nat) : Nat := (cs.getD i 0).toNat
    let st' : ChainAt := if code = 15 then
        let slot := slots.getD (c 0 % 8) 0
        let b := chainOut slot st.x
        { x := chainIn (slotFmt slot) b, slot := some slot, bits := some b }
      else { st with x := chainCode code st.x c, bits := none }
    chainRunAt slots codes (cs.drop (chainConsts code)) st'

/-- The pattern that a chain stores, and its bits. -/
def ChainAt.out (st : ChainAt) : Nat × Nat :=
  match st.slot, st.bits with
  | some slot, some b => (b, fmtBits (slotFmt slot))
  | some slot, none => (chainOut slot st.x, fmtBits (slotFmt slot))
  | none, _ => (st.x, 32)

/-- Bits of a destination element of a chain. -/
def chainDstBits (slots : List Word) (codes : List Nat) (cs : List Word) : Nat :=
  (chainRunAt slots codes cs { x := 0, slot := none, bits := none }).out.2

/-- One element of a chain (R283): a 4-bit element shares its byte (R107). -/
def State.chainStep (s : State) (o : EngOp) (slots : List Word) (src dst slot : Nat) (ops : Nat) (ps : List Word)
    (k : Nat) : StepRes :=
  let code := slotFmt (slots.getD slot 0)
  let n := fmtBits code / 8
  s.opRead o false ((src + n * k) % 2 ^ 64) n (fun t bs =>
    let (v, w) := (chainRunAt slots (chainCodes ops 8) (ps.drop 1)
      { x := chainIn code (ofLe bs), slot := none, bits := none }).out
    if w = 4 then
      let a := (dst + k / 2) % 2 ^ 64
      t.opRead o false a 1 (fun t1 old =>
        let b := ofLe old
        t1.opWrite o false a [BitVec.ofNat 8 (if k % 2 = 0 then b / 16 * 16 + v % 16 else b % 16 + 16 * (v % 16))])
    else t.opWrite o false ((dst + w / 8 * k) % 2 ^ 64) (leBytes v (w / 8)))

/-! ## Tiles (R131, R286, R289) -/

/-- The handle that an operation works on. -/
def State.opHandle (s : State) (o : EngOp) (tile : Nat) : Handle :=
  ((o.gid.bind s.findGroup).bind (fun g => SMap.find (g.lg o.lg).handles tile)).getD { kind := .f32, slots := [] }

/-- Element (i, j) of a tile. -/
def Bead.tile (b : Bead) (h : Handle) (i j : Nat) : Nat :=
  match h.kind with
  | .f64 =>
    let w := 4096 * h.slots.getD (i / 32) 0 + 128 * (i % 32) + 2 * j
    (SMap.get 0 b.acc w).toNat + 2 ^ 32 * (SMap.get 0 b.acc (w + 1)).toNat
  | _ => (SMap.get 0 b.acc (4096 * h.slots.getD 0 0 + 64 * i + j)).toNat

/-- Replace the words of a slot. -/
def setSlot (acc : SMap Word) (slot : Nat) (f : Nat → Word) : SMap Word :=
  acc.filter (fun x => decide (x.1 < 4096 * slot))
    ++ ((List.range 4096).map (fun w => (4096 * slot + w, f w))).filter (fun (x : Nat × Word) => x.2 != 0)
    ++ acc.filter (fun x => decide (4096 * (slot + 1) ≤ x.1))

/-- Replace every element of a tile. -/
def Bead.setTile (b : Bead) (h : Handle) (f : Nat → Nat → Nat) : Bead :=
  let put (acc : SMap Word) (x : Nat × Nat) : SMap Word :=
    setSlot acc x.1 (fun w => match h.kind with
      | .f64 => BitVec.ofNat 32 (f (32 * x.2 + w / 128) (w % 128 / 2) / 2 ^ (32 * (w % 2)))
      | _ => BitVec.ofNat 32 (f (w / 64) (w % 64)))
  { b with acc := h.slots.zipIdx.foldl put b.acc, accPoison := b.accPoison.filter (fun x => !h.slots.contains x) }

/-- A tile element from memory (R289). -/
def tileIn (code x : Nat) : Nat :=
  if code ≤ 4 then (fp32.convert (fmtOf code) .rne false 0 x).1
  else if code = 7 then x
  else (BitVec.ofInt 32 (BitVec.ofNat (fmtBits code) x).toInt).toNat

/-- A tile element to memory (R289). -/
def tileOut (slot : Word) (kind : HKind) (x : Nat) : Nat :=
  let c := slotFmt slot
  let rm := Rm.ofCode (slotRnd slot)
  match kind with
  | .f64 => if c = 0 then (fp32.convert fp64 rm (slotSat slot) 0 x).1 else x
  | .f32 => ((fmtOf c).convert fp32 rm (slotSat slot) 0 x).1
  | .i32 => if c = 14 then x else (narrowInt true 8 (slotSat slot) (BitVec.ofNat 32 x).toInt).1

/-- Replace one element of a tile. -/
def Bead.setElem (b : Bead) (h : Handle) (i j : Nat) (x : Nat) : Bead :=
  match h.kind with
  | .f64 =>
    let w := 4096 * h.slots.getD (i / 32) 0 + 128 * (i % 32) + 2 * j
    { b with acc := SMap.set 0 (SMap.set 0 b.acc w (BitVec.ofNat 32 x)) (w + 1) (BitVec.ofNat 32 (x / 2 ^ 32)) }
  | _ => { b with acc := SMap.set 0 b.acc (4096 * h.slots.getD 0 0 + 64 * i + j) (BitVec.ofNat 32 x) }

/-- Element `k` of `accld` or `accst`, row by row in ascending order (R289): the operation pauses between elements (R280). -/
def State.loadElem (s : State) (o : EngOp) (tile : Nat) (a stride : Nat) (slot : Word) (k : Nat) : StepRes :=
  let c := slotFmt slot
  let n := fmtBits c / 8
  s.opRead o false ((a + k / 64 * stride + k % 64 * n) % 2 ^ 64) n (fun t bs =>
    .ok (t.updBead o.bead (fun b => b.setElem (t.opHandle o tile) (k / 64) (k % 64) (tileIn c (ofLe bs)))))

def State.storeElem (s : State) (o : EngOp) (tile : Nat) (a stride : Nat) (slot : Word) (k : Nat) : StepRes :=
  let n := fmtBits (slotFmt slot) / 8
  let h := s.opHandle o tile
  let b := s.bead o.bead
  let at_ := (a + k / 64 * stride + k % 64 * n) % 2 ^ 64
  if h.slots.any b.accPoison.contains then .poison at_
  else s.opWrite o false at_ (leBytes (tileOut slot h.kind (b.tile h (k / 64) (k % 64))) n)

/-! ## Matrix passes (R290, R291, R124, R125) -/

/-- k per pass, and elements of a group of R124. -/
def passDepth (code : Nat) : Nat :=
  match code with
  | 0 => 4
  | 1 => 32
  | 2 => 32
  | 6 => 256
  | 7 => 1
  | _ => 128
def sumGroup (code : Nat) : Nat := if code = 5 ∨ code = 6 then 32 else 16

/-- The value of element k of a line in the window (R290, R110, R111). -/
def State.lineElem (s : State) (team code line k : Nat) : Val :=
  let nat (a n : Nat) : Nat := ofLe (s.winBytes team a n)
  match code with
  | 5 =>
    let p := line + k / 32 * 34
    blockValue false (nat p 1) (nat (p + 1) 1) (nat (p + 2 + k % 32) 1)
  | 6 =>
    let p := line + k / 32 * 18
    blockValue true (nat p 1) (nat (p + 1) 1) (nbits (nat (p + 2 + k % 32 / 2) 1) (4 * (k % 2)) 4)
  | 8 =>
    let x := (BitVec.ofNat 8 (nat (line + k) 1)).toInt
    .fin (decide (x < 0)) x.natAbs 0
  | c => (fmtOf c).value (nat (line + k * (fmtBits c / 8)) (fmtBits c / 8))

/-- An integer value. -/
def Val.int : Val → Int
  | .fin n m _ => if n then -(m : Int) else m
  | _ => 0

/-- One product into an INT32 accumulator (R125). -/
def addI32 (sat : Bool) (acc : Nat) (p : Int) : Nat :=
  let v := (BitVec.ofNat 32 acc).toInt + p
  intBits 32 (if sat then clampInt true 32 v else v)

/-- The columns of A and rows of B at k. -/
def State.operandsAt (s : State) (team code a b as_ bs k : Nat) : List Val × List Val :=
  ((List.range 64).map (fun i => s.lineElem team code (a + 16 * as_ * i) k),
   (List.range 64).map (fun j => s.lineElem team code (b + 16 * bs * j) k))

/-- Add a group of products to a floating tile (R124). -/
def Bead.addGroup (b : Bead) (h : Handle) (ks : List (List Val × List Val)) : Bead :=
  let t := if h.kind = .f64 then fp64 else fp32
  b.setTile h (fun i j =>
    (dotV t .rne (ks.map (fun x => x.1.getD i (.fin false 0 0))) (ks.map (fun x => x.2.getD j (.fin false 0 0)))
      (t.value (b.tile h i j))).1)

/-- Add one k to an integer tile. -/
def Bead.addOne (b : Bead) (h : Handle) (sat : Bool) (x : List Val × List Val) : Bead :=
  b.setTile h (fun i j => addI32 sat (b.tile h i j) ((x.1.getD i (.fin false 0 0)).int * (x.2.getD j (.fin false 0 0)).int))

/-- The k of a pass in turn: the tile, and the values held of a group of R124 that is not complete. -/
def passKs (h : Handle) (code kmax : Nat) (sat : Bool) (operands : Nat → List Val × List Val) :
    List Nat → Bead × List (List Val × List Val) → Bead × List (List Val × List Val)
  | [], x => x
  | k :: ks, (b, held) =>
    let v := operands k
    if code = 8 then passKs h code kmax sat operands ks (b.addOne h sat v, [])
    else
      let held' := held ++ [v]
      if (k + 1) % sumGroup code = 0 ∨ k + 1 = kmax then passKs h code kmax sat operands ks (b.addGroup h held', [])
      else passKs h code kmax sat operands ks (b, held')

/-- A pass reads poison in the window (R137, R384). -/
def State.passPoison (s : State) (o : EngOp) (a b k as_ bs code : Nat) : Bool :=
  let lo := o.done * passDepth code
  let x := lineBytes code lo
  let n := lineBytes code (min (lo + passDepth code) k) - x
  (List.range 64).any (fun i => (s.winPoison o.team (a + 16 * as_ * i + x) n).isSome
    || (s.winPoison o.team (b + 16 * bs * i + x) n).isSome)

/-- One pass of a request (R290). -/
def State.matrixPass (s : State) (o : EngOp) (tile a b k as_ bs : Nat) (slot : Word) (sat set : Bool) : State :=
  let code := slotFmt slot
  let h := s.opHandle o tile
  let d := passDepth code
  let lo := o.done * d
  let b0 := if o.done = 0 ∧ set then (s.bead o.bead).setTile h (fun _ _ => 0) else s.bead o.bead
  let (b1, held) := passKs h code k sat (s.operandsAt o.team code a b as_ bs) (List.range' lo (min d (k - lo))) (b0, o.held)
  let s1 := s.updBead o.bead (fun _ => b1)
  s1.updOp o.oid (fun x => { x with done := o.done + 1, held := held })

/-! ## Order among operations (R277, R295) -/

/-- The handle that an operation names. -/
def OpKind.tile? : OpKind → Option Nat
  | .mma t _ _ _ _ _ _ _ _ => some t
  | .accld t _ _ _ => some t
  | .accst t _ _ _ => some t
  | .accz t => some t
  | .accrel t => some t
  | _ => none

/-- The peer of an operation. -/
def OpKind.dst? : OpKind → Option (BitVec 128)
  | .nput _ _ _ d => some d.addr
  | .nget _ _ _ d => some d.addr
  | .nsig _ _ d => some d.addr
  | _ => none

/-- Ranges of bytes that an operation reads or writes: in the window or memory, first byte, length. -/
def State.ranges (s : State) (o : EngOp) : List (Bool × Nat × Nat) :=
  match o.kind with
  | .tcopy a b bs => match copyDesc bs with
    | none => []
    | some c => (List.range c.count).flatMap (fun k =>
        [(c.srcsp, c.addr true a.toNat k, 2 ^ c.esz), (c.dstsp, c.addr false b.toNat k, 2 ^ c.esz)])
  | .chain a b slot ops ps =>
    let slots := match s.findLaunch o.launch with | some l => l.slots | none => []
    let n := (ps.headD 0).toNat
    [(false, a.toNat, n * fmtBits (slotFmt (slots.getD slot 0)) / 8),
     (false, b.toNat, (n * chainDstBits slots (chainCodes ops.toNat 8) (ps.drop 1) + 7) / 8)]
  | .accld _ a st slot => (List.range 64).map (fun i =>
      (false, (a.toNat + i * st.toNat) % 2 ^ 64, 8 * fmtBits (slotFmt (s.slotOf o.launch slot))))
  | .accst _ a st slot => (List.range 64).map (fun i =>
      (false, (a.toNat + i * st.toNat) % 2 ^ 64, 8 * fmtBits (slotFmt (s.slotOf o.launch slot))))
  | .nput l _ n _ => [(false, l.toNat, n)]
  | .nget l _ n _ => [(false, l.toNat, n)]
  | _ => []

/-- Two lists of ranges have a byte in common. -/
def overlap (xs ys : List (Bool × Nat × Nat)) : Bool :=
  xs.any (fun x => ys.any (fun y => x.1 == y.1 && decide (x.2.1 < y.2.1 + y.2.2) && decide (y.2.1 < x.2.1 + x.2.2)))

/-- An earlier operation of the group that must be complete before this one begins. -/
def State.precedes (s : State) (p o : EngOp) : Bool :=
  p.gid.isSome && p.gid == o.gid && p.lg == o.lg
  && ((p.kind.tile?.isSome && p.kind.tile? == o.kind.tile?) || (p.kind.dst?.isSome && p.kind.dst? == o.kind.dst?)
      || (p.kind.path == o.kind.path && overlap (s.ranges p) (s.ranges o)))

/-- The walker starts no node of a context at a pre-emption (R298): its bead is being stopped or has been saved, or the
context is suspended. -/
def State.walkerPauses (s : State) (o : EngOp) : Bool :=
  o.block.isSome && ((s.ctx o.asid).suspended || ((s.bead o.bead).occ == some o.asid && (s.bead o.bead).stop.isSome)
    || s.saved.any (fun x => x.asid == o.asid && x.bead == o.bead))

/-- The operation waits for the commit of its segment (R100). -/
def State.commitWaits (s : State) (o : EngOp) : Bool := o.waitsCommit && !(s.chain o.asid 16 o.segid).isEmpty

/-- The operation may run: its group is resident, it is not paused, and nothing precedes it. -/
def State.mayRun (s : State) (o : EngOp) : Bool :=
  !o.paused && !s.commitWaits o && !s.walkerPauses o
  && (match o.gid with | some g => (s.findGroup g).isSome | none => true)
  && !((s.engOps.takeWhile (fun p => p.oid != o.oid)).any (fun p => s.precedes p o))

/-! ## Running an operation -/

/-- How a run of an operation ends. -/
inductive OpEnd where
  | done
  | error (kind : Nat) (addr : Nat)
  | pause (f : TFault)
  /-- It goes on later. -/
  | later
  /-- It pauses until its segment commits (R100). -/
  | commit
  deriving DecidableEq, Repr

/-- The accesses from `k` on, `n` of them: the count done and how it ends. -/
def State.runSteps (o : EngOp) (step : State → Nat → StepRes) : State → Nat → Nat → State × Nat × OpEnd
  | s, k, 0 => (s, k, .done)
  | s, k, n + 1 =>
    match step s k with
    | .fault f => (s, k, .pause f)
    | .poison a => (s, k, .error 0 a)
    | .held => (s, k, .commit)
    | .ok t => match s.engLimited t o with
      | .ok t => State.runSteps o step t (k + 1) n
      | _ => (s, k, .commit)

/-- Run what remains of an operation; `reply` is what the peer answers to a network operation (R294). -/
def State.runOp (s : State) (o : EngOp) (reply : PeerReply) : State × Nat × OpEnd :=
  let slots := if o.slots.isEmpty then (match s.findLaunch o.launch with | some l => l.slots | none => []) else o.slots
  match o.kind with
  | .tcopy a b bs => match copyDesc bs with
    | none => (s, 0, .done)
    | some c => State.runSteps o (fun t k => t.copyStep o c a.toNat b.toNat k) s o.done (c.count - o.done)
  | .chain a b slot ops ps =>
    State.runSteps o (fun t k => t.chainStep o slots a.toNat b.toNat slot ops.toNat ps k) s o.done
      ((ps.headD 0).toNat - o.done)
  | .copyCmd a b n =>
    State.runSteps o (fun t k => t.opRead o false ((a.toNat + k) % 2 ^ 64) 1 (fun t1 bs =>
      t1.opWrite o false ((b.toNat + k) % 2 ^ 64) bs)) s o.done (n.toNat - o.done)
  | .mma _ _ _ k _ _ slot _ _ => (s, o.done, if o.done < matrixPasses (slots.getD slot 0) k then .later else .done)
  | .accld tile a st slot =>
    let s1 := if o.done = 0 then s.updBead o.bead (fun b => { b with
        accPoison := b.accPoison.filter (fun x => !(s.opHandle o tile).slots.contains x) }) else s
    State.runSteps o (fun t i => t.loadElem o tile a.toNat st.toNat (slots.getD slot 0) i) s1 o.done (4096 - o.done)
  | .accst tile a st slot =>
    State.runSteps o (fun t i => t.storeElem o tile a.toNat st.toNat (slots.getD slot 0) i) s o.done (4096 - o.done)
  | .accz tile => (s.updBead o.bead (fun b => b.setTile (s.opHandle o tile) (fun _ _ => 0)), 1, .done)
  | .accrel tile =>
    let s1 := match o.gid with
      | some gid => s.updGroup gid (fun g => g.updLg o.lg (fun x => { x with handles := SMap.del x.handles tile }))
      | none => s
    (s1.slotsFreed o.bead, 1, .done)
  | .nput l r n dst =>
    match s.engineRead o.bead o.asid o.segid l.toNat n with
    | (.fault f, t) => (t, 0, .pause f)
    | (.poison a, t) => (t, 0, .error 0 a)
    | (.ok bs, t) => (t.emit (.netPut dst r bs), 1, if reply.ok then .done else .error 2 r.toNat)
  | .nget l r n dst =>
    if o.done = 0 ∧ !reply.ok then (s.emit (.netGet dst r n), 1, .error 2 r.toNat)
    else
      match s.engineWrite o.bead o.asid o.segid l.toNat ((List.range n).map (fun i => reply.data.getD i 0)) with
      | (.fault f, t) => (t, 0, .pause f)
      | (.poison a, t) => (t, 0, .error 0 a)
      | (.ok _, t) => (t.emit (.netGet dst r n), 1, .done)
  | .nsig r v dst => (s.emit (.netSig dst r v), 1, if reply.ok then .done else .error 2 r.toNat)
  | .launchNode _ ended => (s, 0, match ended with | none => .later | some true => .done | some false => .error 3 0)
  | .join => (s, 0, .done)
  -- the walker's own accesses: `State.walkerGoes`
  | .tpost _ => (s, o.done, .later)
  | .starting _ => (s, o.done, .later)
  | .finishing _ => (s, o.done, .later)

/-- The fault record of an engine operation (R280, R369). -/
def State.engRecord (s : State) (o : EngOp) (f : TFault) : FRec :=
  { f.rec_ (if o.kind.path = 5 then 6 else o.kind.path) with
    cause := 0x17
    asid := o.asid
    part := (s.ctx o.asid).part
    bead := o.bead
    core := o.core % 4
    slot := match o.gid.bind s.findGroup with | some g => g.slot | none => 0
    eng := true
    token := o.token
    segid := o.segid }

/-- The operation pauses at a translation fault (R280). -/
def State.pauseOp (s : State) (o : EngOp) (k : Nat) (f : TFault) : State :=
  (s.updOp o.oid (fun x => { x with done := k, paused := true })).recordFault (s.engRecord o f) (.op o.oid)

/-- A group operation is complete: its entry frees, or holds its error, that of a saved group too; its group goes on from
`ewait` or ends (R278, R279, R298). -/
def State.opComplete (s : State) (o : EngOp) (err : Option (Nat × Nat)) : State :=
  let s1 := { s with engOps := s.engOps.filter (fun x => x.oid != o.oid) }
  match o.gid with
  | none => s1
  | some gid =>
    let s2 := s1.updGroupAny gid (fun g =>
      let g1 := g.updLg o.lg (fun x => match err with
        | none => x.freeEnt o.entry
        | some (k, a) => { x with ops := x.ops.map (fun e =>
            if e.entry = o.entry then { e with err := some (k, BitVec.ofNat 64 a) } else e) })
      { g1 with wait := if g1.wait = .engine then .ready else g1.wait })
    match s2.findGroup gid with
    | some g => if g.wait = .ending ∨ g.div.live ≠ 0 then s2.groupMayEnd gid else s2
    | none => s2

/-- The request that the arbiter chooses (R291): of non-speculative groups the oldest, else of speculative
ones the greatest L, then the oldest. -/
def State.matrixChoice (s : State) (bead : Nat) : Option EngOp :=
  let left (o : EngOp) : Bool := match o.kind with
    | .mma _ _ _ k _ _ n _ _ => decide (o.done < matrixPasses (s.slotOf o.launch n) k)
    | _ => false
  let rs := s.engOps.filter (fun o => o.bead == bead && left o && s.mayRun o)
  let spec (o : EngOp) : Option Seg := match s.findSeg o.asid o.segid with
    | some x => if o.segid != 0 && x.st.speculative then some x else none
    | none => none
  match rs.find? (fun o => (spec o).isNone) with
  | some o => some o
  | none => rs.foldl (fun (best : Option EngOp) o => match best with
      | none => some o
      | some b => match spec b, spec o with
        | some x, some y => if s.lcode x < s.lcode y then some o else some b
        | _, _ => some b) none

/-- `MATRIX_PASS` (R291): a clamped rod and a bead out of service grant none (R384, R389). -/
def execMatrixPass (bead : Nat) (s : State) : Host.Outcome State Fault Refusal :=
  .next (match if (s.rod (rodOfBead bead)).clamp.isNone && !(s.bead bead).out then s.matrixChoice bead else none with
    | none => s
    | some o => match o.kind with
      | .mma tile a b k as_ bs slot sat set =>
        -- poison in the accumulator or in what the pass reads ends the operation in error (R279, R384)
        if !(set && o.done == 0) && (s.opHandle o tile).slots.any (s.bead bead).accPoison.contains
            || s.passPoison o a b k as_ bs (slotFmt (s.slotOf o.launch slot)) then s.opComplete o (some (0, 0))
        else s.matrixPass o tile a b k as_ bs (s.slotOf o.launch slot) sat set
      | _ => s)

end Sys2Proof.Machine
end

