-- ==== Sys2Proof/Machine/Graph.lean ====
section
/-! DEFINITION. Task graphs (R292, R293), and the end of engine operations (R277 to R280). -/

namespace Sys2Proof.Machine

/-! ## Control blocks (R292) -/

/-- Fields of a block read as one number. -/
def blockPred (x : Nat) : Nat := nbits x 0 32
def blockKind (x : Nat) : Nat := nbits x 32 3
def blockPosted (x : Nat) : Bool := nbits x 35 1 == 1
def blockNsucc (x : Nat) : Nat := nbits x 38 4
/-- Successor addresses. -/
def blockSuccs (x : Nat) : List Nat := (List.range (min 8 (blockNsucc x))).map (fun i => nbits x (128 + 64 * i) 64)
def blockOpa (x : Nat) : Nat := nbits x 640 64
def blockOpb (x : Nat) : Nat := nbits x 704 64
def blockOpc (x : Nat) : Nat := nbits x 768 64
def blockImm (x : Nat) : Nat := nbits x 832 32
def blockFmt (x : Nat) : Nat := nbits x 864 3
def blockParams (x : Nat) : List Word := (List.range 17).map (fun i => BitVec.ofNat 32 (nbits x (896 + 32 * i) 32))

/-- A block that `tpost` refuses: posted already, a reserved field or KIND, more than 8 successors. -/
def blockBad (x : Nat) : Bool :=
  blockPosted x || blockKind x == 7 || nbits x 42 86 != 0 || nbits x 867 29 != 0 || nbits x 1440 608 != 0
    || decide (8 < blockNsucc x)

/-- Physical addresses of `n` bytes of a block for the walker's atomic accesses. -/
def State.blockPas (s : State) (bead asid a n : Nat) : Except TFault (List Nat) :=
  (s.translateRange none bead asid .atomic a n).1

/-- The same, none where the bytes hold poison: such an access returns nothing (R137). -/
def State.blockAt (s : State) (bead asid a n : Nat) : Except TFault (Option (List Nat)) :=
  (s.blockPas bead asid a n).map (fun pas => if (s.poisoned pas).isSome then none else some pas)

/-- Change the first 8 bytes of a block. -/
def State.setBlock (s : State) (bead asid a : Nat) (f : Nat → Nat) : State :=
  match s.blockAt bead asid a 8 with
  | .error _ => s
  | .ok none => s
  | .ok (some pas) =>
    let bs := pas.map s.byte
    s.contextStore asid 0 (pas.zip (leBytes (f (ofLe bs)) 8))

/-- Set one bit. -/
def setBit (i x : Nat) : Nat := x ||| 2 ^ i

/-! ## Starting a node (R293) -/

/-- The operation of a node before its checks. -/
def nodeOp (p : Posted) (oid : Nat) (k : OpKind) (bad : Option (Nat × Dword)) : EngOp :=
  { oid := oid, asid := p.asid, launch := p.launch, gid := none, lg := 0, entry := 0, token := 0, team := p.team, segid := 0
    bead := beadOfCore p.core, core := p.core, kind := k, done := 0, paused := false, bad := bad, block := some p.block
    queue := p.queue, slots := p.slots }

/-- Read `n` bytes for a node's start: a translation fault pauses it (R280), poison ends it. -/
def State.nodeRead (s : State) (p : Posted) (a n : Nat) : Except TFault (Option (List Byte)) :=
  match (s.engineRead (beadOfCore p.core) p.asid 0 a n).1 with
  | .ok bs => .ok (some bs)
  | .fault f => .error f
  | .poison _ => .ok none

/-- The peer that a node names. -/
def State.nodePeer (s : State) (p : Posted) (x : Nat) : Except TFault (Option Peer) :=
  if 256 ≤ blockImm x then .ok none
  else (s.nodeRead p ((s.ctx p.asid).peerptr + 32 * blockImm x) 32).map (fun r => r.bind peerEntry)

/-- What a node does, or none where a check that its engine word would make at acceptance fails. A transfer of no bytes
completes at once (R294). -/
def State.nodeKind (s : State) (p : Posted) (x : Nat) : Except TFault (Option OpKind) :=
  let a := BitVec.ofNat 64 (blockOpa x)
  let b := BitVec.ofNat 64 (blockOpb x)
  let n := blockOpc x % 2 ^ 32
  match blockKind x with
  | 0 =>
    if blockOpc x % 16 ≠ 0 then .ok none
    else (s.nodeRead p (blockOpc x) 256).map (fun r => r.bind (fun bs => (copyDesc bs).bind (fun c =>
      let spw := match s.findTeam p.team with | some t => t.spw | none => 0
      if (c.reaches a.toNat b.toNat spw).isSome then none else some (.tcopy a b bs))))
  | 1 =>
    let ops := blockImm x
    let codes := chainCodes ops 8
    let slot := p.slots.getD (blockFmt x) 0
    .ok (if ops ≠ sumOf (codes.zipIdx.map (fun y => 16 ^ y.2 * y.1)) then none
      else if !(([0, 1, 2, 3, 4, 8, 9, 12, 13] : List Nat).contains (slotFmt slot)) then none
      else if (chainBad p.slots codes ((blockParams x).drop 1) 0).isSome then none
      else some (.chain a b (blockFmt x) (BitVec.ofNat 32 ops) (blockParams x)))
  | 2 => (s.nodePeer p x).map (fun r => r.map (fun y => if n = 0 then .join else .nput a b n y))
  | 3 => (s.nodePeer p x).map (fun r => r.map (fun y => if n = 0 then .join else .nget a b n y))
  | 4 => if blockOpb x % 8 ≠ 0 then .ok none
    else (s.nodePeer p x).map (fun r => r.map (fun y => .nsig b (BitVec.ofNat 32 (blockOpc x)) y))
  | 6 => .ok (some .join)
  | _ => .ok none

/-- Start a node, whose block holds `x`. A launch node's grid starts in the posting context's queue. -/
def State.startNode (s : State) (p : Posted) (x : Nat) : State :=
  let (oid, s1) := s.fresh
  let put (t : State) (k : OpKind) (bad : Option (Nat × Dword)) : State := { t with engOps := t.engOps ++ [nodeOp p oid k bad] }
  if blockKind x = 5 then
    match s1.readLaunch p.asid p.queue (blockOpa x) 0 with
    | .ok l => put (s1.takeLaunch { l with node := some p.block }) (.launchNode (BitVec.ofNat 64 (blockOpa x)) none) none
    | .error _ => put s1 .join (some (3, p.block))
  else match s1.nodeKind p x with
    | .ok (some k) => put s1 k none
    | .ok none => put s1 .join (some (3, p.block))
    | .error f =>
      let k : OpKind := .starting (BitVec.ofNat 2048 x)
      (put s1 k none).pauseOp (nodeOp p oid k none) 0 f

/-! ## `tpost` (R292, R293) -/

/-- Post a block whose bits are `x`. -/
def State.postBlock (s : State) (bead a x : Nat) (p : Posted) : State :=
  let s1 := s.setBlock bead p.asid a (setBit 35)
  if blockPred x = 0 then s1.startNode p x else { s1 with posted := s1.posted ++ [p] }

/-- Post the block at `a` for a logical group: its token completes at once. Where the walker cannot read the block, the
operation goes on in the table: it pauses at a translation fault, and poison ends it in error (R279, R280). -/
def State.post (s : State) (a : Nat) : EngTry :=
  let g := s.grp
  if a % 64 ≠ 0 then badState 3 a
  else match s.blockPas g.bead g.asid a 256 with
    | .error _ => .ok s (.tpost (BitVec.ofNat 64 a))
    | .ok pas =>
      if (s.poisoned pas).isSome then .ok s (.tpost (BitVec.ofNat 64 a))
      else
        let x := ofLe (pas.map s.byte)
        if blockBad x then badState 3 a
        else .instant (s.postBlock g.bead a x { asid := g.asid, block := BitVec.ofNat 64 a, queue := s.curLaunch.queue
                                                slots := s.curLaunch.slots, launch := g.launch, team := g.team, core := g.core })

/-- `tpost` (R292, R293): in a speculative segment it waits until commit (R297). -/
def execTpost (h : Hdr) (f : FE) (s : State) : Host.Outcome State Fault Refusal :=
  .next (s.endRegion.holdSpec true (s.engineWord h f.d.toNat [opX f.a 2] none (fun _ => 0) 0 (fun t _ l =>
    t.post (t.pairAt h f l f.a))))

/-! ## Finishing a node (R293) -/

/-- The graph error of a node goes to the fault queue (R368, R370). -/
def State.graphError (s : State) (o : EngOp) (a : Nat) : State :=
  s.recordFault { cause := 0x18, asid := o.asid, part := (s.ctx o.asid).part, path := 6, bead := o.bead, core := o.core % 4
                  va := BitVec.ofNat 64 a, info := BitVec.ofNat 64 (3 + 2 ^ 12 * (a % 2 ^ 52)) } .nobody

/-- One successor of a finished node; an access that fails is an error of the graph. -/
def State.decrement (s : State) (o : EngOp) (succ : Nat) : State :=
  match s.blockAt o.bead o.asid succ 256 with
  | .error _ => s.graphError o succ
  | .ok none => s.graphError o succ
  | .ok (some pas) =>
    let x := ofLe (pas.map s.byte)
    if blockPred x = 0 then s.setBlock o.bead o.asid succ (setBit 37)
    else
      let s1 := s.setBlock o.bead o.asid succ (fun y => y - 1)
      if blockPred x = 1 && blockPosted x then
        match s1.posted.find? (fun p => p.asid == o.asid && p.block.toNat == succ) with
        | some p => ({ s1 with posted := s1.posted.filter (fun y => y != p) }).startNode p x
        | none => s1
      else s1

/-- The block that step `k` of a node's end accesses. -/
inductive FinishAt where
  /-- Its own, then its successors. -/
  | at_ (a : Nat)
  | over
  /-- Its own block holds poison (R137). -/
  | lost
  deriving DecidableEq, Repr

def State.finishAt (s : State) (o : EngOp) (block : Nat) (err : Bool) : Nat → Except TFault FinishAt
  | 0 => (s.blockAt o.bead o.asid block 8).map (fun x => if x.isSome then .at_ block else .lost)
  | k + 1 => if err then .ok .over
    else (s.blockAt o.bead o.asid block 256).map (fun x => match x with
      | none => .lost
      | some pas => ((blockSuccs (ofLe (pas.map s.byte)))[k]?).elim .over .at_)

/-- A step of a node's end pauses at a translation fault (R280). -/
def State.finishPauses (s : State) (o : EngOp) (err : Bool) (k : Nat) (f : TFault) : State :=
  let o1 : EngOp := { o with kind := .finishing err, bad := none }
  ({ s with engOps := s.engOps ++ [o1] }).pauseOp o1 k f

/-- The steps of a node's end from `k` on: DONE, or ERR and DONE with a record, then the successors (R293). A node whose
own block holds poison ends there with a record (R137). -/
def State.finishFrom (s : State) (o : EngOp) (block : Nat) (err : Bool) : Nat → Nat → State
  | 0, _ => s
  | n + 1, k => match s.finishAt o block err k with
    | .error f => s.finishPauses o err k f
    | .ok .over => s
    | .ok .lost => s.graphError o block
    | .ok (.at_ a) => match s.blockPas o.bead o.asid a (if k = 0 then 8 else 256) with
      | .error f => s.finishPauses o err k f
      | .ok _ =>
        if k = 0 then
          if err then (s.setBlock o.bead o.asid block (fun y => setBit 36 (setBit 37 y))).graphError o block
          else State.finishFrom (s.setBlock o.bead o.asid block (setBit 36)) o block err n 1
        else State.finishFrom (s.decrement o a) o block err n (k + 1)

/-- Finish a node from step `k` on: `err` holds where it failed. -/
def State.finishNode (s : State) (o : EngOp) (block : Nat) (err : Bool) (k : Nat := 0) : State :=
  State.finishFrom { s with engOps := s.engOps.filter (fun x => x.oid != o.oid) } o block err 10 k

/-- The post that a node comes from. -/
def EngOp.posted (o : EngOp) (block : Dword) : Posted :=
  { asid := o.asid, block := block, queue := o.queue, slots := o.slots, launch := o.launch, team := o.team, core := o.core }

/-- A node that paused at an access of the walker goes on (R280). -/
def State.nodeGoes (s : State) (o : EngOp) (block : Dword) : State :=
  match o.kind with
  | .finishing err => s.finishNode o block.toNat err o.done
  | .starting x => ({ s with engOps := s.engOps.filter (fun y => y.oid != o.oid) }).startNode (o.posted block) x.toNat
  | _ => s

/-- `GRAPH_NODE_FINISH` (R293). -/
def execGraphNodeFinish (op : Nat) (reply : PeerReply) (s : State) : Host.Outcome State Fault Refusal :=
  .next (match s.findOp op with
    | none => s
    | some o => match o.block with
      | none => s
      | some b =>
        if o.bad.isSome then s.finishNode o b.toNat true
        else if !s.mayRun o then s
        else match s.runOp o reply with
          | (t, _, .done) => t.finishNode o b.toNat false
          | (t, _, .error _ _) => t.finishNode o b.toNat true
          | (t, k, .pause f) => t.pauseOp o k f
          | (t, k, .commit) => t.updOp op (fun x => { x with done := k, waitsCommit := true })
          | (t, k, .later) => if k = o.done then s.nodeGoes o b else t.updOp op (fun x => { x with done := k }))

/-! ## The end of an operation (R277 to R280, R399) -/

/-- A queue's copy is done or has failed: class 7 gives the KIND (R400). -/
def State.copyEnded (s : State) (o : EngOp) (err : Option (Nat × Nat)) : State :=
  let s1 := { s with engOps := s.engOps.filter (fun x => x.oid != o.oid) }
  match (s1.queue o.queue).busy with
  | none => s1
  | some c => (s1.endCommand o.queue).complete o.queue c (if err.isSome then 7 else 0) ((err.map (·.1)).getD 0) 0

/-- An operation is complete. -/
def State.opEnded (s : State) (o : EngOp) (err : Option (Nat × Nat)) : State :=
  match o.kind with
  | .copyCmd _ _ _ => s.copyEnded o err
  | _ => s.opComplete o err

/-- A `tpost` that paused goes on: it posts its block, or ends in error where the block holds poison or is not fit to be
posted (R279, R280, R292). -/
def State.postGoes (s : State) (o : EngOp) : State :=
  match o.kind with
  | .tpost addr =>
    let a := addr.toNat
    (match s.blockPas o.bead o.asid a 256 with
    | .error f => s.pauseOp o 0 f
    | .ok pas =>
      match s.poisoned pas with
      | some i => s.opEnded o (some (0, (a + i) % 2 ^ 64))
      | none =>
        let x := ofLe (pas.map s.byte)
        if blockBad x then s.opEnded o (some (3, a))
        else match s.findLaunch o.launch with
          | none => s.opEnded o none
          | some l => (s.postBlock o.bead a x { o.posted addr with queue := l.queue, slots := l.slots }).opEnded o none)
  | _ => s

/-- `ENGINE_OPERATION_COMPLETE` (R277, R279, R280): an operation of a group, or a queue's copy, ends, pauses at a
translation fault, or goes as far as it can. -/
def execEngineOperationComplete (op : Nat) (reply : PeerReply) (s : State) : Host.Outcome State Fault Refusal :=
  .next (match s.findOp op with
    | none => s
    | some o =>
      if o.block.isSome || !s.mayRun o then s
      else match s.runOp o reply with
        | (t, _, .done) => t.opEnded o none
        | (t, _, .error k a) => t.opEnded o (some (k, a))
        | (t, k, .pause f) => t.pauseOp o k f
        | (t, k, .commit) => t.updOp op (fun x => { x with done := k, waitsCommit := true })
        | (t, k, .later) => if k = o.done then s.postGoes o else t.updOp op (fun x => { x with done := k }))

end Sys2Proof.Machine
end

