-- ==== Sys2Proof/Machine/Faults.lean ====
section
/-! DEFINITION. Fault records and the answers to them (R368 to R374, R401), and what the host and peers do to
memory (R397, R402). -/

namespace Sys2Proof.Machine

/-! ## The fault queue (R368 to R371) -/

/-- The 64 bytes of a record as one number (R369). -/
def FRec.bits (r : FRec) (seq : Nat) : Nat :=
  r.cause + 2 ^ 8 * r.asid + 2 ^ 16 * r.part + 2 ^ 20 * r.kind + 2 ^ 23 * r.stage + 2 ^ 24 * r.level + 2 ^ 26 * r.acc
    + 2 ^ 29 * r.path + 2 ^ 32 * r.bead + 2 ^ 39 * r.core + 2 ^ 41 * r.slot + (if r.eng then 2 ^ 45 else 0)
    + (if r.coal then 2 ^ 46 else 0) + (if r.esc then 2 ^ 47 else 0) + 2 ^ 48 * (r.waiters % 2 ^ 16)
    + 2 ^ 64 * r.va.toNat + 2 ^ 128 * r.ia.toNat + 2 ^ 192 * r.pc.toNat + 2 ^ 256 * r.pend.toNat
    + 2 ^ 320 * r.token.toNat + 2 ^ 352 * r.segid + 2 ^ 384 * r.info.toNat + 2 ^ 448 * (seq % 2 ^ 32)

/-- Records that the ring holds, FQTAIL − FQHEAD, and its size; it is full when they agree (R371). -/
def State.fqSize (s : State) (p : Nat) : Nat := nbits (s.pcsr p 0x90b) 0 17
def State.fqHeld (s : State) (p : Nat) : Nat := ((s.part p).tail + 2 ^ 32 - nbits (s.pcsr p 0x90c) 0 32) % 2 ^ 32
def State.fqFull (s : State) (p : Nat) : Bool := decide (s.fqSize p ≤ s.fqHeld p)

/-- The first record due takes its number. -/
def numberFirst (seq : Nat) : List FPend → List FPend
  | [] => []
  | x :: xs => if x.seq.isNone then { x with seq := some seq } :: xs else x :: numberFirst seq xs

/-- Write the first record that is due (R371): at FQTAIL mod FQSIZE; then FQTAIL advances, and a notification
is due. -/
def State.writeRecord (s : State) (p : Nat) : State :=
  match (s.part p).pend.find? (fun x => x.seq.isNone) with
  | none => s
  | some x =>
    if s.fqFull p then s
    else
      let n := (s.part p).seq
      let base := s.pcsr p 0x90a + 64 * ((s.part p).tail % s.fqSize p)
      let s1 := s.homeRun base (leBytes (x.rec_.bits n) 64)
      s1.updPart p (fun y => { y with
        pend := numberFirst n y.pend, seq := n + 1, tail := (y.tail + 1) % 2 ^ 32, noteDue := y.noteDue || s.partNotify p })

/-- `FAULT_RECORD_WRITE` (R368). -/
def execFaultRecordWrite (part : Nat) (s : State) : Host.Outcome State Fault Refusal := .next (s.writeRecord part)

/-- `FQHEAD_WRITE` (R368, R371): the host consumes records, and those held while the queue was full are
written. -/
def execFqheadWrite (part : Nat) (v : Dword) (s : State) : Host.Outcome State Fault Refusal :=
  .next (if 16 ≤ part ∨ s.boot.recovery then s
    else ((s.part part).pend).foldl (fun t _ => t.writeRecord part) (s.writePlain (offPart part 0x90c) v))

/-- `FAULT_NOTIFICATION` (R401): at most one in any 10 µs. -/
def execFaultNotification (part : Nat) (s : State) : Host.Outcome State Fault Refusal :=
  .next (
    let p := s.part part
    if p.noteDue && s.partNotify part && (match p.noteAt with | some t => s.reached (t + 13000) | none => true) then
      (s.updPart part (fun x => { x with noteDue := false, noteAt := some s.timer.toNat })).emit
        (.note (BitVec.ofNat 128 (s.pcsr part 0x911 * 2 ^ 64 + s.pcsr part 0x912)) (BitVec.ofNat 128 (part + 2 ^ 32 * p.tail)))
    else s)

/-! ## Answers (R373, R374) -/

/-- The record with a number, if it has had no response. -/
def State.record? (s : State) (p : Nat) (seq : Word) : Option FPend :=
  (s.part p).pend.find? (fun x => x.seq == some seq.toNat)

/-- The record has its response. -/
def State.answered (s : State) (p : Nat) (seq : Word) : State :=
  s.updPart p (fun x => { x with pend := x.pend.filter (fun y => y.seq != some seq.toNat) })

/-- Resume a group (R373, R374): it is ready at its resume point, after an acquire at system scope; copies that
it waited for are requested anew (R43); a segment whose trap was serviced restarts from its beginning (R102). -/
def State.resumeGroup (s : State) (gid : Nat) : State :=
  match s.findGroup gid with
  | none => { s with saved := s.saved.map (fun x => { x with groups := x.groups.map (fun g =>
      if g.gid = gid ∧ g.wait = .stopped then
        { g with wait := if g.allElems.any (fun y => y.2.bring.isSome) then .copies else .ready } else g) }) }
  | some g =>
    if g.wait ≠ .stopped then s
    else match s.findSeg g.asid g.segid with
      | some x => if x.st.speculative ∧ g.segid ≠ 0 then s.squash g.asid g.segid true else go g
      | none => go g
where
  go (g : Group) : State :=
    let s1 := (s.dropL1 g.core).updGroup gid (fun x => { x with wait := .ready, readySince := s.timer.toNat })
    if g.allElems.any (fun x => x.2.bring.isSome) then s1.goOnCopies gid else s1

/-- An element without code goes on, unless it has still to be dealt. -/
def State.goOnCodeless (s : State) (l : Launch) (w : Waiting) (e : Elem) : State :=
  match w.bead with
  | none => s.updWaiting w e
  | some b =>
    let (s1, e1) := s.dealTo b e
    (s1.updWaiting w e1).runCodeless l b { w with elem := e1 }

/-- Resume an element without code. After a quire overflow its request is made anew (R328); of one whose indices are open
the read is made again, and one that was out of range is answered (R18, R323). Its segment, if the trap was one of a
speculative one, restarts (R102). -/
def State.resumeElement (s : State) (launch : Nat) (handle : Word) : State :=
  match s.pool.find? (fun w => w.launch == launch && w.elem.handle == handle && (w.elem.idxOpen || w.elem.halted)), s.findLaunch launch with
  | some w, some l =>
    if (s.findSeg l.asid w.elem.segid).any (fun x => w.elem.segid != 0 && x.st.speculative) then s.squash l.asid w.elem.segid true
    else
      let back := { w.elem with idxBad := false, halted := false }
      match w.elem.idxWait, s.findParent w.elem.parent with
      | some _, some p =>
        let (s1, e1) := s.readIndices l p back.rate back (w.bead != some p.bead)
        if e1.idxOpen then (s1.updWaiting w e1).indexTrap l (w.bead.getD p.bead) e1 else s1.goOnCodeless l w e1
      | _, _ => s.goOnCodeless l w back
  | _, _ => s

def State.resumeOne (s : State) : Attach → State
  | .group gid => s.resumeGroup gid
  | .op oid => s.updOp oid (fun o => { o with paused := false })
  | .element launch handle => s.resumeElement launch handle
  | .nobody => s

/-- `FQRESP_RESUME` (R373). -/
def execFqrespResume (part : Nat) (seq : Word) (s : State) : Host.Outcome State Fault Refusal :=
  .next (match s.record? part seq with
    | none => s
    | some x =>
      let s0 := s.answered part seq
      -- a pair that took a trap in both members goes on when both records are answered (R194)
      let more (a : Attach) : Bool := (s0.part part).pend.any (fun y => y.who.contains a)
      let s1 := (x.who.filter (fun a => !more a)).foldl State.resumeOne s0
      -- a context restore error answered so is tried again
      if x.rec_.cause = 0x19 then
        { s1 with saved := s1.saved.map (fun y => if y.asid = x.rec_.asid ∧ y.bead = x.rec_.bead then { y with failed := false } else y) }
      else s1)

/-- Abort an operation (R279): it completes in error with KIND 1 and the address at which it faulted. -/
def State.abortOp (s : State) (oid : Nat) (va : Nat) : State :=
  match s.findOp oid with
  | none => s
  | some o =>
    let a := match (s.runOp { o with paused := false } { ok := true, data := [] }).2.2 with
      | .pause f => f.va
      | _ => va
    match o.block, o.kind with
    -- an access of the walker that is aborted at a successor fails there, and the others go on (R292, R293)
    | some b, .finishing _ => if o.done = 0 then ({ s with engOps := s.engOps.filter (fun x => x.oid != oid) }).graphError o b.toNat
      else (s.graphError o va).finishNode o b.toNat false (o.done + 1)
    | some b, _ => s.finishNode o b.toNat true
    | none, _ => s.opEnded o (some (1, a))

/-- The kill of a record's context, where it is a context's record. -/
def State.killFor (s : State) (x : FPend) (seq : Word) : State :=
  if x.rec_.cause < 0x30 && (s.ctx? x.rec_.asid).isSome then s.killContext x.rec_.asid x.rec_.cause seq.toNat else s

/-- `FQRESP_ABORT` (R373): with a group, or an element without code, attached it acts as kill. -/
def execFqrespAbort (part : Nat) (seq : Word) (s : State) : Host.Outcome State Fault Refusal :=
  .next (match s.record? part seq with
    | none => s
    | some x =>
      let s1 := s.answered part seq
      if x.who.any (fun w => match w with | .group _ => true | .element _ _ => true | _ => false) then s1.killFor x seq
      else x.who.foldl (fun t w => match w with | .op oid => t.abortOp oid x.rec_.va.toNat | _ => t) s1)

/-- `FQRESP_KILL` (R373). -/
def execFqrespKill (part : Nat) (seq : Word) (s : State) : Host.Outcome State Fault Refusal :=
  .next (match s.record? part seq with
    | none => s
    | some x => (s.answered part seq).killFor x seq)

/-! ## Host and peers (R397, R402) -/

/-- A NET access by the host or a peer in a context: physical addresses. -/
def State.netPas (s : State) (asid va n : Nat) (acc : Acc) : Option (List Nat) :=
  match s.translateRange none (s.homeBead asid) asid acc va n with
  | (.ok pas, _) => some pas
  | _ => none

/-- Bytes read by the host or a peer; none where poison or a fault stops it. -/
def State.netRead (s : State) (asid va n : Nat) : Option (List Byte) :=
  match s.netPas asid va n .read with
  | some pas => if (s.poisoned pas).isSome then none else some (pas.map s.byte)
  | none => none

/-- The context of a queue that serves remote accesses. -/
def State.servesQueue (s : State) (q : Nat) : Bool := s.queueOn q && (s.ctx? (s.qAsid q)).isSome

/-- `HOST_REMOTE_WRITE` (R397): performed, then acknowledged; in recovery not answered (R407). -/
def execHostRemoteWrite (q : Nat) (va : Dword) (data : List Byte) (s : State) : Host.Outcome State Fault Refusal :=
  .next (if s.boot.recovery then s else match s.netPas (s.qAsid q) va.toNat data.length .write with
    | some pas => if s.servesQueue q then (s.homeStore (pas.zip data)).emit (.writeAck q true) else s.emit (.writeAck q false)
    | none => s.emit (.writeAck q false))

/-- `HOST_REMOTE_READ` (R397); in recovery not answered (R407). -/
def execHostRemoteRead (q : Nat) (va : Dword) (len : Nat) (s : State) : Host.Outcome State Fault Refusal :=
  .next (if s.boot.recovery then s else s.emit (.readReply q (if s.servesQueue q then s.netRead (s.qAsid q) va.toNat len else none)))

/-- The live contexts whose peer table names a sender (R402). -/
def State.peerContexts (s : State) (p : PeerOp) : List Nat :=
  (s.ctxs.filter (fun (c : Nat × Ctx) => (List.range 256).any (fun i =>
    match s.netRead c.1 (c.2.peerptr + 32 * i) 32 with
    | some bs => (peerEntry bs).any (fun x => x.job == p.job && x.addr == p.src)
    | none => false))).map (·.1)

/-- What an arriving operation does in a context: the bytes of its answer, none where it is refused. -/
def State.peerPerform (s : State) (asid : Nat) : PeerAsk → State × Option (List Byte)
  | .put va data =>
    match s.netPas asid va.toNat data.length .write with
    | some pas => (s.homeStore (pas.zip data), some [])
    | none => (s, none)
  | .get va len => (s, s.netRead asid va.toNat len)
  | .sig va value =>
    if va.toNat % 8 ≠ 0 then (s, none)
    else match s.netPas asid va.toNat 8 .atomic with
      | some pas =>
        if (s.poisoned pas).isSome then (s, none)
        else (s.homeStore (pas.zip (leBytes ((ofLe (pas.map s.byte) + value.toNat) % 2 ^ 64) 8)), some [])
      | none => (s, none)

/-- `PEER_OPERATION_ARRIVAL` (R402); in recovery not answered (R407). -/
def execPeerOperationArrival (p : PeerOp) (s : State) : Host.Outcome State Fault Refusal :=
  .next (if s.boot.recovery then s else match s.peerContexts p with
    | [] => s.emit (.peerReply p.src p.job false [])
    | a :: _ => match s.peerPerform a p.ask with
      | (t, some bs) => t.emit (.peerReply p.src p.job true bs)
      | (t, none) => t.emit (.peerReply p.src p.job false []))

end Sys2Proof.Machine
end

