-- ==== Sys2Proof/Machine/Registers.lean ====
section
/-! DEFINITION. Writes to the system register window (R340, R365, R375 to R382) and shootdowns (R375 to R377). In
recovery nothing but the management sideband is answered (R407). -/

namespace Sys2Proof.Machine

/-! ## Shootdown (R375, R376) -/

/-- Fields of a SHOOT write. -/
def shootGo (v : Dword) : Bool := v.getLsbD 0
def shootScope (v : Dword) : Nat := nbits v.toNat 1 2
def shootAsid (v : Dword) : Nat := nbits v.toNat 3 8
def shootPart (v : Dword) : Nat := nbits v.toNat 11 4
def shootCount (v : Dword) : Nat := nbits v.toNat 32 32

/-- `n` bytes from `a` meet the command's range. -/
def Shoot.meets (x : Shoot) (a n : Nat) : Bool :=
  x.count == 0 || (decide (a < x.base + 65536 * x.count) && decide (x.base < a + n))

/-- A translation-cache entry matches (R375): by virtual address for one ASID, by intermediate address for one
partition. -/
def Shoot.hits (x : Shoot) (e : Tlb) : Bool :=
  match x.scope with
  | 0 => e.asid == x.asid && x.meets e.vbase e.size
  | 1 => e.part == x.part && x.meets e.ibase e.size
  | _ => true

/-- A fetched word was fetched under a matching translation of an earlier generation. -/
def shootHitsCode (x : Shoot) (c : CodeLine) : Bool := decide (c.tgen < x.gen) && c.page.all x.hits

/-- A table entry matches: it serves an address of the command, or it lies there itself (for one partition, a stage-1 entry
whose own intermediate address is in the range). -/
def Shoot.hitsWalk (x : Shoot) (e : WalkEnt) : Bool :=
  match x.scope with
  | 0 => e.st == 1 && e.asid == x.asid && x.meets e.base e.size
  | 1 => e.part == x.part && (if e.st == 2 then x.meets e.base e.size else x.meets e.at_ 8)
  | _ => true

/-- Matching translations leave every cache, and matching table entries every walk cache (R376). -/
def State.dropTranslations (s : State) (x : Shoot) : State :=
  { s with
    cores := s.cores.map (fun (c : Nat × Core) => (c.1, { c.2 with tlb := c.2.tlb.filter (fun e => !x.hits e) }))
    beads := s.beads.map (fun (b : Nat × Bead) => (b.1, { b.2 with tlb2 := b.2.tlb2.filter (fun e => !x.hits e) }))
    walkers := s.walkers.map (fun (w : Nat × List WalkEnt) => (w.1, w.2.filter (fun e => !x.hitsWalk e))) }

/-- The group is in the middle of a run. -/
def Group.midRun (g : Group) : Bool := g.gid != 0 && g.run.on && g.wait == .ready

/-- Matching code leaves the L0 and overlay frames of the cores given, and the loop buffers of the groups given. -/
def State.dropCode (s : State) (x : Shoot) (on : Nat → Bool) (who : Group → Bool) : State :=
  let g (y : Group) : Group := if who y then { y with loops := [] } else y
  { s with
    cores := s.cores.map (fun (c : Nat × Core) =>
      (c.1, if on c.1 then { c.2 with l0 := c.2.l0.filter (fun w => !shootHitsCode x w) } else c.2))
    grp := g s.grp
    groups := s.groups.map g }

/-- A core drops at once: it has no group, or one of its groups is between runs. -/
def State.dropsNow (s : State) (c : Nat) : Bool := (s.onCore c).isEmpty || (s.onCore c).any (fun g => !g.midRun)

/-- Stores to device memory that still lie in release buffers: core, group and sector. -/
def State.heldStores (s : State) : List (Nat × Nat × Nat) :=
  s.cores.flatMap (fun (c : Nat × Core) => (c.2.rel.filter (fun e => !e.window)).map (fun e => (c.1, e.gid, e.sector)))

/-- Groups in a run: they drop their code at its end. -/
def State.inRuns (s : State) : List Nat :=
  (s.allGroups.filter Group.midRun).map (·.gid)

/-- A SHOOT write with GO and this SCOPE (R375, R376): while BUSY it is ignored and sets ERR. -/
def State.shootdown (s : State) (v : Dword) (scope : Nat) : State :=
  if !shootGo v || shootScope v != scope || s.boot.recovery then s
  else if s.shoot.isSome then { s with shootErr := true }
  else
    let gen := s.tgen + 1
    let x : Shoot := { scope := scope, asid := shootAsid v, part := shootPart v
                       base := nbits (s.win (offModule 0x807)).toNat 16 36 * 65536, count := shootCount v
                       gen := gen.toNat, left := s.inRuns, stores := s.heldStores }
    let s1 := s.writePlain (offModule 0x806) v
    { (s1.dropTranslations x).dropCode x s1.dropsNow (fun y => !y.midRun) with tgen := gen, shoot := some x, shootErr := false }

/-- `SHOOTDOWN_ASID`, `SHOOTDOWN_PARTITION`, `SHOOTDOWN_ALL` (R375, R376). -/
def execShootdownAsid (v : Dword) (s : State) : Host.Outcome State Fault Refusal := .next (s.shootdown v 0)
def execShootdownPartition (v : Dword) (s : State) : Host.Outcome State Fault Refusal := .next (s.shootdown v 1)
def execShootdownAll (v : Dword) (s : State) : Host.Outcome State Fault Refusal := .next (s.shootdown v 2)

/-- Groups that were in a run at the GO write and have come to its end drop their code (R376). -/
def State.settleShoot (s : State) : State := match s.shoot with
  | none => s
  | some x =>
    let gone := x.left.filter (fun gid => !s.inRuns.contains gid)
    if gone.isEmpty then s
    else
      let cores := (s.allGroups.filter (fun g => gone.contains g.gid)).map (·.core)
      { s.dropCode x cores.contains (fun y => gone.contains y.gid) with
        shoot := some { x with left := x.left.filter s.inRuns.contains } }

/-- `SHOOTDOWN_COMPLETE` (R376): every store that was translated before has left its release buffer, and every group that
was in a run has come to its end and dropped its code. No word fetched before executes again: what groups that began
since have taken from an L0 that still held it goes too (R377). -/
def execShootdownComplete (s : State) : Host.Outcome State Fault Refusal :=
  .next (match s.shoot with
    | none => s
    | some x =>
      if s.inRuns.any x.left.contains || s.heldStores.any x.stores.contains then s
      else { s.dropCode x (fun _ => true) (fun _ => true) with doneGen := BitVec.ofNat 32 x.gen, shoot := none })

/-! ## Register writes (R378 to R382) -/

/-- `PCTL_WRITE` (R378): setting EN resets the partition's predictor tables. -/
def execPctlWrite (part : Nat) (v : Dword) (s : State) : Host.Outcome State Fault Refusal :=
  .next (if 16 ≤ part ∨ s.boot.recovery then s
    else
      let s1 := s.writePlain (offPart part 0x900) v
      if !s.partEn part && s1.partEn part then s1.updPart part (fun p => { p with pred := [] }) else s1)

/-- `RODS_WRITE` (R378): ignored when it names a rod of another enabled partition, or changes the mask of an
enabled partition with an occupant on its beads. -/
def execRodsWrite (part : Nat) (v : Dword) (s : State) : Host.Outcome State Fault Refusal :=
  .next (
    let m := v.toNat % 2 ^ 32
    let taken := (List.range 16).any (fun p => p != part && s.partEn p && decide (s.rodMask p &&& m ≠ 0))
    let busy := s.partEn part && m != s.rodMask part && (s.partBeads part).any (fun b => (s.bead b).occ.isSome)
    if 16 ≤ part || taken || busy || s.boot.recovery then s else s.writePlain (offPart part 0x901) v)

/-- A register with a behaviour of its own: PCTL, RODS, FQHEAD, FQRESP, and SHOOT with GO. -/
def ownBehaviour (off : Nat) (v : Dword) : Bool :=
  (off == offModule 0x806 && shootGo v)
  || (decide (0x10000 ≤ off) && decide (off < 0x18000) && [0, 1, 12, 14].contains ((off - 0x10000) % 0x800 / 8))

/-- `REGISTER_WRITE` (R381): to a register without one; read-only and reserved registers ignore it. -/
def execRegisterWrite (off : Nat) (v : Dword) (s : State) : Host.Outcome State Fault Refusal :=
  .next (if ownBehaviour off v || off % 8 != 0 || s.boot.recovery then s else s.writePlain off v)

end Sys2Proof.Machine
end

