-- ==== Sys2Proof/Machine/Scheduling.lean ====
section
/-! DEFINITION. Deficit round robin and the occasions of pre-emption (R343 to R345). -/

namespace Sys2Proof.Machine

/-- Queues that a partition serves, ascending. -/
def State.queuesIn (s : State) (p : Nat) : List Nat := (List.range 256).filter (fun q => s.queueOn q && s.qPart q == p)

/-- A queue has unplaced work (R343). -/
def State.hasWork (s : State) (q : Nat) : Bool := s.canUse q 0 || s.canUse q 64

/-- Groups of a queue on a bead. -/
def State.groupsOf (s : State) (q b : Nat) : List Group :=
  (s.onBead b).filter (fun g => (s.launchOf g).queue == q && (s.findLaunch g.launch).isSome)

/-- Beads where a queue has a resident group and its context is the occupant. -/
def State.holds (s : State) (q : Nat) : List Nat :=
  (List.range 128).filter (fun b => (s.bead b).occ == some (s.qAsid q) && !(s.groupsOf q b).isEmpty)

/-! ## Deficits (R343) -/

/-- A queue that was visited is still current: it has unplaced work and its deficit is positive. -/
def State.isCurrent (s : State) (q : Nat) : Bool := s.hasWork q && decide (0 < (s.queue q).deficit)

/-- A current queue pays 10 / Nb µs for each bead, in 1/256 µs, each charge rounded down. -/
def State.chargeQueue (s : State) (p q : Nat) : State :=
  s.updQueue q (fun x => { x with deficit := x.deficit - Int.ofNat (2560 / (s.partBeads p).length * (s.holds q).length) })

/-- The current queue of each class pays: a higher class with work does not end it. -/
def State.chargeCurrent (s : State) (p : Nat) : State :=
  (distinct ((s.part p).cur.toList ++ (s.part p).curs.map (·.2))).foldl (fun t q =>
    if s.isCurrent q || (s.part p).cur == some q then t.chargeQueue p q else t) s

/-- A queue with no unplaced work and no resident group has no deficit. -/
def State.zeroIdle (s : State) (p : Nat) : State :=
  ((List.range 256).filter (fun q => s.qPart q == p && !s.hasWork q && (s.holds q).isEmpty)).foldl
    (fun t q => t.updQueue q (fun x => { x with deficit := 0 })) s

/-- The queues of the highest class that has work. -/
def State.topClass (s : State) (p : Nat) : List Nat :=
  let qs := (s.queuesIn p).filter s.hasWork
  match minOf (qs.map s.qClass) with
  | none => []
  | some c => qs.filter (fun q => s.qClass q == c)

/-- The next queue of the round: the next higher number, or the lowest. -/
def nextAfter (cur : Option Nat) (qs : List Nat) : Option Nat :=
  match cur with
  | none => qs.head?
  | some c => (qs.filter (fun q => decide (c < q)) ++ qs).head?

/-- The queue becomes the current one of the class served and of its own class. -/
def State.setCurrent (s : State) (p q : Nat) : State :=
  s.updPart p (fun x => { x with cur := some q, curs := SMap.put x.curs (s.qClass q) q })

/-- The highest class that has work is served: its current queue goes on while it has work and its deficit is positive; else
the next one of the class's round is visited. -/
def State.visit (s : State) (p : Nat) : State :=
  let qs := s.topClass p
  match qs.head? with
  | none => s.updPart p (fun x => { x with cur := none })
  | some q0 =>
    let last := SMap.find (s.part p).curs (s.qClass q0)
    match last.filter (fun q => qs.contains q && s.isCurrent q), nextAfter last qs with
    | some q, _ => s.setCurrent p q
    | none, some q =>
      (s.updQueue q (fun x => { x with
        deficit := x.deficit + Int.ofNat (256 * s.qWeight q * s.qQuantum q), quantumAt := s.timer.toNat })).setCurrent p q
    | none, none => s

/-- `DEFICIT_CHARGE` (R343): every 10 µs. -/
def execDeficitCharge (part : Nat) (s : State) : Host.Outcome State Fault Refusal :=
  .next (if s.partEn part && s.reached (s.part part).chargeAt then
      let s1 := s.updPart part (fun x => { x with chargeAt := s.timer.toNat + 10 * Config.cyclesPerUs })
      ((s1.chargeCurrent part).zeroIdle part).visit part
    else s)

/-! ## Pre-emption (R344, R345) -/

/-- A bead can be stopped now: it has an occupant and no stop. -/
def State.stoppable (s : State) (b : Nat) : Bool := (s.bead b).occ.isSome && (s.bead b).stop.isNone

/-- A bead comes to a context when its stop has ended. -/
def State.coming (s : State) (b asid : Nat) : Bool := (s.bead b).stop.any (fun st => st.toAsid == some asid)

/-- A bead that a queue may use without a pre-emption: free, coming to its context, or its context's and idle. -/
def State.atHand (s : State) (p q b : Nat) : Bool :=
  let a := s.qAsid q
  ((s.bead b).occ.isNone && s.givable b p) || s.coming b a || ((s.bead b).occ == some a && (s.bead b).stop.isNone && (s.onBead b).isEmpty)

/-- `REALTIME_DEADLINE` (R344): as many beads as are missing, in ascending order of stop cost. -/
def execRealtimeDeadline (q : Nat) (s : State) : Host.Outcome State Fault Refusal :=
  .next (
    let p := s.qPart q
    let a := s.qAsid q
    if s.queueOn q && s.qClass q == 0 && s.qDeadline q != 0
        && s.reached (s.qDeadline q - s.qLead q * Config.cyclesPerUs) && s.hasWork q then
      let bs := s.partBeads p
      let have_ := (bs.filter (fun b => (!(s.groupsOf q b).isEmpty && (s.bead b).stop.isNone) || s.atHand p q b)).length
      let others := s.byCost (bs.filter (fun b => s.stoppable b && (s.bead b).occ != some a))
      (others.take (s.qBeads q - have_)).foldl (fun t b => t.stopBead b (some a)) s
    else s)

/-- A unit of a queue fits on a bead of its context. -/
def State.unitFits (s : State) (q b : Nat) : Bool :=
  s.takes b (s.qAsid q) && (s.launches.any (fun l => l.queue == q && l.unplaced
      && (l.begun.isNone || s.roomForGang l b l.spw (l.gang l.rootRoles)))
    || s.segs.any (fun x => x.st.toPlace && x.die == dieOfBead b && s.launches.any (fun l => l.lid == x.launch && l.queue == q)
      && s.segFits b x))

/-- A queue has unplaced work and waits for beads. -/
def State.waitsForBead (s : State) (p q : Nat) : Bool :=
  s.queueOn q && s.hasWork q && !(s.partBeads p).any (fun b => s.atHand p q b || s.unitFits q b)

/-- A bead holds work of background queues only. -/
def State.background (s : State) (b : Nat) : Bool :=
  !(s.onBead b).isEmpty && (s.onBead b).all (fun g => (s.findLaunch g.launch).any (fun l => s.qClass l.queue == 2))

/-- At the quantum end of a background queue, each normal queue that waits takes the beads of background work that it can
use. -/
def State.takeBackground (s : State) (p q : Nat) : State :=
  if s.qClass q != 2 then s
  else ((s.queuesIn p).filter (fun n => s.qClass n == 1 && s.waitsForBead p n && s.qAsid n != s.qAsid q)).foldl (fun t n =>
    let bs := t.byCost ((t.partBeads p).filter (fun b =>
      t.stoppable b && (t.bead b).occ == some (s.qAsid q) && t.background b && t.canUse n b))
    bs.foldl (fun u b => u.stopBead b (some (s.qAsid n))) t) s

/-- At the quantum boundary of the current queue, while its deficit is positive and it waits, it takes one bead of
a queue of its class whose deficit is not positive. -/
def State.takeFromPeer (s : State) (p q : Nat) : State :=
  if (s.part p).cur == some q && decide (0 < (s.queue q).deficit) && s.waitsForBead p q then
    let owers := (s.queuesIn p).filter (fun x =>
      x != q && s.qClass x == s.qClass q && s.qAsid x != s.qAsid q && decide ((s.queue x).deficit ≤ 0))
    match s.byCost ((s.partBeads p).filter (fun b => s.stoppable b && owers.any (fun x =>
        (s.bead b).occ == some (s.qAsid x) && !(s.groupsOf x b).isEmpty) && s.canUse q b)) with
    | b :: _ => s.stopBead b (some (s.qAsid q))
    | [] => s
  else s

/-- Queues whose quantum has ended. -/
def State.quantaEnded (s : State) (p : Nat) : List Nat :=
  (s.queuesIn p).filter (fun q => s.reached ((s.queue q).quantumAt + s.qQuantum q * Config.cyclesPerUs))

/-- `QUANTUM_END_PREEMPTION` (R344). -/
def execQuantumEndPreemption (part : Nat) (s : State) : Host.Outcome State Fault Refusal :=
  .next (
    let qs := s.quantaEnded part
    let s1 := qs.foldl (fun t q => t.updQueue q (fun x => { x with quantumAt := s.timer.toNat })) s
    qs.foldl (fun t q => (t.takeBackground part q).takeFromPeer part q) s1)

end Sys2Proof.Machine
end

