-- ==== Sys2Proof/Machine/Power.lean ====
section
/-! DEFINITION. Rods: balancer, throttle, clamp, power arbiter, wear (R385 to R396). Currents are in mA, powers and
budgets in 1/16 W, temperatures in 1/16 degree. -/

namespace Sys2Proof.Machine

/-! ## Nodes (R385) -/

/-- N1, N2, N3 of the sampled bead currents. -/
def nodesOf (c : RodCurrents) : List Int := [c.i0 - c.i1, c.i1 - c.i2, c.i2 - c.i3]

/-- Every node reads below a bound. -/
def nodesBelow (c : RodCurrents) (m : Nat) : Bool := (nodesOf c).all (fun n => decide (n.natAbs < m))

/-- The light bead of node `k` (counted from 0, between beads `k` and `k + 1` of the rod). -/
def lightBead (k : Nat) (n : Int) : Nat := if 0 < n then k + 1 else k
def heavyBead (k : Nat) (n : Int) : Nat := if 0 < n then k else k + 1

/-- Filler of a node after a sample (R387). -/
def fillAfter (k : Nat) (n : Int) (old : Option Nat) : Option Nat :=
  if 1500 ≤ n.natAbs then some (lightBead k n) else if n.natAbs < 500 then none else old

/-! ## Samples (R387, R388) -/

/-- One sample of a rod, its throttle lift apart (R387, R388). The 130 cycles up to it count as filler or throttled as the rod
stood during them (R386). -/
def Rod.sample (r : Rod) (c : RodCurrents) : Rod :=
  let ns := nodesOf c
  let fill := (List.range 3).map (fun k => fillAfter k (ns.getD k 0) (r.fill.getD k none))
  let throt := r.throt || !nodesBelow c 3000
  { r with
    n1 := ns.getD 0 0, n2 := ns.getD 1 0, n3 := ns.getD 2 0, fill := fill, throt := throt
    streak := if throt && nodesBelow c 1500 then r.streak + 1 else 0
    fillcyc := if r.fill.any Option.isSome then (r.fillcyc + 130) % 2 ^ 32 else r.fillcyc
    throtcyc := if r.throt then (r.throtcyc + 130) % 2 ^ 32 else r.throtcyc
    samples := r.samples + 1 }

/-- Beads of a rod on which filler is active count the sample. -/
def State.countFill (s : State) (rod : Nat) : State :=
  (List.range 4).foldl (fun t i =>
    if (s.rod rod).fill.contains (some i) then t.updBead (4 * rod + i) (fun b => { b with fillN := b.fillN + 1 }) else t) s

/-- This sample is the 100th in a row that lifts the throttle. -/
def Rod.lifts (r : Rod) (c : RodCurrents) : Bool := r.throt && nodesBelow c 1500 && decide (99 ≤ r.streak) && !r.hotThrot

/-- The throttle is lifted (R388). -/
def Rod.unthrottled (r : Rod) : Rod := { r with throt := false, streak := 0 }

/-- A sample with all its effects. -/
def State.sampleRod (s : State) (rod : Nat) (c : RodCurrents) : State :=
  let lift := (s.rod rod).lifts c
  (s.updRod rod (fun r => if lift then (r.sample c).unthrottled else r.sample c)).countFill rod

/-- `BALANCER_SAMPLE` (R387, R388). -/
def execBalancerSample (rod : Nat) (c : RodCurrents) (s : State) : Host.Outcome State Fault Refusal :=
  .next (if 32 ≤ rod then s else s.sampleRod rod c)

/-- `THROTTLE_LIFT` (R388): the sample that lifts it. -/
def execThrottleLift (rod : Nat) (c : RodCurrents) (s : State) : Host.Outcome State Fault Refusal :=
  .next (if rod < 32 ∧ (s.rod rod).lifts c then s.sampleRod rod c else s)

/-! ## Records of power events (R396) -/

/-- A power or thermal event: a record in the queue of the partition that owns the rod, else a report to the
management endpoint. -/
def State.powerEvent (s : State) (cause rod : Nat) (info : Dword) : State :=
  match s.rodOwner rod with
  | some p => s.recordFault { cause := cause, part := p, path := 6, bead := 4 * rod, info := info } .nobody
  | none => s.emit (.power cause rod info)

/-! ## State errors (R384) -/

/-- The number that the record added last to a partition's queue will have. -/
def State.lastSeq (s : State) (p : Nat) : Nat :=
  (s.part p).seq + ((s.part p).pend.filter (fun x => x.seq.isNone)).length - 1

/-- A context is killed with cause 0x1b, and a record says so (R384). -/
def State.stateError (s : State) (b asid : Nat) : State :=
  let p := (s.ctx asid).part
  let s1 := s.recordFault { cause := 0x1b, asid := asid, part := p, path := 6, bead := b } .nobody
  s1.killContext asid 0x1b (s1.lastSeq p)

/-- Beads go out of service: every context with a group there is killed (R384). -/
def State.beadsOut (s : State) (bs : List Nat) : State :=
  let hit := (List.range 256).filterMap (fun a => (bs.find? (fun b => (s.onBead b).any (fun g => g.asid == a))).map (fun b => (b, a)))
  hit.foldl (fun t x => t.stateError x.1 x.2) (bs.foldl (fun t b => t.updBead b (fun x => { x with out := true })) s)

/-! ## The clamp (R389) -/

/-- A rod is clamped; its third clamp within 1 s takes it out of service. -/
def State.clampRod (s : State) (rod : Nat) (thermal : Bool) : State :=
  let now := s.timer.toNat
  let starts := ((s.rod rod).clamps.filter (fun t => decide (now < t + 1300000000))) ++ [now]
  let s1 := s.updRod rod (fun r => { r with clamp := some (now, thermal), clamps := starts })
  if 3 ≤ starts.length then
    (s1.beadsOut ((List.range 4).map (fun i => 4 * rod + i))).powerEvent 0x35 rod (BitVec.ofNat 64 rod)
  else s1

/-- `EMERGENCY_CLAMP` (R389): a node current has reached 4,000 mA. -/
def execEmergencyClamp (rod : Nat) (c : RodCurrents) (s : State) : Host.Outcome State Fault Refusal :=
  .next (if 32 ≤ rod ∨ (s.rod rod).clamp.isSome ∨ nodesBelow c 4000 then s
    else (s.powerEvent 0x30 rod (s.rod rod).imb).clampRod rod false)

/-- `CLAMP_LIFT` (R389, R395): no sooner than 100 µs after the clamp began, at a sample with every node below
500 mA; of a thermal clamp, with the rod below 100 degrees. The rod resumes under throttle. -/
def execClampLift (rod : Nat) (c : RodCurrents) (s : State) : Host.Outcome State Fault Refusal :=
  .next (match (s.rod rod).clamp with
    | none => s
    | some (t, thermal) =>
      if s.reached (t + 130000) && nodesBelow c 500 && (!thermal || decide ((s.rod rod).temp < 1600)) then
        ((s.sampleRod rod c).updRod rod (fun r => { r with clamp := none, throt := true, streak := 0 })).powerEvent 0x32 rod
          (BitVec.ofNat 64 ((s.timer.toNat - t) / Config.cyclesPerUs))
      else s)

/-! ## Wear and ceilings (R394) -/

/-- CEIL of a value of WEAR. -/
def ceilOf (wear : Nat) : Nat :=
  if wear < 0x1e000000 then 0x460 else if wear < 0x3c000000 then 0x400 else if wear < 0x5a000000 then 0x3a0 else 0x340

/-- Units of `wearFrac` in one unit of WEAR: 1/8 s is 12,500 periods. -/
def wearUnit : Nat := 12500 * 65536

/-- AF of R394 in 1/65536, rounded down (DESIGN CHOICE, log 9), from the highest voltage in mV and the highest temperature in
1/16 degree: the exponent of 2 is `(16 (V - 850) + 5 (T - 1360)) / 800`. -/
def agingFactor (volt : Nat) (temp : Int) : Nat :=
  let n := 12800 + (16 * ((volt : Int) - 850) + 5 * (temp - 1360))
  if n < 0 then 0
  else
    (List.range (n.toNat / 800 + 1)).foldr (fun i f => if (f + 2 ^ i) ^ 800 ≤ 2 ^ n.toNat then f + 2 ^ i else f) 0

/-- A period's readings: power, temperature, wear and the ceiling that follows it. -/
def Rod.readPeriod (r : Rod) (m : RodReading) : Rod :=
  let f := r.wearFrac + agingFactor m.volt m.temp
  let wear := min (2 ^ 32 - 1) (r.wear + f / wearUnit)
  { r with
    power := m.power, temp := m.temp, tempBead := m.tempBead % 4, wear := wear, wearFrac := f % wearUnit
    ceil := ceilOf wear, hotThrot := r.hotThrot && decide (1600 ≤ m.temp) }

/-! ## The arbiter (R392, R393, R395) -/

/-- A rod with a resident group on any of its beads. -/
def State.rodOccupied (s : State) (rod : Nat) : Bool := (List.range 4).any (fun i => !(s.onBead (4 * rod + i)).isEmpty)

/-- Sum of D over the occupied rods of a partition: their ceilings. -/
def State.partDemand (s : State) (p : Nat) : Nat :=
  sumOf ((List.range 32).map (fun r => if s.rodOwner r == some p && s.rodOccupied r then (s.rod r).ceil else 0))

/-- T of a partition (R392). -/
def State.partTake (s : State) (p : Nat) : Nat := min (16 * nbits (s.pcsr p 0x909) 0 16) (s.partDemand p)

/-- Sum of T over the enabled partitions. -/
def State.allTakes (s : State) : Nat :=
  sumOf ((List.range 16).map (fun p => if s.partEn p then s.partTake p else 0))

/-- BUDGET of a rod for the next period (R392, R395), rounded down. -/
def State.budgetOf (s : State) (rod : Nat) : Nat :=
  let unocc := ((List.range 32).filter (fun r => !s.rodOccupied r)).length
  let avail := 16 * ((s.win (offModule 0x802)).toNat - s.outside) - 128 * unocc
  let total := s.allTakes
  let b :=
    if !s.rodOccupied rod then 128
    else match s.rodOwner rod with
      | none => 480
      | some p =>
        let t := s.partTake p
        let d := (s.rod rod).ceil
        max 480 (if total ≤ avail then t * d / s.partDemand p else avail * t * d / (total * s.partDemand p))
  if 1680 ≤ (s.rod rod).temp then min 640 b else b

/-- Step 0 is permitted for a rod (R393 to R395). -/
def Rod.permits0 (r : Rod) : Bool := decide (832 < r.budget) && decide (r.temp < 1520) && decide (r.wear < 0x5a000000)

/-- The base step at the end of a period: power is compared with the budget of that period, and step 0 is left
when it is not permitted under the next one. -/
def Rod.nextStep (r : Rod) (oldBudget : Nat) : Nat :=
  if oldBudget < r.power then min 4 (r.step + 1)
  else
    let up := if r.power + 64 < oldBudget ∧ 0 < r.step ∧ (1 < r.step ∨ r.permits0) then r.step - 1 else r.step
    if up = 0 ∧ !r.permits0 then 1 else up

/-- Beads of a rod that are trimmed in the next period: the heavy bead of every node whose light bead issued
filler in more than half of the samples. -/
def State.trimmed (s : State) (rod : Nat) : List Nat :=
  let r := s.rod rod
  ([r.n1, r.n2, r.n3].zipIdx.filter (fun (x : Int × Nat) =>
    x.1 != 0 && decide (r.samples < 2 * (s.bead (4 * rod + lightBead x.2 x.1)).fillN))).map (fun (x : Int × Nat) => heavyBead x.2 x.1)

/-- The end of a period for one rod: budget, step, trims. -/
def State.settleRod (s : State) (budget : Nat) (cut : List Nat) (rod : Nat) : State :=
  let old := (s.rod rod).budget
  let s1 := s.updRod rod (fun r =>
    let r1 := { r with budget := budget, samples := 0 }
    { r1 with step := r1.nextStep old })
  (List.range 4).foldl (fun t i => t.updBead (4 * rod + i) (fun b => { b with trim := cut.contains i, fillN := 0 })) s1

/-- Readings of a rod that stood as `old`, with the event of a lowered ceiling. -/
def State.readRod (s : State) (old : Rod) (m : RodReading) (rod : Nat) : State :=
  let new := old.readPeriod m
  let s1 := s.updRod rod (fun _ => new)
  if new.ceil < old.ceil then s1.powerEvent 0x33 rod (BitVec.ofNat 64 new.wear) else s1

/-- Thermal limits of a rod (R395); a thermal clamp takes the place of one for a node current (log 44). -/
def State.heatRod (s : State) (rod : Nat) : State :=
  let s1 := if 1760 ≤ (s.rod rod).temp then s.updRod rod (fun r => { r with throt := true, hotThrot := true, streak := 0 }) else s
  if 1920 ≤ (s.rod rod).temp ∧ (s.rod rod).clamp.all (fun c => !c.2) then (s1.powerEvent 0x31 rod (s.rod rod).tempReg).clampRod rod true else s1

/-- Module power above CAP for 100 consecutive periods (R396). -/
def State.overPower (s : State) : State :=
  let n := if (s.win (offModule 0x802)).toNat < s.modpwr then s.overCap + 1 else 0
  let s1 := { s with overCap := n }
  if n = 100 then s1.emit (.power 0x34 32 (s.readRegister (offModule 0x803))) else s1

/-- `POWER_ARBITER_PERIOD` (R392 to R395): readings, thermal limits, then budgets, steps and trims. -/
def execPowerArbiterPeriod (m : PeriodReading) (s : State) : Host.Outcome State Fault Refusal :=
  .next (
    let s1 := { s with modpwr := m.power % 2 ^ 16, outside := m.outside % 2 ^ 16 }
    let s2 := ((m.rods.take 32).zipIdx).foldl (fun t (x : RodReading × Nat) => t.readRod (s.rod x.2) x.1 x.2) s1.overPower
    let s3 := (List.range (min 32 m.rods.length)).foldl State.heatRod s2
    ((List.range 32).map (fun r => (s3.budgetOf r, s3.trimmed r, r))).foldl (fun t x => t.settleRod x.1 x.2.1 x.2.2) s3)

/-- `WEAR_SAVE` (R394). -/
def execWearSave (s : State) : Host.Outcome State Fault Refusal :=
  .next { s with flash := { s.flash with
    wear := (List.range 32).foldl (fun (m : SMap Nat) r => SMap.set 0 m r (s.rod r).wear) s.flash.wear } }

end Sys2Proof.Machine
end

