-- ==== Sys2Proof/Machine/Boot.lean ====
section
/-! DEFINITION. Bring-up, attestation, the management sideband, and reliability events (R383, R384, R394, R403 to
R409). -/

namespace Sys2Proof.Machine

/-! ## The journal (R407) -/

/-- A step of the bring-up and its unit, in order. -/
def bootSteps : List (Nat × Nat) :=
  [(0x01, 0), (0x02, 0), (0x10, 0)] ++ (List.range 24).map (fun u => (0x20, u)) ++ [(0x30, 0), (0x40, 0), (0x40, 1)]
    ++ (List.range 4).map (fun u => (0x50, u)) ++ (List.range 8).map (fun u => (0x60, u)) ++ [(0x70, 0), (0x7f, 0)]

/-- Skippable: LPDDR-6 packages, CXL ports and Ethernet ports. -/
def skippable (step : Nat) : Bool := step == 0x20 || step == 0x50 || step == 0x60

/-- The last outcome of each start for one step and unit, the latest first. -/
def finals (step unit : Nat) : List Journal → List Journal → List Nat
  | [], acc => acc.map (·.outcome)
  | j :: js, acc =>
    if j.step = step ∧ j.unit = unit then
      match acc with
      | a :: rest => if a.boot = j.boot then finals step unit js (j :: rest) else finals step unit js (j :: acc)
      | [] => finals step unit js [j]
    else finals step unit js acc

/-- How a step is handled at this start. -/
inductive Handling where
  | normal
  | conservative
  | skip
  deriving DecidableEq, Repr

def handling (journal : List Journal) (step unit : Nat) : Handling :=
  match finals step unit journal [] with
  | a :: b :: _ =>
    if a = 2 ∧ (b = 0 ∨ b = 2) ∧ skippable step then .skip else if a = 0 ∨ a = 2 then .conservative else .normal
  | [a] => if a = 0 ∨ a = 2 then .conservative else .normal
  | [] => .normal

/-- The ring of journal records: the latest are kept (R407; how many is open, log 8). -/
def ring (js : List Journal) : List Journal :=
  if js.length ≤ 256 then js else js.drop (js.length - (256 + Config.journalMore))

/-! ## Firmware images (R406) -/

/-- The bytes of a copy. -/
def Flash.image (f : Flash) (copyB : Bool) : List Byte :=
  if copyB then (List.range f.lenB).map (fun i => SMap.get 0 f.copyB i)
  else (List.range f.lenA).map (fun i => SMap.get 0 f.copyA i)

/-- The ROM accepts a copy, or verified firmware a later stage. -/
def accepts (img : List Byte) : Bool :=
  ofLe (img.take 4) == 0x53425a57 && decide (Config.fusedSvn.toNat ≤ ofLe ((img.drop 4).take 4))
    && ((img.drop 12).take 52).all (· == 0) && Config.imageVerifies img

/-- What is measured of it: header and body. -/
def measuredPart (img : List Byte) : List Byte := img.take (64 + ofLe ((img.drop 8).take 4))

/-! ## Bring-up (R406, R407) -/

/-- A bring-up in progress. -/
structure Bring where
  flash : Flash
  boot : Boot
  /-- The journal as the start finds it. -/
  before : List Journal
  /-- The bring-up has stopped at a step that failed. -/
  stopped : Bool
  /-- Some Ethernet port was not run normally. -/
  ethAgain : Bool
  deriving DecidableEq, Repr

/-- A journal record of this start. -/
def Bring.entry (x : Bring) (step unit outcome : Nat) : Journal :=
  { step := step, unit := unit, outcome := outcome, boot := x.flash.boots % 2 ^ 32 }

/-- Add records to the journal. -/
def Bring.note (x : Bring) (js : List Journal) : Bring := { x with flash := { x.flash with journal := ring (x.flash.journal ++ js) } }

/-- Write an outcome, after the record that the step has started. -/
def Bring.write (x : Bring) (step unit outcome : Nat) : Bring :=
  let y := x.note ((if outcome = 4 then [] else [x.entry step unit 0]) ++ [x.entry step unit outcome])
  { y with boot := { x.boot with outcomes := x.boot.outcomes ++ [x.entry step unit outcome] } }

/-- What a part answers; one without a listed result has passed. -/
def partPasses (b : BootInputs) (step unit : Nat) : Bool :=
  (b.results.find? (fun r => r.step.toNat == step && r.unit.toNat == unit)).elim true (·.passed)

/-- The step passes: the first stage by its image, the start of the stewards by the later stages too, which the first verifies
(R406; that it does so there is DESIGN CHOICE, log 37), every other by its part. -/
def Bring.passes (x : Bring) (b : BootInputs) (step unit : Nat) (h : Handling) : Bool :=
  if step = 0x02 then accepts (x.flash.image (h == .conservative))
  else partPasses b step unit && (step != 0x10 || x.flash.later.all accepts)

/-- What a step that passed brings up. -/
def Bring.bringUp (x : Bring) (b : BootInputs) (step unit : Nat) (h : Handling) : Bring :=
  let boot := { x.boot with cons := x.boot.cons || h == .conservative }
  let boot' : Boot :=
    if step = 0x02 then { boot with measured := Config.measure384 (measuredPart (x.flash.image (h == .conservative))) }
    else if step = 0x10 then
      { boot with measured := boot.measured ++ x.flash.later.flatMap (fun i => Config.measure384 (measuredPart i)) }
    else if step = 0x20 then { boot with chans := boot.chans + 15 * 2 ^ (4 * unit) }
    else if step = 0x50 then { boot with cxl := boot.cxl + 2 ^ unit, cxlBytes := boot.cxlBytes.set unit (b.cxlBytes.getD unit 0) }
    else if step = 0x60 then { boot with eth := boot.eth + 2 ^ unit }
    else boot
  { x with boot := boot' }

/-- A step that may not be skipped has failed: after a failure at the start before, the module is in recovery;
else the bring-up stops here. -/
def Bring.fail (x : Bring) (again : Bool) : Bring := { x with stopped := true, boot := { x.boot with recovery := again } }

/-- One step (R407). After the Ethernet ports one of them must be up. -/
def Bring.step (b : BootInputs) (x : Bring) (su : Nat × Nat) : Bring :=
  if x.stopped then x
  else
    let step := su.1
    let unit := su.2
    let h := handling x.before step unit
    let x1 := if step = 0x60 then { x with ethAgain := x.ethAgain || h != .normal } else x
    let x2 :=
      if h = .skip then x1.write step unit 4
      else if x1.passes b step unit h then (x1.write step unit (if h = .conservative then 3 else 1)).bringUp b step unit h
      else
        let y := x1.write step unit 2
        if skippable step then y else y.fail (h == .conservative)
    if step = 0x60 ∧ unit = 7 ∧ x2.boot.eth = 0 then x2.fail x2.ethAgain else x2

/-- WEAR is restored; after an unrecorded stop it is raised by 7,680 units (R394). -/
def restoredRods (f : Flash) : SMap Rod :=
  (List.range 32).foldl (fun (m : SMap Rod) r =>
    let w := min (2 ^ 32 - 1) (SMap.get 0 f.wear r + (if f.orderly then 0 else 7680))
    SMap.set {} m r { wear := w, ceil := ceilOf w }) []

/-- Module reset: every part starts from reset; the flash keeps what it holds. What has left the module, what
comes to it, and the step counter are not the module's. -/
def State.moduleReset (s : State) : State :=
  { State.reset with tick := s.tick, out := s.out, agenda := s.agenda, flash := s.flash }

/-- An orderly shutdown writes every rod's WEAR, which never falls (R394). -/
def State.shutdownFlash (s : State) : Flash :=
  if !s.flash.orderly then s.flash
  else { s.flash with
    wear := (List.range 32).foldl (fun (m : SMap Nat) r => SMap.set 0 m r (max (SMap.get 0 s.flash.wear r) (s.rod r).wear)) s.flash.wear }

/-- `POWER_ON_RESET` (R406, R407), after the orderly shutdown of a module that runs (R394). A loss of power while a step runs
leaves the record that it has started. -/
def execPowerOnReset (b : BootInputs) (s : State) : Host.Outcome State Fault Refusal :=
  let f := s.shutdownFlash
  let x0 : Bring := { flash := { f with boots := f.boots + 1 }, boot := { rev := b.rev }, before := f.journal
                      stopped := false, ethAgain := false }
  .next (match b.stopAt with
    | none =>
      let x := bootSteps.foldl (Bring.step b) x0
      { s.moduleReset with flash := { x.flash with orderly := true }, boot := x.boot, rods := restoredRods f }
    | some n =>
      let x := (bootSteps.take n).foldl (Bring.step b) x0
      let y := match bootSteps[n]? with
        | some su => if x.stopped || handling x.before su.1 su.2 == Handling.skip then x else x.note [x.entry su.1 su.2 0]
        | none => x
      { s.moduleReset with flash := { y.flash with orderly := false } })

/-- `UNRECORDED_STOP` (R394): all state is lost but for the flash, whose WEAR and journal stand as last
written. -/
def execUnrecordedStop (s : State) : Host.Outcome State Fault Refusal :=
  .next { s.moduleReset with flash := { s.flash with orderly := false } }

/-! ## Attestation and the sideband (R408, R409) -/

/-- A journal record's 16 bytes (R407). -/
def Journal.bytes (j : Journal) : List Byte :=
  leBytes (j.step % 2 ^ 16 + 2 ^ 16 * (j.unit % 256) + 2 ^ 24 * (j.outcome % 16) + 2 ^ 32 * (j.boot % 2 ^ 32)) 16

/-- The attestation report (R408). -/
def State.attestReport (s : State) (nonce : BitVec 256) : List Byte :=
  leBytes nonce.toNat 32 ++ s.boot.measured ++ leBytes Config.fusedSvn.toNat 4 ++ leBytes s.boot.rev.toNat 8
    ++ leBytes s.capacity 8 ++ s.boot.outcomes.flatMap Journal.bytes

/-- `ATTESTATION_REQUEST` (R408): in recovery the module answers on the sideband only. -/
def execAttestationRequest (nonce : BitVec 256) (s : State) : Host.Outcome State Fault Refusal :=
  .next (if s.boot.recovery then s
    else s.emit (.attest (s.attestReport nonce) (Config.identitySign (s.attestReport nonce))))

/-- `SIDEBAND_MODULE_RESET` (R409): no orderly shutdown precedes it. -/
def execSidebandModuleReset (s : State) : Host.Outcome State Fault Refusal :=
  .next { s.moduleReset with flash := { s.flash with orderly := false } }

/-- Bytes of an area with `data` written at `off`. -/
def putBytes (old : List Byte) (off : Nat) (data : List Byte) : List Byte :=
  (List.range (max old.length (off + data.length))).map (fun i =>
    (if off ≤ i then data[i - off]? else none).getD (old.getD i 0))

/-- Read a journal record back (R407). -/
def Journal.ofBytes (bs : List Byte) : Journal :=
  let v := ofLe bs
  { step := nbits v 0 16, unit := nbits v 16 8, outcome := nbits v 24 4, boot := nbits v 32 32 }

/-- The records of the journal's bytes. -/
def journalOf (bs : List Byte) : List Journal :=
  (List.range ((bs.length + 15) / 16)).map (fun i => Journal.ofBytes ((bs.drop (16 * i)).take 16))

/-- The flash after a write in one of its areas: copy A, copy B, the journal, WEAR, the certificates, or a later stage. Which
number names which area is DESIGN CHOICE (log 37). -/
def Flash.write (f : Flash) (area off : Nat) (data : List Byte) : Flash :=
  let put (m : SMap Byte) : SMap Byte := data.zipIdx.foldl (fun (m : SMap Byte) x => SMap.put m (off + x.2) x.1) m
  match area with
  | 0 => { f with copyA := put f.copyA, lenA := max f.lenA (off + data.length) }
  | 1 => { f with copyB := put f.copyB, lenB := max f.lenB (off + data.length) }
  | 2 => { f with journal := ring (journalOf (putBytes (f.journal.flatMap Journal.bytes) off data)) }
  | 3 =>
    let bs := putBytes ((List.range 32).flatMap (fun r => leBytes (SMap.get 0 f.wear r) 4)) off data
    { f with wear := (List.range 32).foldl (fun (m : SMap Nat) r => SMap.set 0 m r (ofLe ((bs.drop (4 * r)).take 4))) f.wear }
  | 4 => { f with certs := putBytes f.certs off data }
  | n + 5 => { f with later := (List.range (max f.later.length (n + 1))).map (fun i =>
      if i = n then putBytes (f.later.getD i []) off data else f.later.getD i []) }

/-- `SIDEBAND_FLASH_WRITE` (R409): in recovery only. -/
def execSidebandFlashWrite (copy off : Nat) (data : List Byte) (s : State) : Host.Outcome State Fault Refusal :=
  .next (if !s.boot.recovery then s else { s with flash := s.flash.write copy off data })

/-- `SIDEBAND_STATUS_REPORT` (R409). -/
def execSidebandStatusReport (s : State) : Host.Outcome State Fault Refusal :=
  .next (s.emit (.status ((List.range 32).map (fun r => (s.rod r).temp)) s.modpwr s.capacity))

/-! ## Reliability (R383, R384) -/

/-- `PATROL_SCRUB` (R383, R384): a single fault is corrected and counted; what cannot be corrected poisons its
sector (R137). -/
def execPatrolScrub (pa : Nat) (found : ScrubFinding) (s : State) : Host.Outcome State Fault Refusal :=
  .next (match found with
    | .clean => s
    | .corrected => { s with errcnt := s.errcnt + 1 }
    | .uncorrectable => if s.poison.contains (sectorOf pa) then s else { s with poison := sectorOf pa :: s.poison })

/-- `STATE_COMPARE` (R384): a mismatch stops the bead. -/
def execStateCompare (bead : Nat) (agrees : Bool) (s : State) : Host.Outcome State Fault Refusal :=
  .next (if agrees || decide (128 ≤ bead) then s else s.beadsOut [bead])

/-- A mask without a bit. -/
def clearBit (m i : Nat) : Nat := if nbits m i 1 = 1 then m - 2 ^ i else m

/-- `LINK_RETRANSMIT_FAILURE` (R384): the channel or port is taken down. -/
def execLinkRetransmitFailure (link : LinkId) (s : State) : Host.Outcome State Fault Refusal :=
  .next { s with boot := match link with
    | .lpddr c => { s.boot with chans := clearBit s.boot.chans c }
    | .cxl p => { s.boot with cxl := clearBit s.boot.cxl p }
    | .eth p => { s.boot with eth := clearBit s.boot.eth p } }

end Sys2Proof.Machine
end

