-- ==== Sys2Proof/Machine/Fetch.lean ====
section
/-! DEFINITION. Fetching a word (R58, R303 to R306), its legality in its place (R185, R186), the start of an
idempotent region (R76), lookahead windows (R63), and the drops that cache replacement makes. -/

namespace Sys2Proof.Machine

/-- What a fetch brings. -/
inductive Fetched where
  | word (w : Inst)
  | fault (f : TFault)
  /-- Poison at a virtual sector address (R137). -/
  | poison (va : Nat)
  deriving DecidableEq, Repr

/-- The word at the run's address in the loop buffer of a slice that runs alone (R58). -/
def Group.loopWord (g : Group) : Option Inst :=
  if g.run.bcast then none
  else ((SMap.get [] g.loops (g.run.slices.headD 0)).find? (fun x => x.1 == g.run.pc)).map (·.2)

/-- The word at an address in the core's L0 or overlay frames. -/
def Core.l0Word (c : Core) (asid va : Nat) : Option Inst :=
  (c.l0.find? (fun x => x.asid == asid && x.va == va)).map (·.word)

/-- Fetch the word at which the run of the focus stands. -/
def State.fetch (s : State) : Fetched × State :=
  let g := s.grp
  let va := g.run.pc.toNat
  match g.loopWord with
  | some w => (.word w, s)
  | none => match (s.core g.core).l0Word g.asid va with
    | some w => (.word w, s)
    | none => match s.translate (some g.core) g.bead g.asid va .fetch with
      | (.error f, s1) => (.fault f, s1)
      | (.ok pa, s1) =>
        if s1.poison.contains (sectorOf pa) then (.poison (va / 64 * 64), s1)
        else
          let w := wordOfBytes (s1.bytesAt pa 16)
          let page := s1.pageOf g.core g.bead g.asid va
          let line : CodeLine := { asid := g.asid, va := va, pa := pa, tgen := s1.tgen.toNat, page := page, word := w, ovl := none }
          (.word w, s1.updCore g.core (fun c => { c with l0 := putLine (Config.allocFrom s.tick) c.l0 line }))

/-- The role of the group: of the logical group of its lowest active lane (R51, R72). -/
def State.roleOf (s : State) (g : Group) : Option Role :=
  let j := (lowLane g.run.active g.hw).elim 0 g.lgOf
  (s.launchOf g).roles[(g.lg j).role]?

/-- What the legality of the next word depends on (R185). -/
def State.legalCtx (s : State) : LegalCtx :=
  let g := s.grp
  let l := s.curLaunch
  let role := s.roleOf g
  { slots := l.slots
    lattice := l.lattice
    regRates := l.regRates
    regDflt := l.regDflt
    paired := decide (64 < g.lw)
    width := g.lw
    sort := (s.ctx g.asid).sort && s.partSort (s.ctx g.asid).part
    lregs := (role.map (·.lregs)).getD 0
    gregs := (role.map (·.gregs)).getD 0
    -- a handler's first word belongs to the rate whose handler it is (R315)
    rates := if g.run.count = 0 && !(g.inTrap && g.run.pc.toNat == g.handler g.run.rate) then
        g.rate :: (latCoGroup l.lattice g.rate).toList
      else [g.run.rate]
    pos := g.run.count
    nargs := l.segs.map (·.nargs) }

/-! ## Lookahead windows (R63) -/

/-- Registers that a word writes. -/
def regsWritten (cx : LegalCtx) (o : OpSpec) (w : Inst) : List Nat :=
  (match dstOperand (some cx) o w with | some (d, n, _) => (List.range n).map (d + ·) | none => [])
  ++ (if opcOf w = 0x94 then [natAt w 59 11] else [])
  ++ (if opcOf w = 0x91 then [(cx.lat (subOf w % 8)).countreg] else [])

/-- Registers that a word reads. -/
def regsRead (cx : LegalCtx) (o : OpSpec) (w : Inst) : List Nat :=
  (srcOperands (some cx) o w).flatMap (fun x =>
    if 2048 ≤ x.2.1 then [] else (List.range x.2.2.1).map (x.2.1 + ·))

/-- Predicates that a word reads, `p0` apart. -/
def predsRead (o : OpSpec) (w : Inst) : List Nat :=
  (natAt w 17 4 :: (if o.a = .pr then [natAt w 35 4] else []) ++ (if o.b = .pr then [natAt w 47 4] else [])
    ++ (if o.c = .pr then [natAt w 59 4] else [])).filter (· != 0)
def predsWritten (o : OpSpec) (w : Inst) : List Nat := if o.d = .pr then [natAt w 24 4] else []

/-- Handles that a word names. -/
def hndsWritten (o : OpSpec) (w : Inst) : List Nat := if o.hd then [natAt w 71 4] else []
def hndsRead (o : OpSpec) (w : Inst) : List Nat := if o.hs then [natAt w 75 4] else []

/-- What a word inside a window of a thread meets while the result is still in flight (R63): DETAIL and
`TRAPINFO`. -/
def State.hazard (s : State) (cx : LegalCtx) (o : OpSpec) (w : Inst) : Option (Nat × Dword) :=
  let g := s.grp
  let act := lanesOf g.run.active g.hw
  let rs := regsWritten cx o w ++ regsRead cx o w
  let ps := predsWritten o w ++ predsRead o w
  let hs := hndsWritten o w ++ hndsRead o w
  let info (n : Window) (r : Nat) : Dword := BitVec.ofNat 64 (r + 2 ^ 32 * n.size)
  let hit := g.windows.findSome? (fun n =>
    if act.any (fun l => SMap.get 0 n.left l != 0) then
      match n.regs.find? rs.contains, n.preds.find? ps.contains, n.hnds.find? hs.contains with
      | some r, _, _ => some (1, info n r)
      | none, some p, _ => some (1, info n p)
      | none, none, some q => some (2, BitVec.ofNat 64 q)
      | none, none, none => none
    else none)
  match hit with
  | none => none
  | some x => if Config.stillInFlight s.tick then some x else none

/-- The words that read on the SAMP path (R138): the sampler's and `trav`. -/
def sampWords : List Nat := [0x96, 0xa7, 0xa8, 0xa9, 0xaa]

/-- An engine word: it writes its results at acceptance (R277). -/
def engineOpc (op : Nat) : Bool := decide (0xd0 ≤ op) && decide (op ≤ 0xdb)

/-- A word completed in these lanes: windows shrink by one word for each of its threads, the word's own
window opens for those in which it was performed, `exe`, and the slices that executed hold the word (R58, R63), but for the words that refetch (R307, R308). -/
def Group.noteWord (g : Group) (cx : LegalCtx) (w : Inst) (active exe : Mask) (slices : List Nat) (pc : Dword) : Group :=
  let act := lanesOf active g.hw
  let less (n : Window) : Window :=
    { n with left := act.foldl (fun m l => SMap.set 0 m l (SMap.get 0 m l - 1)) n.left }
  let old := (g.windows.map less).filter (fun n => !n.left.isEmpty)
  let la := natAt w 11 4
  let new : List Window := match opSpec (opcOf w) with
    | none => []
    | some o =>
      let n : Window := { regs := regsWritten cx o w, preds := predsWritten o w, hnds := hndsWritten o w, size := la,
                          left := (lanesOf exe g.hw).map (fun l => (l, la)), samp := sampWords.contains (opcOf w) }
      if la = 0 || exe = 0 || engineOpc (opcOf w) || (n.regs.isEmpty && n.preds.isEmpty && n.hnds.isEmpty) then [] else [n]
  { g with
    windows := old ++ new
    loops := if opcOf w = 0xe5 || opcOf w = 0xe7 then g.loops else slices.foldl (fun m k => SMap.put m k (((pc, w) :: SMap.get [] m k).take 48)) g.loops }

/-! ## Issue -/

/-- The word starts an idempotent region (R76): an earlier region ends, and the state at its start is
recorded. Where a hardware group carries several logical groups, RMASK holds the live lanes of all of them, and the
convergence of those that are active counts (DESIGN CHOICE, log 44). -/
def State.startRegion (s : State) : State :=
  let s1 := s.endRegion
  s1.setGrp { s1.grp with div := { s1.grp.div with inreg := true, rstart := s1.grp.run.pc, rmask := s1.grp.div.live } }

/-- What comes of the next word before it executes. -/
inductive Issue where
  | trap (t : Trap) (s : State)
  | run (i : Instr) (w : Inst) (s : State)
  deriving DecidableEq, Repr

/-- Issue a legal word: its run takes its rate, its region starts, its window hazards are looked for. -/
def State.issueLegal (s : State) (cx : LegalCtx) (o : OpSpec) (w : Inst) (i : Instr) : Issue :=
  let s1 := s.setGrp { s.grp with run := { s.grp.run with rate := rateOf w, last := natAt w 15 1 == 1 } }
  if natAt w 16 1 = 1 ∧ ¬ s1.grp.converged then .trap (maskTrap 0x07 s1.grp.run.active) s1
  else
    let s2 := if natAt w 16 1 = 1 then s1.startRegion else s1
    match s2.hazard cx o w with
    | some (d, x) => .trap { cause := 0x07, detail := d, info := x } s2
    | none => .run i w s2

/-- The illegal-instruction trap (R187). -/
def illegalTrap (r : Reject) : Trap :=
  { cause := 0x10, info := BitVec.ofNat 64 (r.reason + 256 * r.lo + 65536 * r.hi) }

/-- Fetch, decode and check the next word of the focus. -/
def State.issue (s : State) : Issue :=
  match s.fetch with
  | (.fault f, s1) => .trap { cause := 0x11, info := BitVec.ofNat 64 f.va, rec_ := f.rec_ 5 } s1
  | (.poison a, s1) =>
    .trap { cause := 0x14, info := BitVec.ofNat 64 a, rec_ := { path := 5, acc := 3, va := BitVec.ofNat 64 a } } s1
  | (.word w, s1) =>
    match lowestReject (allRejects s1.legalCtx w), opSpec (opcOf w), build w with
    | none, some o, some i => s1.issueLegal s1.legalCtx o w i
    | some r, _, _ => .trap (illegalTrap r) s1
    | none, _, _ => .trap (illegalTrap ⟨1, 0, 7⟩) s1

/-- After the word: what its completion leaves in windows and loop buffers; `s` is the state in which it
executed. A group that is being stopped and stands in an idempotent region stops there, its region killed (R80, R350). -/
def State.afterWord (t s : State) (w : Inst) : State :=
  let g := s.grp
  let exe := maskOf ((s.movers (unpackHdr w) (g.execLanes s.curLaunch (unpackHdr w))).map (·.1))
  let u := t.updGroup g.gid (fun x =>
    if x.words = g.words + 1 then x.noteWord s.legalCtx w g.run.active exe g.run.slices g.run.pc else x)
  match u.findGroup g.gid with
  | some x => if x.div.inreg && u.teamHolds x then u.killRegion g.gid else u
  | none => u

/-! ## Replacement -/

/-- Replacement drops a line (R133, R306, R362): allowed at any time. -/
def State.evict (s : State) (core kind addr : Nat) : State :=
  match kind with
  | 0 => s.updCore core (fun c => { c with l1 := SMap.del c.l1 addr })
  | 1 => s.updCore core (fun c => { c with samp := SMap.del c.samp addr })
  | 2 => s.updCore core (fun c => { c with l0 := c.l0.filter (fun x => x.va != addr || x.ovl.isSome) })
  | 3 => s.updCore core (fun c => { c with tlb := c.tlb.filter (fun x => x.vbase != addr) })
  | 5 => s.updBead (core / 4) (fun b => { b with tlb2 := b.tlb2.filter (fun x => x.vbase != addr) })
  | 6 => { s with walkers := SMap.upd s.walkers (dieOfCore core) (fun es => es.filter (fun x => x.at_ != addr)) }
  | _ => { s with wmask := SMap.del s.wmask addr }

end Sys2Proof.Machine
end

