-- ==== Sys2Proof/Machine/GroupEvents.lean ====
section
/-! DEFINITION. Machine events of groups and of the quire: issue of runs, the ends of waits, timers, bins
(R18, R39 to R43, R62, R65, R69, R246, R269, R270, R288, R305, R322, R326 to R328). -/

namespace Sys2Proof.Machine

/-- A waiting group becomes ready. The words from the one at which it waited to the boundary are the rest of its run, which
wants a port like any run (R62, R65). -/
def State.wake (s : State) (gid : Nat) (f : Group → Group) : State :=
  s.updGroup gid (fun g => f { g.leavePort with wait := .ready, readySince := s.timer.toNat })

/-! ## Issue of runs (R65) -/

/-- The timer of the group is due (R317, R322). -/
def State.timerDue (s : State) (g : Group) : Bool :=
  g.tcmp != 0 && decide (g.tcmp.toNat ≤ s.timer.toNat) && !g.inTrap

/-- The rod of a bead is not clamped: under a clamp groups stay as they stand, and no trap of a timer reaches them (R389). -/
def State.unclamped (s : State) (b : Nat) : Bool := (s.rod (rodOfBead b)).clamp.isNone

/-- The rod of a core issues: it is not clamped (R389), and the bead is in service. -/
def State.coreIssues (s : State) (c : Nat) : Bool := s.unclamped (beadOfCore c) && !(s.bead (beadOfCore c)).out


/-- The group's next run can begin (R65). -/
def State.readyToIssue (s : State) (g : Group) : Bool :=
  g.gid != 0 && g.wait == .ready && !g.run.on && g.div.live != 0 && !s.teamHolds g && !s.timerDue g && !g.anyStalled

/-- Issue ports of a core that runs in progress hold: a pair holds both (R73). -/
def State.portsUsed (s : State) (c : Nat) : Nat :=
  sumOf ((s.onCore c).map (fun g => if g.run.on && g.wait == .ready then g.hw / 64 else 0))

/-- A group has been ready longer than another: since an earlier cycle, or in one cycle passed by more runs (R65). -/
def Group.readyBefore (x g : Group) : Bool :=
  decide (x.readySince < g.readySince) || (x.readySince == g.readySince && decide (g.passedOver < x.passedOver))

/-- The group that has been ready longest; of several, the first in the list of groups (DESIGN CHOICE, log 44). -/
def oldestReady : List Group → Option Group
  | [] => none
  | g :: gs => match oldestReady gs with
    | none => some g
    | some x => if x.readyBefore g then some x else some g

/-- Energy class of a group: that of its lowest live lane's role (R51, R52). -/
def State.balOf (s : State) (g : Group) : Nat :=
  ((s.launchOf g).role (g.lg ((lowLane g.div.live g.hw).elim 0 g.lgOf)).role).bal

/-- The runs that come before a ready group's, if from now on the one ready longest is always taken, once `g` has gone. -/
def ranksBehind (ready : List Group) (g x : Group) : Nat :=
  x.passedOver + 1 + (ready.filter (fun y => y.gid != g.gid && y.gid != x.gid && decide (y.readySince ≤ x.readySince))).length

/-- The balancer may choose this younger group (R65): its class equals the class most recently issued by
the same-numbered core of another bead of the rod, and every other ready group still issues within 64 runs of its core
(R65, R82). -/
def State.mayPrefer (s : State) (ready : List Group) (g : Group) : Bool :=
  let rod := rodOfBead g.bead
  (List.range 4).any (fun i => 4 * rod + i != g.bead
    && (s.core (4 * (4 * rod + i) + g.core % 4)).lastBal == some (s.balOf g))
  && ready.all (fun x => x.gid == g.gid || decide (ranksBehind ready g x ≤ 63))

/-- The word at which the begun run of the focus stands is at hand (R58, R65). -/
def State.wordAtHand (s : State) : Bool :=
  s.grp.loopWord.isSome || ((s.core s.grp.core).l0Word s.grp.asid s.grp.run.pc.toNat).isSome

/-- A core has issued a run of a group: the others that were ready have been passed once more. -/
def State.noteIssue (s : State) (g : Group) (ready : List Group) : State :=
  let others := (ready.map (·.gid)).filter (· != g.gid)
  let s1 := s.updCore g.core (fun c => { c with lastBal := some (s.balOf g) })
  let s2 := { s1 with groups := s1.groups.map (fun (x : Group) =>
    if others.contains x.gid then { x with passedOver := x.passedOver + 1 } else x) }
  s2.updGroup g.gid (fun x => { x with passedOver := 0 })

/-- Lanes whose index reads are still to be taken or made again (R18). -/
def Group.idxLanes (g : Group) : List (Nat × Elem) := g.elems.filter (fun x => x.2.idxWait.isSome && inMask g.div.live x.1)

/-- Make the index reads of lanes again (R18). -/
def State.retryIndices (s : State) (gid : Nat) : List (Nat × Elem) → State
  | [] => s
  | (lane, e) :: rest =>
    match s.findGroup gid, s.findParent e.parent with
    | some g, some p =>
      let (s1, e1) := s.readIndices (s.launchOf g) p e.rate e (g.bead != p.bead)
      State.retryIndices (s1.updGroup gid (fun g => g.setElem lane e1)) gid rest
    | _, _ => State.retryIndices s gid rest

/-- The trap of index reads that stopped (R18): the lowest cause with the lowest index address; the lanes are in
PEND. -/
def State.idxTrap (s : State) (xs : List (Nat × Elem)) : State :=
  let recs := xs.filterMap (·.2.idxWait)
  let s1 := s.setGrp { s.grp with div := { s.grp.div with pend := maskOf (xs.map (·.1)) } }
  match minOf (recs.map (·.cause)) with
  | none => s
  | some c =>
    let of := recs.filter (fun r => r.cause == c)
    match minOf (of.map (·.info.toNat)) with
    | none => s
    | some a =>
      s1.trap { cause := c, info := BitVec.ofNat 64 a, rec_ := (of.find? (fun r => r.info.toNat == a)).getD {} } false

/-- The elements of a group whose links lie on another bead are dealt to its own (R22). -/
def State.dealLinks (s : State) (gid bead : Nat) : List (Nat × Elem) → State
  | [] => s
  | (lane, e) :: rest =>
    let (s1, e1) := s.dealTo bead e
    State.dealLinks (s1.updGroup gid (fun g => g.setElem lane e1)) gid bead rest

/-- The index reads of a group are done: links that lie on another bead need copies, for which it leaves its port (R22). -/
def State.indicesDone (s : State) : State :=
  let g := { s.grp with div := { s.grp.div with pend := 0 } }
  let away := g.elems.filter (fun x => x.2.linkHome.isSome)
  if away.isEmpty then s.setGrp g else ((s.setGrp g.leavePort).dealLinks g.gid g.bead away).goOnCopies g.gid

/-- Lanes whose elements have an index out of range, and the group with that taken (R18). -/
def Group.badIndices (g : Group) : List Nat := (g.elems.filter (fun x => x.2.idxBad && inMask g.div.live x.1)).map (·.1)
def Group.indicesAnswered (g : Group) : Group :=
  { g with elems := g.elems.map (fun (x : Nat × Elem) => (x.1, { x.2 with idxBad := false })) }

/-- The trap of indices out of range, or of reads that stopped, if there is one (R18). -/
def State.takeIndexTrap (s : State) : State :=
  if s.grp.badIndices.isEmpty then s.idxTrap s.grp.idxLanes
  else (s.setGrp s.grp.indicesAnswered).illegalMask (maskOf s.grp.badIndices)

/-- The first run of a group of primitives (R18): an index out of range, then reads that stopped; the
reads of lanes in PEND are made again first, and what they give is checked in the same way. -/
def State.firstRun (s : State) : State :=
  let g := s.grp
  if g.badIndices.isEmpty && g.idxLanes.isEmpty then (if g.elems.any (fun x => x.2.linkHome.isSome) then s.indicesDone else s)
  else if !g.badIndices.isEmpty || g.div.pend = 0 then s.takeIndexTrap
  else
    let s1 := s.retryIndices g.gid g.idxLanes
    if s1.grp.badIndices.isEmpty && s1.grp.idxLanes.isEmpty then s1.indicesDone
    else (s1.setGrp { s1.grp with div := { s1.grp.div with pend := 0 } }).takeIndexTrap

/-- A run begins on a port that runs at a setting step: a change of the step waits for the next run (R393). -/
def Group.onStep (g : Group) (n : Nat) : Group := { g with run := { g.run with step := n } }

/-- The run of a group begins on a port; where its first word has still to be fetched, the group waits for
the code. -/
def State.issueRun (s : State) (gid : Nat) (ready : List Group) : State :=
  let s1 := s.focusOn gid
  let s2 := s1.setGrp (s1.grp.beginRun.onStep (s1.beadStep s1.grp.bead))
  if s2.wordAtHand then (s2.noteIssue s2.grp ready).firstRun
  else s1.setGrp { s1.grp with wait := .code }

/-- `RUN_ISSUE` (R65): a free port takes the run of the group that has been ready longest, or of a younger
one that the balancer prefers. -/
def execRunIssue (core : Nat) (younger : Option Nat) (s : State) : Host.Outcome State Fault Refusal :=
  let ready := (s.onCore core).filter s.readyToIssue
  let fits (g : Group) : Bool := decide (s.portsUsed core + g.hw / 64 ≤ 2)
  .next (if !s.coreIssues core then s
    else match younger with
      | none => (match oldestReady ready with
        | some g => if fits g then s.issueRun g.gid ready else s
        | none => s)
      | some gid => (match ready.find? (fun g => g.gid == gid) with
        | some g => if fits g && s.mayPrefer ready g then s.issueRun gid ready else s
        | none => s))

/-- `CODE_FETCH_COMPLETE` (R65): the code that a group waits for has come, or its fetch traps. -/
def execCodeFetchComplete (gid : Nat) (s : State) : Host.Outcome State Fault Refusal :=
  .next (match s.findGroup gid with
    | none => s
    | some g =>
      if g.wait = .code then
        let s1 := s.focusOn gid
        let g0 := { s1.grp with wait := .ready, readySince := s.timer.toNat }
        match (s1.setGrp g0.beginRun).fetch with
        | (.word _, s2) => s2.setGrp g0
        | (.fault f, s2) => s2.trap { cause := 0x11, info := BitVec.ofNat 64 f.va, rec_ := f.rec_ 5 } false
        | (.poison a, s2) => s2.trap { cause := 0x14, info := BitVec.ofNat 64 a, rec_ := { path := 5, acc := 3, va := BitVec.ofNat 64 a } } false
      else s)

/-! ## The ends of waits -/

/-- The condition of a split wait has cleared (R62). -/
def State.splitOver (s : State) (g : Group) : SplitWhy → Bool
  | .commit => !s.speculative g
  | .buffer need =>
    let rel := (s.core g.core).rel
    decide (rel.length + need ≤ 64) || rel.all (fun e => e.gid == g.gid)
  | .table => g.lgs.all (fun x => x.freeEntry.isSome || x.allErrors.isSome)
  | .matrix need => decide (s.reserved g.bead + need ≤ 32)
  | .handle n => !s.releasing g.gid n
  | .paths lgs mask => !s.opsOn g.gid lgs mask

/-- Slots that a group waits for can be bound (R288, R98). -/
def State.slotsOver (s : State) (g : Group) (need : Nat) : Bool :=
  s.slotsAvail g need && (if s.speculative g then (s.slotWaiters g).isEmpty else !s.olderWaits g)

/-- The segment of a group that waits for slots has committed: its word is tried again as that of a non-speculative group,
which squashes and starts the exhaustion timer (R98, R288). -/
def State.slotsAnew (s : State) (g : Group) : Bool := !s.speculative g && (s.bead g.bead).exhFrom.isNone

/-- `SPLIT_WAIT_RESUME` (R62): the word issues again. -/
def execSplitWaitResume (gid : Nat) (s : State) : Host.Outcome State Fault Refusal :=
  .next (match s.findGroup gid with
    | none => s
    | some g => match g.wait with
      | .split why => if s.splitOver g why then s.wake gid id else s
      | .slots need _ => if s.slotsOver g need || s.slotsAnew g then s.wake gid id else s
      | _ => s)

/-- `BARRIER_WAKE` (R69): the phase has changed. -/
def execBarrierWake (gid : Nat) (s : State) : Host.Outcome State Fault Refusal :=
  .next (match s.findGroup gid with
    | none => s
    | some g => match g.wait with
      | .barrier bar q => if (s.barrierOf g.team bar).phase != q then s.wake gid (fun g => { g with passed := true }) else s
      | _ => s)

/-- Every monitor that the group waits for has triggered. -/
def Group.triggered (g : Group) (lgs : List Nat) : Bool :=
  lgs.all (fun j => (g.lg j).monTrig || (g.lg j).monSet.isEmpty)

/-- `MONITOR_TRIGGER` (R269, R270). -/
def execMonitorTrigger (gid : Nat) (s : State) : Host.Outcome State Fault Refusal :=
  .next (match s.findGroup gid with
    | none => s
    | some g => match g.wait with
      | .monitor lgs _ => if g.triggered lgs then s.wake gid id else s
      | _ => s)

/-- `MONITOR_TIMEOUT` (R270): the timeout of a logical group has elapsed; its set is cleared, and the group takes the
monitor-timeout trap at the `mwait` word. -/
def execMonitorTimeout (gid : Nat) (s : State) : Host.Outcome State Fault Refusal :=
  .next (match s.findGroup gid with
    | none => s
    | some g => match g.wait with
      | .monitor _ due =>
        match due.find? (fun d => s.unclamped g.bead && s.reached d.at_ && !g.triggered [d.lg]) with
        | some d => ((s.updGroup gid (fun x => x.updLg d.lg (fun y => { y with monSet := [], monTrig := false }))).focusOn gid).trap
            { cause := 0x05, info := d.timeout.setWidth 64 } false
        | none => s
      | _ => s)

/-- The group is between runs where it takes a timer trap (R317): ready, or waiting at a word that it then
executes again. -/
def Group.takesTimer (g : Group) : Bool :=
  match g.wait with
  | .ready => !g.run.on
  | .barrier _ _ => true
  | .monitor _ _ => true
  | .engine => true
  | .split _ => true
  | .slots _ _ => true
  | .park _ _ => true
  | .sortRoom => true
  | .code => true
  | _ => false

/-- `TIMER_TRAP` (R322): it yields to pre-emption (R317). -/
def execTimerTrap (gid : Nat) (s : State) : Host.Outcome State Fault Refusal :=
  .next (match s.findGroup gid with
    | none => s
    | some g =>
      if s.unclamped g.bead && s.timerDue g && g.takesTimer && g.div.live != 0 && !s.teamHolds g then
        (s.focusOn gid).trap { cause := 0x06, info := s.timer } false
      else s)

/-- `OVERLAY_PARK_WAKE` (R305): the sector of the entry has been written. -/
def execOverlayParkWake (gid : Nat) (s : State) : Host.Outcome State Fault Refusal :=
  .next (match s.findGroup gid with
    | none => s
    | some g => match g.wait with
      | .park _ true => s.wake gid id
      | _ => s)

/-- The handle that a waiting group names. -/
def Group.slotHandle (g : Group) : Nat := match g.wait with | .slots _ hd => hd | _ => 0

/-- The group that has waited for slots longest. -/
def oldestWaiter : List Group → Option Group
  | [] => none
  | g :: gs => match oldestWaiter gs with
    | none => some g
    | some x => if x.slotSince.getD 0 < g.slotSince.getD 0 then some x else some g

/-- `ACCUMULATOR_EXHAUSTION` (R131, R288): the oldest waiting non-speculative group takes the trap; a
segment whose request has waited as long is squashed and held (R98). -/
def execAccumulatorExhaustion (bead : Nat) (s : State) : Host.Outcome State Fault Refusal :=
  let waiting := (s.onBead bead).filter (fun g => match g.wait with | .slots _ _ => true | _ => false)
  let late (t : Nat) : Bool := s.reached (t + 65536)
  .next (if !s.unclamped bead then s else match (waiting.filter s.speculative).find? (fun g => g.slotSince.any late) with
    | some g => s.squash g.asid g.segid true
    | none =>
      match (s.bead bead).exhFrom, oldestWaiter (waiting.filter (fun g => !s.speculative g)) with
      | some t, some g =>
        if late t then
          ((s.focusOn g.gid).trap { cause := 0x13, info := BitVec.ofNat 64 (g.slotHandle + 16 * bead) } false).slotsFreed bead
        else s
      | _, _ => s)

/-! ## Bins (R246) -/

/-- The groups that could still add to a bin (R246). -/
def State.binFeeders (s : State) (b : Bin) (bead : Nat) : Bool :=
  (s.onBead bead).any (fun g => g.launch == b.launch && g.rate == b.rate && g.segid == b.segid && g.asid == b.asid
    && g.wait != .sortRoom)

/-- The first `n` threads of a bin as the sort area holds them (R245); none where it does not translate or holds poison. -/
def State.readStored (s : State) (bead asid : Nat) : List Stored → Option (List Thread)
  | [] => some []
  | x :: xs =>
    match (s.engineRead bead asid 0 ((s.ctx asid).sortbase + x.place) x.size).1, State.readStored s bead asid xs with
    | .ok bs, some ts => some (threadOfBytes bs x.elem :: ts)
    | _, _ => none

/-- Form a fresh group from the first threads of a bin, of the team and role of the first of them (DESIGN CHOICE, log 28).
Its core drops its L1 and sampler copies, so that the threads see
their own earlier stores (R143, R148). -/
def State.formBin (s : State) (l : Launch) (bead core : Nat) (b : Bin) (ts : List Thread) : State :=
  let first := b.threads.headD { elem := none, team := 0, role := 0, place := 0, size := 0 }
  let gid := s.nextId
  let s1 := s.updBead bead (fun x => { x with bins := (x.bins.map (fun y =>
    if y = b then { y with threads := y.threads.drop l.width } else y)).filter (fun y => !y.threads.isEmpty) })
  let start : Start := { gindex := Config.allocFrom s.tick % 64, role := first.role, elem := {}, gregs := []
                         lanes := ts.zipIdx.map (fun x => (x.2, x.1.pc.toNat, x.1.elem.getD {}, [])) }
  let s2 := ((s1.dropL1 core).dropSamp core).startGroup l core first.team b.segid b.rate .ready [start]
  let s3 := s2.updGroup gid (fun g => ts.zipIdx.foldl (fun g (x : Thread × Nat) =>
    (g.putRegs x.2 x.1.regs).putPreds x.2 x.1.preds) g)
  s3.roomFrees b.asid

/-- `REGRPK_BIN_FORM` (R246): of a full bin, or in ascending bin number once no group feeds the bins. -/
def execRegrpkBinForm (bead launch rate seg bin : Nat) (s : State) : Host.Outcome State Fault Refusal :=
  let bins := (s.bead bead).bins.filter (fun b => b.launch == launch && b.rate == rate && b.segid == seg)
  .next (match bins.find? (fun b => b.bin == bin), s.findLaunch launch with
    | some b, some l =>
      let due := decide (l.width ≤ b.threads.length)
        || (!s.binFeeders b bead && bins.all (fun x => decide (bin ≤ x.bin)))
      if due && s.takes bead b.asid then
        let first := b.threads.take l.width
        (match s.coreFor bead l.hwLanes (l.need l.hwLanes ((first.map (·.role)).take 1)), s.readStored bead b.asid first with
          | some c, some ts => s.formBin l bead c b ts
          | _, _ => s)
      else s
    | _, _ => s)

/-! ## Grants and spills of the quire (R40 to R43, R328) -/

/-- A group whose stalled requests are all granted goes on, or ends. -/
def State.afterGrant (s : State) (gid : Nat) : State :=
  match s.findGroup gid with
  | none => s
  | some g =>
    if g.anyStalled then s
    else
      let s1 := s.groupMayEnd gid
      if (s1.findGroup gid).any (fun x => x.wait == .quire && !x.anyStalled && x.div.live != 0) then s1.wake gid id else s1

/-- The element without code that made a request: it waits in the pool (R323). -/
def State.asking (s : State) (bead : Nat) (r : QReq) : Option Waiting :=
  s.pool.find? (fun w => w.elem.stalled && w.bead == some bead && w.elem.born == r.lane)

/-- A copy is made for the element that asked for it, with the references that the element holds for it; the groups that
wait for copies go on (R43, R326). -/
def State.copyGranted (s : State) (bead : Nat) (r : QReq) (off : Nat) : State :=
  let got (e : Elem) : Elem := { e.gotCopy r.record.deps off with stalled := false }
  let s1 : State := match s.findGroup r.gid with
    | some _ => s.updGroup r.gid (fun g => match g.allElems.find? (fun x => x.1 == r.lane) with
      | some x => g.setElem r.lane (got x.2)
      | none => g)
    | none => match s.asking bead r with
      | some w => (match s.findLaunch w.launch with
        | some l => (s.updWaiting w (got w.elem)).runCodeless l bead { w with elem := got w.elem }
        | none => s)
      | none => s
  (s1.awaitCopies bead).foldl State.goOnCopies s1

/-- The first stalled request is granted. -/
def State.grantFirst (s : State) (bead : Nat) (r : QReq) : State :=
  let s0 := s.updBead bead (fun b => { b with
    reqs := b.reqs.drop 1, spillFrom := if (b.reqs.drop 1).isEmpty then none else some s.timer.toNat })
  let (off, s1) := s0.placeRecord bead r.record
  if r.copy then s1.copyGranted bead r off
  else match s1.findGroup r.gid with
  | none =>
    match s1.asking bead r with
    | some w => (match s1.findLaunch w.launch with
      | some l => (s1.elementEnded l bead { w.elem with stalled := false } (some off) []).leavePool [w]
      | none => s1)
    | none => s1
  | some g =>
    let l := s1.launchOf g
    match g.allElems.find? (fun x => x.1 == r.lane) with
    | none => s1
    | some x =>
      let regs := if 128 ≤ r.lane then (g.lg (r.lane - 128)).gregs else laneRegs g r.lane
      let s2 := s1.afterRecord l r.gid bead r.lane { x.2 with stalled := false } regs off
      (s2.updGroup r.gid (fun g =>
        if 128 ≤ r.lane then g.updLg (r.lane - 128) (fun y => { y with elem := {} })
        else { g with elems := SMap.del g.elems r.lane })).afterGrant r.gid

/-- Units of the record that a request asks for. -/
def QReq.units (r : QReq) : Nat := recUnits (r.record.links.length + r.record.words.length)

/-- The groups of a bead that wait for a copy that nobody asks for any longer: the group that did has gone. -/
def State.lostCopies (s : State) (bead : Nat) : List Nat :=
  (s.awaitCopies bead).filter (fun gid => match s.findGroup gid with
    | none => false
    | some g => g.allElems.all (fun x => match s.nextCopy bead x.2 with
      | none => true
      | some q => !(s.bead bead).reqs.any (fun r => r.copy && r.record.orig == q.orig)))

/-- `QUIRE_GRANT` (R40): the first request, once it fits; else groups that wait for a lost copy ask for it (R43). -/
def execQuireGrant (bead : Nat) (s : State) : Host.Outcome State Fault Refusal :=
  .next (match (s.bead bead).reqs with
    | [] => (s.lostCopies bead).foldl State.goOnCopies s
    | r :: _ => if s.quireFits bead r.record.asid r.units then s.grantFirst bead r
      else (s.lostCopies bead).foldl State.goOnCopies s)

/-- The oldest victim (R41): a record whose words are on the chip. One without link and export words is none: its spill
would free nothing (DESIGN CHOICE, log 44). -/
def Bead.victim (b : Bead) : Option QRec :=
  (b.quire.filter (fun r => !r.spilled && r.links.length + r.words.length != 0)).foldl (fun best r => match best with
    | none => some r
    | some x => if r.age < x.age then some r else some x) none

/-- How a spill of one victim ends. -/
inductive Spill where
  | done (s : State)
  | noRoom
  | unmapped (f : TFault)
  deriving DecidableEq, Repr

/-- Spill one victim: its link and export words go to the bead's spill area (R41, R327). -/
def State.spillVictim (s : State) (bead : Nat) (r : QRec) : Spill :=
  let c := s.ctx r.asid
  let n := (4 * (r.links.length + r.words.length) + 15) / 16
  let off := findHole ((s.spilledIn r.asid bead).map (fun x => (x.spoff, x.spillUnits))) n
  if c.spillsize < 16 * (off + n) then .noRoom
  else
    let va := c.spillbase + s.beadIndex c.part bead * c.spillsize + 16 * off
    let ws := r.links.map (BitVec.ofNat 32) ++ r.words
    let bs := ws.flatMap (fun (w : Word) => leBytes w.toNat 4)
    match s.translateRange none bead r.asid .write va bs.length with
    | (.error f, _) => .unmapped f
    | (.ok pas, s1) =>
      .done ((s1.homeStore (pas.zip bs)).updBead bead (fun b =>
        { b with quire := b.quire.map (fun x => if x.off = r.off then { x with spilled := true, spoff := off, spBead := bead } else x) }))

/-- The lanes of a group whose requests are withdrawn are live again at their `exit` word (R42, R328). -/
def Group.revive (g : Group) : Group :=
  let own := (g.elems.filter (·.2.stalled)).map (·.1)
  let lgs := (g.lgs.zipIdx.filter (·.1.elem.stalled)).map (·.2)
  let lanes := own ++ (lgs.flatMap (fun j => (g.lg j).lastEnded)).filter (fun l => !own.contains l)
  let d0 := lanes.foldl (fun (d : Div) l => if d.splitOf (l / 4) = 3 then d.setSplit (l / 4) 2 else d) g.div
  let d1 := { d0 with live := g.div.live ||| maskOf lanes }
  { g with
    div := { d1.afterRun g.hw [] 0 with next := none }
    elems := g.elems.map (fun (x : Nat × Elem) => (x.1, { x.2 with stalled := false }))
    lgs := g.lgs.map (fun x => { x with elem := { x.elem with stalled := false } })
    endedLanes := g.endedLanes.filter (fun l => !lanes.contains l) }

/-- Where the element of a request stands: at the `exit` word that ended its section, and for a copy at the first word of
its group's first run (R42, R43). -/
def Group.askedAt (g : Group) (r : QReq) : Nat :=
  if r.copy then g.div.bcast.toNat
  else (SMap.look 0 g.div.pcs (if 128 ≤ r.lane then (g.lg (r.lane - 128)).lastEnded.headD 0 else r.lane)).toNat

/-- The quire overflow fault: it is taken by the group that holds the oldest stalled request, or by an element without code
that does (R43, R323, R328). R42 names a group only: that such an element takes the fault is DESIGN CHOICE (log 44). -/
def State.quireOverflow (s : State) (bead : Nat) (f : Option TFault) : State :=
  match (s.bead bead).reqs with
  | [] => s
  | r :: _ =>
    let info := quireInfo r.units bead r.record.rate f.isSome (s.spillUsed r.record.asid bead)
    let rec_ : FRec := (f.map (fun x => x.rec_ 6)).getD { path := 6 }
    let s0 := s.updBead bead (fun b => { b with spillFrom := b.spillFrom.map (fun _ => s.timer.toNat) })
    match s.findGroup r.gid with
    | some g =>
      let s1 := ((s0.withdraw bead r.gid).updGroup r.gid (fun g =>
        if r.copy then { g with run := { g.run with pc := g.div.bcast, on := false } } else g.revive)).focusOn r.gid
      s1.trap { cause := 0x12, info := info, pc := some (g.askedAt r), rec_ := rec_ } false
    | none => match s.asking bead r with
      | none => s
      | some w => match s.findLaunch w.launch with
        | none => s
        | some l =>
          let e := { w.elem with stalled := false, halted := true }
          let s1 := (s0.withdrawElem bead r.lane).updWaiting w e
          s1.elementTrap l bead e { rec_ with cause := 0x12, info := info }

/-- Spill and grant until every request is granted or it cannot go on (R41, R42): `some` is why the fault
is taken. -/
def State.spillAll (s : State) (bead : Nat) (spilled : Bool) : Nat → State × Option (Option TFault)
  | 0 => (s, none)
  | n + 1 =>
    match (s.bead bead).reqs with
    | [] => (s, none)
    | r :: _ =>
      if s.quireFits bead r.record.asid r.units then State.spillAll (s.grantFirst bead r) bead spilled n
      else match (s.bead bead).victim with
        | none => (s, if spilled then none else some none)
        | some v => match s.spillVictim bead v with
          | .done s1 => State.spillAll s1 bead true n
          | .noRoom => (s, some none)
          | .unmapped f => (s, some (some f))

/-- `SPILL_TIMER_EXPIRY` (R41, R42). -/
def execSpillTimerExpiry (bead : Nat) (s : State) : Host.Outcome State Fault Refusal :=
  let b := s.bead bead
  .next (if s.unclamped bead && !b.reqs.isEmpty && b.spillFrom.any (fun t => s.reached (t + 65536)) then
      let (s1, why) := s.spillAll bead false (b.quire.length + 2 * b.reqs.length + 16)
      let s2 := s1.updBead bead (fun b => { b with spillFrom := b.spillFrom.map (fun _ => s.timer.toNat) })
      match why with
      | some f => s2.quireOverflow bead f
      | none => s2
    else s)

end Sys2Proof.Machine
end

