-- ==== Sys2Proof/Machine/Sampler.lean ====
section
/-! DEFINITION. The sampler: opcodes 0xa7 to 0xaa (R257 to R262). -/

namespace Sys2Proof.Machine

/-! ## Textures (R257, R258) -/

/-- A texture descriptor. -/
structure Texture where
  base : Nat
  tfmt : Nat
  w : Nat
  h : Nat
  lm1 : Nat
  addru : Nat
  addrv : Nat
  filt : Bool
  mipf : Bool
  deriving DecidableEq, Repr

/-- Read a descriptor of 32 bytes; none on a descriptor error. -/
def textureOf (x : Nat) : Option Texture :=
  let w := nbits x 72 16 + 1
  let h := nbits x 88 16 + 1
  let lm1 := nbits x 104 4
  if nbits x 52 12 ≠ 0 ∨ nbits x 114 142 ≠ 0 ∨ nbits x 0 8 ≠ 0 ∨ 8 ≤ nbits x 64 8 ∨ bitLen (max w h) ≤ lm1 then none
  else some { base := nbits x 0 52, tfmt := nbits x 64 8, w := w, h := h, lm1 := lm1, addru := nbits x 108 2,
              addrv := nbits x 110 2, filt := nbits x 112 1 == 1, mipf := nbits x 113 1 == 1 }

/-- Bytes of a texel. -/
def Texture.bytes (t : Texture) : Nat := [4, 8, 16, 2, 8, 4, 1, 4].getD t.tfmt 4
/-- Format 7 is integer, read nearest at the nearest level. -/
def Texture.int (t : Texture) : Bool := t.tfmt == 7
def Texture.wAt (t : Texture) (lvl : Nat) : Nat := max 1 (t.w / 2 ^ lvl)
def Texture.hAt (t : Texture) (lvl : Nat) : Nat := max 1 (t.h / 2 ^ lvl)
def roundUpTo (n k : Nat) : Nat := (n + k - 1) / k * k
/-- Row pitch of a level. -/
def Texture.pitch (t : Texture) (lvl : Nat) : Nat := roundUpTo (t.wAt lvl * t.bytes) 64
/-- Start of a level. -/
def Texture.start (t : Texture) (lvl : Nat) : Nat :=
  t.base + sumOf ((List.range lvl).map (fun i => roundUpTo (t.pitch i * t.hAt i) 256))
/-- Address of a texel. -/
def Texture.addr (t : Texture) (lvl i j : Nat) : Nat := (t.start lvl + j * t.pitch lvl + i * t.bytes) % 2 ^ 64

/-- Decode a texel's bytes into R, G, B, A (R258); NaN channels are canonical (R260). -/
def Texture.decode (t : Texture) (bs : List Byte) : List Nat :=
  let x := ofLe bs
  let f32 (i : Nat) : Nat := canonNan (nbits x (32 * i) 32)
  let f16 (i : Nat) : Nat := canonNan (fp32.convert fp16 .rne false 0 (nbits x (16 * i) 16)).1
  let u8 (i : Nat) : Nat := nDiv (fp32.ofInt .rne (nbits x (8 * i) 8)).1 0x437f0000
  match t.tfmt with
  | 0 => [f32 0, 0, 0, fOne]
  | 1 => [f32 0, f32 1, 0, fOne]
  | 2 => [f32 0, f32 1, f32 2, f32 3]
  | 3 => [f16 0, 0, 0, fOne]
  | 4 => [f16 0, f16 1, f16 2, f16 3]
  | 5 => [u8 0, u8 1, u8 2, u8 3]
  | 6 => [u8 0, 0, 0, fOne]
  | _ => [x % 2 ^ 32, 0, 0, 1]

/-- Map an index outside a level of `w` texels; none for the border (R260). -/
def mapIndex (mode w : Nat) (i : Int) : Option Nat :=
  match mode with
  | 0 => some (i % w).toNat
  | 1 => some (min (max i 0) (w - 1)).toNat
  | 2 =>
    let m := (i % (2 * w)).toNat
    some (if w ≤ m then 2 * w - 1 - m else m)
  | _ => if 0 ≤ i ∧ i < w then some i.toNat else none

/-! ## FP32 helpers -/

/-- floor of a finite FP32 value, 0 otherwise. -/
def floorF (x : Nat) : Int :=
  match fp32.value x with
  | .fin n m e =>
    let v : Int := if n then -(m : Int) else m
    if 0 ≤ e then v * 2 ^ e.toNat else v / 2 ^ (-e).toNat
  | _ => 0

/-- An integer as FP32. -/
def intF (v : Int) : Nat := (fp32.ofInt .rne v).1

/-- Clamp by ordered comparison; the bounds are finite. -/
def clampF (lo hi x : Nat) : Nat := if ltF x lo then lo else if ltF hi x then hi else x

/-- A coordinate: NaN is 0, values beyond 2^24 are held there (R260). -/
def coordF (x : Nat) : Nat := if (fp32.value x).isNan then 0 else clampF 0xcb800000 0x4b800000 x

/-- The fraction in 1/256 (R260). -/
def frac256 (x : Nat) (i : Int) : Nat := nMul (intF (floorF (nMul (nSub x (intF i)) 0x43800000))) 0x3b800000

/-- λ held to its range (R259). -/
def lodClamp (t : Texture) (x : Nat) : Nat := if (fp32.value x).isNan then 0 else clampF 0 (intF t.lm1) x

/-- λ from gradients in texels (R259). -/
def lodOf (t : Texture) (dxu dxv dyu dyv bias : Nat) : Nat :=
  let r := nMax (nFma dxu dxu (nMul dxv dxv)) (nFma dyu dyu (nMul dyv dyv))
  lodClamp t (nFma 0x3f000000 (log2F r).1 bias)

/-! ## Taps (R260) -/

/-- A texel that a lane needs: none is the border. -/
abbrev Tap := Option Nat

/-- The texels of one level, and the weights of a bilinear read. -/
structure LevelRead where
  taps : List Tap
  wts : List Nat
  deriving DecidableEq, Repr

/-- What a lane reads at a level for coordinates u and v. -/
def Texture.levelRead (t : Texture) (u v lvl : Nat) : LevelRead :=
  let w := t.wAt lvl
  let h := t.hAt lvl
  let tap (i j : Int) : Tap :=
    match mapIndex t.addru w i, mapIndex t.addrv h j with
    | some x, some y => some (t.addr lvl x y)
    | _, _ => none
  let x := nMul u (intF w)
  let y := nMul v (intF h)
  if t.filt && !t.int then
    let x := nSub x 0x3f000000
    let y := nSub y 0x3f000000
    let i := floorF x
    let j := floorF y
    let a := frac256 x i
    let b := frac256 y j
    let a' := nSub fOne a
    let b' := nSub fOne b
    { taps := [tap i j, tap (i + 1) j, tap i (j + 1), tap (i + 1) (j + 1)],
      wts := [nMul a' b', nMul a b', nMul a' b, nMul a b] }
  else { taps := [tap (floorF x) (floorF y)], wts := [] }

/-- The levels that λ selects, and the weight of the second (R260). -/
def Texture.levels (t : Texture) (lod : Nat) : Nat × Nat × Nat :=
  if t.mipf && !t.int then
    let l0 := (floorF lod).toNat
    (l0, min (l0 + 1) t.lm1, frac256 lod l0)
  else
    let l := (floorF (nAdd lod 0x3f000000)).toNat
    (l, l, 0)

/-- Combine the texels of a level, channel by channel. -/
def LevelRead.mix (r : LevelRead) (texels : List (List Nat)) : List Nat :=
  match r.wts with
  | [] => texels.headD [0, 0, 0, 0]
  | w0 :: ws =>
    (List.range 4).map (fun c =>
      let ch (k : Nat) : Nat := (texels.getD k []).getD c 0
      ws.zipIdx.foldl (fun acc (x : Nat × Nat) => nAdd acc (nMul (ch (x.2 + 1)) x.1)) (nMul (ch 0) w0))

/-- Fetch the texels of a lane: their channels and the places that stopped it. -/
def State.fetchTaps (s : State) (g : Group) (t : Texture) : List Tap → State × List (List Nat) × List LaneStop
  | [] => (s, [], [])
  | none :: rest =>
    let (s1, cs, stops) := State.fetchTaps s g t rest
    (s1, [0, 0, 0, 0] :: cs, stops)
  | some a :: rest =>
    let (r, s0) := s.sampLane g a t.bytes
    let (s1, cs, stops) := State.fetchTaps s0 g t rest
    match r with
    | .ok bs => (s1, t.decode bs :: cs, stops)
    | .fault f => (s1, cs, .fault f :: stops)
    | .poison a => (s1, cs, .poison a :: stops)

/-- The stop that a lane reports: a translation fault before poison, the lowest address of its kind. -/
def lowestStop (stops : List LaneStop) : Option LaneStop :=
  let fs := stops.filterMap (fun x => match x with | .fault f => some f | .poison _ => none)
  match minOf (fs.map (·.va)) with
  | some a => (fs.find? (fun f => f.va == a)).map .fault
  | none => (minOf (stops.filterMap (fun x => match x with | .poison a => some a | .fault _ => none))).map .poison

/-! ## Words -/

/-- What one lane reads: the texels, and how their channels make the result. -/
structure LaneRead where
  taps : List Tap
  mix : List (List Nat) → List Nat

/-- A filtered read (R260). -/
def Texture.sample (t : Texture) (u v lod : Nat) : LaneRead :=
  let u := coordF u
  let v := coordF v
  let (l0, l1, f) := t.levels lod
  let r0 := t.levelRead u v l0
  if l1 = l0 then { taps := r0.taps, mix := r0.mix }
  else
    let r1 := t.levelRead u v l1
    { taps := r0.taps ++ r1.taps
      mix := fun cs =>
        let c0 := r0.mix (cs.take r0.taps.length)
        let c1 := r1.mix (cs.drop r0.taps.length)
        (List.range 4).map (fun i => nAdd (nMul (c0.getD i 0) (nSub fOne f)) (nMul (c1.getD i 0) f)) }

/-- The lanes of a sampler word in turn. -/
def State.sampleAll (s : State) (g : Group) (t : Texture) (read : Nat → LaneRead) :
    List Nat → State × List (Nat × LaneOut) × List (Nat × LaneStop)
  | [] => (s, [], [])
  | l :: rest =>
    let (s1, cs, bad) := s.fetchTaps g t (read l).taps
    let (s2, outs, stops) := State.sampleAll s1 g t read rest
    match lowestStop bad with
    | some x => (s2, outs, (l, x) :: stops)
    | none => (s2, (l, { regs := ((read l).mix cs).map (BitVec.ofNat 32) }) :: outs, stops)

/-- What a sampler word comes to: a trap of the whole word, or the lanes' results. -/
inductive SampleRes where
  | trap (t : Trap)
  | done (s : State) (outs : List (Nat × LaneOut)) (stops : List (Nat × LaneStop))
  deriving DecidableEq, Repr

/-- The logical groups of a sampler word in turn, each with its own descriptor (R257, R71). -/
def State.sampleGroups (s : State) (h : Hdr) (f : FM) (lanes : List Nat) (read : Texture → Nat → LaneRead) :
    List Nat → SampleRes
  | [] => .done s [] []
  | j :: rest =>
    let g := s.grp
    match lanes.filter (fun l => g.lgOf l == j) with
    | [] => State.sampleGroups s h f lanes read rest
    | l :: ls =>
      let va := s.opnd h f.imm .i64 l (opX f.a 2)
      if va % 32 ≠ 0 then
        .trap { cause := 0x03, info := BitVec.ofNat 64 (2 + 16 * (l % g.lw) + 2 ^ 12 * (va % 2 ^ 52)) }
      else
        let (r, s1) := s.sampLane g va 32
        let add (s2 : State) (outs : List (Nat × LaneOut)) (stops : List (Nat × LaneStop)) : SampleRes :=
          match State.sampleGroups s2 h f lanes read rest with
          | .trap t => .trap t
          | .done s3 o st => .done s3 (outs ++ o) (stops ++ st)
        match r with
        | .fault x => add s1 [] ((l :: ls).map (fun l => (l, .fault x)))
        | .poison a => add s1 [] ((l :: ls).map (fun l => (l, .poison a)))
        | .ok bs => match textureOf (ofLe bs) with
          | none => .trap { cause := 0x07, detail := 3, info := BitVec.ofNat 64 va }
          | some t =>
            let (s2, outs, stops) := s1.sampleAll g t (read t) (l :: ls)
            add s2 outs stops

/-- A sampler word (R257 to R262). -/
def State.samplerWord (s : State) (h : Hdr) (f : FM) (ops : List Opnd) (read : Texture → Nat → LaneRead) : State :=
  s.withLanes h (opX f.a 2 :: opX f.b 2 :: ops) (fun lanes bad =>
    match s.sampleGroups h f lanes read (List.range s.grp.nLg) with
    | .trap t => s.trap t false
    | .done s1 outs stops => s.limited (s1.finish h f.d.toNat outs (stops ++ bad) 1 0))

/-- Register `i` of an operand as an FP32 pattern; a special operand in the first. -/
def State.fpAt (s : State) (h : Hdr) (f : FM) (lane : Nat) (field : BitVec 12) (i n : Nat) : Nat :=
  if field.toNat < 2048 then (s.opndWord h f.imm lane (opX field n) i).toNat else s.opnd h f.imm .f32 lane (opX field 1)

/-- Lanes of a slice that take part in `tsmp`: active, with the predicate that admits them. -/
def State.quadActive (s : State) (h : Hdr) : Mask :=
  maskOf ((lanesOf s.grp.run.active s.grp.hw).filter (fun l => s.grp.predOf h.pred.toNat l != (h.pneg == 1)))

/-- `tsmp` (R259): one λ for a slice but for the lane's bias. -/
def execTsmp (h : Hdr) (f : FM) (s : State) : Host.Outcome State Fault Refusal :=
  let g := s.grp
  let act := s.quadActive h
  let bad := (g.execLanes s.curLaunch h).any (fun l => g.div.live &&& laneRange (l / 4 * 4) 4 &&& ~~~ act != 0)
  let u (l : Nat) : Nat := s.fpAt h f l f.b 0 2
  let v (l : Nat) : Nat := s.fpAt h f l f.b 1 2
  .next (if bad then s.illegalMask g.run.active
    else s.samplerWord h f [opX f.c 1] (fun t l =>
      let q := l / 4 * 4
      let du (i : Nat) : Nat := nMul (nSub (u (q + i)) (u q)) (intF t.w)
      let dv (i : Nat) : Nat := nMul (nSub (v (q + i)) (v q)) (intF t.h)
      t.sample (u l) (v l) (lodOf t (du 1) (dv 1) (du 2) (dv 2) (s.fpAt h f l f.c 0 1))))

/-- `tsmp.l` (R259). -/
def execTsmpL (h : Hdr) (f : FM) (s : State) : Host.Outcome State Fault Refusal :=
  .next (s.samplerWord h f [opX f.c 1] (fun t l =>
    t.sample (s.fpAt h f l f.b 0 2) (s.fpAt h f l f.b 1 2) (lodClamp t (s.fpAt h f l f.c 0 1))))

/-- `tsmp.g` (R259). -/
def execTsmpG (h : Hdr) (f : FM) (s : State) : Host.Outcome State Fault Refusal :=
  .next (s.samplerWord h f [opX f.c 4] (fun t l =>
    let gr (i : Nat) : Nat := s.fpAt h f l f.c i 4
    t.sample (s.fpAt h f l f.b 0 2) (s.fpAt h f l f.b 1 2)
      (lodOf t (nMul (gr 0) (intF t.w)) (nMul (gr 1) (intF t.h)) (nMul (gr 2) (intF t.w)) (nMul (gr 3) (intF t.h)) 0)))

/-- `tld` (R261). -/
def execTld (h : Hdr) (f : FM) (s : State) : Host.Outcome State Fault Refusal :=
  .next (s.samplerWord h f [opX f.c 1] (fun t l =>
    let x := (s.opndWord h f.imm l (opX f.b 2) 0).toInt
    let y := (s.opndWord h f.imm l (opX f.b 2) 1).toInt
    let lvl := s.opnd h f.imm .i32 l (opX f.c 1)
    if lvl ≤ t.lm1 ∧ 0 ≤ x ∧ x < t.wAt lvl ∧ 0 ≤ y ∧ y < t.hAt lvl then
      { taps := [some (t.addr lvl x.toNat y.toNat)], mix := fun cs => cs.headD [0, 0, 0, 0] }
    else { taps := [], mix := fun _ => [0, 0, 0, 0] }))

end Sys2Proof.Machine
end

