-- ==== Sys2Proof/Machine/Dispatch.lean ====
section
/-! DEFINITION. The meaning of every instruction and event, by name. -/

namespace Sys2Proof.Machine

/-- What an instruction or an event does to the machine. -/
def exec (i : Instr) (s : State) : Host.Outcome State Fault Refusal :=
  match i with
  | .iadd v h f => Sys2Proof.Machine.execIadd v h f s
  | .isub v h f => Sys2Proof.Machine.execIsub v h f s
  | .imul v h f => Sys2Proof.Machine.execImul v h f s
  | .imulh sg h f => Sys2Proof.Machine.execImulh sg h f s
  | .imad v h f => Sys2Proof.Machine.execImad v h f s
  | .idiv sg h f => Sys2Proof.Machine.execIdiv sg h f s
  | .irem sg h f => Sys2Proof.Machine.execIrem sg h f s
  | .imin sg h f => Sys2Proof.Machine.execImin sg h f s
  | .imax sg h f => Sys2Proof.Machine.execImax sg h f s
  | .iabs h f => Sys2Proof.Machine.execIabs h f s
  | .ineg h f => Sys2Proof.Machine.execIneg h f s
  | .iaddsat sg h f => Sys2Proof.Machine.execIaddsat sg h f s
  | .isubsat sg h f => Sys2Proof.Machine.execIsubsat sg h f s
  | .andB h f => Sys2Proof.Machine.execAndB h f s
  | .orB h f => Sys2Proof.Machine.execOrB h f s
  | .xorB h f => Sys2Proof.Machine.execXorB h f s
  | .andn h f => Sys2Proof.Machine.execAndn h f s
  | .lop3 h f => Sys2Proof.Machine.execLop3 h f s
  | .shl v h f => Sys2Proof.Machine.execShl v h f s
  | .shr v h f => Sys2Proof.Machine.execShr v h f s
  | .sar v h f => Sys2Proof.Machine.execSar v h f s
  | .rot h f => Sys2Proof.Machine.execRot h f s
  | .popc h f => Sys2Proof.Machine.execPopc h f s
  | .clz h f => Sys2Proof.Machine.execClz h f s
  | .ctz h f => Sys2Proof.Machine.execCtz h f s
  | .brev h f => Sys2Proof.Machine.execBrev h f s
  | .bfe sg h f => Sys2Proof.Machine.execBfe sg h f s
  | .bfi h f => Sys2Proof.Machine.execBfi h f s
  | .icmp sg v h f => Sys2Proof.Machine.execIcmp sg v h f s
  | .icmpR sg h f => Sys2Proof.Machine.execIcmpR sg h f s
  | .sel v h f => Sys2Proof.Machine.execSel v h f s
  | .mov v h f => Sys2Proof.Machine.execMov v h f s
  | .movi h f => Sys2Proof.Machine.execMovi h f s
  | .aadd h f => Sys2Proof.Machine.execAadd h f s
  | .alea h f => Sys2Proof.Machine.execAlea h f s
  | .amul h f => Sys2Proof.Machine.execAmul h f s
  | .acmp h f => Sys2Proof.Machine.execAcmp h f s
  | .acmpR h f => Sys2Proof.Machine.execAcmpR h f s
  | .fadd h f => Sys2Proof.Machine.execFadd h f s
  | .fsub h f => Sys2Proof.Machine.execFsub h f s
  | .fmul h f => Sys2Proof.Machine.execFmul h f s
  | .ffma h f => Sys2Proof.Machine.execFfma h f s
  | .fmin h f => Sys2Proof.Machine.execFmin h f s
  | .fmax h f => Sys2Proof.Machine.execFmax h f s
  | .fdiv h f => Sys2Proof.Machine.execFdiv h f s
  | .frcp h f => Sys2Proof.Machine.execFrcp h f s
  | .frsq h f => Sys2Proof.Machine.execFrsq h f s
  | .fsqrt h f => Sys2Proof.Machine.execFsqrt h f s
  | .fexp2 h f => Sys2Proof.Machine.execFexp2 h f s
  | .flog2 h f => Sys2Proof.Machine.execFlog2 h f s
  | .fsin h f => Sys2Proof.Machine.execFsin h f s
  | .fcos h f => Sys2Proof.Machine.execFcos h f s
  | .ffloor h f => Sys2Proof.Machine.execFfloor h f s
  | .fceil h f => Sys2Proof.Machine.execFceil h f s
  | .ftrunc h f => Sys2Proof.Machine.execFtrunc h f s
  | .frnd h f => Sys2Proof.Machine.execFrnd h f s
  | .ffract h f => Sys2Proof.Machine.execFfract h f s
  | .fcmp h f => Sys2Proof.Machine.execFcmp h f s
  | .fcmpR h f => Sys2Proof.Machine.execFcmpR h f s
  | .fclass h f => Sys2Proof.Machine.execFclass h f s
  | .hfma2 t h f => Sys2Proof.Machine.execHfma2 t h f s
  | .fdot2 t h f => Sys2Proof.Machine.execFdot2 t h f s
  | .fdot4 h f => Sys2Proof.Machine.execFdot4 h f s
  | .dadd h f => Sys2Proof.Machine.execDadd h f s
  | .dmul h f => Sys2Proof.Machine.execDmul h f s
  | .dfma h f => Sys2Proof.Machine.execDfma h f s
  | .ddiv h f => Sys2Proof.Machine.execDdiv h f s
  | .dcmp h f => Sys2Proof.Machine.execDcmp h f s
  | .dcmpR h f => Sys2Proof.Machine.execDcmpR h f s
  | .cvti2f sg v h f => Sys2Proof.Machine.execCvti2f sg v h f s
  | .cvtf2i sg v h f => Sys2Proof.Machine.execCvtf2i sg v h f s
  | .cvtffF64 h f => Sys2Proof.Machine.execCvtffF64 h f s
  | .cvtffF32 h f => Sys2Proof.Machine.execCvtffF32 h f s
  | .cvtfmt h f => Sys2Proof.Machine.execCvtfmt h f s
  | .packh h f => Sys2Proof.Machine.execPackh h f s
  | .unpackh h f => Sys2Proof.Machine.execUnpackh h f s
  | .shflIdx h f => Sys2Proof.Machine.execShflIdx h f s
  | .shflXor h f => Sys2Proof.Machine.execShflXor h f s
  | .shflUp h f => Sys2Proof.Machine.execShflUp h f s
  | .shflDown h f => Sys2Proof.Machine.execShflDown h f s
  | .bcast h f => Sys2Proof.Machine.execBcast h f s
  | .voteAny h f => Sys2Proof.Machine.execVoteAny h f s
  | .voteAll h f => Sys2Proof.Machine.execVoteAll h f s
  | .voteEq h f => Sys2Proof.Machine.execVoteEq h f s
  | .voteMask h f => Sys2Proof.Machine.execVoteMask h f s
  | .lred t h f => Sys2Proof.Machine.execLred t h f s
  | .lscan t h f => Sys2Proof.Machine.execLscan t h f s
  | .csamp h f => Sys2Proof.Machine.execCsamp h f s
  | .prng h f => Sys2Proof.Machine.execPrng h f s
  | .hrnd h f => Sys2Proof.Machine.execHrnd h f s
  | .qrel h f => Sys2Proof.Machine.execQrel h f s
  | .emitc h f => Sys2Proof.Machine.execEmitc h f s
  | .elem h f => Sys2Proof.Machine.execElem h f s
  | .bary h f => Sys2Proof.Machine.execBary h f s
  | .rast h f => Sys2Proof.Machine.execRast h f s
  | .raygen h f => Sys2Proof.Machine.execRaygen h f s
  | .trav h f => Sys2Proof.Machine.execTrav h f s
  | .travr h f => Sys2Proof.Machine.execTravr h f s
  | .regrp h f => Sys2Proof.Machine.execRegrp h f s
  | .regrpk h f => Sys2Proof.Machine.execRegrpk h f s
  | .ld h f => Sys2Proof.Machine.execLd h f s
  | .st h f => Sys2Proof.Machine.execSt h f s
  | .lds h f => Sys2Proof.Machine.execLds h f s
  | .sts h f => Sys2Proof.Machine.execSts h f s
  | .pf h f => Sys2Proof.Machine.execPf h f s
  | .cinv h f => Sys2Proof.Machine.execCinv h f s
  | .cwb h f => Sys2Proof.Machine.execCwb h f s
  | .tsmp h f => Sys2Proof.Machine.execTsmp h f s
  | .tsmpL h f => Sys2Proof.Machine.execTsmpL h f s
  | .tsmpG h f => Sys2Proof.Machine.execTsmpG h f s
  | .tld h f => Sys2Proof.Machine.execTld h f s
  | .atom h f => Sys2Proof.Machine.execAtom h f s
  | .atomSp h f => Sys2Proof.Machine.execAtomSp h f s
  | .cas h f => Sys2Proof.Machine.execCas h f s
  | .casSp h f => Sys2Proof.Machine.execCasSp h f s
  | .vbat h f => Sys2Proof.Machine.execVbat h f s
  | .fence h f => Sys2Proof.Machine.execFence h f s
  | .xfence h f => Sys2Proof.Machine.execXfence h f s
  | .barArv h f => Sys2Proof.Machine.execBarArv h f s
  | .barWait h f => Sys2Proof.Machine.execBarWait h f s
  | .mon h f => Sys2Proof.Machine.execMon h f s
  | .mwait h f => Sys2Proof.Machine.execMwait h f s
  | .tkt h f => Sys2Proof.Machine.execTkt h f s
  | .tcopy h f => Sys2Proof.Machine.execTcopy h f s
  | .chain h f => Sys2Proof.Machine.execChain h f s
  | .mma h f => Sys2Proof.Machine.execMma h f s
  | .accld h f => Sys2Proof.Machine.execAccld h f s
  | .accst h f => Sys2Proof.Machine.execAccst h f s
  | .accz h f => Sys2Proof.Machine.execAccz h f s
  | .accrel h f => Sys2Proof.Machine.execAccrel h f s
  | .ewait h f => Sys2Proof.Machine.execEwait h f s
  | .tpost h f => Sys2Proof.Machine.execTpost h f s
  | .nput h f => Sys2Proof.Machine.execNput h f s
  | .nget h f => Sys2Proof.Machine.execNget h f s
  | .nsig h f => Sys2Proof.Machine.execNsig h f s
  | .br h f => Sys2Proof.Machine.execBr h f s
  | .brp h f => Sys2Proof.Machine.execBrp h f s
  | .brd h f => Sys2Proof.Machine.execBrd h f s
  | .call h f => Sys2Proof.Machine.execCall h f s
  | .ret h f => Sys2Proof.Machine.execRet h f s
  | .jfence h f => Sys2Proof.Machine.execJfence h f s
  | .cfetch h f => Sys2Proof.Machine.execCfetch h f s
  | .ifence h f => Sys2Proof.Machine.execIfence h f s
  | .exitW h f => Sys2Proof.Machine.execExitW h f s
  | .yield h f => Sys2Proof.Machine.execYield h f s
  | .nop h f => Sys2Proof.Machine.execNop h f s
  | .spawnI h f => Sys2Proof.Machine.execSpawnI h f s
  | .spawnR h f => Sys2Proof.Machine.execSpawnR h f s
  | .spawnH h f => Sys2Proof.Machine.execSpawnH h f s
  | .resolve h f => Sys2Proof.Machine.execResolve h f s
  | .segend h f => Sys2Proof.Machine.execSegend h f s
  | .lkh h f => Sys2Proof.Machine.execLkh h f s
  | .trapW h f => Sys2Proof.Machine.execTrapW h f s
  | .rfe h f => Sys2Proof.Machine.execRfe h f s
  | .csrr h f => Sys2Proof.Machine.execCsrr h f s
  | .csrw h f => Sys2Proof.Machine.execCsrw h f s
  | .csrwI h f => Sys2Proof.Machine.execCsrwI h f s
  | .tcmp h f => Sys2Proof.Machine.execTcmp h f s
  | .bkpt h f => Sys2Proof.Machine.execBkpt h f s
  | .runIssue core younger => Sys2Proof.Machine.execRunIssue core younger s
  | .splitWaitResume g => Sys2Proof.Machine.execSplitWaitResume g s
  | .barrierWake g => Sys2Proof.Machine.execBarrierWake g s
  | .monitorTrigger g => Sys2Proof.Machine.execMonitorTrigger g s
  | .monitorTimeout g => Sys2Proof.Machine.execMonitorTimeout g s
  | .timerTrap g => Sys2Proof.Machine.execTimerTrap g s
  | .regrpkBinForm bead launch rate seg bin => Sys2Proof.Machine.execRegrpkBinForm bead launch rate seg bin s
  | .overlayParkWake g => Sys2Proof.Machine.execOverlayParkWake g s
  | .fanOut parent => Sys2Proof.Machine.execFanOut parent s
  | .groupDispatch bead launch rate => Sys2Proof.Machine.execGroupDispatch bead launch rate s
  | .groupDispatchTimeout bead launch rate => Sys2Proof.Machine.execGroupDispatchTimeout bead launch rate s
  | .quireGrant bead => Sys2Proof.Machine.execQuireGrant bead s
  | .spillTimerExpiry bead => Sys2Proof.Machine.execSpillTimerExpiry bead s
  | .dispatchUnit launch => Sys2Proof.Machine.execDispatchUnit launch s
  | .segmentTake bead => Sys2Proof.Machine.execSegmentTake bead s
  | .passOverLimit bead => Sys2Proof.Machine.execPassOverLimit bead s
  | .segmentCommit asid segid => Sys2Proof.Machine.execSegmentCommit asid segid s
  | .accumulatorExhaustion bead => Sys2Proof.Machine.execAccumulatorExhaustion bead s
  | .matrixPass bead => Sys2Proof.Machine.execMatrixPass bead s
  | .engineOperationComplete op reply => Sys2Proof.Machine.execEngineOperationComplete op reply s
  | .graphNodeFinish op reply => Sys2Proof.Machine.execGraphNodeFinish op reply s
  | .launchCompletion launch => Sys2Proof.Machine.execLaunchCompletion launch s
  | .peerOperationArrival p => Sys2Proof.Machine.execPeerOperationArrival p s
  | .hostRemoteWrite q va data => Sys2Proof.Machine.execHostRemoteWrite q va data s
  | .hostRemoteRead q va len => Sys2Proof.Machine.execHostRemoteRead q va len s
  | .launchCmd q => Sys2Proof.Machine.execLaunchCmd q s
  | .copyCmd q => Sys2Proof.Machine.execCopyCmd q s
  | .signalCmd q => Sys2Proof.Machine.execSignalCmd q s
  | .waitOnValue q => Sys2Proof.Machine.execWaitOnValue q s
  | .waitOnValueTimeout q => Sys2Proof.Machine.execWaitOnValueTimeout q s
  | .contextCreate q => Sys2Proof.Machine.execContextCreate q s
  | .contextSuspend q => Sys2Proof.Machine.execContextSuspend q s
  | .contextResume q => Sys2Proof.Machine.execContextResume q s
  | .contextDestroy q => Sys2Proof.Machine.execContextDestroy q s
  | .contextMigrate q => Sys2Proof.Machine.execContextMigrate q s
  | .deficitCharge part => Sys2Proof.Machine.execDeficitCharge part s
  | .realtimeDeadline q => Sys2Proof.Machine.execRealtimeDeadline q s
  | .quantumEndPreemption part => Sys2Proof.Machine.execQuantumEndPreemption part s
  | .gapFillReclaim bead => Sys2Proof.Machine.execGapFillReclaim bead s
  | .drainTimeout bead => Sys2Proof.Machine.execDrainTimeout bead s
  | .handOver bead asid => Sys2Proof.Machine.execHandOver bead asid s
  | .faultRecordWrite part => Sys2Proof.Machine.execFaultRecordWrite part s
  | .faultNotification part => Sys2Proof.Machine.execFaultNotification part s
  | .fqrespResume part seq => Sys2Proof.Machine.execFqrespResume part seq s
  | .fqrespAbort part seq => Sys2Proof.Machine.execFqrespAbort part seq s
  | .fqrespKill part seq => Sys2Proof.Machine.execFqrespKill part seq s
  | .shootdownAsid v => Sys2Proof.Machine.execShootdownAsid v s
  | .shootdownPartition v => Sys2Proof.Machine.execShootdownPartition v s
  | .shootdownAll v => Sys2Proof.Machine.execShootdownAll v s
  | .shootdownComplete => Sys2Proof.Machine.execShootdownComplete s
  | .pctlWrite part v => Sys2Proof.Machine.execPctlWrite part v s
  | .rodsWrite part v => Sys2Proof.Machine.execRodsWrite part v s
  | .registerWrite off v => Sys2Proof.Machine.execRegisterWrite off v s
  | .balancerSample rod c => Sys2Proof.Machine.execBalancerSample rod c s
  | .throttleLift rod c => Sys2Proof.Machine.execThrottleLift rod c s
  | .emergencyClamp rod c => Sys2Proof.Machine.execEmergencyClamp rod c s
  | .clampLift rod c => Sys2Proof.Machine.execClampLift rod c s
  | .powerArbiterPeriod r => Sys2Proof.Machine.execPowerArbiterPeriod r s
  | .wearSave => Sys2Proof.Machine.execWearSave s
  | .powerOnReset b => Sys2Proof.Machine.execPowerOnReset b s
  | .attestationRequest nonce => Sys2Proof.Machine.execAttestationRequest nonce s
  | .sidebandModuleReset => Sys2Proof.Machine.execSidebandModuleReset s
  | .sidebandFlashWrite copy off data => Sys2Proof.Machine.execSidebandFlashWrite copy off data s
  | .sidebandStatusReport => Sys2Proof.Machine.execSidebandStatusReport s
  | .patrolScrub pa found => Sys2Proof.Machine.execPatrolScrub pa found s
  | .stateCompare bead agrees => Sys2Proof.Machine.execStateCompare bead agrees s
  | .linkRetransmitFailure link => Sys2Proof.Machine.execLinkRetransmitFailure link s
  | .codeFetchComplete g => Sys2Proof.Machine.execCodeFetchComplete g s
  | .fqheadWrite part v => Sys2Proof.Machine.execFqheadWrite part v s
  | .malformedCommand q => Sys2Proof.Machine.execMalformedCommand q s
  | .targetReport launch => Sys2Proof.Machine.execTargetReport launch s
  | .contextRestoreComplete team => Sys2Proof.Machine.execContextRestoreComplete team s
  | .unrecordedStop => Sys2Proof.Machine.execUnrecordedStop s

end Sys2Proof.Machine
end

