-- ==== Sys2Proof/Machine/Schedule.lean ====
section
/-! DEFINITION. What can move next (log 1): the words of groups in a run, and the machine events that the spec lets
happen by themselves. Inputs from outside, and what replacement drops, move only when the schedule names them. -/

namespace Sys2Proof.Machine

/-- A command message arrives (R398); in recovery the endpoint does not answer (R407). -/
def State.receive (s : State) (q : Nat) (c : BitVec 512) : State :=
  if s.boot.recovery then s else s.updQueue q (fun x => { x with cmds := x.cmds ++ [c] })

/-- The group has a word to execute. -/
def Group.runnable (g : Group) : Bool := g.gid != 0 && g.run.on && g.wait == .ready

/-- Its core may issue it: the rod is not clamped and the bead is in service (R384, R389). -/
def State.issues (s : State) (g : Group) : Bool := g.runnable && s.coreIssues g.core

/-- What a hardware failure does. A single fault is corrected and counted, or masked by the repeat of its word or pass (R383).
Of what cannot be corrected (R384) data, a slot, a register or a window sector is poisoned, and its reader takes cause 0x14;
a word whose residue mismatch recurs writes nothing, and its group stops there, replayable, with cause 0x1a; an engine's tile
is poisoned, and its operation ends in error; a context whose state is lost is killed. -/
def State.fail (s : State) : Failure → State
  | .data sec => if s.poison.contains sec then s else { s with poison := sec :: s.poison }
  | .slot b n => s.updBead b (fun x => { x with accPoison := distinct (n % 128 :: x.accPoison) })
  | .corrected => { s with errcnt := s.errcnt + 1 }
  | .repeated => s
  | .register gid gr lane reg va => s.updGroup gid (fun g => { g with bad := SMap.put g.bad (g.badKey gr lane reg) va })
  | .window team sector va => s.updTeam team (fun t => { t with bad := SMap.put t.bad sector va })
  | .lane gid =>
    let t := s.focusOn gid
    if !t.issues t.grp || t.grp.gid != gid then s else t.trap { cause := 0x1a } false
  | .engine oid => match s.findOp oid with
    | none => s
    | some o =>
      let slots := match o.kind.tile? with | some n => (s.opHandle o n).slots | none => []
      let t := s.updBead o.bead (fun x => { x with accPoison := distinct (slots ++ x.accPoison) })
      match o.block with
      | some b => t.finishNode o b.toNat true
      | none => t.opEnded o (some (0, 0))
  | .state b asid => if (s.ctx? asid).isSome then s.stateError b asid else s

/-- Groups with a name. -/
def State.named (s : State) : List Group := s.allGroups.filter (fun g => g.gid != 0)

/-- Events of groups. -/
def State.groupEvents (s : State) : List Instr :=
  s.named.flatMap (fun g => [.splitWaitResume g.gid, .barrierWake g.gid, .monitorTrigger g.gid, .monitorTimeout g.gid,
    .timerTrap g.gid, .overlayParkWake g.gid, .codeFetchComplete g.gid, .runIssue g.core none, .runIssue g.core (some g.gid)])

/-- Events of beads. -/
def State.beadEvents (s : State) : List Instr :=
  (List.range 128).flatMap (fun b =>
    [.quireGrant b, .spillTimerExpiry b, .segmentTake b, .passOverLimit b, .accumulatorExhaustion b, .matrixPass b,
      .gapFillReclaim b, .drainTimeout b]
    ++ (s.bead b).bins.map (fun x => .regrpkBinForm b x.launch x.rate x.segid x.bin)
    ++ (0 :: s.ctxs.map (·.1)).map (fun a => .handOver b a))

/-- Events of elements that wait for lanes, of ended elements, launches, segments and teams. -/
def State.workEvents (s : State) : List Instr :=
  s.pool.flatMap (fun w => match w.bead with
    | some b => [.groupDispatch b w.launch w.elem.rate, .groupDispatchTimeout b w.launch w.elem.rate]
    | none => [])
  ++ s.parents.map (fun p => .fanOut p.pid)
  ++ s.launches.flatMap (fun l => [.dispatchUnit l.lid, .launchCompletion l.lid])
  ++ s.segs.map (fun x => .segmentCommit x.asid x.segid)
  ++ s.teams.map (fun t => .contextRestoreComplete t.tid)

/-- The operation waits for a peer's answer, which comes from outside. -/
def OpKind.remote : OpKind → Bool
  | .nput _ _ _ _ => true
  | .nget _ _ _ _ => true
  | .nsig _ _ _ => true
  | _ => false

/-- Events of engines. -/
def State.engineEvents (s : State) : List Instr :=
  (s.engOps.filter (fun o => !o.kind.remote)).flatMap (fun o =>
    [.engineOperationComplete o.oid { ok := true, data := [] }, .graphNodeFinish o.oid { ok := true, data := [] }])

/-- Events of queues that hold a command. -/
def State.queueEvents (s : State) : List Instr :=
  (s.queues.map (·.1)).flatMap (fun q => [.malformedCommand q, .launchCmd q, .copyCmd q, .signalCmd q, .waitOnValue q,
    .waitOnValueTimeout q, .contextCreate q, .contextSuspend q, .contextResume q, .contextDestroy q, .contextMigrate q])

/-- Events of partitions and of the module. -/
def State.partEvents (s : State) : List Instr :=
  (List.range 16).flatMap (fun p => [.deficitCharge p, .quantumEndPreemption p, .faultNotification p]
    ++ if Config.recordNow s.tick then [.faultRecordWrite p] else [])
  ++ (List.range 256).map .realtimeDeadline ++ [.shootdownComplete]

/-- Everything that can move next. -/
def State.candidates (s : State) : List Turn :=
  (s.named.filter s.issues).map (fun g => .word g.gid)
  ++ (s.groupEvents ++ s.beadEvents ++ s.workEvents ++ s.engineEvents ++ s.queueEvents ++ s.partEvents).map .event

/-- The candidates in an order that is open: from one of them on, around. -/
def State.choices (s : State) : List Turn :=
  let cs := s.candidates
  let k := Config.scheduleFrom s.tick % (cs.length + 1)
  cs.drop k ++ cs.take k

end Sys2Proof.Machine
end

