-- ==== Sys2Proof/Machine/Step.lean ====
section
/-! DEFINITION. The step: what the schedule names moves next; with nothing named, the next word of the
group at an issue port, and else one of the things that can move (log 1). -/

namespace Sys2Proof.Machine

/-- Apply a change to a next state. -/
def onNext (f : State → State) : Host.Outcome State Fault Refusal → Host.Outcome State Fault Refusal
  | .next s => .next (f s)
  | .fault r => .fault r
  | .refused r => .refused r

/-- Time passes (R322): the step counter advances, and `TIMER` by an open number of cycles (log 4); a bead of whose
occupant nothing remains has none (R342), and the exhaustion timer of one on which no group waits stands at zero (R288); groups drop their code at the end of the
run in which a shootdown found them (R376). -/
def State.passTime (s : State) : State :=
  { s.settleShoot.vacateAll.settleSlots with tick := s.tick + 1, timer := s.timer + BitVec.ofNat 64 (Config.elapsed s.tick) }

/-- The next word of the focus. -/
def stepWord (s : State) : Host.Outcome State Fault Refusal :=
  match s.issue with
  | .trap t s1 => .next (s1.trap t false)
  | .run i w s1 => onNext (fun t => t.afterWord s1 w) (exec i s1)

/-- What the schedule names: a word is executed only by a group in a run whose core issues; an event is no
word. -/
def stepTurn (s : State) : Turn → Host.Outcome State Fault Refusal
  | .event i => if (encode i).isSome then .next s else exec i s
  | .word gid => let s1 := s.focusOn gid; if s1.issues s1.grp then stepWord s1 else .next s
  | .message q c => .next (s.receive q c)
  | .evict c k a => .next (s.evict c k a)
  | .failure f => .next (s.fail f)

/-- The outcome is another state than `s`. -/
def changes (s : State) : Host.Outcome State Fault Refusal → Bool
  | .next t => decide (t ≠ s)
  | .fault _ => true
  | .refused _ => true

/-- Nothing is named and the focus has no word to execute: the first choice that changes the machine. -/
def stepIdle (s : State) : Host.Outcome State Fault Refusal :=
  match s.choices.find? (fun t => changes s (stepTurn s t)) with
  | some t => stepTurn s t
  | none => .next s

/-- One step of the machine. -/
def step (s : State) : Host.Outcome State Fault Refusal :=
  onNext State.passTime
    (match s.agenda with
    | t :: rest => stepTurn { s with agenda := rest } t
    | [] => if s.issues s.grp then stepWord s else stepIdle s)

/-! ## Placing one instruction -/

/-- The rate entry under which a lone word of an opcode can run. -/
def probeLat (op : Nat) : Lat :=
  if op = 0xa7 then { valid := true, fanout := 3, pack := 4 }
  else if 0xd0 ≤ op then { valid := true, pack := 0 }
  else if op = 0x92 ∨ op = 0x93 then { valid := true, fanout := 4, pack := 2 }
  else { valid := true, pack := 3 }

/-- A state with one word stored where the step fetches next (log 10): a launch, a group with one live
lane at the word, and the translation of its page. -/
def State.withFetchWord (s : State) (nbits w : Nat) : State :=
  let x := w % 2 ^ nbits
  let k := Machine.nbits x 8 3
  let lat : List Lat := (List.range 8).map (fun j => if j = k then probeLat (x % 256) else {})
  let launch : Launch := { lid := 1, asid := 1, queue := 0, lattice := lat, slots := List.replicate 8 2, regDflt := k,
                           roles := [{ entry := 0, lregs := 2048, gregs := 2048, bal := 0, groups := 1, inseg := false,
                                       seg := 0 }] }
  let g : Group := { gid := 1, asid := 1, launch := 1, team := 1, rate := k, hw := 64, lw := 64, lgs := [{}],
                     div := { live := 1, split := 0xfffffffc, pcs := [], bcast := 0 },
                     run := { on := true, active := 1, slices := [0], rate := k }, fresh := false }
  let team : Team := { tid := 1, asid := 1, launch := 1, num := 0, segid := 0, bead := 0, spw := 131072, spad := [],
                       bars := [], startedAt := 0, retired := 0, stop := none, restoring := false }
  let page : Tlb := { asid := 1, part := 0, gen := 0, vbase := 0, ibase := 0, pbase := 0, size := 65536, rd := true,
                      wr := true, ex := true, plc := 0 }
  { s with
    agenda := []
    grp := g
    groups := []
    launches := [launch]
    teams := [team]
    ctxs := [(1, { asid := 1, part := 0, sort := true })]
    cores := [(0, { tlb := [page] })]
    beads := []
    boot := { s.boot with chans := s.boot.chans ||| 1 }
    rods := []
    poison := []
    mem := writeBytes s.mem ((leBytes x 16).zipIdx.map (fun b => (b.2, b.1))) }

end Sys2Proof.Machine
end

