-- ==== Sys2Proof/Safety.lean ====
section
/-! DEFINITION. What a safe run is: every step answers a next state, and memory keeps its canonical
form. And what the effect of a computing word is, in the terms that statements use: the results, and all
that it leaves unchanged. -/

namespace Sys2Proof

open Machine

/-- The memory lists rising addresses and no byte that equals what an unlisted address reads as. -/
abbrev Memory.wf (m : List (Nat × Byte)) : Bool := SMap.wf (0 : Byte) m

/-- Run `n` steps. -/
def runSteps : Nat → State → Host.Outcome State Fault Refusal
  | 0, s => .next s
  | n + 1, s => match step s with
    | .next t => runSteps n t
    | .fault r => .fault r
    | .refused r => .refused r

/-- A run of `n` steps is safe: it answers a next state whose memory is canonical. -/
def SafeFor (n : Nat) (s : State) : Prop := ∃ t, runSteps n s = .next t ∧ Memory.wf t.mem = true

namespace Machine

/-- Two lanes hold a register of a rate in the same place: the logical group's at a rate packed GROUP, else the
lane's own. -/
def Group.samePlace (g : Group) (gr : Bool) (l l' : Nat) : Bool :=
  if gr then decide (g.lgOf l = g.lgOf l') else decide (l = l')

/-- The flags that the results of a logical group's lanes raise. -/
def Group.raised (g : Group) (outs : List (Nat × LaneOut)) (j : Nat) : Word :=
  (outs.filter (fun x => g.lgOf x.1 = j)).foldl (fun w x => w ||| x.2.flags) 0

/-- What no word that only computes changes in its group. -/
def Group.sameRest (g t : Group) : Prop :=
  t.gid = g.gid ∧ t.asid = g.asid ∧ t.launch = g.launch ∧ t.team = g.team ∧ t.segid = g.segid ∧ t.rate = g.rate
    ∧ t.core = g.core ∧ t.slot = g.slot ∧ t.hw = g.hw ∧ t.lw = g.lw ∧ t.elems = g.elems ∧ t.keys = g.keys
    ∧ t.div.live = g.div.live ∧ t.div.inreg = g.div.inreg ∧ t.div.rstart = g.div.rstart ∧ t.div.rmask = g.div.rmask
    ∧ t.tsave = g.tsave ∧ t.trapcause = g.trapcause ∧ t.trapinfo = g.trapinfo ∧ t.trapinfoHi = g.trapinfoHi
    ∧ t.rest = g.rest ∧ t.trest = g.trest ∧ t.owed = g.owed ∧ t.utvec = g.utvec ∧ t.tcmp = g.tcmp ∧ t.pins = g.pins
    ∧ (∀ x ∈ t.bad, x ∈ g.bad)
    ∧ (∀ j, (t.lg j).fpmode = (g.lg j).fpmode ∧ (t.lg j).divzEn = (g.lg j).divzEn ∧ (t.lg j).handles = (g.lg j).handles
        ∧ (t.lg j).ops = (g.lg j).ops ∧ (t.lg j).seq = (g.lg j).seq ∧ (t.lg j).monSet = (g.lg j).monSet
        ∧ (t.lg j).monTrig = (g.lg j).monTrig ∧ (t.lg j).elem = (g.lg j).elem)

/-- Nothing outside the group whose word it is has changed. -/
def State.onlyFocus (s t : State) : Prop := t = s.setGrp t.grp

/-- The effect of a word that computes results `outs` into destination `d` at its rate: the results stand in
their registers and predicates, the flags are raised, and all else but the program counters is as before. -/
structure Computed (s : State) (h : Hdr) (d : Nat) (outs : List (Nat × LaneOut)) (t : State) : Prop where
  /-- Registers written. -/
  regs : ∀ x ∈ outs, ∀ i v, x.2.regs[i]? = some v →
    t.grp.reg (s.curLaunch.isGroupRate h.rate.toNat) x.1 (d + i) = v
  /-- Predicates written (R198; at a rate packed GROUP in every live lane of the logical group, R330). -/
  preds : ∀ x ∈ outs, ∀ b, x.2.pred = some b → d ≠ 0 →
    ∀ l, (if s.curLaunch.isGroupRate h.rate.toNat = true
          then inMask (s.grp.div.live &&& s.grp.lgMask (s.grp.lgOf x.1)) l = true else l = x.1) →
      t.grp.predOf d l = b
  /-- Flags raised (R123). -/
  flags : ∀ j, (t.grp.lg j).fpflags = (s.grp.lg j).fpflags ||| s.grp.raised outs j
  /-- Registers of the rate that are not written. -/
  otherRegs : ∀ l r, l < 128 →
    (∀ x ∈ outs, s.grp.samePlace (s.curLaunch.isGroupRate h.rate.toNat) l x.1 = true →
      ¬ (d ≤ r ∧ r < d + x.2.regs.length)) →
    t.grp.reg (s.curLaunch.isGroupRate h.rate.toNat) l r = s.grp.reg (s.curLaunch.isGroupRate h.rate.toNat) l r
  /-- Registers of the rates held in the other way. -/
  otherRates : ∀ l r, t.grp.reg (!s.curLaunch.isGroupRate h.rate.toNat) l r
    = s.grp.reg (!s.curLaunch.isGroupRate h.rate.toNat) l r
  /-- Predicates that are not written. -/
  otherPreds : ∀ p l, (∀ x ∈ outs, x.2.pred ≠ none → p = d →
      ¬ (if s.curLaunch.isGroupRate h.rate.toNat = true
          then inMask (s.grp.div.live &&& s.grp.lgMask (s.grp.lgOf x.1)) l = true else l = x.1)) →
    t.grp.predOf p l = s.grp.predOf p l
  rest : s.grp.sameRest t.grp
  /-- Memory and everything else outside the group. -/
  outside : s.onlyFocus t
  memory : ∀ a, t.byte a = s.byte a
  /-- The word has completed. -/
  words : t.grp.words = s.grp.words + 1

end Machine
end Sys2Proof
end

