-- ==== Sys2Proof/WellFormed.lean ====
section
/-! DEFINITION. Well-formed instructions: words whose bits meet no condition of R185 that bits alone
decide. What the launch decides (register rates, budgets, slots, place in the run) is checked at the
step, with the same table. -/

namespace Sys2Proof

/-- The instruction is a word, and its bits break no rule of R185. -/
def Instr.wf (i : Instr) : Bool :=
  match encode i with
  | some w => (staticRejects w).isEmpty
  | none => false

end Sys2Proof
end

