-- ==== Sys2Proof/Certificates/Slice0/Obligations.lean ====
section
/-! DEFINITION. The statements of this slice. A helper stands before the statements that use it; what a
computing word leaves unchanged is said once, in `Machine.Computed`. -/

open Sys2Proof Sys2Proof.Machine

/-! ## Encoding -/

/-- The word of four 32-bit parts, the lowest first. -/
def Sys2Proof.word4 (a b c d : Nat) : Inst := BitVec.ofNat 128 (a + 2 ^ 32 * b + 2 ^ 64 * c + 2 ^ 96 * d)

/-- Words written out bit by bit from the layouts of R176 to R182 decode to the instructions they stand for:
`ffma`, `ld`, `icmp.s`, `st`, `mma`, `br`, `spawn.r`, `iadd`, `trav`, `cvtfmt`. -/
def Obligations.DecodesSampleWords : Prop :=
  decodeWord (word4 0x0ce60d43 0x30028020 0x80002200 0) = .ok (.ffma
    { rate := 5, la := 1, b := 0, i := 0, pred := 3, pneg := 1, ret := 3 }
    { d := 12, sa := 4, sb := 5, sc := 6, inh := 4, nega := 1, absa := 0, negb := 0, absb := 0, negc := 0, absc := 0,
      sub := 0, fmt := 0, rm := 2, imm := 0 }) ∧
  decodeWord (word4 0x0a0013a0 0x04000020 0x00100000 0) = .ok (.ld
    { rate := 3, la := 2, b := 0, i := 0, pred := 0, pneg := 0, ret := 0 }
    { d := 10, a := 4, b := 0x800, c := 0, e := 0, size := 2, sign := 0, shift := 0, scope := 0, order := 0, scf := 0,
      res := 0, imm := 0 }) ∧
  decodeWord (word4 0x0200032b 0x04938048 0x00100000 0) = .ok (.icmp .s .w32
    { rate := 3, la := 0, b := 0, i := 0, pred := 0, pneg := 0, ret := 0 }
    { d := 2, sa := 9, sb := 0x927, sc := 0, inh := 0, nega := 0, absa := 0, negb := 0, absb := 0, negc := 0,
      absc := 0, sub := 2, fmt := 0, rm := 0, imm := 0 }) ∧
  decodeWord (word4 0x000003a1 0x48030020 0x01100000 0) = .ok (.st
    { rate := 3, la := 0, b := 0, i := 0, pred := 0, pneg := 0, ret := 0 }
    { d := 0, a := 4, b := 6, c := 9, e := 0, size := 2, sign := 0, shift := 2, scope := 0, order := 0, scf := 0,
      res := 0, imm := 0 }) ∧
  decodeWord (word4 0x140002d2 0x50048040 0x08080100 0x00040004) = .ok (.mma
    { rate := 2, la := 0, b := 0, i := 0, pred := 0, pneg := 0, ret := 0 }
    { d := 20, a := 8, b := 9, c := 10, hd := 2, hs := 0, res1 := 0, sub := 1, fmt := 1, sat := 0, res2 := 0,
      imm := 0x00040004 }) ∧
  decodeWord (word4 0x000683e0 0 0 0xfffffffd) = .ok (.br
    { rate := 3, la := 0, b := 1, i := 0, pred := 3, pneg := 0, ret := 0 }
    { d := 0, a := 0, b := 0, c := 0, seg := 0, side := 0, res1 := 0, sub := 0, res2 := 0, imm := 0xfffffffd }) ∧
  decodeWord (word4 0x1e0002ec 0x6014c000 0x00002001 0) = .ok (.spawnR
    { rate := 2, la := 0, b := 0, i := 0, pred := 0, pneg := 0, ret := 0 }
    { d := 30, a := 0x800, b := 41, c := 44, seg := 0, side := 1, res1 := 0, sub := 0, res2 := 0, imm := 0 }) ∧
  decodeWord (word4 0x42000f00 0x000580c0 0 0) = .ok (.iadd .w32
    { rate := 7, la := 1, b := 0, i := 0, pred := 0, pneg := 0, ret := 0 }
    { d := 66, sa := 24, sb := 11, sc := 0, inh := 0, nega := 0, absa := 0, negb := 0, absb := 0, negc := 0,
      absc := 0, sub := 0, fmt := 0, rm := 0, imm := 0 }) ∧
  decodeWord (word4 0x1e000396 0xb00a0140 0 0) = .ok (.trav
    { rate := 3, la := 0, b := 0, i := 0, pred := 0, pneg := 0, ret := 0 }
    { d := 30, sa := 40, sb := 20, sc := 22, inh := 0, nega := 0, absa := 0, negb := 0, absb := 0, negc := 0,
      absc := 0, sub := 0, fmt := 0, rm := 0, imm := 0 }) ∧
  decodeWord (word4 0x1400036b 0x00000060 0x18000000 0) = .ok (.cvtfmt
    { rate := 3, la := 0, b := 0, i := 0, pred := 0, pneg := 0, ret := 0 }
    { d := 20, sa := 12, sb := 0, sc := 0, inh := 0, nega := 0, absa := 0, negb := 0, absb := 0, negc := 0,
      absc := 0, sub := 0, fmt := 3, rm := 0, imm := 0 })

/-- Decoding and encoding agree (R176 to R185): a well-formed instruction's bytes, whatever follows them, decode to
it and leave what follows; and bytes that decode are those of the well-formed instruction they decode to. -/
def Obligations.DecodeEncodeAgree : Prop :=
  (∀ i : Instr, i.wf = true → ∃ w, encode i = some w ∧ ∀ rest, decode (bytesOfWord w ++ rest) = .ok (i, rest)) ∧
  (∀ bs i rest, decode bs = .ok (i, rest) → i.wf = true ∧ ∃ w, encode i = some w ∧ bs = bytesOfWord w ++ rest)

/-- The opcodes that the map of R184 assigns. -/
def Sys2Proof.assignedOpcode (n : Nat) : Bool :=
  decide (n ≤ 0x3a) || decide (0x40 ≤ n ∧ n ≤ 0x6d) || decide (0x80 ≤ n ∧ n ≤ 0x99) || decide (0xa0 ≤ n ∧ n ≤ 0xaf)
    || decide (0xc0 ≤ n ∧ n ≤ 0xc6) || decide (0xd0 ≤ n ∧ n ≤ 0xdb) || decide (0xe0 ≤ n ∧ n ≤ 0xf0)
    || decide (0xf8 ≤ n ∧ n ≤ 0xfe)

/-- An opcode that is not assigned is refused with reason 0x01 on the opcode field, whatever the other bits, and an
assigned one never is (R184, R185, R187). -/
def Obligations.UnassignedOpcodesRefused : Prop :=
  ∀ w : Inst, (assignedOpcode (w.toNat % 256) = false → decodeWord w = .error ⟨1, 0, 7⟩) ∧
    (assignedOpcode (w.toNat % 256) = true → decodeWord w ≠ .error ⟨1, 0, 7⟩)

/-! ## Reset and the step -/

/-- What reset leaves (R85, R322, R340, R379, R382, R391): the timer is 0, no agent is at work, device memory lists
nothing, every predictor entry is 0x7f, PWRCAP is 2,300 W, a queue descriptor is not enabled and holds CLASS 0b01,
WEIGHT 1 and QUANTUM 1,000, the partition registers are 0, and every condition entry has generation 1. The model's own
choices among these: memory reads 0 (log 2), and the predictor entries, which R94 gives when a partition is set up, hold
0x7f from reset on (log 3). -/
def Obligations.ResetState : Prop :=
  State.reset.timer = 0 ∧ State.reset.named = [] ∧ State.reset.launches = [] ∧ State.reset.ctxs = [] ∧
  State.reset.segs = [] ∧ State.reset.engOps = [] ∧ (∀ a, State.reset.byte a = 0) ∧
  (∀ p k, SMap.get 0x7f (State.reset.part p).pred k = 0x7f) ∧
  State.reset.win (offModule 0x802) = 2300 ∧
  (∀ q, q < 256 → State.reset.qEn q = false ∧ State.reset.qClass q = 1 ∧ State.reset.qWeight q = 1 ∧
    State.reset.qQuantum q = 1000) ∧
  (∀ p n, p < 16 → 0x900 ≤ n → n ≤ 0x912 → State.reset.pcsr p n = 0) ∧
  (∀ d e, (State.reset.cond d e).gen = 1 ∧ (State.reset.cond d e).live = false)

/-- The state after reset has canonical memory. -/
def Obligations.ResetMemoryCanonical : Prop := Memory.wf State.reset.mem = true

/-- Every step that answers a next state keeps the canonical form of memory: rising addresses, no listed byte that
equals what an unlisted one reads as. -/
def Obligations.StepKeepsMemoryCanonical : Prop :=
  ∀ s t, Memory.wf s.mem = true → step s = .next t → Memory.wf t.mem = true

/-- A step runs the decoded instruction. With nothing named by the schedule, a group at an issue port that its core
may issue, whose next word the fetch brings (R58, R303) and no condition of R185 rejects, that starts no idempotent
region and meets no lookahead window: the step is `exec` of the decoded instruction in the state after the fetch, the
run having taken the word's rate (R61); then the word's completion is noted in windows and loop buffers (R58, R63), and
time passes. When the schedule names the group, the same happens with the group in focus. -/
def Obligations.StepRunsDecodedWord : Prop :=
  ∀ (s s0 s1 : State) (w : Inst) (i : Instr),
    (s.agenda = [] ∧ s0 = s ∨ ∃ gid rest, s.agenda = .word gid :: rest ∧
      s0 = State.focusOn { s with agenda := rest } gid) →
    s0.issues s0.grp = true → s0.fetch = (.word w, s1) → decodeWord w = .ok i →
    allRejects s1.legalCtx w = [] → natAt w 16 1 = 0 → s1.grp.windows = [] →
    let s2 := s1.setGrp { s1.grp with run := { s1.grp.run with rate := rateOf w, last := natAt w 15 1 == 1 } }
    step s = onNext State.passTime (onNext (fun t => t.afterWord s2 w) (exec i s2))

/-! ## Words that compute -/

/-- `exec` answers a next state in which every lane that executes the word has its result, and everything else is as
before (`Machine.Computed`). -/
def Sys2Proof.Completes (i : Instr) (s : State) (h : Hdr) (d : Nat) (out : Nat → LaneOut) : Prop :=
  ∃ t, exec i s = .next t ∧ Computed s h d ((s.grp.execLanes s.curLaunch h).map (fun l => (l, out l))) t

/-- Operands of an arithmetic word as 32 and 64 bits (R164, R189). -/
def Sys2Proof.wA (s : State) (h : Hdr) (f : FA) (l : Nat) : Word := BitVec.ofNat 32 (s.opnd h f.imm .i32 l (opA f 1))
def Sys2Proof.wB (s : State) (h : Hdr) (f : FA) (l : Nat) : Word := BitVec.ofNat 32 (s.opnd h f.imm .i32 l (opB f 1))
def Sys2Proof.wC (s : State) (h : Hdr) (f : FA) (l : Nat) : Word := BitVec.ofNat 32 (s.opnd h f.imm .i32 l (opC f 1))
def Sys2Proof.dA (s : State) (h : Hdr) (f : FA) (l : Nat) : Dword := BitVec.ofNat 64 (s.opnd h f.imm .i64 l (opA f 2))
def Sys2Proof.dB (s : State) (h : Hdr) (f : FA) (l : Nat) : Dword := BitVec.ofNat 64 (s.opnd h f.imm .i64 l (opB f 2))
def Sys2Proof.dC (s : State) (h : Hdr) (f : FA) (l : Nat) : Dword := BitVec.ofNat 64 (s.opnd h f.imm .i64 l (opC f 2))

/-- The registers of a 64-bit result, the low half first (R107). -/
def Sys2Proof.halves (x : Dword) : List Word := [x.setWidth 32, (x >>> 32).setWidth 32]

/-- Count of leading and trailing positions, from `i`, where a bit is 0. -/
def Sys2Proof.zerosFrom (bit : Nat → Bool) (n : Nat) : Nat := ((List.range n).takeWhile (fun i => !bit i)).length

/-- A word with its sources and the registers it computes. -/
structure Sys2Proof.IntForm where
  h : Hdr
  f : FA
  ops : List Opnd
  out : Nat → List Word

/-- What R192, R195, R196, R199 and R200 give for every integer word with a register destination, divisions, compares
and selects apart: results in the arithmetic of 32-bit and 64-bit strings. -/
def Sys2Proof.integerForm (s : State) : Instr → Option IntForm
  | .iadd .w32 h f => some ⟨h, f, [opA f 1, opB f 1], fun l => [wA s h f l + wB s h f l]⟩
  | .iadd .w64 h f => some ⟨h, f, [opA f 2, opB f 2], fun l => halves (dA s h f l + dB s h f l)⟩
  | .isub .w32 h f => some ⟨h, f, [opA f 1, opB f 1], fun l => [wA s h f l - wB s h f l]⟩
  | .isub .w64 h f => some ⟨h, f, [opA f 2, opB f 2], fun l => halves (dA s h f l - dB s h f l)⟩
  | .imul .w32 h f => some ⟨h, f, [opA f 1, opB f 1], fun l => [wA s h f l * wB s h f l]⟩
  | .imul .w64 h f => some ⟨h, f, [opA f 2, opB f 2], fun l => halves (dA s h f l * dB s h f l)⟩
  | .imulh .s h f => some ⟨h, f, [opA f 1, opB f 1], fun l =>
      [(((wA s h f l).signExtend 64 * (wB s h f l).signExtend 64) >>> 32).setWidth 32]⟩
  | .imulh .u h f => some ⟨h, f, [opA f 1, opB f 1], fun l =>
      [(((wA s h f l).setWidth 64 * (wB s h f l).setWidth 64) >>> 32).setWidth 32]⟩
  | .imad .w32 h f => some ⟨h, f, [opA f 1, opB f 1, opC f 1], fun l => [wA s h f l * wB s h f l + wC s h f l]⟩
  | .imad .w64 h f => some ⟨h, f, [opA f 2, opB f 2, opC f 2], fun l =>
      halves (dA s h f l * dB s h f l + dC s h f l)⟩
  | .imin .s h f => some ⟨h, f, [opA f 1, opB f 1], fun l =>
      [if (wA s h f l).sle (wB s h f l) then wA s h f l else wB s h f l]⟩
  | .imin .u h f => some ⟨h, f, [opA f 1, opB f 1], fun l =>
      [if (wA s h f l).ule (wB s h f l) then wA s h f l else wB s h f l]⟩
  | .imax .s h f => some ⟨h, f, [opA f 1, opB f 1], fun l =>
      [if (wA s h f l).sle (wB s h f l) then wB s h f l else wA s h f l]⟩
  | .imax .u h f => some ⟨h, f, [opA f 1, opB f 1], fun l =>
      [if (wA s h f l).ule (wB s h f l) then wB s h f l else wA s h f l]⟩
  | .iabs h f => some ⟨h, f, [opA f 1], fun l => [if (wA s h f l).msb then - wA s h f l else wA s h f l]⟩
  | .ineg h f => some ⟨h, f, [opA f 1], fun l => [- wA s h f l]⟩
  | .iaddsat .s h f => some ⟨h, f, [opA f 1, opB f 1], fun l =>
      [if 2 ^ 31 ≤ (wA s h f l).toInt + (wB s h f l).toInt then 0x7fffffff
        else if (wA s h f l).toInt + (wB s h f l).toInt < - 2 ^ 31 then 0x80000000
        else wA s h f l + wB s h f l]⟩
  | .iaddsat .u h f => some ⟨h, f, [opA f 1, opB f 1], fun l =>
      [if 2 ^ 32 ≤ (wA s h f l).toNat + (wB s h f l).toNat then 0xffffffff else wA s h f l + wB s h f l]⟩
  | .isubsat .s h f => some ⟨h, f, [opA f 1, opB f 1], fun l =>
      [if 2 ^ 31 ≤ (wA s h f l).toInt - (wB s h f l).toInt then 0x7fffffff
        else if (wA s h f l).toInt - (wB s h f l).toInt < - 2 ^ 31 then 0x80000000
        else wA s h f l - wB s h f l]⟩
  | .isubsat .u h f => some ⟨h, f, [opA f 1, opB f 1], fun l =>
      [if (wA s h f l).toNat < (wB s h f l).toNat then 0 else wA s h f l - wB s h f l]⟩
  | .andB h f => some ⟨h, f, [opA f 1, opB f 1], fun l => [wA s h f l &&& wB s h f l]⟩
  | .orB h f => some ⟨h, f, [opA f 1, opB f 1], fun l => [wA s h f l ||| wB s h f l]⟩
  | .xorB h f => some ⟨h, f, [opA f 1, opB f 1], fun l => [wA s h f l ^^^ wB s h f l]⟩
  | .andn h f => some ⟨h, f, [opA f 1, opB f 1], fun l => [wA s h f l &&& ~~~ wB s h f l]⟩
  | .shl .w32 h f => some ⟨h, f, [opA f 1, opB f 1], fun l => [wA s h f l <<< ((wB s h f l).toNat % 32)]⟩
  | .shl .w64 h f => some ⟨h, f, [opA f 2, opB f 1], fun l => halves (dA s h f l <<< ((wB s h f l).toNat % 64))⟩
  | .shr .w32 h f => some ⟨h, f, [opA f 1, opB f 1], fun l => [wA s h f l >>> ((wB s h f l).toNat % 32)]⟩
  | .shr .w64 h f => some ⟨h, f, [opA f 2, opB f 1], fun l => halves (dA s h f l >>> ((wB s h f l).toNat % 64))⟩
  | .sar .w32 h f => some ⟨h, f, [opA f 1, opB f 1], fun l =>
      [(wA s h f l).sshiftRight ((wB s h f l).toNat % 32)]⟩
  | .sar .w64 h f => some ⟨h, f, [opA f 2, opB f 1], fun l =>
      halves ((dA s h f l).sshiftRight ((wB s h f l).toNat % 64))⟩
  | .rot h f => some ⟨h, f, [opA f 1, opB f 1], fun l => [(wA s h f l).rotateLeft ((wB s h f l).toNat % 32)]⟩
  | .popc h f => some ⟨h, f, [opA f 1], fun l =>
      [BitVec.ofNat 32 ((List.range 32).countP (wA s h f l).getLsbD)]⟩
  | .clz h f => some ⟨h, f, [opA f 1], fun l => [BitVec.ofNat 32 (zerosFrom (wA s h f l).getMsbD 32)]⟩
  | .ctz h f => some ⟨h, f, [opA f 1], fun l => [BitVec.ofNat 32 (zerosFrom (wA s h f l).getLsbD 32)]⟩
  | .brev h f => some ⟨h, f, [opA f 1], fun l => [(wA s h f l).reverse]⟩
  | .mov .w32 h f => some ⟨h, f, [opA f 1], fun l => [wA s h f l]⟩
  | .mov .w64 h f => some ⟨h, f, [opA f 2], fun l => halves (dA s h f l)⟩
  | .movi h f => some ⟨h, f, [], fun _ => [f.imm]⟩
  | .aadd h f => some ⟨h, f, [opA f 2, opB f 1], fun l => halves (dA s h f l + (wB s h f l).signExtend 64)⟩
  | .alea h f => some ⟨h, f, [opA f 2, opB f 1], fun l =>
      halves (dA s h f l + (wB s h f l).setWidth 64 * (1 <<< f.sub.toNat) + f.imm.signExtend 64)⟩
  | .amul h f => some ⟨h, f, [opA f 1, opB f 1], fun l =>
      halves ((wA s h f l).setWidth 64 * (wB s h f l).setWidth 64)⟩
  | _ => none

/-- The integer words (R192, R195, R199, R200): when the operands can be read, the word completes, every lane that
executes it has the result, computed modulo 2^32 or 2^64, and nothing else changes: no flag, no predicate, no other
register, no byte of memory. -/
def Obligations.IntegerResults : Prop :=
  ∀ (s : State) (i : Instr) (x : IntForm), integerForm s i = some x → s.readable x.h x.ops →
    Completes i s x.h x.f.d.toNat (fun l => { regs := x.out l })

/-- `lop3` (R195): bit i of the result is the table's bit 4 c_i + 2 b_i + a_i. -/
def Sys2Proof.Lop3BitsClaim : Prop :=
  ∀ (s : State) (h : Hdr) (f : FA), s.readable h [opA f 1, opB f 1, opC f 1] →
    ∃ r : Nat → Word, Completes (.lop3 h f) s h f.d.toNat (fun l => { regs := [r l] }) ∧
      ∀ l k, k < 32 → (r l).getLsbD k = f.sub.getLsbD (4 * ((wC s h f l).getLsbD k).toNat
        + 2 * ((wB s h f l).getLsbD k).toNat + ((wA s h f l).getLsbD k).toNat)

/-- Position and length of a bit-field descriptor (R196). -/
def Sys2Proof.fieldAt (b : Word) : Nat × Nat :=
  let p := min (b.toNat % 256) 32
  (p, min (b.toNat / 256 % 256) (32 - p))

/-- Bit fields (R196): extraction with zeros or copies of the field's top bit above, 0 for an empty field; insertion
of the low bits of a into c. -/
def Sys2Proof.BitFieldsClaim : Prop :=
  (∀ (s : State) (sg : Sgn) (h : Hdr) (f : FA), s.readable h [opA f 1, opB f 1] →
    ∃ r : Nat → Word, Completes (.bfe sg h f) s h f.d.toNat (fun l => { regs := [r l] }) ∧
      ∀ l k, k < 32 →
        let p := (fieldAt (wB s h f l)).1
        let n := (fieldAt (wB s h f l)).2
        (r l).getLsbD k = if k < n then (wA s h f l).getLsbD (p + k)
          else (sg == .s && decide (0 < n) && (wA s h f l).getLsbD (p + n - 1))) ∧
  (∀ (s : State) (h : Hdr) (f : FA), s.readable h [opA f 1, opB f 1, opC f 1] →
    ∃ r : Nat → Word, Completes (.bfi h f) s h f.d.toNat (fun l => { regs := [r l] }) ∧
      ∀ l k, k < 32 →
        let p := (fieldAt (wB s h f l)).1
        let n := (fieldAt (wB s h f l)).2
        (r l).getLsbD k = if p ≤ k ∧ k < p + n then (wA s h f l).getLsbD (k - p) else (wC s h f l).getLsbD k)

/-- lop3 looks each bit up; bfe and bfi move a bit field by its descriptor: `Lop3BitsClaim`, `BitFieldsClaim`. -/
def Obligations.BitwiseResults : Prop := Lop3BitsClaim ∧ BitFieldsClaim

/-- The relation of an integer condition code (R197), on 32-bit or 64-bit strings. -/
def Sys2Proof.condHolds {n : Nat} (sg : Sgn) (cond : Nat) (a b : BitVec n) : Bool :=
  match cond, sg with
  | 0, _ => a == b
  | 1, _ => a != b
  | 2, .s => a.slt b
  | 2, .u => a.ult b
  | 3, .s => a.sle b
  | 3, .u => a.ule b
  | 4, .s => b.slt a
  | 4, .u => b.ult a
  | _, .s => b.sle a
  | _, .u => b.ule a

/-- Compares and selects (R197 to R200): a compare writes the relation of its condition code (0 to 5) into a predicate,
or all ones or zeros into a register; `sel` takes A where the predicate, inverted by SUB bit 0, holds, else B. -/
def Obligations.CompareAndSelect : Prop :=
  ∀ (s : State) (h : Hdr) (f : FA),
    (s.readable h [opA f 1, opB f 1] →
      (∀ sg, Completes (.icmp sg .w32 h f) s h f.d.toNat (fun l =>
        { pred := some (condHolds sg f.sub.toNat (wA s h f l) (wB s h f l)) })) ∧
      (∀ sg, Completes (.icmpR sg h f) s h f.d.toNat (fun l =>
        { regs := [if condHolds sg f.sub.toNat (wA s h f l) (wB s h f l) then 0xffffffff else 0] })) ∧
      Completes (.sel .w32 h f) s h f.d.toNat (fun l =>
        { regs := [if s.grp.predOf (f.sc.toNat % 16) l != f.sub.getLsbD 0 then wA s h f l else wB s h f l] })) ∧
    (s.readable h [opA f 2, opB f 2] →
      (∀ sg, Completes (.icmp sg .w64 h f) s h f.d.toNat (fun l =>
        { pred := some (condHolds sg f.sub.toNat (dA s h f l) (dB s h f l)) })) ∧
      Completes (.acmp h f) s h f.d.toNat (fun l =>
        { pred := some (condHolds .u f.sub.toNat (dA s h f l) (dB s h f l)) }) ∧
      Completes (.acmpR h f) s h f.d.toNat (fun l =>
        { regs := [if condHolds .u f.sub.toNat (dA s h f l) (dB s h f l) then 0xffffffff else 0] }) ∧
      Completes (.sel .w64 h f) s h f.d.toNat (fun l =>
        { regs := halves (if s.grp.predOf (f.sc.toNat % 16) l != f.sub.getLsbD 0 then dA s h f l else dB s h f l) }))

/-- Quotient and remainder of R193, and whether the lane is an event. -/
def Sys2Proof.quotient (sg : Sgn) (a b : Word) : Word × Word × Bool :=
  if b = 0 then (0xffffffff, a, true)
  else match sg with
    | .s => if a = 0x80000000 ∧ b = 0xffffffff then (0x80000000, 0, true) else (a.sdiv b, a.srem b, false)
    | .u => (a.udiv b, a.umod b, false)

/-- Lanes in which a division is an event and the trap enable of R194 is set. -/
def Sys2Proof.divideEvents (s : State) (sg : Sgn) (h : Hdr) (f : FA) : List Nat :=
  (s.grp.execLanes s.curLaunch h).filter (fun l =>
    (quotient sg (wA s h f l) (wB s h f l)).2.2 && (s.grp.lg (s.grp.lgOf l)).divzEn.getLsbD 0)

/-- Integer division (R193): a quotient rounded toward zero, a remainder of the dividend's sign, and for a zero
divisor or an overflow the listed results and IDIV in `FPFLAGS`; where the trap enable of R194 is clear the word
completes. -/
def Sys2Proof.DivisionResultsClaim : Prop :=
  ∀ (s : State) (sg : Sgn) (h : Hdr) (f : FA), s.readable h [opA f 1, opB f 1] → divideEvents s sg h f = [] →
    Completes (.idiv sg h f) s h f.d.toNat (fun l =>
      { regs := [(quotient sg (wA s h f l) (wB s h f l)).1],
        flags := if (quotient sg (wA s h f l) (wB s h f l)).2.2 then fIDIV else 0 }) ∧
    Completes (.irem sg h f) s h f.d.toNat (fun l =>
      { regs := [(quotient sg (wA s h f l) (wB s h f l)).2.1],
        flags := if (quotient sg (wA s h f l) (wB s h f l)).2.2 then fIDIV else 0 })

/-- The trap of R194: where a division event meets the trap enable, every result is written and IDIV is set first; the
group then takes the integer-division trap, cause 0x02, after the word, with the mask of the event lanes, in a pair each
member its own (R73). -/
def Sys2Proof.DivisionTrapClaim : Prop :=
  ∀ (s : State) (sg : Sgn) (h : Hdr) (f : FA), s.readable h [opA f 1, opB f 1] → divideEvents s sg h f ≠ [] →
    (∃ t, Computed s h f.d.toNat ((s.grp.execLanes s.curLaunch h).map (fun l => (l,
        { regs := [(quotient sg (wA s h f l) (wB s h f l)).1],
          flags := if (quotient sg (wA s h f l) (wB s h f l)).2.2 then fIDIV else 0 }))) t ∧
      t.grp.run = s.grp.run ∧
      exec (.idiv sg h f) s = .next (t.trap (maskTrap 0x02 (maskOf (divideEvents s sg h f))) true)) ∧
    (∃ t, Computed s h f.d.toNat ((s.grp.execLanes s.curLaunch h).map (fun l => (l,
        { regs := [(quotient sg (wA s h f l) (wB s h f l)).2.1],
          flags := if (quotient sg (wA s h f l) (wB s h f l)).2.2 then fIDIV else 0 }))) t ∧
      t.grp.run = s.grp.run ∧
      exec (.irem sg h f) s = .next (t.trap (maskTrap 0x02 (maskOf (divideEvents s sg h f))) true))

/-- Integer division: results, IDIV, and the trap after the word: `DivisionResultsClaim`, `DivisionTrapClaim`. -/
def Obligations.Division : Prop := DivisionResultsClaim ∧ DivisionTrapClaim

/-! ## Floating words -/

/-- The number that a finite value stands for (R108). -/
def Sys2Proof.ratOf : Val → Rat
  | .fin n m e => (if n then -1 else 1) * (m : Rat) * 2 ^ e
  | _ => 0

/-- The magnitude of a pattern without its sign. -/
def Sys2Proof.magOf (t : Fmt) (p : Nat) : Rat := ratOf (t.value p)

/-- A real magnitude, by how each rational compares with it. -/
abbrev Sys2Proof.Cut := Rat → Ordering

/-- The magnitude that is a rational. -/
def Sys2Proof.cutAt (x : Rat) : Cut := fun q => compare q x

/-- `p` is the magnitude toward zero of a real one that is at most the largest finite one. -/
def Sys2Proof.TowardZero (t : Fmt) (x : Cut) (p : Nat) : Prop :=
  p ≤ t.maxFin ∧ x (magOf t p) ≠ .gt ∧ (p < t.maxFin → x (magOf t (p + 1)) = .gt)

/-- `p` is the magnitude away from zero. -/
def Sys2Proof.AwayFromZero (t : Fmt) (x : Cut) (p : Nat) : Prop :=
  p ≤ t.maxFin ∧ x (magOf t p) ≠ .lt ∧ (0 < p → x (magOf t (p - 1)) = .lt)

/-- `p` is the nearest magnitude, the even one of two at the same distance. -/
def Sys2Proof.Nearest (t : Fmt) (x : Cut) (p : Nat) : Prop :=
  p ≤ t.maxFin ∧
  (0 < p → x ((magOf t (p - 1) + magOf t p) / 2) = .lt ∨
    x ((magOf t (p - 1) + magOf t p) / 2) = .eq ∧ p % 2 = 0) ∧
  (p < t.maxFin → x ((magOf t p + magOf t (p + 1)) / 2) = .gt ∨
    x ((magOf t p + magOf t (p + 1)) / 2) = .eq ∧ p % 2 = 0)

/-- `r` is a real number of sign `neg` and magnitude `x` rounded in a directed or nearest mode (R118). -/
def Sys2Proof.Rounded (t : Fmt) (rm : Rm) (neg : Bool) (x : Cut) (r : Nat) : Prop :=
  ∃ p, r = t.sign neg + p ∧
    match rm, neg with
    | .rne, _ => Nearest t x p
    | .rz, _ => TowardZero t x p
    | .rp, true => TowardZero t x p
    | .rp, false => AwayFromZero t x p
    | .rn, true => AwayFromZero t x p
    | .rn, false => TowardZero t x p
    | .rs, _ => False

/-- The floating formats of R108. -/
def Sys2Proof.floatFormats : List Fmt := [fp64, fp32, fp16, bf16, e5m2, e4m3]

/-- Rounding (R118): an exact non-zero magnitude `m * 2^e` that is at most the largest finite value is rounded to
nearest even, toward zero and toward each infinity as IEEE 754 has it; in the stochastic mode with random operand `u`
the value toward zero, or the next one where `frac + u` reaches 2^32. NX tells that the result differs. -/
def Obligations.RoundingIsCorrect : Prop :=
  ∀ t ∈ floatFormats, ∀ (rm : Rm) (neg : Bool) (u m : Nat) (e : Int), u < 2 ^ 32 → 0 < m →
    (m : Rat) * 2 ^ e ≤ magOf t t.maxFin →
    let x : Rat := (m : Rat) * 2 ^ e
    let r := t.round rm false u neg m e
    (rm ≠ .rs → Rounded t rm neg (cutAt x) r.1) ∧
    (rm = .rs → ∃ p, TowardZero t (cutAt x) p ∧
      let frac := ((x - magOf t p) / (magOf t (p + 1) - magOf t p) * 2 ^ 32).floor.toNat
      r.1 = t.sign neg + (if magOf t p ≠ x ∧ 2 ^ 32 ≤ frac + u then p + 1 else p)) ∧
    ((r.2 &&& fNX = 0) ↔ magOf t (r.1 - t.sign neg) = x)

/-- Overflow (R118, R119): a magnitude above the largest finite value is rounded as if that value had a successor one unit in
the last place above it. Where the rounded magnitude is that successor or more, the result is infinity, in E4M3 a NaN, in the
modes that round toward it and the largest finite value in the others, under SAT the largest finite value and SATF; else it is
the largest finite value, inexact. -/
def Obligations.OverflowResults : Prop :=
  ∀ t ∈ floatFormats, ∀ (rm : Rm) (neg : Bool) (u m : Nat) (e : Int), u < 2 ^ 32 →
    let x : Rat := (m : Rat) * 2 ^ e
    let top := magOf t t.maxFin
    let ulp := top - magOf t (t.maxFin - 1)
    top < x →
    let up := match rm, neg with
      | .rne, _ => top + ulp / 2 < x ∨ top + ulp / 2 = x ∧ t.maxFin % 2 = 1
      | .rz, _ => False
      | .rp, neg => neg = false
      | .rn, neg => neg = true
      | .rs, _ => 2 ^ 32 ≤ ((x - top) / ulp * 2 ^ 32).floor.toNat + u
    let beyond := top + ulp ≤ x ∨ up
    let toInf := rm = .rne ∨ rm = .rs ∨ (rm = .rp ∧ neg = false) ∨ (rm = .rn ∧ neg = true)
    (beyond → t.round rm true u neg m e = (t.sign neg + t.maxFin, fSATF) ∧
      (toInf → t.round rm false u neg m e = if t = e4m3 then (0x7f, fNV) else (t.inf neg, fOF ||| fNX)) ∧
      (¬ toInf → t.round rm false u neg m e = (t.sign neg + t.maxFin, fOF ||| fNX))) ∧
    (¬ beyond → ∀ sat, t.round rm sat u neg m e = (t.sign neg + t.maxFin, fNX))

/-- The finite values of two patterns, and of a third. -/
def Sys2Proof.finite (t : Fmt) (a : Nat) : Bool := match t.value a with
  | .fin _ _ _ => true
  | _ => false

/-- An operation's result is the exact one rounded once, where that is not zero and not above the largest finite
value. -/
def Sys2Proof.CorrectlyRounded (t : Fmt) (rm : Rm) (y : Rat) (r : Nat) : Prop :=
  y ≠ 0 → (if y < 0 then -y else y) ≤ magOf t t.maxFin →
    Rounded t rm (decide (y < 0)) (cutAt (if y < 0 then -y else y)) r

/-- FP32 and FP64 arithmetic is correctly rounded (R202, R209): sum, difference, product, fused product and sum,
quotient, square root and reciprocal square root of finite operands. -/
def Sys2Proof.ArithmeticCorrectlyRoundedClaim : Prop :=
  ∀ t ∈ [fp32, fp64], ∀ rm ∈ [Rm.rne, .rz, .rp, .rn], ∀ a b c : Nat,
    finite t a = true → finite t b = true → finite t c = true →
    let x := ratOf (t.value a)
    let y := ratOf (t.value b)
    let z := ratOf (t.value c)
    CorrectlyRounded t rm (x + y) (t.add rm a b).1 ∧
    CorrectlyRounded t rm (x - y) (t.sub rm a b).1 ∧
    CorrectlyRounded t rm (x * y) (t.mul rm a b).1 ∧
    CorrectlyRounded t rm (x * y + z) (t.fma rm a b c).1 ∧
    (y ≠ 0 → CorrectlyRounded t rm (x / y) (t.div rm a b).1) ∧
    (0 < x → Rounded t rm false (fun q => if q < 0 then .lt else compare (q * q) x) (t.sqrt rm a).1) ∧
    (0 < x → Rounded t rm false (fun q => if q < 0 then .lt else compare (q * q * x) 1) (t.rsq rm a).1)

/-- Every NaN that an arithmetic operation or a conversion produces is the canonical NaN of its format (R109). -/
def Sys2Proof.NaNCanonicalClaim : Prop :=
  ∀ t ∈ floatFormats, ∀ (rm : Rm) (a b c : Nat),
    (∀ r ∈ [t.add rm a b, t.sub rm a b, t.mul rm a b, t.fma rm a b c, t.div rm a b, t.sqrt rm a, t.rsq rm a,
      t.minMax false a b, t.minMax true a b, t.integral rm a], (t.value r.1).isNan = true → r.1 = t.qnan) ∧
    (∀ src ∈ floatFormats, ∀ sat u, (t.value (t.convert src rm sat u a).1).isNan = true → (t.convert src rm sat u a).1 = t.qnan)

/-- FP32 and FP64 arithmetic is the exact result rounded once; produced NaNs are canonical: `ArithmeticCorrectlyRoundedClaim`, `NaNCanonicalClaim`. -/
def Obligations.FloatArithmetic : Prop := ArithmeticCorrectlyRoundedClaim ∧ NaNCanonicalClaim

/-- A word with its sources and what a lane of it writes. -/
structure Sys2Proof.OutForm where
  h : Hdr
  f : FA
  ops : List Opnd
  out : Nat → LaneOut

/-- An FP32 result `r`, flushed to a zero of its sign with UF and NX where FTZ is set and it is subnormal (R201). -/
def Sys2Proof.flushed (s : State) (l : Nat) (r : FRes) : LaneOut :=
  if (s.fp l).fpmode.getLsbD 2 = true ∧ r.1 / 2 ^ 23 % 256 = 0 ∧ r.1 % 2 ^ 23 ≠ 0 then
    { regs := [BitVec.ofNat 32 (r.1 / 2 ^ 31 * 2 ^ 31)], flags := r.2 ||| fUF ||| fNX }
  else { regs := [BitVec.ofNat 32 r.1], flags := r.2 }

/-- A pattern under ABS and NEG, and read as zero of its sign where DAZ is set and it is subnormal (R201). -/
def Sys2Proof.source32 (s : State) (l : Nat) (abs neg : BitVec 1) (x : Nat) : Nat :=
  let a : Word := if abs = 1 then BitVec.ofNat 32 x &&& 0x7fffffff else BitVec.ofNat 32 x
  let b : Word := if neg = 1 then a ^^^ 0x80000000 else a
  if (s.fp l).fpmode.getLsbD 3 = true ∧ b &&& 0x7f800000 = 0 ∧ b &&& 0x007fffff ≠ 0 then (b &&& 0x80000000).toNat
  else b.toNat
def Sys2Proof.sA (s : State) (h : Hdr) (f : FA) (l : Nat) : Nat :=
  source32 s l f.absa f.nega (s.opnd h f.imm .f32 l (opA f 1))
def Sys2Proof.sB (s : State) (h : Hdr) (f : FA) (l : Nat) : Nat :=
  source32 s l f.absb f.negb (s.opnd h f.imm .f32 l (opB f 1))
def Sys2Proof.sC (s : State) (h : Hdr) (f : FA) (l : Nat) : Nat :=
  source32 s l f.absc f.negc (s.opnd h f.imm .f32 l (opC f 1))

/-- The effective rounding of a word without a format slot (R117): `FPMODE`.RM, or the override. -/
def Sys2Proof.rounding (s : State) (f : FA) (l : Nat) : Rm :=
  if f.rm = 0 then Rm.ofCode ((s.fp l).fpmode.toNat % 4) else if f.rm = 1 then .rne else .rz

/-- The FP32 words of R202 to R206 that write a register, but for the compares. -/
def Sys2Proof.floatForm (s : State) : Instr → Option OutForm
  | .fadd h f => some ⟨h, f, [opA f 1, opB f 1], fun l =>
      flushed s l (fp32.add (rounding s f l) (sA s h f l) (sB s h f l))⟩
  | .fsub h f => some ⟨h, f, [opA f 1, opB f 1], fun l =>
      flushed s l (fp32.sub (rounding s f l) (sA s h f l) (sB s h f l))⟩
  | .fmul h f => some ⟨h, f, [opA f 1, opB f 1], fun l =>
      flushed s l (fp32.mul (rounding s f l) (sA s h f l) (sB s h f l))⟩
  | .ffma h f => some ⟨h, f, [opA f 1, opB f 1, opC f 1], fun l =>
      flushed s l (fp32.fma (rounding s f l) (sA s h f l) (sB s h f l) (sC s h f l))⟩
  | .fmin h f => some ⟨h, f, [opA f 1, opB f 1], fun l => flushed s l (fp32.minMax false (sA s h f l) (sB s h f l))⟩
  | .fmax h f => some ⟨h, f, [opA f 1, opB f 1], fun l => flushed s l (fp32.minMax true (sA s h f l) (sB s h f l))⟩
  | .fdiv h f => some ⟨h, f, [opA f 1, opB f 1], fun l =>
      flushed s l (fp32.div (rounding s f l) (sA s h f l) (sB s h f l))⟩
  | .frcp h f => some ⟨h, f, [opA f 1], fun l =>
      flushed s l (fp32.div (rounding s f l) 0x3f800000 (sA s h f l))⟩
  | .frsq h f => some ⟨h, f, [opA f 1], fun l => flushed s l (fp32.rsq (rounding s f l) (sA s h f l))⟩
  | .fsqrt h f => some ⟨h, f, [opA f 1], fun l => flushed s l (fp32.sqrt (rounding s f l) (sA s h f l))⟩
  | .fexp2 h f => some ⟨h, f, [opA f 1], fun l => flushed s l (exp2F (sA s h f l))⟩
  | .flog2 h f => some ⟨h, f, [opA f 1], fun l => flushed s l (log2F (sA s h f l))⟩
  | .fsin h f => some ⟨h, f, [opA f 1], fun l => flushed s l (sinCosF true (sA s h f l))⟩
  | .fcos h f => some ⟨h, f, [opA f 1], fun l => flushed s l (sinCosF false (sA s h f l))⟩
  | .ffloor h f => some ⟨h, f, [opA f 1], fun l => flushed s l (fp32.integral .rn (sA s h f l))⟩
  | .fceil h f => some ⟨h, f, [opA f 1], fun l => flushed s l (fp32.integral .rp (sA s h f l))⟩
  | .ftrunc h f => some ⟨h, f, [opA f 1], fun l => flushed s l (fp32.integral .rz (sA s h f l))⟩
  | .frnd h f => some ⟨h, f, [opA f 1], fun l => flushed s l (fp32.integral .rne (sA s h f l))⟩
  | .ffract h f => some ⟨h, f, [opA f 1], fun l => flushed s l (fp32.fract (sA s h f l))⟩
  | .fclass h f => some ⟨h, f, [opA f 1], fun l =>
      { regs := [BitVec.ofNat 32 (fp32.classify (s.opnd h f.imm .f32 l (opA f 1)))] }⟩
  | _ => none

/-- FP32 words (R201 to R206): when the operands can be read the word completes, and every lane that executes it has
the operation's result on its sources after modifiers and DAZ, rounded under the effective mode and flushed under FTZ;
the flags are ORed into `FPFLAGS`, and nothing else changes. -/
def Sys2Proof.FloatResultsClaim : Prop :=
  ∀ (s : State) (i : Instr) (x : OutForm), floatForm s i = some x → s.readable x.h x.ops →
    Completes i s x.h x.f.d.toNat x.out

/-- The relation of a floating condition code (R197) of two patterns: order of the numbers, −0 equal to +0, and `ord`,
`unord`. -/
def Sys2Proof.floatCond (t : Fmt) (cond : Nat) (a b : Nat) : Bool :=
  let nan := (t.value a).isNan || (t.value b).isNan
  let o := (t.value a).cmp (t.value b)
  match cond with
  | 0 => !nan && o == .eq
  | 1 => nan || o != .eq
  | 2 => !nan && o == .lt
  | 3 => !nan && o != .gt
  | 4 => !nan && o == .gt
  | 5 => !nan && o != .lt
  | 6 => nan
  | _ => !nan

/-- NV of a compare (R205): a signalling NaN, or any NaN under an ordering condition. -/
def Sys2Proof.floatCondFlags (t : Fmt) (cond : Nat) (a b : Nat) : Word :=
  if t.value a = .nan true ∨ t.value b = .nan true ∨
    ((2 ≤ cond ∧ cond ≤ 5) ∧ ((t.value a).isNan = true ∨ (t.value b).isNan = true)) then fNV else 0

/-- FP64 sources: modifiers on bit 31 of the high register (R209). -/
def Sys2Proof.pA (s : State) (h : Hdr) (f : FA) (l : Nat) : Nat := fp64.modify f.absa f.nega (s.opnd h f.imm .f64 l (opA f 2))
def Sys2Proof.pB (s : State) (h : Hdr) (f : FA) (l : Nat) : Nat := fp64.modify f.absb f.negb (s.opnd h f.imm .f64 l (opB f 2))
def Sys2Proof.pC (s : State) (h : Hdr) (f : FA) (l : Nat) : Nat := fp64.modify f.absc f.negc (s.opnd h f.imm .f64 l (opC f 2))

/-- Floating compares (R205, R209): the relation goes to a predicate, or as all ones or zeros to one register, and NV
as the rule has it. -/
def Sys2Proof.FloatComparesClaim : Prop :=
  ∀ (s : State) (h : Hdr) (f : FA),
    (s.readable h [opA f 1, opB f 1] →
      Completes (.fcmp h f) s h f.d.toNat (fun l =>
        { pred := some (floatCond fp32 f.sub.toNat (sA s h f l) (sB s h f l)),
          flags := floatCondFlags fp32 f.sub.toNat (sA s h f l) (sB s h f l) }) ∧
      Completes (.fcmpR h f) s h f.d.toNat (fun l =>
        { regs := [if floatCond fp32 f.sub.toNat (sA s h f l) (sB s h f l) then 0xffffffff else 0],
          flags := floatCondFlags fp32 f.sub.toNat (sA s h f l) (sB s h f l) })) ∧
    (s.readable h [opA f 2, opB f 2] →
      Completes (.dcmp h f) s h f.d.toNat (fun l =>
        { pred := some (floatCond fp64 f.sub.toNat (pA s h f l) (pB s h f l)),
          flags := floatCondFlags fp64 f.sub.toNat (pA s h f l) (pB s h f l) }) ∧
      Completes (.dcmpR h f) s h f.d.toNat (fun l =>
        { regs := [if floatCond fp64 f.sub.toNat (pA s h f l) (pB s h f l) then 0xffffffff else 0],
          flags := floatCondFlags fp64 f.sub.toNat (pA s h f l) (pB s h f l) }))

/-- The exact cases and special inputs of `fexp2`, `flog2`, `fsin` and `fcos` (R203), on FP32 patterns: two to an integer and
the logarithm of a power of two are exact, overflow gives infinity with OF, the quarters of a turn give 0, 1 and -1; zero
results have the signs that the rule gives, sine is odd and cosine even bit for bit, and neither leaves [-1, 1]. No flags are
raised but those of the table and NV for a signalling NaN. -/
def Sys2Proof.ApproximationCasesClaim : Prop :=
  (∀ a : Nat, a < 2 ^ 32 → ∀ sig, fp32.value a = .nan sig →
    ∀ r ∈ [exp2F a, log2F a, sinCosF true a, sinCosF false a], r = (0x7fc00000, if sig then fNV else 0)) ∧
  (exp2F 0x7f800000 = (0x7f800000, 0) ∧ exp2F 0xff800000 = (0, 0) ∧ log2F 0x7f800000 = (0x7f800000, 0) ∧
    log2F 0xff800000 = (0x7fc00000, fNV) ∧ log2F 0 = (0xff800000, fDZ) ∧ log2F 0x80000000 = (0xff800000, fDZ) ∧
    ∀ sine, sinCosF sine 0x7f800000 = (0x7fc00000, fNV) ∧ sinCosF sine 0xff800000 = (0x7fc00000, fNV)) ∧
  (∀ a : Nat, a < 2 ^ 32 → finite fp32 a = true →
    let x := ratOf (fp32.value a)
    (128 ≤ x → exp2F a = (0x7f800000, fOF)) ∧ (x < 128 → (exp2F a).2 = 0) ∧
    (∀ k : Int, x = k → -149 ≤ k → k ≤ 127 → finite fp32 (exp2F a).1 = true ∧ ratOf (fp32.value (exp2F a).1) = 2 ^ k) ∧
    (x < 0 → log2F a = (0x7fc00000, fNV)) ∧ (0 < x → (log2F a).2 = 0) ∧
    (∀ k : Int, x = 2 ^ k → finite fp32 (log2F a).1 = true ∧ ratOf (fp32.value (log2F a).1) = k ∧ (k = 0 → (log2F a).1 = 0)) ∧
    (∀ k : Int, 4 * x = k →
      (sinCosF true a).1 = (if k % 2 = 0 then a / 2 ^ 31 * 2 ^ 31 else if k % 4 = 1 then 0x3f800000 else 0xbf800000) ∧
      (sinCosF false a).1 = (if k % 2 = 1 then 0 else if k % 4 = 0 then 0x3f800000 else 0xbf800000)) ∧
    (∀ sine, (sinCosF sine a).2 = 0 ∧ (sinCosF sine a).1 % 2 ^ 31 ≤ 0x3f800000) ∧
    (a < 2 ^ 31 → (sinCosF false (a + 2 ^ 31)).1 = (sinCosF false a).1 ∧
      (sinCosF true (a + 2 ^ 31)).1 = (if (sinCosF true a).1 < 2 ^ 31 then (sinCosF true a).1 + 2 ^ 31
        else (sinCosF true a).1 - 2 ^ 31)))

/-- FP32 words and float compares complete with their results and flags, the approximated ones with their exact cases:
`FloatResultsClaim`, `FloatComparesClaim`, `ApproximationCasesClaim`. -/
def Obligations.FloatWords : Prop := FloatResultsClaim ∧ FloatComparesClaim ∧ ApproximationCasesClaim

/-- Half `i` of a packed source after modifiers and DAZ (R207). -/
def Sys2Proof.half16 (s : State) (t : Fmt) (l : Nat) (abs neg : BitVec 1) (x i : Nat) : Nat :=
  t.dazIn ((s.fp l).fpmode.getLsbD 3) (t.modify abs neg (x / 65536 ^ i % 65536))

/-- Values of a packed source of a dot product. -/
def Sys2Proof.pairValues (s : State) (t : Fmt) (l x : Nat) : List Val :=
  [0, 1].map (fun i => t.value (half16 s t l 0 0 x i))
def Sys2Proof.byteValues (t : Fmt) (x : Nat) : List Val := [0, 1, 2, 3].map (fun i => t.value (x / 256 ^ i % 256))

/-- The rounding of a word with a format slot (R117). -/
def Sys2Proof.slotRounding (s : State) (f : FA) (l : Nat) : Rm :=
  match f.rm.toNat with
  | 0 => if slotRnd (s.slot f.fmt) = 5 then Rm.ofCode ((s.fp l).fpmode.toNat % 4) else Rm.ofCode (slotRnd (s.slot f.fmt))
  | 1 => .rne
  | 2 => .rz
  | _ => .rs

/-- Packed, dot-product and FP64 words (R207 to R209). -/
def Sys2Proof.packedForm (s : State) : Instr → Option OutForm
  | .hfma2 t h f => some ⟨h, f, [opA f 1, opB f 1, opC f 1], fun l =>
      let m := halfFmt t
      let r (i : Nat) : FRes := m.ftzOut ((s.fp l).fpmode.getLsbD 2) (m.fma (rounding s f l)
        (half16 s m l f.absa f.nega (s.opnd h f.imm (.half m) l (opA f 1)) i)
        (half16 s m l f.absb f.negb (s.opnd h f.imm (.half m) l (opB f 1)) i)
        (half16 s m l f.absc f.negc (s.opnd h f.imm (.half m) l (opC f 1)) i))
      { regs := [BitVec.ofNat 32 ((r 0).1 + 65536 * (r 1).1)], flags := (r 0).2 ||| (r 1).2 }⟩
  | .fdot2 t h f => some ⟨h, f, [opA f 1, opB f 1, opC f 1], fun l =>
      let m := halfFmt t
      flushed s l (dotV fp32 (rounding s f l) (pairValues s m l (s.opnd h f.imm (.half m) l (opA f 1)))
        (pairValues s m l (s.opnd h f.imm (.half m) l (opB f 1))) (fp32.value (sC s h f l)))⟩
  | .fdot4 h f => some ⟨h, f, [opA f 1, opB f 1, opC f 1], fun l =>
      let m := if slotFmt (s.slot f.fmt) = 3 then e4m3 else e5m2
      flushed s l (dotV fp32 (slotRounding s f l) (byteValues m (s.opnd h f.imm .i32 l (opA f 1)))
        (byteValues m (s.opnd h f.imm .i32 l (opB f 1))) (fp32.value (sC s h f l)))⟩
  | .dadd h f => some ⟨h, f, [opA f 2, opB f 2], fun l =>
      outF64 (fp64.add (rounding s f l) (pA s h f l) (pB s h f l))⟩
  | .dmul h f => some ⟨h, f, [opA f 2, opB f 2], fun l =>
      outF64 (fp64.mul (rounding s f l) (pA s h f l) (pB s h f l))⟩
  | .dfma h f => some ⟨h, f, [opA f 2, opB f 2, opC f 2], fun l =>
      outF64 (fp64.fma (rounding s f l) (pA s h f l) (pB s h f l) (pC s h f l))⟩
  | .ddiv h f => some ⟨h, f, [opA f 2, opB f 2], fun l =>
      outF64 (fp64.div (rounding s f l) (pA s h f l) (pB s h f l))⟩
  | _ => none

/-- Packed, dot-product and FP64 words complete with their results (R207 to R209). -/
def Sys2Proof.PackedAndDoubleResultsClaim : Prop :=
  ∀ (s : State) (i : Instr) (x : OutForm), packedForm s i = some x → s.readable x.h x.ops →
    Completes i s x.h x.f.d.toNat x.out

/-- The 32-bit or 64-bit source of an integer conversion as a number (R210). -/
def Sys2Proof.intSource (s : State) (sg : Sgn) (v : Wid) (h : Hdr) (f : FA) (l : Nat) : Int :=
  match v, sg with
  | .w32, .s => (wA s h f l).toInt
  | .w32, .u => (wA s h f l).toNat
  | .w64, .s => (dA s h f l).toInt
  | .w64, .u => (dA s h f l).toNat

/-- An FP32 source with modifiers and without DAZ (R210, R122). -/
def Sys2Proof.mA (s : State) (h : Hdr) (f : FA) (l : Nat) : Nat := fp32.modify f.absa f.nega (s.opnd h f.imm .f32 l (opA f 1))
def Sys2Proof.mB (s : State) (h : Hdr) (f : FA) (l : Nat) : Nat := fp32.modify f.absb f.negb (s.opnd h f.imm .f32 l (opB f 1))

/-- Conversions (R210 to R215). SUB bit 0 names FP64. -/
def Sys2Proof.convertForm (s : State) : Instr → Option OutForm
  | .cvti2f sg v h f => some ⟨h, f, [opA f (if v = .w32 then 1 else 2)], fun l =>
      if f.sub.getLsbD 0 then outF64 (fp64.ofInt (rounding s f l) (intSource s sg v h f l))
      else { regs := [BitVec.ofNat 32 (fp32.ofInt (rounding s f l) (intSource s sg v h f l)).1],
             flags := (fp32.ofInt (rounding s f l) (intSource s sg v h f l)).2 }⟩
  | .cvtf2i sg v h f => some ⟨h, f, [opA f (if f.sub.getLsbD 0 then 2 else 1)], fun l =>
      let w := if v = .w32 then 32 else 64
      let r := if f.sub.getLsbD 0 then fp64.toInt (rounding s f l) (sg == .s) w (pA s h f l)
        else fp32.toInt (rounding s f l) (sg == .s) w (mA s h f l)
      { regs := if v = .w32 then [BitVec.ofNat 32 r.1] else pairOf r.1, flags := r.2 }⟩
  | .cvtffF64 h f => some ⟨h, f, [opA f 1], fun l => outF64 (fp64.convert fp32 .rne false 0 (mA s h f l))⟩
  | .cvtffF32 h f => some ⟨h, f, [opA f 2], fun l =>
      { regs := [BitVec.ofNat 32 (fp32.convert fp64 (rounding s f l) false 0 (pA s h f l)).1],
        flags := (fp32.convert fp64 (rounding s f l) false 0 (pA s h f l)).2 }⟩
  | .cvtfmt h f =>
      let a := opA f (max 1 (fmtCount (slotFmt (s.slot f.fmt))))
      some ⟨h, f, a :: if isStochastic f (s.slot f.fmt) then [opB f 1] else [], fun l =>
        let u := if isStochastic f (s.slot f.fmt) then (wB s h f l).toNat else 0
        let r := narrowRegs (s.slot f.fmt) (slotRounding s f l) u (s.opndRun h f.imm l a)
        { regs := r.1, flags := r.2 }⟩
  | .packh h f =>
      some ⟨h, f, [opA f 1, opB f 1] ++ if isStochastic f (s.slot f.fmt) then [opC f 1] else [], fun l =>
        let m := fmtOf (slotFmt (s.slot f.fmt))
        let u := if isStochastic f (s.slot f.fmt) then (wC s h f l).toNat else 0
        let lo := m.convert fp32 (slotRounding s f l) (slotSat (s.slot f.fmt)) u (mA s h f l)
        let hi := m.convert fp32 (slotRounding s f l) (slotSat (s.slot f.fmt)) ((u + 0x2545f491) % 2 ^ 32) (mB s h f l)
        { regs := [BitVec.ofNat 32 (lo.1 + 65536 * hi.1)], flags := lo.2 ||| hi.2 }⟩
  | .unpackh h f =>
      let a := opA f (max 1 (fmtNarrow (slotFmt (s.slot f.fmt))))
      some ⟨h, f, [a], fun l =>
        { regs := (wideRegs (s.slot f.fmt) (s.opndRun h f.imm l a)).1,
          flags := (wideRegs (s.slot f.fmt) (s.opndRun h f.imm l a)).2 }⟩
  | _ => none

/-- Conversions complete with their results (R210 to R215); no conversion flushes subnormals. -/
def Sys2Proof.ConversionResultsClaim : Prop :=
  ∀ (s : State) (i : Instr) (x : OutForm), convertForm s i = some x → s.readable x.h x.ops →
    Completes i s x.h x.f.d.toNat x.out

/-- Packed, FP64, dot and conversion words complete with their results and flags: `PackedAndDoubleResultsClaim`, `ConversionResultsClaim`. -/
def Obligations.PackedAndConversions : Prop := PackedAndDoubleResultsClaim ∧ ConversionResultsClaim

/-! ## Cross-lane words -/

/-- The lanes that execute a group-wide word, each in a logical group. -/
def Sys2Proof.crossLanes (s : State) (h : Hdr) : List Nat :=
  (s.grp.execLanes s.curLaunch h).filter (fun l => decide (l / s.grp.lw < s.grp.hw / s.grp.lw))

/-- A group-wide word can be performed: the group is converged (R59, R218), and every live lane of the logical groups
that execute the word can read its operands. -/
def Sys2Proof.CrossReady (s : State) (h : Hdr) (ops : List Opnd) : Prop :=
  s.grp.converged = true ∧
  s.readTrap h.rate.toNat ops (((List.range s.grp.nLg).filter (fun j =>
    (crossLanes s h).any (fun l => l / s.grp.lw == j))).flatMap s.grp.liveOf) = none

/-- `exec` answers a next state with the results of every lane that executes the word; `out j l` is the result of lane
`l` of logical group `j`. -/
def Sys2Proof.CrossCompletes (i : Instr) (s : State) (h : Hdr) (d : Nat) (out : Nat → Nat → LaneOut) : Prop :=
  ∃ t, exec i s = .next t ∧ Computed s h d ((crossLanes s h).map (fun l => (l, out (l / s.grp.lw) l))) t

/-- A lane of the group is live and in logical group `j`. -/
def Sys2Proof.liveIn (s : State) (j l : Nat) : Bool :=
  decide (l < s.grp.hw) && decide (j * s.grp.lw ≤ l ∧ l < (j + 1) * s.grp.lw) && inMask s.grp.div.live l

/-- The live lanes of logical group `j`, in rising order. -/
def Sys2Proof.liveList (s : State) (j : Nat) : List Nat := (List.range s.grp.hw).filter (liveIn s j)

/-- The offset of a shuffle: b, or under `wrel` w shifted right by b, 0 for b above 7 (R221). -/
def Sys2Proof.offsetOf (s : State) (f : FA) (b : Word) : Nat :=
  if f.sub.getLsbD 0 then (if b.toNat ≤ 7 then s.grp.lw / 2 ^ b.toNat else 0) else b.toNat

/-- What lane `l` of logical group `j` receives from lane `from_` of the same group (R221): its A, or the lane's own A
where there is no such live lane. -/
def Sys2Proof.shuffled (s : State) (h : Hdr) (f : FA) (j l : Nat) (from_ : Int) : LaneOut :=
  if 0 ≤ from_ ∧ from_ < s.grp.lw ∧ liveIn s j (j * s.grp.lw + from_.toNat) = true
  then { regs := [wA s h f (j * s.grp.lw + from_.toNat)] } else { regs := [wA s h f l] }

/-- Shuffles and broadcast (R221, R222): converged, the word completes, and every lane that executes it has the A of its
source lane; `bcast` gives every lane the A of the lane that B of the lowest live lane names, or 0 when it is not live. -/
def Sys2Proof.ShufflesAndBroadcastClaim : Prop :=
  ∀ (s : State) (h : Hdr) (f : FA), CrossReady s h [opA f 1, opB f 1] →
    CrossCompletes (.shflIdx h f) s h f.d.toNat (fun j l =>
      shuffled s h f j l (((wB s h f l).toNat % s.grp.lw : Nat) : Int)) ∧
    CrossCompletes (.shflXor h f) s h f.d.toNat (fun j l =>
      shuffled s h f j l ((((l - j * s.grp.lw) ^^^ offsetOf s f (wB s h f l)) : Nat) : Int)) ∧
    CrossCompletes (.shflUp h f) s h f.d.toNat (fun j l =>
      shuffled s h f j l (((l - j * s.grp.lw : Nat) : Int) - offsetOf s f (wB s h f l))) ∧
    CrossCompletes (.shflDown h f) s h f.d.toNat (fun j l =>
      shuffled s h f j l (((l - j * s.grp.lw : Nat) : Int) + offsetOf s f (wB s h f l))) ∧
    CrossCompletes (.bcast h f) s h f.d.toNat (fun j _ =>
      let m := j * s.grp.lw + (wB s h f ((liveList s j).headD 0)).toNat % s.grp.lw
      { regs := [if liveIn s j m then wA s h f m else 0] })

/-- The source predicate of a vote, inverted under `neg` (R223). At a rate packed GROUP a logical group has one
predicate, held in its live lanes. -/
def Sys2Proof.voteBit (s : State) (h : Hdr) (f : FA) (j l : Nat) : Bool :=
  s.grp.predOf (f.sa.toNat % 16) (if s.curLaunch.isGroupRate h.rate.toNat then (liveList s j).headD l else l)
    != f.sub.getLsbD 0

/-- Votes (R223): one result for every lane that executes the word, from the live lanes of its logical group. -/
def Sys2Proof.VoteResultsClaim : Prop :=
  ∀ (s : State) (h : Hdr) (f : FA),
    (CrossReady s h [] →
      CrossCompletes (.voteAny h f) s h f.d.toNat (fun j _ =>
        { pred := some ((liveList s j).any (voteBit s h f j)) }) ∧
      CrossCompletes (.voteAll h f) s h f.d.toNat (fun j _ =>
        { pred := some ((liveList s j).all (voteBit s h f j)) }) ∧
      ∃ r : Nat → List Word, CrossCompletes (.voteMask h f) s h f.d.toNat (fun j _ => { regs := r j }) ∧
        ∀ j, (r j).length = (s.grp.lw + 31) / 32 ∧
          ∀ l, l < s.grp.lw → ((r j).getD (l / 32) 0).getLsbD (l % 32)
            = (liveIn s j (j * s.grp.lw + l) && voteBit s h f j (j * s.grp.lw + l))) ∧
    (CrossReady s h [opA f 1] →
      CrossCompletes (.voteEq h f) s h f.d.toNat (fun j _ =>
        { pred := some (decide (∀ l ∈ liveList s j, ∀ m ∈ liveList s j, wA s h f l = wA s h f m)) }))

/-- Shuffles, broadcast and votes over the live lanes of each logical group: `ShufflesAndBroadcastClaim`, `VoteResultsClaim`. -/
def Obligations.CrossLane : Prop := ShufflesAndBroadcastClaim ∧ VoteResultsClaim

/-- The integer operations of reductions by code (R224). -/
def Sys2Proof.reduceInt (code : Nat) (a b : Word) : Word :=
  match code with
  | 0 => a + b
  | 1 => if a.sle b then a else b
  | 2 => if a.ule b then a else b
  | 3 => if a.sle b then b else a
  | 4 => if a.ule b then b else a
  | 5 => a &&& b
  | 6 => a ||| b
  | _ => a ^^^ b

/-- Identities of exclusive integer scans (R225). -/
def Sys2Proof.identityInt (code : Nat) : Word :=
  [0, 0x7fffffff, 0xffffffff, 0x80000000, 0, 0xffffffff, 0, 0].getD code 0

/-- A of the live lanes of logical group `j` up to lane `l`, combined from the lowest. -/
def Sys2Proof.reduceLanes (s : State) (h : Hdr) (f : FA) (ls : List Nat) : Option Word :=
  match ls with
  | [] => none
  | l :: rest => some ((rest.map (wA s h f)).foldl (reduceInt (f.sub.toNat % 8)) (wA s h f l))

/-- Integer reductions and scans (R224, R225): with a width of 1 to 128 that is a power of two, the combination of A over
the live lanes, or over those up to the lane, or below it, with the identity where there is none. The operations
associate, so the tree is not seen. -/
def Sys2Proof.IntegerReductionsClaim : Prop :=
  ∀ (s : State) (h : Hdr) (f : FA), CrossReady s h [opA f 1] → (∃ k, k ≤ 7 ∧ s.grp.lw = 2 ^ k) →
    CrossCompletes (.lred .int h f) s h f.d.toNat (fun j _ =>
      { regs := [(reduceLanes s h f (liveList s j)).getD 0] }) ∧
    CrossCompletes (.lscan .int h f) s h f.d.toNat (fun j l =>
      { regs := [(reduceLanes s h f ((liveList s j).filter (fun m =>
          if f.sub.getLsbD 3 then decide (m < l) else decide (m ≤ l)))).getD (identityInt (f.sub.toNat % 8))] })

/-- The tree of R224 over the lanes `lo` to `lo + 2^n - 1` of a logical group; `x` gives the value of a lane that is
present. -/
def Sys2Proof.redTree (op : Nat → Nat → FRes) (x : Nat → Option Nat) (lo : Nat) : Nat → Option Nat
  | 0 => x lo
  | n + 1 => match redTree op x lo n, redTree op x (lo + 2 ^ n) n with
    | some u, some v => some (op u v).1
    | none, v => v
    | u, none => u

/-- The floating operations of R224, `add`, `min` and `max`, with DAZ and FTZ. -/
def Sys2Proof.reduceFloat (s : State) (f : FA) (j : Nat) (a b : Nat) : FRes :=
  let g := s.grp.lg j
  let x := fp32.dazIn (g.fpmode.getLsbD 3) a
  let y := fp32.dazIn (g.fpmode.getLsbD 3) b
  fp32.ftzOut (g.fpmode.getLsbD 2) (match f.sub.toNat % 8 with
    | 0 => fp32.add (if f.rm = 0 then Rm.ofCode (g.fpmode.toNat % 4) else if f.rm = 1 then .rne else .rz) x y
    | 2 => fp32.minMax true x y
    | _ => fp32.minMax false x y)

/-- A floating reduction (R224): the value of the fixed tree in every lane that executes the word, a NaN canonical. -/
def Sys2Proof.FloatReductionClaim : Prop :=
  ∀ (s : State) (h : Hdr) (f : FA) (k : Nat), CrossReady s h [opA f 1] → k ≤ 7 → s.grp.lw = 2 ^ k →
    ∃ fl : Nat → Word, CrossCompletes (.lred .flt h f) s h f.d.toNat (fun j _ =>
      let r := (redTree (reduceFloat s f j) (fun i =>
        if liveIn s j (j * s.grp.lw + i) then some (fp32.dazIn ((s.grp.lg j).fpmode.getLsbD 3)
          (mA s h f (j * s.grp.lw + i))) else none) 0 k).getD 0
      { regs := [if (fp32.value r).isNan then 0x7fc00000 else BitVec.ofNat 32 r], flags := fl j })

/-- The ladder of R225: what lane `l` of a logical group holds after `n` steps, each lane from `2^n` on having taken in what
the lane `2^n` below it held before the step; `x` gives the value of a lane that is present. -/
def Sys2Proof.scanLadder (op : Nat → Nat → FRes) (x : Nat → Option Nat) : Nat → Nat → Option Nat
  | 0, l => x l
  | n + 1, l =>
    if 2 ^ n ≤ l then
      match scanLadder op x n (l - 2 ^ n), scanLadder op x n l with
      | some u, some v => some (op u v).1
      | none, v => v
      | u, none => u
    else scanLadder op x n l

/-- A floating scan (R225): every lane that executes the word has the value that the ladder leaves in it, or with `excl` in
the lane below, the identity of the operation where there is none; a NaN is canonical. -/
def Sys2Proof.FloatScanClaim : Prop :=
  ∀ (s : State) (h : Hdr) (f : FA) (k : Nat), CrossReady s h [opA f 1] → k ≤ 7 → s.grp.lw = 2 ^ k →
    ∃ fl : Nat → Word, CrossCompletes (.lscan .flt h f) s h f.d.toNat (fun j l =>
      let held := scanLadder (reduceFloat s f j) (fun i =>
        if liveIn s j (j * s.grp.lw + i) then some (fp32.dazIn ((s.grp.lg j).fpmode.getLsbD 3)
          (mA s h f (j * s.grp.lw + i))) else none) k
      let i := l - j * s.grp.lw
      let v := if f.sub.getLsbD 3 then (if i = 0 then none else held (i - 1)) else held i
      let r := v.getD ([0x80000000, 0x7f800000, 0xff800000].getD (f.sub.toNat % 8) 0)
      { regs := [if (fp32.value r).isNan then 0x7fc00000 else BitVec.ofNat 32 r], flags := fl j })

/-- Lane reductions and scans, integer and floating: `IntegerReductionsClaim`, `FloatReductionClaim`, `FloatScanClaim`. -/
def Obligations.Reductions : Prop := IntegerReductionsClaim ∧ FloatReductionClaim ∧ FloatScanClaim

/-- The weight of a lane as a rational: the FP32 value of A, 0 where it is negative or a NaN (R226). -/
def Sys2Proof.weightRat (s : State) (h : Hdr) (f : FA) (l : Nat) : Rat :=
  match fp32.value (s.opnd h f.imm .f32 l (opA f 1)) with
  | .fin false m e => (m : Rat) * 2 ^ e
  | _ => 0

/-- Categorical sampling (R226): the lowest lane of infinite weight; else, with T the exact sum of the weights and u the B
of the lowest live lane, the lowest live lane whose prefix sum exceeds u T / 2^32, counted within the logical group; all
ones when T is 0. -/
def Sys2Proof.CategoricalSampleClaim : Prop :=
  ∀ (s : State) (h : Hdr) (f : FA), CrossReady s h [opA f 1, opB f 1] →
    ∃ c : Nat → Word, CrossCompletes (.csamp h f) s h f.d.toNat (fun j _ => { regs := [c j] }) ∧
      ∀ j,
        let live := liveList s j
        let infinite (l : Nat) : Bool := fp32.value (s.opnd h f.imm .f32 l (opA f 1)) == .inf false
        let prefixSum (l : Nat) : Rat := ((live.filter (fun m => decide (m ≤ l))).map (weightRat s h f)).foldl (· + ·) 0
        let total : Rat := (live.map (weightRat s h f)).foldl (· + ·) 0
        let u := (wB s h f (live.headD 0)).toNat
        c j = match live.find? infinite with
          | some l => BitVec.ofNat 32 (l - j * s.grp.lw)
          | none => if total = 0 then 0xffffffff
            else match live.find? (fun l => decide ((u : Rat) * total / 2 ^ 32 < prefixSum l)) with
              | some l => BitVec.ofNat 32 (l - j * s.grp.lw)
              | none => 0xffffffff

/-- The mixing function of R227. -/
def Sys2Proof.mix (x : Word) : Word :=
  let a := (x ^^^ (x >>> 16)) * 0x7feb352d
  let b := (a ^^^ (a >>> 15)) * 0x846ca68b
  b ^^^ (b >>> 16)

/-- Random numbers (R227): `prng` mixes key, lane index and counter; `hrnd` hashes a 64-bit address with a seed. -/
def Sys2Proof.RandomNumbersClaim : Prop :=
  ∀ (s : State) (h : Hdr) (f : FA),
    (s.readable h [opA f 1, opB f 1] → Completes (.prng h f) s h f.d.toNat (fun l =>
      { regs := [mix (wB s h f l + mix (wA s h f l ^^^ (s.grp.special s.curLaunch h.rate.toNat l 1 0 * 0x9e3779b9)))] })) ∧
    (s.readable h [opA f 2, opB f 1] → Completes (.hrnd h f) s h f.d.toNat (fun l =>
      { regs := [mix ((dA s h f l >>> 32).setWidth 32 ^^^ mix ((dA s h f l).setWidth 32 ^^^ mix (wB s h f l)))] }))

/-- csamp chooses by weight, prng and hrnd mix as their formulas say: `CategoricalSampleClaim`, `RandomNumbersClaim`. -/
def Obligations.SamplingAndRandomNumbers : Prop := CategoricalSampleClaim ∧ RandomNumbersClaim

/-- Where the approximated functions lie (R203): `fexp2` and `flog2` less than one unit in the last place of the exact result
from it, subnormal units included, `fsin` and `fcos` of turns at most 2^-22. -/
def Obligations.ApproximationBounds : Prop :=
  ∀ a : Nat, a < 2 ^ 32 → finite fp32 a = true →
    let x : ℝ := ((ratOf (fp32.value a) : ℚ) : ℝ)
    let real (p : Nat) : ℝ := ((ratOf (fp32.value p) : ℚ) : ℝ)
    (x < 128 → finite fp32 (exp2F a).1 = true ∧ |real (exp2F a).1 - 2 ^ x| < 2 ^ (max ⌊x⌋ (-126) - 23)) ∧
    (0 < x → x ≠ 1 → finite fp32 (log2F a).1 = true ∧
      |real (log2F a).1 - Real.logb 2 x| < 2 ^ (⌊Real.logb 2 |Real.logb 2 x|⌋ - 23)) ∧
    |real (sinCosF true a).1 - Real.sin (2 * Real.pi * x)| ≤ 2 ^ (-22 : ℤ) ∧
    |real (sinCosF false a).1 - Real.cos (2 * Real.pi * x)| ≤ 2 ^ (-22 : ℤ)

/-- The words that the rules mark as group-wide (R59, R218, R86, R92, R95, R276, R278, R319), rfe apart: those that leave the
region first, and those that wait in a speculative segment. -/
def Sys2Proof.groupWideWords (h : Hdr) (f : FA) (c : FC) (e : FE) (t : RedTy) : List Instr × List Instr × List Instr :=
  ([.shflIdx h f, .shflXor h f, .shflUp h f, .shflDown h f, .bcast h f, .voteAny h f, .voteAll h f, .voteEq h f,
    .voteMask h f, .lred t h f, .lscan t h f, .csamp h f, .rast h f, .resolve h c],
   [.regrp h f, .regrpk h f, .spawnI h c, .spawnR h c, .spawnH h c, .segend h c, .tcopy h e, .chain h e, .mma h e,
    .accld h e, .accst h e, .accz h e, .accrel h e, .ewait h e, .nput h e, .nget h e, .nsig h e, .tpost h e],
   [.resolve h c, .tcopy h e, .nput h e, .nget h e, .nsig h e, .tpost h e])

/-- Words that need the whole group (R59, R218): in a group that is not converged, no lane performs one; the group takes
the illegal-state trap before the word with the active mask in `TRAPINFO`, after the region that the word ends. -/
def Sys2Proof.GroupWideTrapsClaim : Prop :=
  ∀ (s : State) (h : Hdr) (f : FA) (c : FC) (e : FE) (t : RedTy),
    let w := groupWideWords h f c e t
    (∀ i ∈ w.1, s.grp.converged = false → (i ∈ w.2.2 → s.speculative s.grp = false) →
      exec i s = .next (s.trap { maskTrap 0x07 s.grp.run.active with before := true } false)) ∧
    (let u := s.endRegion
     ∀ i ∈ w.2.1, u.grp.converged = false → (i ∈ w.2.2 → s.speculative s.grp = false ∧ u.speculative u.grp = false) →
      exec i s = .next (u.trap { maskTrap 0x07 u.grp.run.active with before := true } false))

/-! ## Operands that cannot be read -/

/-- The sources of the words that compute lane by lane, and of loads and stores. -/
def Sys2Proof.laneReads (s : State) (i : Instr) : Option (Hdr × List Opnd) :=
  match integerForm s i, floatForm s i, packedForm s i, convertForm s i with
  | some x, _, _, _ => some (x.h, x.ops)
  | none, some x, _, _ => some (x.h, x.ops)
  | none, none, some x, _ => some (x.h, x.ops)
  | none, none, none, some x => some (x.h, x.ops)
  | none, none, none, none => match i with
    | .lop3 h f => some (h, [opA f 1, opB f 1, opC f 1])
    | .bfe _ h f => some (h, [opA f 1, opB f 1])
    | .bfi h f => some (h, [opA f 1, opB f 1, opC f 1])
    | .icmp _ .w32 h f => some (h, [opA f 1, opB f 1])
    | .icmp _ .w64 h f => some (h, [opA f 2, opB f 2])
    | .icmpR _ h f => some (h, [opA f 1, opB f 1])
    | .acmp h f => some (h, [opA f 2, opB f 2])
    | .acmpR h f => some (h, [opA f 2, opB f 2])
    | .sel .w32 h f => some (h, [opA f 1, opB f 1])
    | .sel .w64 h f => some (h, [opA f 2, opB f 2])
    | .idiv _ h f => some (h, [opA f 1, opB f 1])
    | .irem _ h f => some (h, [opA f 1, opB f 1])
    | .fcmp h f => some (h, [opA f 1, opB f 1])
    | .fcmpR h f => some (h, [opA f 1, opB f 1])
    | .dcmp h f => some (h, [opA f 2, opB f 2])
    | .dcmpR h f => some (h, [opA f 2, opB f 2])
    | .prng h f => some (h, [opA f 1, opB f 1])
    | .hrnd h f => some (h, [opA f 2, opB f 1])
    | .ld h f => some (h, [opX f.a 2, opX f.b 1])
    | .lds h f => some (h, [opX f.a 1, opX f.b 1])
    | .st h f => some (h, [opX f.a 2, opX f.b 1, opX f.c (sizeRegs f)])
    | .sts h f => some (h, [opX f.a 1, opX f.b 1, opX f.c (sizeRegs f)])
    | _ => none

/-- A word some of whose executing lanes lack the record of an ancestor that they read takes the illegal-state trap
before it, with the mask of those lanes (R37); no lane performs it. -/
def Sys2Proof.MissingRecordTrapsClaim : Prop :=
  ∀ (s : State) (i : Instr) (h : Hdr) (ops : List Opnd), laneReads s i = some (h, ops) →
    let lacking := (s.grp.execLanes s.curLaunch h).filter (fun l =>
      ops.any (fun o => (s.opndReads h.rate.toNat l o).contains .missing))
    lacking ≠ [] →
    exec i s = .next (s.trap { maskTrap 0x07 (maskOf lacking) with before := true } false)

/-- A group-wide word in a group that is not converged, and a word that computes lane by lane, loads or stores and reads a
missing record, trap at the word: `GroupWideTrapsClaim`, `MissingRecordTrapsClaim`. -/
def Obligations.WordTraps : Prop := GroupWideTrapsClaim ∧ MissingRecordTrapsClaim

/-! ## Taking a trap and returning from it -/

/-- Where a lane stands: an active live lane of the run in progress at its word. -/
def Sys2Proof.inRun (s : State) (l : Nat) : Bool :=
  decide (l < s.grp.hw) && inMask s.grp.run.active l && inMask s.grp.div.live l
def Sys2Proof.pcAt (d : Div) (l : Nat) : Nat := (SMap.look 0 d.pcs l).toNat

/-- Monitors are cleared; all else of the logical groups is kept (R271). -/
def Sys2Proof.monitorsCleared (g t : Group) : Prop :=
  ∀ j, t.lg j = { g.lg j with monSet := [], monTrig := false }

/-- Delivery of a user cause (R316): with EN set and INTRAP clear, outside regions and speculative segments, the group
alone changes. TSAVE holds the resume points, the lanes that were in the run at the word or, for a trap after it, at the
following word; `TRAPCAUSE`, `TRAPINFO` and PEND are as the rule has them; the words of the run from there on are the rest
of it, which `rfe` brings back (R62); every live lane stands at the handler of the
rate of the run, BASE × 256 + 256 × rate; a slice is subscribed, or done where it has no live lane, and NEXT is the
broadcast run. Registers and predicates are kept. -/
def Obligations.TrapDelivery : Prop :=
  ∀ (s : State) (t : Trap) (after : Bool), t.cause < 0x10 → t.detail < 256 → s.grp.utvec.getLsbD 0 = true →
    s.grp.trapcause.getLsbD 31 = false → s.speculative s.grp = false → s.grp.div.inreg = false → s.grp.run.on = true →
    let u := s.trap t after
    let resume := (s.grp.run.pc + if after then 16 else 0).toNat
    let handler := (s.grp.utvec.toNat / 2 ^ 8 % 2 ^ 44 * 256 + 256 * s.grp.run.rate) % 2 ^ 64
    s.onlyFocus u ∧
    u.grp.trapcause = BitVec.ofNat 32 (t.cause + 4096 * t.detail + 2 ^ 31) ∧
    u.grp.trapinfo = t.infoOf 0 ∧ u.grp.trapinfoHi = t.infoOf 1 ∧ u.grp.wait = .ready ∧ u.grp.rest = none ∧
    ((after && s.grp.run.last) = false → u.grp.trest =
      some { s.grp.run with on := false, pc := BitVec.ofNat 64 resume, count := s.grp.run.count + (if after then 1 else 0),
                            last := !after && s.grp.run.last }) ∧
    u.grp.tcmp = (if t.cause = 0x06 then 0 else s.grp.tcmp) ∧
    (∀ l, pcAt u.grp.tsave l = if inRun s l then resume else pcAt s.grp.div l) ∧
    u.grp.tsave.live = s.grp.div.live ∧ u.grp.tsave.pend = s.grp.div.pend ∧
    u.grp.div.live = s.grp.div.live ∧ u.grp.div.pend = 0 ∧ u.grp.div.next = none ∧ u.grp.run.on = false ∧
    (∀ l, l < s.grp.hw → inMask s.grp.div.live l = true → pcAt u.grp.div l = handler) ∧
    u.grp.div.bcast.toNat = handler ∧
    (∀ k, k < 32 → k < s.grp.hw / 4 → u.grp.div.splitOf k =
      if (List.range 4).any (fun i => inMask s.grp.div.live (4 * k + i)) then 0 else 3) ∧
    u.grp.regs = s.grp.regs ∧ u.grp.preds = s.grp.preds ∧ monitorsCleared s.grp u.grp

/-- A system cause, or a user cause with EN clear or a handler running (R313, R316): the group stops at its resume point
with the cause written and INTRAP kept, ESC set for a user cause; a record of the cause, of this group or one that its
record joined, is pending in the partition of its context, unless the steward cores hold as many as they can (R368) or the
team is being stopped (R350). Registers, predicates, monitors (R271) and memory are kept. -/
def Sys2Proof.SystemCauseStopsClaim : Prop :=
  ∀ (s : State) (t : Trap) (after : Bool), t.cause < 256 → t.detail < 256 →
    (0x10 ≤ t.cause ∨ s.grp.utvec.getLsbD 0 = false ∨ s.grp.trapcause.getLsbD 31 = true) →
    s.speculative s.grp = false → s.grp.div.inreg = false → s.grp.run.on = true →
    s.teamHolds s.grp = false → (s.part (s.ctx s.grp.asid).part).held < 4096 →
    let u := s.trap t after
    let resume := (s.grp.run.pc + if after then 16 else 0).toNat
    u.grp.wait = .stopped ∧
    u.grp.trapcause = BitVec.ofNat 32 (t.cause + 256 + (if t.cause < 0x10 then 512 else 0) + 4096 * t.detail)
      ||| (s.grp.trapcause &&& 0x80000000) ∧ u.grp.trapinfo = t.infoOf 0 ∧ u.grp.trapinfoHi = t.infoOf 1 ∧
    (∀ l, pcAt u.grp.div l = if inRun s l then resume else pcAt s.grp.div l) ∧
    u.grp.div.live = s.grp.div.live ∧ u.grp.div.pend = s.grp.div.pend ∧ u.grp.run.on = false ∧
    u.grp.regs = s.grp.regs ∧ u.grp.preds = s.grp.preds ∧ u.grp.lgs = s.grp.lgs ∧
    (∀ a, u.byte a = s.byte a) ∧
    ∃ p ∈ (u.part (s.ctx s.grp.asid).part).pend,
      p.rec_.cause = t.cause ∧ p.rec_.asid = s.grp.asid ∧ Attach.group s.grp.gid ∈ p.who

/-- A trap in a speculative segment whose trap is not held already squashes the segment, held (R102). -/
def Sys2Proof.SpeculativeTrapHeldClaim : Prop :=
  ∀ (s : State) (t : Trap) (after : Bool) (x : Seg), s.speculative s.grp = true →
    s.findSeg s.grp.asid s.grp.segid = some x → x.held = false →
    s.trap t after = s.squash s.grp.asid s.grp.segid true

/-- A system cause makes a fault record and stops the group; a trap in a speculative segment is held: `SystemCauseStopsClaim`, `SpeculativeTrapHeldClaim`. -/
def Obligations.StoppingCauses : Prop := SystemCauseStopsClaim ∧ SpeculativeTrapHeldClaim

/-- The word has ended its run (R56, R57, R61): each lane that was in the run stands at `next`, every other where it
was; the group is ready; nothing else of it changes but its divergence record, and nothing outside it. -/
structure Sys2Proof.RunEnds (s t : State) (next : Nat → Nat) : Prop where
  group : t.grp = { s.grp with div := t.grp.div, run := t.grp.run, words := s.grp.words + 1,
                               retired := s.grp.retired + 1, readySince := s.timer.toNat, wait := .ready }
  ended : t.grp.run.on = false
  pcs : ∀ l, pcAt t.grp.div l = if inRun s l then next l % 2 ^ 64 else pcAt s.grp.div l
  live : t.grp.div.live = s.grp.div.live
  pend : t.grp.div.pend = 0
  region : t.grp.div.inreg = s.grp.div.inreg ∧ t.grp.div.rstart = s.grp.div.rstart ∧ t.grp.div.rmask = s.grp.div.rmask
  outside : s.onlyFocus t
  memory : ∀ a, t.byte a = s.byte a

/-- The following word. -/
def Sys2Proof.following (s : State) : Nat := s.grp.run.pc.toNat + 16

/-- The state in which a trap after a word that ends its run is taken: the word has completed. -/
def Sys2Proof.wordRetired (s : State) : State :=
  s.setGrp { s.grp with words := s.grp.words + 1, run := { s.grp.run with last := true }, div := { s.grp.div with pend := 0 } }

/-- `trap` and `bkpt` (R318): the region ends; with a lane that executes them they raise the user trap and the breakpoint
after themselves, with the code in `TRAPINFO`; with none they only end the run. -/
def Sys2Proof.TrapWordsClaim : Prop :=
  ∀ (s : State) (h : Hdr) (f : FS),
    let u := s.endRegion
    (u.grp.execLanes u.curLaunch h ≠ [] →
      exec (.trapW h f) s = .next ((wordRetired u).trap { cause := 0x01, info := f.imm.setWidth 64 } true) ∧
      exec (.bkpt h f) s = .next ((wordRetired u).trap { cause := 0x16, info := f.imm.setWidth 64 } true)) ∧
    (u.grp.execLanes u.curLaunch h = [] → ∀ i ∈ [Instr.trapW h f, .bkpt h f],
      ∃ t, exec i s = .next t ∧ RunEnds u t (fun _ => following u))

/-- The lanes that are live after a return. -/
def Sys2Proof.returnLive (s : State) : Mask := s.grp.div.live &&& s.grp.tsave.live

/-- `rfe` (R319): with no handler running, or not converged, the illegal-state trap; else the program counters and PEND
of TSAVE come back, lanes that ended in the handler stay ended, INTRAP becomes 0, and with `skip` set and a resume point
that was the word, the lanes at that word move past it and PEND becomes 0. The rest of the run that the trap cut goes
first (R62), less the word skipped. Everything else the handler left is kept, a region that it opened included. -/
def Sys2Proof.ReturnFromHandlerClaim : Prop :=
  ∀ (s : State) (h : Hdr) (f : FS),
    (s.grp.converged = false →
      exec (.rfe h f) s = .next (s.trap { maskTrap 0x07 s.grp.run.active with before := true } false)) ∧
    (s.grp.converged = true → s.grp.trapcause.getLsbD 31 = false →
      exec (.rfe h f) s = .next (s.trap (maskTrap 0x07 s.grp.run.active) false)) ∧
    (s.grp.converged = true → s.grp.trapcause.getLsbD 31 = true →
      (∀ x tm, s.findSeg s.grp.asid s.grp.segid = some x → x.st ≠ .service tm) →
      ∃ t, exec (.rfe h f) s = .next t ∧ s.onlyFocus t ∧
        t.grp = { s.grp with div := t.grp.div, run := t.grp.run, trapcause := s.grp.trapcause &&& 0x7fffffff,
                             words := s.grp.words + 1, retired := s.grp.retired + 1, readySince := s.timer.toNat,
                             wait := .ready, trapPc := none, rest := t.grp.rest, trest := none } ∧
        t.grp.run.on = false ∧ t.grp.div.live = returnLive s ∧ t.grp.div.inreg = s.grp.div.inreg ∧
        t.grp.div.rstart = s.grp.div.rstart ∧ t.grp.div.rmask = s.grp.div.rmask ∧
        let skips := f.sub.getLsbD 0 && s.grp.trapPc.isSome
        t.grp.div.pend = (if skips then 0 else s.grp.tsave.pend) ∧
        (skips = false → t.grp.rest = s.grp.trest) ∧
        (∀ r, skips = true → s.grp.trest = some r → t.grp.rest =
          if r.pc = s.grp.trapPc.getD 0 then (if r.last then none else some { r with pc := r.pc + 16, count := r.count + 1 })
          else some r) ∧
        ∀ l, pcAt t.grp.div l =
          if skips ∧ l < s.grp.hw ∧ inMask (returnLive s) l = true ∧
            pcAt s.grp.tsave l = (s.grp.trapPc.getD 0).toNat
          then (pcAt s.grp.tsave l + 16) % 2 ^ 64 else pcAt s.grp.tsave l)

/-- trap and bkpt take their causes; rfe restores the resume state: `TrapWordsClaim`, `ReturnFromHandlerClaim`. -/
def Obligations.TrapsAndReturn : Prop := TrapWordsClaim ∧ ReturnFromHandlerClaim

/-! ## CSRs and the timer -/

/-- What a lane reads from a CSR (R320 to R322, R123, R194, R313, R315); `TRAPINFO` is that of its member of a pair. -/
def Sys2Proof.csrValue (s : State) (l n : Nat) : Nat :=
  let x := s.grp.lg (l / s.grp.lw)
  if n = 0 then s.grp.lw else if n = 1 then s.passes s.grp else if n = 2 then s.grp.core
  else if n = 3 then s.grp.core / 4 else if n = 4 then s.grp.core / 16 else if n = 5 then s.timer.toNat
  else if n = 6 then s.grp.tcmp.toNat else if n = 7 then s.grp.trapcause.toNat
  else if n = 8 then (if l < 64 then s.grp.trapinfo else s.grp.trapinfoHi).toNat else if n = 9 then x.fpmode.toNat else if n = 10 then x.fpflags.toNat
  else if n = 11 then x.divzEn.toNat else if n = 12 then s.grp.utvec.toNat else if n = 13 then s.grp.segid
  else if n = 14 then (s.lkh s.grp).toNat else (s.version s.grp).toNat

/-- The CSRs of 64 bits: `TIMER`, `TCMP`, `TRAPINFO`, `USER_TVEC`. -/
def Sys2Proof.wideCsr (n : Nat) : Bool := n == 5 || n == 6 || n == 8 || n == 12

/-- `csrr` (R320): every lane that executes it has the CSR's value, in a pair where the CSR is 64 bits wide. -/
def Sys2Proof.CsrReadsClaim : Prop :=
  ∀ (s : State) (h : Hdr) (f : FS), f.csr.toNat < 16 →
    Completes (.csrr h f) s h f.d.toNat (fun l =>
      { regs := if wideCsr f.csr.toNat then halves (BitVec.ofNat 64 (csrValue s l f.csr.toNat))
                else [BitVec.ofNat 32 (csrValue s l f.csr.toNat)] })

/-- The first lane of logical group `j` that executes the word. -/
def Sys2Proof.firstIn (s : State) (h : Hdr) (j : Nat) : Option Nat :=
  (s.grp.execLanes s.curLaunch h).find? (fun l => l / s.grp.lw == j)

/-- The effect of a CSR write of the values `v` before the word is done: `TCMP` and `USER_TVEC` take the value of the first
lane, `FPMODE`, `FPFLAGS` and `DIVZ_EN` of a logical group that of its first lane; reserved bits are written as zero. -/
def Sys2Proof.CsrWritten (s : State) (h : Hdr) (n : Nat) (v : Nat → Dword) (u : State) : Prop :=
  u = s.setGrp u.grp ∧
  u.grp = { s.grp with lgs := u.grp.lgs, tcmp := u.grp.tcmp, utvec := u.grp.utvec } ∧
  u.grp.tcmp = (match (s.grp.execLanes s.curLaunch h).head? with
    | some l => if n = 6 then v l else s.grp.tcmp
    | none => s.grp.tcmp) ∧
  u.grp.utvec = (match (s.grp.execLanes s.curLaunch h).head? with
    | some l => if n = 12 then v l &&& 0x000fffffffffff01 else s.grp.utvec
    | none => s.grp.utvec) ∧
  ∀ j, u.grp.lg j = match firstIn s h j with
    | none => s.grp.lg j
    | some l =>
      if n = 9 then { s.grp.lg j with fpmode := (v l).setWidth 32 &&& 0xf }
      else if n = 10 then { s.grp.lg j with fpflags := (v l).setWidth 32 &&& 0x7f }
      else if n = 11 then { s.grp.lg j with divzEn := (v l).setWidth 32 &&& 1 }
      else s.grp.lg j

/-- `csrw`, `csrw.i` and `tcmp` (R320, R322, R2): the CSR is written, from a pair or IMM zero-extended where it is 64 bits
wide, and the word is done; `tcmp` sets `TCMP` to `TIMER` plus A, or to 0 where A is 0. -/
def Sys2Proof.CsrWritesClaim : Prop :=
  ∀ (s : State) (h : Hdr) (f : FS),
    (s.readable h [opX f.a (if wideCsr f.csr.toNat then 2 else 1)] →
      ∃ u t, exec (.csrw h f) s = .next t ∧ Computed u h 0 [] t ∧
        CsrWritten s h f.csr.toNat (fun l => BitVec.ofNat 64 (if wideCsr f.csr.toNat then s.opnd h f.imm .i64 l (opX f.a 2)
          else s.opnd h f.imm .i32 l (opX f.a 1))) u) ∧
    (∃ u t, exec (.csrwI h f) s = .next t ∧ Computed u h 0 [] t ∧
      CsrWritten s h f.csr.toNat (fun _ => f.imm.setWidth 64) u) ∧
    (s.readable h [opX f.a 1] →
      ∃ u t, exec (.tcmp h f) s = .next t ∧ Computed u h 0 [] t ∧
        CsrWritten s h 6 (fun l =>
          let a := s.opnd h f.imm .i32 l (opX f.a 1)
          if a = 0 then 0 else s.timer + BitVec.ofNat 64 a) u)

/-- Every group CSR reads and takes writes in its bits: `CsrReadsClaim`, `CsrWritesClaim`. -/
def Obligations.GroupCsrRegisters : Prop := CsrReadsClaim ∧ CsrWritesClaim

/-! ## Transfers of control -/

/-- The lane for which a word is evaluated for lane `l`: itself, or at a rate packed GROUP the lowest live lane of its
logical group (R330). -/
def Sys2Proof.owner (s : State) (h : Hdr) (l : Nat) : Nat :=
  if s.curLaunch.isGroupRate h.rate.toNat then (liveList s (l / s.grp.lw)).headD l else l

/-- A transfer moves lane `l`. -/
def Sys2Proof.movesIn (s : State) (h : Hdr) (l : Nat) : Bool :=
  (s.grp.execLanes s.curLaunch h).contains (owner s h l) && (!s.curLaunch.isGroupRate h.rate.toNat || inRun s l)

/-- The lanes that a transfer moves to targets that are no word addresses (R302). -/
def Sys2Proof.badTargets (s : State) (h : Hdr) (target : Nat → Nat) : List Nat :=
  (List.range s.grp.hw).filter (fun l => movesIn s h l &&
    (decide (target (owner s h l) % 16 ≠ 0) || decide (2 ^ 52 ≤ target (owner s h l))))

/-- A transfer can be made: the targets are word addresses, and the group is converged or none of them lies in the code of
a rate packed GROUP (R25). -/
def Sys2Proof.Reachable (s : State) (h : Hdr) (target : Nat → Nat) : Prop :=
  badTargets s h target = [] ∧
  (s.grp.converged = true ∨ ∀ l, movesIn s h l = true →
    (s.curLaunch.sectionRate (target (owner s h l))).any s.curLaunch.isGroupRate = false)

/-- Where a lane of the run stands after a transfer. -/
def Sys2Proof.afterTransfer (s : State) (h : Hdr) (target : Nat → Nat) (l : Nat) : Nat :=
  if movesIn s h l then target (owner s h l) else following s

/-- The target that IMM gives: the word's address plus 16 times the sign-extended IMM (R181). -/
def Sys2Proof.labelTarget (s : State) (f : FC) : Nat := (s.grp.run.pc + f.imm.signExtend 64 * 16).toNat
/-- The target in a lane's pair A. -/
def Sys2Proof.pairTargetOf (s : State) (h : Hdr) (f : FC) (l : Nat) : Nat := s.opnd h f.imm .i64 l (opX f.a 2)

/-- The condition of `brp` for lane `l`: over the lanes that execute it, or at a rate packed GROUP in its logical group (R301,
R330). -/
def Sys2Proof.uniformCond (s : State) (h : Hdr) (f : FC) (l : Nat) : Bool :=
  let q (l : Nat) : Bool := s.grp.predOf (f.a.toNat % 16) l != f.sub.getLsbD 1
  if s.curLaunch.isGroupRate h.rate.toNat then q (owner s h l)
  else if f.sub.getLsbD 0 then (s.grp.execLanes s.curLaunch h).all q else (s.grp.execLanes s.curLaunch h).any q

/-- Branches (R300 to R302): `br` takes every lane that executes it to the label; `brp` all of them or none, at a rate packed GROUP those of each logical
group whose predicate holds; `brd` and
`ret` each to the address in its pair; the run's other lanes go on with the following word. -/
def Sys2Proof.BranchesClaim : Prop :=
  ∀ (s : State) (h : Hdr) (f : FC),
    (Reachable s h (fun _ => labelTarget s f) →
      (∃ t, exec (.br h f) s = .next t ∧ RunEnds s t (afterTransfer s h (fun _ => labelTarget s f))) ∧
      ∃ t, exec (.brp h f) s = .next t ∧ RunEnds s t (fun l =>
        if uniformCond s h f l then afterTransfer s h (fun _ => labelTarget s f) l else following s)) ∧
    (s.readable h [opX f.a 2] → Reachable s h (pairTargetOf s h f) →
      ∀ i ∈ [Instr.brd h f, .ret h f],
        ∃ t, exec i s = .next t ∧ RunEnds s t (afterTransfer s h (pairTargetOf s h f)))

/-- Calls (R302): the address of the following word is written into the link pair of every lane that executes the word,
which then moves as `br` or, with `ind`, as `brd` moves it. -/
def Sys2Proof.CallsClaim : Prop :=
  ∀ (s : State) (h : Hdr) (f : FC),
    let target := if f.sub.getLsbD 0 then pairTargetOf s h f else fun _ => labelTarget s f
    (f.sub.getLsbD 0 = true → s.readable h [opX f.a 2]) → Reachable s h target →
    ∃ u t, exec (.call h f) s = .next t ∧
      Computed s h f.d.toNat ((s.grp.execLanes s.curLaunch h).map (fun l =>
        (l, { regs := halves (s.grp.run.pc + 16) }))) u ∧ u.grp.run = s.grp.run ∧ u.grp.div = s.grp.div ∧
      RunEnds (u.setGrp { u.grp with words := s.grp.words }) t (afterTransfer s h target)

/-- A target that is no word address stops every lane (R302): the illegal-state trap with the mask of the offending
lanes. -/
def Sys2Proof.BadTargetTrapsClaim : Prop :=
  ∀ (s : State) (h : Hdr) (f : FC), s.readable h [opX f.a 2] → badTargets s h (pairTargetOf s h f) ≠ [] →
    ∀ i ∈ [Instr.brd h f, .ret h f], exec i s = .next (s.trap
      (maskTrap 0x07 (maskOf (badTargets s h (pairTargetOf s h f)))) false)

/-- Branches and calls move the lanes that take them; a bad target traps: `BranchesClaim`, `CallsClaim`, `BadTargetTrapsClaim`. -/
def Obligations.ControlTransfer : Prop := BranchesClaim ∧ CallsClaim ∧ BadTargetTrapsClaim

/-! ## Words without results, overlays, the end of threads -/

/-- The state after a word that has its effect `v` on the machine and no result: it is done. -/
def Sys2Proof.Done (i : Instr) (s : State) (h : Hdr) (v : State) : Prop := ∃ t, exec i s = .next t ∧ Computed v h 0 [] t

/-- The executing lanes are not none. -/
def Sys2Proof.anyLane (s : State) (h : Hdr) : Bool := !(s.grp.execLanes s.curLaunch h).isEmpty

/-- The logical groups that execute a word. -/
def Sys2Proof.execGroups (s : State) (h : Hdr) : List Nat :=
  (List.range 128).filter (fun j => (s.grp.execLanes s.curLaunch h).any (fun l => l / s.grp.lw == j))

/-- A peer operation that a logical group executing the word started is in progress. -/
def Sys2Proof.netBusy (s : State) (h : Hdr) : Bool :=
  s.engOps.any (fun o => o.gid == some s.grp.gid && (execGroups s h).contains o.lg && o.kind.path == 4)

/-- `nop`, `yield` and `fence` (R310, R146, R149, R267): `nop` has no effect; `yield` ends the run; `fence` ends the region,
and with an acquire half at bead scope or wider invalidates the L1 of the core. At device or system scope it waits in a
speculative segment until commit (R100); a release at system scope waits for the peer operations of its groups. -/
def Sys2Proof.NopYieldFenceClaim : Prop :=
  (∀ (s : State) (h : Hdr) (f : FC), Done (.nop h f) s h s ∧
    ∃ t, exec (.yield h f) s = .next t ∧ RunEnds s t (fun _ => following s)) ∧
  (∀ (s : State) (h : Hdr) (f : FM),
    let u := s.endRegion
    let waits := 2 ≤ f.order.toNat ∧ 5 ≤ f.scope.toNat ∧ netBusy u h = true
    ((f.scope.toNat < 4 ∨ u.speculative u.grp = false) →
      (¬ waits → Done (.fence h f) s h (if anyLane u h ∧ f.order.getLsbD 0 = true ∧ 2 ≤ f.scope.toNat
        then u.updCore u.grp.core (fun c => { c with l1 := [] }) else u)) ∧
      (waits → ∃ js ps, exec (.fence h f) s = .next (u.setGrp { u.grp with wait := .split (.paths js ps) }))) ∧
    (4 ≤ f.scope.toNat → u.speculative u.grp = true →
      exec (.fence h f) s = .next (u.setGrp { u.grp with wait := .split .commit })))

/-- `xfence` (R150, R267, R332): while an engine operation that a logical group executing the word started is in progress on
a class of the first mask, or of the peer class at system scope, the group waits for it; else the word is done. The core's
L1 is invalidated at bead scope or wider and where the second mask names the LSU; where it names the samplers, the sampler
caches of the scope's cores are empty. -/
def Sys2Proof.CrossPathFenceClaim : Prop :=
  ∀ (s : State) (h : Hdr) (f : FM),
    let u := s.endRegion
    (f.scope.toNat < 4 ∨ u.speculative u.grp = false) →
    let busy := u.engOps.any (fun o => o.gid == some u.grp.gid && (execGroups u h).contains o.lg
      && (f.e.toNat.testBit o.kind.path && decide (o.kind.path < 5) || o.kind.path == 4 && decide (5 ≤ f.scope.toNat)))
    (busy = true → ∃ js ps, exec (.xfence h f) s = .next (u.setGrp { u.grp with wait := .split (.paths js ps) })) ∧
    (busy = false → anyLane u h = true → ∃ v, Done (.xfence h f) s h v ∧
      v = { u with cores := v.cores, grp := { u.grp with windows := v.grp.windows } } ∧
      ((2 ≤ f.scope.toNat ∨ f.e.toNat.testBit 5 = true) → (v.core u.grp.core).l1 = []) ∧
      (f.e.toNat.testBit 6 = true → u.grp.core < 512 → (SMap.find u.cores u.grp.core).isSome = true →
        (v.core u.grp.core).samp = []))

/-- Prefetch, cache operations and overlay requests (R254 to R256, R304): each is done without a trap on any address; `pf`
and `cinv` touch caches alone, `cwb` write masks alone, `cfetch` caches and pins alone, the walk cache of the die among the caches; no byte of memory changes. -/
def Sys2Proof.CacheWordsClaim : Prop :=
  (∀ (s : State) (h : Hdr) (f : FM), s.readable h [opX f.a 2, opX f.b 1] →
    (∃ v, Done (.pf h f) s h v ∧ v = { s with cores := v.cores, beads := v.beads, walkers := v.walkers }) ∧
    (s.speculative s.grp = false →
      ∃ v, Done (.cinv h f) s h v ∧ v = { s with cores := v.cores, beads := v.beads, walkers := v.walkers } ∧
        ∀ sec d, SMap.look [] (v.core s.grp.core).l1 sec = d → d ≠ [] → SMap.look [] (s.core s.grp.core).l1 sec ≠ []) ∧
    (∃ v, Done (.cwb h f) s h v ∧ v = { s with cores := v.cores, beads := v.beads, walkers := v.walkers, wmask := v.wmask })) ∧
  (∀ (s : State) (h : Hdr) (f : FC), s.readable h [opX f.a 1] →
    ∃ v, Done (.cfetch h f) s h v ∧
      v = { s with cores := v.cores, beads := v.beads, walkers := v.walkers, grp := { s.grp with pins := v.grp.pins } })

/-- The state after instruction fetch starts afresh for the group of focus (R307, R308): an acquire at device scope, no
loop buffer, no L0 line that no overlay frame pins, and the pinned ones as memory has them now. -/
def Sys2Proof.fetchRestarted (s v : State) : Prop :=
  v = { s with cores := v.cores, grp := { s.grp with loops := [] } } ∧ (v.core s.grp.core).l1 = [] ∧
  (v.core s.grp.core).l0 = ((s.core s.grp.core).l0.filter (fun w => w.ovl.isSome)).filterMap (fun w =>
    if s.poison.contains (w.pa / 64) then none else some { w with word := wordOfBytes (s.bytesAt w.pa 16) })

/-- `ifence` (R307): it ends the region; outside speculative segments, with a lane that executes it, it restarts
instruction fetch and ends the run at the following word. -/
def Sys2Proof.InstructionFenceClaim : Prop :=
  ∀ (s : State) (h : Hdr) (f : FC),
    let u := s.endRegion
    u.speculative u.grp = false → anyLane u h = true →
    ∃ v t, exec (.ifence h f) s = .next t ∧ fetchRestarted u v ∧ RunEnds v t (fun _ => following u)

/-- Translations give physical address `pa` for `n` bytes from `va`: each byte lies in a page that permits the access, at an
address that memory backs (R134, R250, R360, R362). -/
def Sys2Proof.HeldIn (s : State) (tlb : List Tlb) (asid : Nat) (acc : Acc) (va n pa : Nat) : Prop :=
  va + n ≤ 2 ^ 64 ∧ ∀ i, i < n → ∃ e, permits acc e.rd e.wr e.ex = true ∧ e.pbase + (va + i - e.vbase) = pa + i ∧
    s.backed (pa + i) = true ∧ tlb.find? (fun x => x.covers asid (s.ctx asid).part (va + i)) = some e

/-- The translations that the core of the group holds give it. -/
def Sys2Proof.Held (s : State) (acc : Acc) (va n pa : Nat) : Prop :=
  HeldIn s (s.core s.grp.core).tlb s.grp.asid acc va n pa

/-- The lowest executing lane of lane `x`'s logical group. -/
def Sys2Proof.headOf (s : State) (h : Hdr) (x : Nat) : Nat :=
  ((s.grp.heads (s.grp.execLanes s.curLaunch h)).find? (fun y => s.grp.lgOf y == s.grp.lgOf x)).getD 0

/-- `jfence` on entry n of the overlay table (R303, R305), n and the offset from the lowest executing lane of a logical group;
the first such group is looked at here, and in the last clause all of them: an index beyond
the table is an illegal state with DETAIL 5; a present entry takes every lane that executes the word to its code at the
offset, which is an illegal state when it is not below LEN; an absent entry whose FIF is clear has it set in memory, and
the group takes the code-absent trap; with FIF set the group parks. Where several logical groups execute the word, each goes
to the code of its own lowest lane. -/
def Sys2Proof.OverlayJumpClaim : Prop :=
  ∀ (s : State) (h : Hdr) (f : FC) (l : Nat), Memory.wf s.mem = true → s.readable h [opX f.a 1, opX f.b 1] →
    (s.grp.execLanes s.curLaunch h).head? = some l →
    let n := s.opnd h f.imm .i32 l (opX f.a 1)
    let off := s.opnd h f.imm .i32 l (opX f.b 1)
    let c := s.ctx s.grp.asid
    let va := (c.ovlbase + 16 * n) % 2 ^ 64
    (c.ovlcount ≤ n → exec (.jfence h f) s = .next (s.trap { cause := 0x07, detail := 5, info := BitVec.ofNat 64 n } false)) ∧
    (∀ pa s1, n < c.ovlcount → s.translate (some s.grp.core) s.grp.bead s.grp.asid va .atomic = (.ok pa, s1) →
      s.poison.contains (pa / 64) = false →
      let low := s.natAtPa pa 8
      let len := s.natAtPa (pa + 8) 2
      (s.grp.heads (s.grp.execLanes s.curLaunch h) = [l] → low.testBit 0 = true → off < len → f.sub.getLsbD 0 = false →
        ∃ v t, exec (.jfence h f) s = .next t ∧ v = { s1 with cores := v.cores, grp := { s1.grp with loops := [] } } ∧
          RunEnds v t (fun x => if movesIn s h x then low / 2 ^ 8 % 2 ^ 44 * 256 + 16 * off else following s)) ∧
      (s.grp.heads (s.grp.execLanes s.curLaunch h) = [l] → low.testBit 0 = true → off < len → f.sub.getLsbD 0 = true →
        ∃ v u t, exec (.jfence h f) s = .next t ∧ v = { s1 with cores := v.cores, grp := { s1.grp with loops := [] } } ∧
          Computed v h f.d.toNat ((s.grp.execLanes s.curLaunch h).map (fun x =>
            (x, { regs := halves (s.grp.run.pc + 16) }))) u ∧ u.grp.run = s.grp.run ∧ u.grp.div = s.grp.div ∧
          RunEnds (u.setGrp { u.grp with words := s.grp.words }) t
            (fun x => if movesIn s h x then low / 2 ^ 8 % 2 ^ 44 * 256 + 16 * off else following s)) ∧
      (low.testBit 0 = true → len ≤ off →
        exec (.jfence h f) s = .next (s1.trap { cause := 0x07, detail := 5, info := BitVec.ofNat 64 off } false)) ∧
      (low.testBit 0 = false → low.testBit 1 = false →
        exec (.jfence h f) s = .next ((s1.contextStore s.grp.asid s.grp.segid [(pa, s.byte pa ||| 2)]).trap
          { cause := 0x15, info := BitVec.ofNat 64 n } false)) ∧
      (low.testBit 0 = false → low.testBit 1 = true →
        exec (.jfence h f) s = .next (s1.setGrp { s1.grp with wait := .park (pa / 64) false }))) ∧
    (∀ pa : Nat → Nat,
      let index (y : Nat) : Nat := s.opnd h f.imm .i32 y (opX f.a 1)
      let offset (y : Nat) : Nat := s.opnd h f.imm .i32 y (opX f.b 1)
      (∀ y ∈ s.grp.heads (s.grp.execLanes s.curLaunch h), index y < c.ovlcount ∧
        Held s .atomic ((c.ovlbase + 16 * index y) % 2 ^ 64) 1 (pa y) ∧ s.poison.contains (pa y / 64) = false ∧
        (s.natAtPa (pa y) 8).testBit 0 = true ∧ offset y < s.natAtPa (pa y + 8) 2) → f.sub.getLsbD 0 = false →
      ∃ v t, exec (.jfence h f) s = .next t ∧ v = { s with cores := v.cores, grp := { s.grp with loops := [] } } ∧
        RunEnds v t (fun x => if movesIn s h x
          then s.natAtPa (pa (headOf s h x)) 8 / 2 ^ 8 % 2 ^ 44 * 256 + 16 * offset (headOf s h x) else following s))

/-- Instruction fence and overlay jump: `InstructionFenceClaim`, `OverlayJumpClaim`. -/
def Obligations.CodeWords : Prop := InstructionFenceClaim ∧ OverlayJumpClaim

/-- The lanes that an ending word ends. -/
def Sys2Proof.endedLanesOf (s : State) (h : Hdr) : Mask := maskOf ((List.range s.grp.hw).filter (movesIn s h))
/-- The lanes that stay live. -/
def Sys2Proof.leftLive (s : State) (h : Hdr) : Mask := s.grp.div.live &&& ~~~ endedLanesOf s h

/-- No thread of the group's team waits at `regrp`. -/
def Sys2Proof.noExchange (s : State) : Prop := ∀ g ∈ s.grp :: s.groups, g.team = s.grp.team → g.keys = []

/-- `exit` (R309) and `segend` (R95) after the region they end: where lanes stay live, the ended lanes leave LIVE and the
others go on with the following word; registers, predicates, other groups and memory are kept, and a logical group that keeps
a live lane. Where none stays, nothing of
the group is in progress and the launch makes no records, the group is gone. -/
def Obligations.ThreadsEnd : Prop :=
  ∀ (s : State) (h : Hdr) (f : FC),
    let u := s.endRegion
    anyLane u h = true → noExchange u → u.badCount ((List.range u.grp.hw).filter (movesIn u h)) = none → u.grp.gid ≠ 0 →
    ∀ i, (i = Instr.exitW h f ∨ (i = Instr.segend h f ∧ u.grp.segid ≠ 0 ∧ u.grp.converged = true)) →
    (leftLive u h ≠ 0 → ∃ t, exec i s = .next t ∧
      t.grp = { u.grp with div := t.grp.div, run := t.grp.run, elems := t.grp.elems, words := u.grp.words + 1,
                           retired := u.grp.retired + 1, readySince := u.timer.toNat, wait := t.grp.wait,
                           lgs := t.grp.lgs, endedLanes := t.grp.endedLanes } ∧
      (∀ j, leftLive u h &&& u.grp.lgMask j ≠ 0 → t.grp.lg j = { u.grp.lg j with lastEnded := (t.grp.lg j).lastEnded }) ∧
      t.grp.div.live = leftLive u h ∧ t.grp.run.on = false ∧
      (∀ l, inRun u l = true → movesIn u h l = false → pcAt t.grp.div l = following u % 2 ^ 64) ∧
      t.groups = u.groups ∧ ∀ a, t.byte a = u.byte a) ∧
    (leftLive u h = 0 → u.grp.lgs.any (fun x => x.ops.any (·.err.isNone)) = false → u.grp.anyStalled = false →
      (∀ k, u.curLaunch.hasRecord k = false) → (∀ g ∈ u.groups, g.gid ≠ u.grp.gid) →
      ∃ t, exec i s = .next t ∧ (∀ g ∈ t.grp :: t.groups, g.gid ≠ u.grp.gid) ∧ ∀ a, t.byte a = u.byte a)

/-! ## Loads, stores, the team window, atomics -/

/-- The address of a lane: base plus the zero-extended index shifted by SHIFT plus the sign-extended offset, modulo 2^64
(R166, R250). -/
def Sys2Proof.addressOf (s : State) (h : Hdr) (f : FM) (l : Nat) : Nat :=
  (BitVec.ofNat 64 (s.opnd h f.imm .i64 l (opX f.a 2))
    + (BitVec.ofNat 64 (s.opnd h f.imm .i32 l (opX f.b 1)) <<< f.shift.toNat) + f.imm.signExtend 64 : Dword).toNat

/-- The window offset of a lane, modulo 2^32 (R252). -/
def Sys2Proof.offsetIn (s : State) (h : Hdr) (f : FM) (l : Nat) : Nat :=
  (BitVec.ofNat 32 (s.opnd h f.imm .i32 l (opX f.a 1))
    + (BitVec.ofNat 32 (s.opnd h f.imm .i32 l (opX f.b 1)) <<< f.shift.toNat) + f.imm : Word).toNat

/-- Bytes of an access: 1, 2, 4, 8 or 16 for SIZE 0 to 4. -/
def Sys2Proof.accessBytes (f : FM) : Nat := 2 ^ f.size.toNat

/-- The lanes that execute a word, each with what it is given. -/
def Sys2Proof.eachLane {α : Type} (s : State) (h : Hdr) (x : Nat → α) : List (Nat × α) :=
  (s.grp.execLanes s.curLaunch h).map (fun l => (l, x l))

/-- The lanes of a word that writes memory: the helper lanes take no part (R21). -/
def Sys2Proof.writingLanes (s : State) (h : Hdr) : List Nat :=
  (s.grp.execLanes s.curLaunch h).filter (fun l => !s.grp.helper (s.curLaunch.isGroupRate h.rate.toNat) l)

/-- The number that bytes make, the lowest first. -/
def Sys2Proof.bytesNat (bs : List Byte) : Nat := (bs.zipIdx.map (fun x => x.1.toNat * 256 ^ x.2)).foldl (· + ·) 0

/-- The registers that loaded bytes give (R250): SIZE 0 and 1 extended by SIGN, else 32-bit pieces, the low one first. -/
def Sys2Proof.loadedRegs (f : FM) (bs : List Byte) : List Word :=
  match f.size.toNat with
  | 0 => [if f.sign = 1 then (BitVec.ofNat 8 (bytesNat bs)).signExtend 32 else BitVec.ofNat 32 (bytesNat bs)]
  | 1 => [if f.sign = 1 then (BitVec.ofNat 16 (bytesNat bs)).signExtend 32 else BitVec.ofNat 32 (bytesNat bs)]
  | 2 => [BitVec.ofNat 32 (bytesNat bs)]
  | 3 => halves (BitVec.ofNat 64 (bytesNat bs))
  | _ => (List.range 4).map (fun i => BitVec.ofNat 32 (bytesNat bs / 2 ^ (32 * i)))

/-- None of `n` bytes lies in a poisoned sector (R137). -/
def Sys2Proof.Sound (s : State) (pa n : Nat) : Prop := ∀ i, i < n → s.poison.contains ((pa + i) / 64) = false

/-- The `n` bytes of memory from an address. -/
def Sys2Proof.memoryAt (s : State) (pa n : Nat) : List Byte := (List.range n).map (fun i => s.byte (pa + i))

/-- The L1 of a core lists no sector twice and holds what memory holds (R133). -/
def Sys2Proof.L1Current (s : State) (core : Nat) : Prop :=
  SMap.wf [] (s.core core).l1 = true ∧ ∀ x ∈ (s.core core).l1, x.2 = s.bytesAt (64 * x.1) 64

/-- No store of the group lies in the release buffer of its core (R76). -/
def Sys2Proof.nothingBuffered (s : State) : Prop := ∀ e ∈ (s.core s.grp.core).rel, e.gid ≠ s.grp.gid

/-- `ld` completes (R250): outside speculative segments, where the core holds the translations of every lane's bytes and
none is poisoned, every lane has the registers of its bytes; with nothing of the group buffered, and the L1 current or
passed by, those are the bytes of memory. Nothing else changes but the L1. -/
def Sys2Proof.LoadCompletesClaim : Prop :=
  ∀ (s : State) (h : Hdr) (f : FM) (pa : Nat → Nat), s.readable h [opX f.a 2, opX f.b 1] → s.speculative s.grp = false →
    (∀ l ∈ s.grp.execLanes s.curLaunch h,
      Held s .read (addressOf s h f l) (accessBytes f) (pa l) ∧ Sound s (pa l) (accessBytes f)) →
    ∃ (v : State) (bytes : Nat → List Byte), v = { s with cores := v.cores } ∧
      (∃ t, exec (.ld h f) s = .next t ∧ Computed v h f.d.toNat (eachLane s h (fun l => { regs := loadedRegs f (bytes l) })) t) ∧
      (Memory.wf s.mem = true → nothingBuffered s → (f.e = 2 ∨ L1Current s s.grp.core) →
        ∀ l ∈ s.grp.execLanes s.curLaunch h, bytes l = memoryAt s (pa l) (accessBytes f))

/-- `ld` (R250): when every executing lane's access can be made, the word completes; each lane has the registers that its
bytes give, caches alone change beside them, and no byte of memory. -/
def Sys2Proof.LoadResultsClaim : Prop :=
  ∀ (s : State) (h : Hdr) (f : FM), s.readable h [opX f.a 2, opX f.b 1] → s.speculative s.grp = false →
    let r := s.loadAll s.grp (f.e.toNat == 2) (accessBytes f) (loadedRegs f) (eachLane s h (addressOf s h f))
    r.2.2 = [] →
    ∃ t, exec (.ld h f) s = .next t ∧ Computed r.1 h f.d.toNat r.2.1 t ∧
      r.2.1.map (·.1) = s.grp.execLanes s.curLaunch h ∧ r.1 = { s with cores := r.1.cores, beads := r.1.beads, walkers := r.1.walkers } ∧
      ∀ a, t.byte a = s.byte a

/-- What one lane loads (R250, R137, R133): where its bytes translate and none is poisoned, outside a speculative segment,
with none of them in the group's release buffer and no older copy in the core's L1 (or past it), the bytes of memory at
the physical addresses; a byte that does not translate stops the lane with the fault, poison with its sector where the byte
would come from its home slice. -/
def Sys2Proof.LoadLaneReadsMemoryClaim : Prop :=
  ∀ (s : State) (g : Group) (past : Bool) (va n : Nat), Memory.wf s.mem = true → s.speculative g = false →
    (∀ pas s1, s.translateRange (some g.core) g.bead g.asid .read va n = (.ok pas, s1) →
      (pas.all (fun a => !s.poison.contains (a / 64)) = true →
        (∀ a ∈ pas, (s.core g.core).buffered g.gid false g.team a = none) →
        (past = false → L1Current s g.core) →
        (s.loadLane g past va n).1 = .ok (pas.map s.byte)) ∧
      ((∃ a ∈ pas, s.poison.contains (a / 64) = true ∧ (s.core g.core).buffered g.gid false g.team a = none ∧
          (past = true ∨ SMap.find (s.core g.core).l1 (a / 64) = none)) →
        ∃ i, i < pas.length ∧ (s.loadLane g past va n).1 = .poison ((va + i) % 2 ^ 64 / 64 * 64))) ∧
    (∀ x s1, s.translateRange (some g.core) g.bead g.asid .read va n = (.error x, s1) →
      (s.loadLane g past va n).1 = .fault x)

/-- Loads complete, and each lane reads the bytes of its address: `LoadResultsClaim`, `LoadLaneReadsMemoryClaim`, `LoadCompletesClaim`. -/
def Obligations.Loads : Prop := LoadResultsClaim ∧ LoadLaneReadsMemoryClaim ∧ LoadCompletesClaim

/-- The byte at an address after cells are written in turn. -/
def Sys2Proof.finalByte (cells : List (Nat × Byte)) (a : Nat) (old : Byte) : Byte :=
  ((cells.reverse.find? (fun c => c.1 == a)).map (·.2)).getD old

/-- The bytes that a lane stores: the low bytes of C, of its pair or of its run (R250). -/
def Sys2Proof.storedBytes (s : State) (h : Hdr) (f : FM) (l : Nat) : List Byte :=
  let x : Nat := if f.size.toNat ≤ 2 then s.opnd h f.imm .i32 l (opX f.c 1)
    else if f.size.toNat = 3 then s.opnd h f.imm .i64 l (opX f.c 2)
    else ((List.range 4).map (fun i => (s.opndWord h f.imm l (opX f.c 4) i).toNat * 2 ^ (32 * i))).foldl (· + ·) 0
  (List.range (accessBytes f)).map (fun i => BitVec.ofNat 8 (x / 256 ^ i))

/-- No speculative segment has read a sector of the cells (R99). -/
def Sys2Proof.violatesNone (s : State) (cells : List (Nat × Byte)) : Prop :=
  ∀ c ∈ cells, s.violated s.grp.asid s.grp.segid false (c.1 / 64) = []

/-- What a store that is performed changes beside memory: write masks, poison, triggered monitors, parked groups and
caches. -/
def Sys2Proof.storePerformed (s v : State) : Prop :=
  v = { s with cores := v.cores, beads := v.beads, walkers := v.walkers, mem := v.mem, wmask := v.wmask,
               poison := v.poison, grp := v.grp, groups := v.groups } ∧
  v.grp = { s.grp with lgs := v.grp.lgs, wait := v.grp.wait } ∧
  ∀ j, v.grp.lg j = { s.grp.lg j with monTrig := (v.grp.lg j).monTrig }

/-- The cells that the lanes of a store write, by physical address, in lane order. -/
def Sys2Proof.storeCells (s : State) (h : Hdr) (f : FM) : State × List (Nat × Byte) × List (Nat × LaneStop) :=
  s.storePlan s.grp ((writingLanes s h).map (fun l => (l, addressOf s h f l, storedBytes s h f l)))

/-- `st` (R250, R141): outside regions and speculative segments, when every lane's access can be made, each byte that a
lane stores holds what the highest such lane stores there, and every other byte of memory is as before; no register
changes. -/
def Sys2Proof.StoreResultsClaim : Prop :=
  ∀ (s : State) (h : Hdr) (f : FM), f.size.toNat ≤ 4 → Memory.wf s.mem = true →
    s.readable h [opX f.a 2, opX f.b 1, opX f.c (sizeRegs f)] →
    s.speculative s.grp = false → s.grp.div.inreg = false → (storeCells s h f).2.2 = [] →
    violatesNone s (storeCells s h f).2.1 →
    ∃ v, Done (.st h f) s h v ∧ storePerformed s v ∧
      ∀ a, v.byte a = finalByte (storeCells s h f).2.1 a (s.byte a)

/-- `st` completes (R250, R141): outside regions and speculative segments, where the core holds the translations of every
lane's bytes and no speculative segment has read anything, the bytes of the lanes are written in lane order, and every
other byte of memory, and every register, is as before. -/
def Sys2Proof.StoreCompletesClaim : Prop :=
  ∀ (s : State) (h : Hdr) (f : FM) (pa : Nat → Nat), f.size.toNat ≤ 4 → Memory.wf s.mem = true →
    s.readable h [opX f.a 2, opX f.b 1, opX f.c (sizeRegs f)] → s.speculative s.grp = false → s.grp.div.inreg = false →
    (∀ y ∈ s.segs, y.st.speculative = true → y.reads = []) →
    (∀ l ∈ writingLanes s h, Held s .write (addressOf s h f l) (accessBytes f) (pa l)) →
    ∃ v, Done (.st h f) s h v ∧ storePerformed s v ∧
      ∀ a, v.byte a = finalByte ((writingLanes s h).flatMap (fun l =>
        (storedBytes s h f l).zipIdx.map (fun x => (pa l + x.2, x.1)))) a (s.byte a)

/-- The cells of one lane are the translations of its addresses, byte by byte (R250); in a region the store goes to the
release buffer and memory is as before (R76). -/
def Sys2Proof.StoreAddressesClaim : Prop :=
  (∀ (s : State) (g : Group) (l va : Nat) (bs : List Byte) (pas : List Nat) (s1 : State),
    s.translateRange (some g.core) g.bead g.asid .write va bs.length = (.ok pas, s1) →
    (s.storePlan g [(l, va, bs)]).2 = (pas.zip bs, []) ∧ pas.length = bs.length) ∧
  (∀ (s : State) (h : Hdr) (f : FM), s.grp.div.inreg = true → s.speculative s.grp = false → (storeCells s h f).2.2 = [] →
    f.size.toNat ≤ 4 → s.readable h [opX f.a 2, opX f.b 1, opX f.c (sizeRegs f)] →
    (s.core s.grp.core).rel.length + (storeCells s h f).2.1.length ≤ 64 →
    ∃ v, Done (.st h f) s h v ∧ v = { s with cores := v.cores, beads := v.beads, walkers := v.walkers })

/-- Stores complete, write the bytes of their addresses and no other: `StoreResultsClaim`, `StoreAddressesClaim`, `StoreCompletesClaim`. -/
def Obligations.Stores : Prop := StoreResultsClaim ∧ StoreAddressesClaim ∧ StoreCompletesClaim

/-- The access violation of a lane of a logical group (R253). -/
def Sys2Proof.violation (s : State) (kind l a : Nat) : Trap :=
  { cause := 0x03, info := BitVec.ofNat 64 (kind + 16 * (l % s.grp.lw % 128) + 2 ^ 12 * (a % 2 ^ 52)) }

/-- The cells that the lanes of a window store write, in lane order. -/
def Sys2Proof.windowCells (s : State) (h : Hdr) (f : FM) : List (Nat × Byte) :=
  (writingLanes s h).flatMap (fun l => (storedBytes s h f l).zipIdx.map (fun x => (offsetIn s h f l + x.2, x.1)))

/-- An access of the window is out of range for a lane (R252). -/
def Sys2Proof.outOfWindow (s : State) (h : Hdr) (f : FM) (l : Nat) : Bool :=
  decide (s.spw < offsetIn s h f l + accessBytes f)

/-- The team windows after cells are written in the window of the group's team, in turn; a sector all of whose bytes are
written is poisoned no more (R137). -/
def Sys2Proof.windowWritten (s : State) (cells : List (Nat × Byte)) : List Team :=
  s.teams.map (fun t => if t.tid = s.grp.team then
    { t with spad := cells.foldl (fun m c => SMap.set 0 m c.1 c.2) t.spad
             bad := t.bad.filter (fun x => !(List.range 64).all (fun i => cells.any (fun c => c.1 == 64 * x.1 + i))) } else t)

/-- No sector of the window of the group's team is poisoned (R384). -/
def Sys2Proof.soundWindow (s : State) : Prop := ∀ t ∈ s.teams, t.tid = s.grp.team → t.bad = []

/-- `lds` and `sts` (R252, R253): with every lane in range a load gives the bytes of the window and a store outside regions
writes those of its lanes in turn; device memory and other windows are as before. The lowest lane out of range makes the
word take the access violation with KIND 0, its lane and its offset, and no lane is performed. A load of a poisoned sector
(R137, R384) is not performed and takes the poison fault; the address that it reports is that of the damage (log 44). -/
def Sys2Proof.WindowAccessClaim : Prop :=
  ∀ (s : State) (h : Hdr) (f : FM), f.size.toNat ≤ 4 →
    (s.readable h [opX f.a 1, opX f.b 1] →
      ((∀ l ∈ s.grp.execLanes s.curLaunch h, outOfWindow s h f l = false) → soundWindow s →
        Completes (.lds h f) s h f.d.toNat (fun l =>
          { regs := loadedRegs f ((List.range (accessBytes f)).map (fun i => s.padByte s.grp (offsetIn s h f l + i))) })) ∧
      (∀ l t sec a, s.grp.execLanes s.curLaunch h = [l] → outOfWindow s h f l = false → nothingBuffered s →
        s.findTeam s.grp.team = some t → t.bad = [(sec, a)] →
        (∃ i, i < accessBytes f ∧ (offsetIn s h f l + i) / 64 = sec) →
        exec (.lds h f) s = .next ((s.setGrp { s.grp with div := { s.grp.div with pend := maskOf [l] } }).trap
          { cause := 0x14, info := a, rec_ := { path := 6, va := a } } false)) ∧
      (∀ l, (s.grp.execLanes s.curLaunch h).find? (outOfWindow s h f) = some l →
        exec (.lds h f) s = .next (s.trap (violation s 0 l (offsetIn s h f l)) false))) ∧
    (s.readable h [opX f.a 1, opX f.b 1, opX f.c (sizeRegs f)] →
      ((∀ l ∈ writingLanes s h, outOfWindow s h f l = false) → s.grp.div.inreg = false →
        Done (.sts h f) s h { s with teams := windowWritten s (windowCells s h f) }) ∧
      (∀ l, (writingLanes s h).find? (outOfWindow s h f) = some l →
        exec (.sts h f) s = .next (s.trap (violation s 0 l (offsetIn s h f l)) false)))

/-- The new value of an atomic of `n` bits (R263). -/
def Sys2Proof.atomicResult {n : Nat} (op : Nat) (old c : BitVec n) : BitVec n :=
  match op with
  | 0 => old + c
  | 1 => if c.slt old then c else old
  | 2 => if c.ult old then c else old
  | 3 => if old.slt c then c else old
  | 4 => if old.ult c then c else old
  | 5 => old &&& c
  | 6 => old ||| c
  | 7 => old ^^^ c
  | _ => c

/-- Atomic operations (R263): codes 0 to 8 on 32 and 64 bits; `fadd` rounds to nearest even with a canonical NaN, `fmin`
and `fmax` follow R121. -/
def Sys2Proof.AtomicOperationsClaim : Prop :=
  (∀ op old c, op ≤ 8 → old < 2 ^ 32 → c < 2 ^ 32 →
    atomicNew op 32 old c = (atomicResult op (BitVec.ofNat 32 old) (BitVec.ofNat 32 c)).toNat) ∧
  (∀ op old c, op ≤ 8 → old < 2 ^ 64 → c < 2 ^ 64 →
    atomicNew op 64 old c = (atomicResult op (BitVec.ofNat 64 old) (BitVec.ofNat 64 c)).toNat) ∧
  (∀ old c, atomicNew 9 32 old c = (fp32.add .rne old c).1 ∧ atomicNew 10 32 old c = (fp32.minMax false old c).1 ∧
    atomicNew 11 32 old c = (fp32.minMax true old c).1)

/-- The operand C of an atomic, or E of a compare-and-swap, as a number of its size. -/
def Sys2Proof.atomicData (s : State) (h : Hdr) (f : FM) (field : BitVec 12) (l : Nat) : Nat :=
  if f.size.toNat = 3 then s.opnd h f.imm .i64 l (opX field 2) else s.opnd h f.imm .i32 l (opX field 1)

/-- The operand C of an operation: of a floating one an FP32 value (R164, R263). -/
def Sys2Proof.atomicOperand (s : State) (h : Hdr) (f : FM) (l : Nat) : Nat :=
  if 9 ≤ f.e.toNat % 16 then s.opnd h f.imm .f32 l (opX f.c 1) else atomicData s h f f.c l

/-- The registers of an old value. -/
def Sys2Proof.oldValue (n old : Nat) : List Word := if n = 8 then halves (BitVec.ofNat 64 old) else [BitVec.ofNat 32 old]

/-- An atomic word with its sources, size, scope and what each lane stores for the old value it finds. -/
structure Sys2Proof.AtomForm where
  h : Hdr
  f : FM
  ops : List Opnd
  n : Nat
  scope : Nat
  new : State → Nat → Nat → Option Nat

/-- `atom`, `cas` and `vbat` (R263, R264, R153). -/
def Sys2Proof.memoryAtomic : Instr → Option AtomForm
  | .atom h f => some ⟨h, f, [opX f.a 2, opX f.b 1, opX f.c (sizeRegs f)], accessBytes f, f.scope.toNat, fun u l old =>
      some (atomicNew (f.e.toNat % 16) (8 * accessBytes f) old (atomicOperand u h f l))⟩
  | .cas h f => some ⟨h, f, [opX f.a 2, opX f.b 1, opX f.c (sizeRegs f), opX f.e (sizeRegs f)], accessBytes f,
      f.scope.toNat, fun u l old => if old = atomicData u h f f.c l then some (atomicData u h f f.e l) else none⟩
  | .vbat h f => some ⟨h, f, [opX f.a 2, opX f.b 1, opX f.c 2], 8, 4, fun u l old =>
      some (min old (u.opnd h f.imm .i64 l (opX f.c 2)))⟩
  | _ => none

/-- A release half at system scope, with a network operation of a logical group that executes the word in progress (R267). -/
def Sys2Proof.releaseWaits (u : State) (x : AtomForm) : Prop :=
  2 ≤ x.f.order.toNat ∧ 5 ≤ x.scope ∧ netBusy u x.h = true

/-- Atomics on memory (R263 to R267, R153), after the region they end: a misaligned lane makes the word take the access
violation with KIND 1 and no lane is performed; with every lane aligned, a release at system scope waits for the network
operations of its logical groups; with none of them and no lane stopped, the lanes are performed in
ascending order, each one's destination has the old value it found, and the acquire half at bead scope or wider
invalidates the core's L1. In a speculative segment the word waits until commit. -/
def Sys2Proof.AtomicWordsClaim : Prop :=
  ∀ (s : State) (i : Instr) (x : AtomForm), memoryAtomic i = some x → x.f.size.toNat ∈ [2, 3] →
    let u := s.endRegion
    let addrs := (writingLanes u x.h).map (fun l => (l, addressOf u x.h x.f l))
    let r := u.atomicAll u.grp x.scope x.n (x.new u) addrs
    (u.speculative u.grp = true → exec i s = .next (u.setGrp { u.grp with wait := .split .commit })) ∧
    (u.speculative u.grp = false → u.readable x.h x.ops → (∀ y ∈ u.segs, y.st.speculative = true → y.reads = []) →
      (∀ y, addrs.find? (fun z => z.2 % x.n != 0) = some y → exec i s = .next (u.trap (violation u 1 y.1 y.2) false)) ∧
      (addrs.all (fun z => z.2 % x.n == 0) = true → releaseWaits u x →
        ∃ js ps, exec i s = .next (u.setGrp { u.grp with wait := .split (.paths js ps) })) ∧
      (addrs.all (fun z => z.2 % x.n == 0) = true → ¬ releaseWaits u x → r.2.2 = [] →
        ∃ v t, exec i s = .next t ∧ Computed v x.h x.f.d.toNat (r.2.1.map (fun y => (y.1, { regs := oldValue x.n y.2 }))) t ∧
          r.2.1.map (·.1) = writingLanes u x.h ∧ v.mem = r.1.mem ∧
          (x.f.order.getLsbD 0 = true → 2 ≤ x.scope → addrs ≠ [] → (v.core r.1.grp.core).l1 = []) ∧
          (x.f.scf = 1 → v.scTicket = u.scTicket + addrs.length)))

/-- The lanes of an atomic in turn on memory `m`, each at its physical address: the memory after them and the old value of
each (R265). -/
def Sys2Proof.inTurn (n : Nat) (new : Nat → Nat → Option Nat) : List (Nat × Nat) → (Nat → Byte) → (Nat → Byte) × List (Nat × Nat)
  | [], m => (m, [])
  | (l, pa) :: rest, m =>
    let old := bytesNat ((List.range n).map (fun i => m (pa + i)))
    let r := inTurn n new rest (match new l old with
      | none => m
      | some x => fun a => if pa ≤ a ∧ a < pa + n then BitVec.ofNat 8 (x / 256 ^ (a - pa)) else m a)
    (r.1, (l, old) :: r.2)

/-- `atom`, `cas` and `vbat` complete (R263 to R267, R153): outside speculative segments, with no release at system scope that
waits, every lane aligned, the core
holding its translation and no poison, and no speculative segment having read anything, every lane has an old value; at bead
scope or wider the lanes read and write memory in ascending order, each in one step. -/
def Sys2Proof.AtomicCompletesClaim : Prop :=
  ∀ (s : State) (i : Instr) (x : AtomForm) (pa : Nat → Nat), memoryAtomic i = some x → x.f.size.toNat ∈ [2, 3] →
    let u := s.endRegion
    u.speculative u.grp = false → ¬ releaseWaits u x → Memory.wf u.mem = true → nothingBuffered u → u.readable x.h x.ops →
    (∀ y ∈ u.segs, y.st.speculative = true → y.reads = []) →
    (∀ l ∈ writingLanes u x.h, addressOf u x.h x.f l % x.n = 0 ∧ Held u .atomic (addressOf u x.h x.f l) x.n (pa l) ∧
      Sound u (pa l) x.n) →
    ∃ (v t : State) (olds : List (Nat × Nat)), exec i s = .next t ∧
      Computed v x.h x.f.d.toNat (olds.map (fun y => (y.1, { regs := oldValue x.n y.2 }))) t ∧
      olds.map (·.1) = writingLanes u x.h ∧
      (2 ≤ x.scope →
        let r := inTurn x.n (x.new u) ((writingLanes u x.h).map (fun l => (l, pa l))) u.byte
        olds = r.2 ∧ ∀ a, t.byte a = r.1 a)

/-- One lane's atomic at bead scope or wider (R151, R264), outside regions and speculative segments: it reads the bytes at
the home slice and writes the new value in their place, or nothing when there is none; no other byte changes. -/
def Sys2Proof.AtomicStepClaim : Prop :=
  ∀ (s : State) (scope : Nat) (pas : List Nat) (new : Nat → Option Nat), Memory.wf s.mem = true → 2 ≤ scope →
    s.speculative s.grp = false → s.grp.div.inreg = false →
    (∀ a ∈ pas, (s.core s.grp.core).buffered s.grp.gid false s.grp.team a = none) →
    violatesNone s (pas.map (fun a => (a, 0))) →
    let r := s.atomicAt s.grp scope pas new
    r.1 = bytesNat (pas.map s.byte) ∧
    (new r.1 = none → ∀ a, r.2.byte a = s.byte a) ∧
    (∀ x, new r.1 = some x → ∀ a, r.2.byte a =
      finalByte (pas.zip ((List.range pas.length).map (fun i => BitVec.ofNat 8 (x / 256 ^ i)))) a (s.byte a))

/-- Device-memory atomics: operations, words, each lane one step in lane order: `AtomicOperationsClaim`, `AtomicWordsClaim`, `AtomicStepClaim`, `AtomicCompletesClaim`. -/
def Obligations.Atomics : Prop := AtomicOperationsClaim ∧ AtomicWordsClaim ∧ AtomicStepClaim ∧ AtomicCompletesClaim

/-- Window atomics: `atom.sp`, `cas.sp` and `tkt` (R263, R264, R272). -/
def Sys2Proof.windowAtomic : Instr → Option AtomForm
  | .atomSp h f => some ⟨h, f, [opX f.a 1, opX f.b 1, opX f.c (sizeRegs f)], accessBytes f, f.scope.toNat, fun u l old =>
      some (atomicNew (f.e.toNat % 16) (8 * accessBytes f) old (atomicOperand u h f l))⟩
  | .casSp h f => some ⟨h, f, [opX f.a 1, opX f.b 1, opX f.c (sizeRegs f), opX f.e (sizeRegs f)], accessBytes f,
      f.scope.toNat, fun u l old => if old = atomicData u h f f.c l then some (atomicData u h f f.e l) else none⟩
  | .tkt h f => some ⟨h, f, [opX f.a 1, opX f.b 1], 4, 0, fun _ _ old => some ((old + 1) % 2 ^ 32)⟩
  | _ => none

/-- Window atomics (R252, R265, R272), after the region they end: with every lane in range and aligned and no sector of the
window poisoned they complete,
lanes in ascending order, each with the old value; device memory is as before. With one lane, the window's bytes at its
offset take the new value, or stay where there is none. -/
def Sys2Proof.WindowAtomicsClaim : Prop :=
  ∀ (s : State) (i : Instr) (x : AtomForm), windowAtomic i = some x → x.f.size.toNat ∈ [2, 3] →
    let u := s.endRegion
    let offs := (writingLanes u x.h).map (fun l => (l, offsetIn u x.h x.f l))
    u.readable x.h x.ops → soundWindow u → offs.all (fun z => decide (z.2 + x.n ≤ u.spw) && z.2 % x.n == 0) = true →
    let r := u.padAtomics u.grp x.n (x.new u) offs
    (∃ v t, exec i s = .next t ∧ Computed v x.h x.f.d.toNat (r.2.map (fun y => (y.1, { regs := oldValue x.n y.2 }))) t ∧
      r.2.map (·.1) = writingLanes u x.h ∧ v.teams = r.1.teams ∧ ∀ a, t.byte a = u.byte a) ∧
    (∀ l off, offs = [(l, off)] → u.grp.div.inreg = false →
      let old := bytesNat ((List.range x.n).map (fun k => u.padByte u.grp (off + k)))
      r.2 = [(l, old)] ∧ r.1 = match x.new u l old with
        | none => u
        | some y => { u with teams := windowWritten u ((List.range x.n).map (fun k => (off + k, BitVec.ofNat 8 (y / 256 ^ k)))) })

/-- Loads, stores and atomics of the shared window: `WindowAccessClaim`, `WindowAtomicsClaim`. -/
def Obligations.WindowWords : Prop := WindowAccessClaim ∧ WindowAtomicsClaim

/-! ## Barriers and monitors -/

/-- One arrival at a barrier (R68, R268): none where it is an error. -/
def Sys2Proof.arrival (b : Barrier) (n t : Nat) : Option Barrier :=
  if n = 0 ∨ 65535 < t ∨ t < n then none
  else if b.count ≠ 0 ∧ t ≠ b.target then none
  else if b.count + n < t then some { phase := b.phase, count := b.count + n, target := t }
  else if b.count + n = t then some { phase := b.phase + 1, count := 0, target := 0 }
  else none

/-- Arrivals in lane order: the phase that each observes and the barrier after them, while none is an error. -/
def Sys2Proof.arrivals (b : Barrier) : List (Nat × Nat × Nat) → Option (List (Nat × Word) × Barrier)
  | [] => some ([], b)
  | (l, n, t) :: rest => match arrival b n t with
    | none => none
    | some b' => (arrivals b' rest).map (fun y => ((l, b.phase) :: y.1, y.2))

/-- The barrier `k` of the group's team. -/
def Sys2Proof.barrierAt (s : State) (k : Nat) : Barrier := ((s.findTeam s.grp.team).map (fun t => SMap.get {} t.bars k)).getD {}

/-- Barriers (R67 to R69, R268): `bar.arv`, after the region it ends, makes its lanes' arrivals in order, gives each lane
the phase it observed unless `nd` is set, and completes when none is an error; `bar.wait` ends its run when no lane's
value equals the phase, as an acquire at bead scope, and waits otherwise; a group waiting for a phase that has changed
becomes ready. -/
def Obligations.Barriers : Prop :=
  (∀ (s : State) (h : Hdr) (f : FM),
    let u := s.endRegion
    let k := f.e.toNat / 2 % 16
    u.readable h [opX f.a 1, opX f.b 1] →
    ∀ obs b, arrivals (barrierAt u k) (eachLane u h (fun l => (u.opnd h f.imm .i32 l (opX f.a 1),
        u.opnd h f.imm .i32 l (opX f.b 1)))) = some (obs, b) →
      ∃ t, exec (.barArv h f) s = .next t ∧
        Computed { u with teams := u.teams.map (fun x => if x.tid = u.grp.team then
          { x with bars := SMap.set {} x.bars k b } else x) } h f.d.toNat
          (if f.e.getLsbD 0 then [] else obs.map (fun y => (y.1, { regs := [y.2] }))) t) ∧
  (∀ (s : State) (h : Hdr) (f : FM), s.readable h [opX f.a 1] →
    let k := f.e.toNat / 2 % 16
    let waits := (s.grp.execLanes s.curLaunch h).any (fun l => s.opndWord h f.imm l (opX f.a 1) 0 == (barrierAt s k).phase)
    ((waits = false ∨ s.grp.passed = true) → ∃ v t, exec (.barWait h f) s = .next t ∧
      v = { s with cores := v.cores, grp := { s.grp with passed := false } } ∧
      (anyLane s h = true → (v.core s.grp.core).l1 = []) ∧ RunEnds v t (fun _ => following s)) ∧
    (waits = true → s.grp.passed = false →
      exec (.barWait h f) s = .next (s.setGrp { s.grp with wait := .barrier k (barrierAt s k).phase }))) ∧
  (∀ (s : State) (g : Group) (k : Nat) (q : Word), s.findGroup g.gid = some g → g.wait = .barrier k q →
    (((s.findTeam g.team).map (fun t : Team => SMap.get {} t.bars k)).getD {}).phase ≠ q →
    exec (.barrierWake g.gid) s = .next (s.updGroup g.gid (fun x =>
      { x.leavePort with wait := .ready, readySince := s.timer.toNat, passed := true })))

/-- The sectors that `mon` would add for logical group `j`: those of its lanes whose address translates. -/
def Sys2Proof.monitored (s : State) (h : Hdr) (f : FM) (j : Nat) : List Nat :=
  (((s.grp.execLanes s.curLaunch h).filter (fun l => l / s.grp.lw == j)).filterMap (fun l =>
    match (s.translate (some s.grp.core) s.grp.bead s.grp.asid (addressOf s h f l) .read).1 with
    | .ok pa => some (pa / 64)
    | .error _ => none)).filter (fun c => !s.poison.contains c)

/-- Monitors (R269 to R271), after the region that a word ends and outside speculative segments. `mon` with aligned
addresses, room for its sectors and no lane that stops adds the sectors of its lanes to the sets of their logical groups,
each of at most eight, and loads at the home slice; `mwait` completes with status 1 where the set is empty, 0 where TRIG is
set, and clears the sets, and else waits, each logical group that waits with the deadline of its own timeout. -/
def Sys2Proof.MonitorArmsClaim : Prop :=
  (∀ (s : State) (h : Hdr) (f : FM),
    let u := s.endRegion
    let addrs := eachLane u h (addressOf u h f)
    u.speculative u.grp = false → u.readable h [opX f.a 2, opX f.b 1] →
    addrs.all (fun z => z.2 % accessBytes f == 0) = true →
    (∀ j, (u.grp.lg j).monSet.length
      + ((monitored u h f j).filter (fun c => !(u.grp.lg j).monSet.contains c)).eraseDups.length ≤ 8) →
    let r := u.loadAll u.grp true (accessBytes f) (loadedRegs f) addrs
    r.2.2 = [] →
    ∃ v t, exec (.mon h f) s = .next t ∧ Computed v h f.d.toNat r.2.1 t ∧
      r.2.1.map (·.1) = u.grp.execLanes u.curLaunch h ∧ (∀ a, t.byte a = u.byte a) ∧
      ∀ j, ∀ c ∈ monitored u h f j, c ∈ (t.grp.lg j).monSet) ∧
  (∀ (s : State) (h : Hdr) (f : FM),
    let u := s.endRegion
    u.speculative u.grp = false → u.readable h [opX f.a 1] →
    let idle (j : Nat) : Bool := (u.grp.lg j).monSet.isEmpty || (u.grp.lg j).monTrig
    ((execGroups u h).all idle = true → ∃ w t, exec (.mwait h f) s = .next t ∧
      Computed u h f.d.toNat (eachLane u h (fun l =>
        { regs := [if (u.grp.lg (l / u.grp.lw)).monSet.isEmpty then 1 else 0] })) w ∧
      (∀ k l, t.grp.reg k l = w.grp.reg k l) ∧ t.grp.preds = w.grp.preds ∧
      (∀ j ∈ execGroups u h, (t.grp.lg j).monSet = [] ∧ (t.grp.lg j).monTrig = false) ∧
      t.grp.wait = .ready ∧ t.grp.run.on = false ∧ (∀ l, inRun u l = true → pcAt t.grp.div l = following u % 2 ^ 64)) ∧
    ((execGroups u h).all idle = false →
      let due : List MonDue := ((execGroups u h).filter (fun j => !idle j)).filterMap (fun j => (firstIn u h j).bind (fun l =>
        let n := u.opnd h f.imm .i32 l (opX f.a 1)
        if n = 0 then none else some { lg := j, at_ := u.timer.toNat + n, timeout := BitVec.ofNat 32 n }))
      exec (.mwait h f) s = .next (u.setGrp { u.grp with wait := .monitor (execGroups u h) due })))

/-- `mon` completes (R269): outside speculative segments, with every lane aligned, the core holding its translation and no
poison, and room for the sectors in the sets, every lane has the registers of the bytes of memory at its address, and its
sector is in the set of its logical group; no byte of memory changes. -/
def Sys2Proof.MonitorCompletesClaim : Prop :=
  ∀ (s : State) (h : Hdr) (f : FM) (pa : Nat → Nat),
    let u := s.endRegion
    let lanes := u.grp.execLanes u.curLaunch h
    u.speculative u.grp = false → Memory.wf u.mem = true → nothingBuffered u → u.readable h [opX f.a 2, opX f.b 1] →
    (∀ l ∈ lanes, addressOf u h f l % accessBytes f = 0 ∧ Held u .read (addressOf u h f l) (accessBytes f) (pa l) ∧
      Sound u (pa l) (accessBytes f)) →
    (∀ j, (u.grp.lg j).monSet.length + (((lanes.filter (fun l => l / u.grp.lw == j)).map (fun l => pa l / 64)).filter
      (fun c => !(u.grp.lg j).monSet.contains c)).eraseDups.length ≤ 8) →
    ∃ v t, exec (.mon h f) s = .next t ∧
      Computed v h f.d.toNat (eachLane u h (fun l => { regs := loadedRegs f (memoryAt u (pa l) (accessBytes f)) })) t ∧
      (∀ a, t.byte a = u.byte a) ∧ ∀ l ∈ lanes, pa l / 64 ∈ (t.grp.lg (l / u.grp.lw)).monSet

/-- Monitors: mon arms the sets of its groups and mwait waits on them: `MonitorArmsClaim`, `MonitorCompletesClaim`. -/
def Obligations.MonitorWords : Prop := MonitorArmsClaim ∧ MonitorCompletesClaim

/-- Cache words on addresses whose translations the core holds (R254 to R256). With one lane that executes it, `pf` toward
the L1 leaves each of the four sectors of the line there as it was held, or else as memory holds it, unless it or the
sector of the lane is poisoned, where the L1 has room; toward L2 it changes nothing. `cinv`, outside speculative segments, leaves in the caches it names
nothing of the lanes' lines, and all other sectors as they were; `cwb` leaves no write mask of the lanes' lines but of
poisoned sectors, and all other masks as they were. Nothing else changes. -/
def Sys2Proof.CacheLinesClaim : Prop :=
  ∀ (s : State) (h : Hdr) (f : FM) (pa : Nat → Nat), s.readable h [opX f.a 2, opX f.b 1] →
    let lanes := s.grp.execLanes s.curLaunch h
    (∀ l ∈ lanes, Held s .read (addressOf s h f l) 1 (pa l)) →
    (∃ v, Done (.pf h f) s h v ∧ v = { s with cores := v.cores } ∧ (f.e = 1 → v = s) ∧
      ∀ l i, lanes = [l] → i < 4 → f.e ≠ 1 → SMap.wf [] (s.core s.grp.core).l1 = true →
        (s.core s.grp.core).l1.length + 4 ≤ s.l1Sectors s.grp.core →
        let sec := pa l / 256 * 4 + i
        SMap.find (v.core s.grp.core).l1 sec = (SMap.find (s.core s.grp.core).l1 sec).or
          (if s.poison.contains sec || s.poison.contains (pa l / 64) then none else some (s.bytesAt (64 * sec) 64))) ∧
    (s.speculative s.grp = false → ∃ v, Done (.cinv h f) s h v ∧ v = { s with cores := v.cores } ∧
      (∀ sec, (∃ l ∈ lanes, sec / 4 = pa l / 256) →
        (f.e.getLsbD 0 = true → SMap.find (v.core s.grp.core).l1 sec = none) ∧
        (f.e.getLsbD 1 = true → SMap.find (v.core s.grp.core).samp sec = none)) ∧
      (∀ sec, (∀ l ∈ lanes, sec / 4 ≠ pa l / 256) →
        (SMap.wf [] (s.core s.grp.core).l1 = true →
          SMap.find (v.core s.grp.core).l1 sec = SMap.find (s.core s.grp.core).l1 sec) ∧
        (SMap.wf [] (s.core s.grp.core).samp = true →
          SMap.find (v.core s.grp.core).samp sec = SMap.find (s.core s.grp.core).samp sec))) ∧
    (∃ v, Done (.cwb h f) s h v ∧ v = { s with wmask := v.wmask } ∧
      (∀ l ∈ lanes, s.poison.contains (pa l / 64) = false → SMap.find v.wmask (pa l / 256) = none) ∧
      (SMap.wf 0 s.wmask = true → ∀ line, (∀ l ∈ lanes, line ≠ pa l / 256) →
        SMap.find v.wmask line = SMap.find s.wmask line))

/-- nop, yield, fence, cross-path fence and cache words: `NopYieldFenceClaim`, `CrossPathFenceClaim`, `CacheWordsClaim`, `CacheLinesClaim`. -/
def Obligations.FencesAndCaches : Prop := NopYieldFenceClaim ∧ CrossPathFenceClaim ∧ CacheWordsClaim ∧ CacheLinesClaim

/-! ## Textures -/

/-- A sampler word: its sources, and what a lane reads of a texture (R259 to R261). -/
structure Sys2Proof.TexForm where
  h : Hdr
  f : FM
  ops : List Opnd
  read : Texture → Nat → LaneRead

/-- The sampler words. `tsmp` takes its gradients from the coordinates of the lanes of its slice, and a bias; `tsmp.l` takes λ
from C; `tsmp.g` takes four gradients from C; `tld` reads one texel of a level, or zeros outside it. -/
def Sys2Proof.textureForm (s : State) : Instr → Option TexForm
  | .tsmp h f => some ⟨h, f, [opX f.c 1], fun t l =>
      let q := l / 4 * 4
      let du (i : Nat) : Nat := nMul (nSub (s.fpAt h f (q + i) f.b 0 2) (s.fpAt h f q f.b 0 2)) (intF t.w)
      let dv (i : Nat) : Nat := nMul (nSub (s.fpAt h f (q + i) f.b 1 2) (s.fpAt h f q f.b 1 2)) (intF t.h)
      t.sample (s.fpAt h f l f.b 0 2) (s.fpAt h f l f.b 1 2) (lodOf t (du 1) (dv 1) (du 2) (dv 2) (s.fpAt h f l f.c 0 1))⟩
  | .tsmpL h f => some ⟨h, f, [opX f.c 1], fun t l =>
      t.sample (s.fpAt h f l f.b 0 2) (s.fpAt h f l f.b 1 2) (lodClamp t (s.fpAt h f l f.c 0 1))⟩
  | .tsmpG h f => some ⟨h, f, [opX f.c 4], fun t l =>
      t.sample (s.fpAt h f l f.b 0 2) (s.fpAt h f l f.b 1 2)
        (lodOf t (nMul (s.fpAt h f l f.c 0 4) (intF t.w)) (nMul (s.fpAt h f l f.c 1 4) (intF t.h))
          (nMul (s.fpAt h f l f.c 2 4) (intF t.w)) (nMul (s.fpAt h f l f.c 3 4) (intF t.h)) 0)⟩
  | .tld h f => some ⟨h, f, [opX f.c 1], fun t l =>
      let x := (s.opndWord h f.imm l (opX f.b 2) 0).toInt
      let y := (s.opndWord h f.imm l (opX f.b 2) 1).toInt
      let k := s.opnd h f.imm .i32 l (opX f.c 1)
      if k ≤ t.lm1 ∧ 0 ≤ x ∧ x < max 1 (t.w / 2 ^ k) ∧ 0 ≤ y ∧ y < max 1 (t.h / 2 ^ k)
      then { taps := [some (t.addr k x.toNat y.toNat)], mix := fun cs => cs.headD [0, 0, 0, 0] }
      else { taps := [], mix := fun _ => [0, 0, 0, 0] }⟩
  | _ => none

/-- A slice of `tsmp` has a live lane that does not execute it. -/
def Sys2Proof.brokenQuad (s : State) (h : Hdr) : Bool :=
  (s.grp.execLanes s.curLaunch h).any (fun l => (List.range 4).any (fun i =>
    let m := l / 4 * 4 + i
    inMask s.grp.div.live m && !(decide (m < s.grp.hw) && inMask s.grp.run.active m
      && (s.grp.predOf h.pred.toNat m != (h.pneg == 1)))))

/-- Sampler words (R257 to R262): outside speculative segments, with a descriptor for each logical group and no lane that
stops, the word completes; each lane has the channels that its read makes of its texels, and caches alone change beside the
registers. `tsmp` with a live lane of a slice that does not execute it is an illegal state with the active mask (R259). -/
def Sys2Proof.SamplerWordsClaim : Prop :=
  ∀ (s : State) (i : Instr) (x : TexForm), textureForm s i = some x →
    (∀ h f, i = Instr.tsmp h f → brokenQuad s h = true →
      exec i s = .next (s.trap (maskTrap 0x07 s.grp.run.active) false)) ∧
    (∀ s1 outs, (∀ h f, i = Instr.tsmp h f → brokenQuad s h = false) →
      s.readable x.h (opX x.f.a 2 :: opX x.f.b 2 :: x.ops) → s.speculative s.grp = false →
      s.sampleGroups x.h x.f (s.grp.execLanes s.curLaunch x.h) x.read (List.range s.grp.nLg) = .done s1 outs [] →
      ∃ t, exec i s = .next t ∧ Computed s1 x.h x.f.d.toNat outs t ∧
        s1 = { s with cores := s1.cores, beads := s1.beads, walkers := s1.walkers })

/-- The sampler cache of a core lists no sector twice and holds what memory holds (R139). -/
def Sys2Proof.SampCurrent (s : State) (core : Nat) : Prop :=
  SMap.wf [] (s.core core).samp = true ∧ ∀ x ∈ (s.core core).samp, x.2 = s.bytesAt (64 * x.1) 64

/-- The channels of a texel that a lane needs: zeros for the border (R260), else those of the bytes of memory. -/
def Sys2Proof.texelOf (s : State) (t : Texture) (pa : Nat → Nat) : Tap → List Nat
  | none => [0, 0, 0, 0]
  | some a => t.decode (memoryAt s (pa a) t.bytes)

/-- A SAMP read of `n` bytes from `va` can be made at once: the core holds the translation to `pa`, and no poison. -/
def Sys2Proof.SampReady (s : State) (va n pa : Nat) : Prop := Held s .read va n pa ∧ Sound s pa n

/-- Sampler words complete (R257 to R262): outside speculative segments, with the slices of `tsmp` whole, the sampler cache
current, a descriptor for each logical group at an aligned address that can be read, and every texel that a lane needs at an
address that can be read, each lane has the channels that its read makes of its texels in memory. -/
def Sys2Proof.SamplerCompletesClaim : Prop :=
  ∀ (s : State) (i : Instr) (x : TexForm) (tex : Nat → Texture) (pa : Nat → Nat), textureForm s i = some x →
    (∀ h f, i = Instr.tsmp h f → brokenQuad s h = false) → Memory.wf s.mem = true → SampCurrent s s.grp.core →
    s.readable x.h (opX x.f.a 2 :: opX x.f.b 2 :: x.ops) → s.speculative s.grp = false →
    (∀ j l, (crossLanes s x.h).find? (fun m => m / s.grp.lw == j) = some l →
      let va := s.opnd x.h x.f.imm .i64 l (opX x.f.a 2)
      va % 32 = 0 ∧ SampReady s va 32 (pa va) ∧ textureOf (bytesNat (memoryAt s (pa va) 32)) = some (tex j)) →
    (∀ l ∈ crossLanes s x.h, ∀ a, some a ∈ (x.read (tex (l / s.grp.lw)) l).taps →
      SampReady s a (tex (l / s.grp.lw)).bytes (pa a)) →
    ∃ v t, exec i s = .next t ∧ v = { s with cores := v.cores } ∧
      Computed v x.h x.f.d.toNat ((crossLanes s x.h).map (fun l =>
        let q := tex (l / s.grp.lw)
        (l, { regs := ((x.read q l).mix ((x.read q l).taps.map (texelOf s q pa))).map (BitVec.ofNat 32) }))) t

/-- The layout of a texture (R257): rows at multiples of the pitch, the width in bytes rounded up to 64; levels one after the
other, each rounded up to 256 bytes, each half the one before and at least one texel wide and high. -/
def Sys2Proof.TextureLayoutClaim : Prop :=
  ∀ (t : Texture) (k i j : Nat),
    t.addr k i j = (t.start k + j * t.pitch k + i * t.bytes) % 2 ^ 64 ∧ t.start 0 = t.base ∧
    (∃ r, t.start (k + 1) = t.start k + t.pitch k * t.hAt k + r ∧ r < 256 ∧ 256 ∣ t.start (k + 1) - t.start k) ∧
    64 ∣ t.pitch k ∧ max 1 (t.w / 2 ^ k) * t.bytes ≤ t.pitch k ∧ t.pitch k < max 1 (t.w / 2 ^ k) * t.bytes + 64

/-- Sampler words fetch texels at the addresses of the layout: `SamplerWordsClaim`, `TextureLayoutClaim`, `SamplerCompletesClaim`. -/
def Obligations.Sampling : Prop := SamplerWordsClaim ∧ TextureLayoutClaim ∧ SamplerCompletesClaim

/-! ## Rates, rasters, rays, regrouping -/

/-- The element of a lane under a word. -/
def Sys2Proof.elementOf (s : State) (h : Hdr) (l : Nat) : Elem := s.grp.elemOf (s.curLaunch.isGroupRate h.rate.toNat) l

/-- The elements alone of a group have changed. -/
def Sys2Proof.elementsChanged (s v : State) : Prop :=
  v.grp = { s.grp with elems := v.grp.elems, lgs := v.grp.lgs } ∧
  ∀ j, v.grp.lg j = { s.grp.lg j with elem := (v.grp.lg j).elem }

/-- No register of the group at a rate holds poison (R384). -/
def Sys2Proof.soundRegs (s : State) (gr : Bool) : Prop := ∀ l r, s.grp.regBad gr l r = none

/-- Words about elements (R228, R230, R231): `qrel` gives up the inheritance of every executing lane's element that has an
anchor and is no helper; `elem` reads index, handle, point or sample, `bary` the barycentrics at the element's point. Where
the chain of some lane lacks the ancestor whose handle `elem` names, the trap of R37 is taken before the word. -/
def Sys2Proof.ElementWordsClaim : Prop :=
  ∀ (s : State) (h : Hdr) (f : FA),
    (∃ v, Done (.qrel h f) s h v ∧ v = { s with beads := v.beads, grp := v.grp } ∧ elementsChanged s v ∧
      ∀ l ∈ s.grp.execLanes s.curLaunch h, (elementOf v h l).released =
        ((elementOf s h l).released || ((elementOf s h l).anchor.isSome && !(s.grp.helper
          (s.curLaunch.isGroupRate h.rate.toNat) l) && !(elementOf s h l).helper))) ∧
    (let k := h.rate.toNat
     let what := f.sub.toNat % 4
     let j := f.sub.toNat / 4 % 8
     ((what = 1 → ∀ l ∈ s.grp.execLanes s.curLaunch h, (s.elemHandle k j l).isSome = true) →
     Completes (.elem h f) s h f.d.toNat (fun l =>
       { regs := if what = 0 then [s.grp.special s.curLaunch k l 3 0]
                 else if what = 1 then [(s.elemHandle k j l).getD 0]
                 else if what = 2 then [BitVec.ofInt 32 (elementOf s h l).px, BitVec.ofInt 32 (elementOf s h l).py]
                 else [(elementOf s h l).samp] })) ∧
     let lacking := (s.grp.execLanes s.curLaunch h).filter (fun l => (s.elemHandle k j l).isNone)
     (what = 1 → lacking ≠ [] →
       exec (.elem h f) s = .next (s.trap { maskTrap 0x07 (maskOf lacking) with before := true } false))) ∧
    Completes (.bary h f) s h f.d.toNat (fun l =>
      let e := elementOf s h l
      { regs := [BitVec.ofNat 32 (baryAt e.verts e.px e.py 0), BitVec.ofNat 32 (baryAt e.verts e.px e.py 1),
                 BitVec.ofNat 32 (baryAt e.verts e.px e.py 2)] })

/-- `emitc` (R229), after the region it ends: with C the element's count register of rate k, D gets C and C gets C + A in
every lane that executes it and is no helper, unless some such lane's sum exceeds 16,777,216: then the illegal-state trap
with DETAIL 1, the register, and the sum of the lowest such lane, and no lane is written. -/
def Sys2Proof.EmitChildrenClaim : Prop :=
  ∀ (s : State) (h : Hdr) (f : FA),
    let u := s.endRegion
    let gr := u.curLaunch.isGroupRate h.rate.toNat
    let c := (u.curLaunch.lat (f.sub.toNat % 8)).countreg
    let lanes := (u.grp.execLanes u.curLaunch h).filter (fun l => !u.grp.helper gr l)
    let sum (l : Nat) : Nat := (u.grp.reg gr l c).toNat + (wA u h f l).toNat
    u.readable h [opA f 1] → soundRegs u gr → f.d.toNat ≠ c →
    (∀ l, lanes.find? (fun l => decide (16777216 < sum l)) = some l →
      exec (.emitc h f) s = .next (u.trap { cause := 0x07, detail := 1,
                                            info := BitVec.ofNat 64 (c + 2 ^ 32 * min (sum l) 0xffffffff) } false)) ∧
    ((∀ l ∈ lanes, sum l ≤ 16777216) → ∃ w t, exec (.emitc h f) s = .next t ∧
      Computed u h f.d.toNat (eachLane u h (fun l => { regs := [u.grp.reg gr l c] })) w ∧
      (∀ l ∈ lanes, t.grp.reg gr l c = BitVec.ofNat 32 (sum l)) ∧
      (∀ l r, l < 128 → r ≠ c → t.grp.reg gr l r = w.grp.reg gr l r) ∧ t.grp.preds = w.grp.preds ∧ u.onlyFocus t ∧
      ∀ a, t.byte a = u.byte a)

/-- Element words read the element; emitc numbers new children: `ElementWordsClaim`, `EmitChildrenClaim`. -/
def Obligations.Elements : Prop := ElementWordsClaim ∧ EmitChildrenClaim

/-- Coverage of a shared edge (R233): two triangles of one orientation that run along the edge from `a` to `b` in opposite
directions never both cover a sample. -/
def Sys2Proof.SharedEdgeCoveredOnceClaim : Prop :=
  ∀ (ax ay bx by_ cx cy dx dy px py : Int) (sc : Scissor),
    let v : List Int := [cx, cy, ax, ay, bx, by_]
    let v' : List Int := [dx, dy, bx, by_, ax, ay]
    (0 < area v ↔ 0 < area v') → coveredAt v sc px py = true → coveredAt v' sc px py = false

/-- One issue of the walk (R234): of the candidate blocks from the token, in order, those that hold a covered sample fill
the slots; at most 64 are examined and w/4 filled; the token goes to the next one, or to all ones at the end. -/
def Sys2Proof.WalkVisitsClaim : Prop :=
  ∀ (v : List Int) (sc : Scissor) (c spp w token : Nat), culled v = false → (blocksOf v sc c).count < 2 ^ 32 →
    let k := walkOf v sc c spp w token
    let b := blocksOf v sc c
    ∃ next, token ≤ next ∧ next ≤ token + 64 ∧
      k.filled = (List.range' token (next - token)).filter (fun n => b.holds v sc c spp n && decide (n < b.count)) ∧
      k.filled.length ≤ w / 4 ∧
      (next < b.count → k.filled.length = w / 4 ∨ next = token + 64) ∧
      k.token = if next < b.count then BitVec.ofNat 32 next else 0xffffffff

/-- The walk that `rast` makes for a logical group, from the group-rate registers of its lowest live lane (R232). -/
def Sys2Proof.rastWalk (s : State) (f : FA) (j : Nat) : Walk :=
  let r (b i : Nat) : Word := s.grp.reg true ((liveList s j).headD 0) (b + i)
  walkOf ((List.range 6).map (fun i => (r f.sa.toNat i).toInt)) (scissorOf (r f.sb.toNat 0).toNat (r f.sb.toNat 1).toNat)
    (2 ^ (f.sub.toNat % 4)) (2 ^ (f.sub.toNat / 4 % 4)) s.grp.lw (r f.sc.toNat 0).toNat

/-- What the walk gives a lane. -/
def Sys2Proof.rastLane (s : State) (f : FA) (l : Nat) : List Word :=
  (rastWalk s f (l / s.grp.lw)).lane (2 ^ (f.sub.toNat % 4)) (2 ^ (f.sub.toNat / 4 % 4)) (l - l / s.grp.lw * s.grp.lw)

/-- `rast` (R232, R234) in a converged group without poisoned group-rate registers, at a lane-class rate: every lane has position, mask and barycentrics of its place
in the walk, and the token of its logical group is the walk's. -/
def Sys2Proof.TriangleWalkClaim : Prop :=
  ∀ (s : State) (h : Hdr) (f : FA), s.grp.converged = true → s.curLaunch.isGroupRate h.rate.toNat = false →
    soundRegs s true →
    ∃ w t, exec (.rast h f) s = .next t ∧
      Computed s h f.d.toNat ((crossLanes s h).map (fun l => (l, { regs := rastLane s f l }))) w ∧
      t = w.setGrp { w.grp with lgs := t.grp.lgs } ∧
      ∀ j, t.grp.lg j = if (crossLanes s h).any (fun l => l / s.grp.lw == j)
        then { w.grp.lg j with gregs := SMap.set 0 (w.grp.lg j).gregs f.sc.toNat (rastWalk s f j).token } else w.grp.lg j

/-- Coverage, the shared edge, and the walk of a triangle: `SharedEdgeCoveredOnceClaim`, `WalkVisitsClaim`, `TriangleWalkClaim`. -/
def Obligations.Rasterisation : Prop := SharedEdgeCoveredOnceClaim ∧ WalkVisitsClaim ∧ TriangleWalkClaim

/-- `raygen` (R236), after the region it ends: every executing lane that is no helper makes a child of rate k that holds the
copied registers, and D has its index among them; lanes that have made 65,536 calls make the word an illegal state with
their mask, and no lane is performed. -/
def Sys2Proof.RayGenerationClaim : Prop :=
  ∀ (s : State) (h : Hdr) (f : FA),
    let u := s.endRegion
    let n := f.sub.toNat % 16 + 1
    let k := f.sub.toNat / 16 % 8
    let lanes := (u.grp.execLanes u.curLaunch h).filter (fun l => !u.grp.helper (u.curLaunch.isGroupRate h.rate.toNat) l)
    let full := lanes.filter (fun l => decide (65536 ≤ (elementOf u h l).rays.length))
    u.readable h [opA f n] →
    (full ≠ [] → exec (.raygen h f) s = .next (u.trap (maskTrap 0x07 (maskOf full)) false)) ∧
    (full = [] → ∃ v t, exec (.raygen h f) s = .next t ∧
      Computed v h f.d.toNat (lanes.map (fun l =>
        (l, { regs := [BitVec.ofNat 32 ((elementOf u h l).rays.countP (fun r => r.rate == k))] }))) t ∧
      v = u.setGrp v.grp ∧ elementsChanged u v ∧
      ∀ l ∈ lanes, SMap.find u.grp.elems l ≠ none ∨ u.curLaunch.isGroupRate h.rate.toNat = true →
        let copied := (List.range n).map (fun i => (f.sb.toNat + i, u.opndWord h f.imm l (opA f n) i))
        (elementOf v h l).rays = (elementOf u h l).rays ++ [{ rate := k, regs := copied }])

/-- Traversal (R240, R242, R243): `trav` with no lane that stops at a fault completes with every lane's state of the walk of
at most 64 nodes, from the start or from its registers (none of them poisoned, R384); caches alone change. `travr` takes an interval end t that is not
below TMIN and below TCUR into a state whose RES is 2, with the attributes, and leaves any other state. -/
def Sys2Proof.TraversalWordsClaim : Prop :=
  ∀ (s : State) (h : Hdr) (f : FA),
    soundRegs s (s.curLaunch.isGroupRate h.rate.toNat) →
    (s.readable h [opA f 8, opB f 2, opC f 2] → s.speculative s.grp = false →
      (s.travAll h f (s.grp.execLanes s.curLaunch h)).2.2 = [] →
      ∃ t, exec (.trav h f) s = .next t ∧ Computed (s.travAll h f (s.grp.execLanes s.curLaunch h)).1 h f.d.toNat
          (s.travAll h f (s.grp.execLanes s.curLaunch h)).2.1 t ∧
        (s.travAll h f (s.grp.execLanes s.curLaunch h)).2.1.map (·.1) = s.grp.execLanes s.curLaunch h ∧
        ∀ a, t.byte a = s.byte a) ∧
    (s.readable h [opA f 1, opB f 1, opC f 1] →
      Completes (.travr h f) s h f.d.toNat (fun l =>
        let st (i : Nat) : Word := s.grp.reg (s.curLaunch.isGroupRate h.rate.toNat) l (f.d.toNat + i)
        let x := s.opnd h f.imm .f32 l (opA f 1)
        if (st 1).toNat % 4 = 2 ∧ floatCond fp32 3 (st 7).toNat x = true ∧ floatCond fp32 2 x (st 2).toNat = true then
          { regs := [st 0, (st 1 &&& 3) ||| 4, BitVec.ofNat 32 x, st 6, wB s h f l, wC s h f l, st 6, st 7] }
        else {}))

/-- The walk of R240 over nodes and leaf records that `read` gives, at most `n` more nodes: the state at its end, and the
addresses and sizes of what it reads. -/
def Sys2Proof.pureWalk (read : Nat → Nat → List Byte) (nodes leaves : Nat) (o d : V3) : Nat → Trav → Trav × List (Nat × Nat)
  | 0, t => (t.finish, [])
  | n + 1, t =>
    if t.node = 0x7fffffff then (t.finish, [])
    else
      let a := (nodes + 32 * t.node) % 2 ^ 64
      let ws := wordsOf (read a 32)
      let w6 := ws.getD 6 0
      let more (q : Trav) (xs : List (Nat × Nat)) : Trav × List (Nat × Nat) :=
        let r := pureWalk read nodes leaves o d n q
        (r.1, xs ++ r.2)
      if !boxHit (v3At ws 0) (v3At ws 3) o d t.tmin t.tcur then more { t with node := w6.toNat % 2 ^ 31 } [(a, 32)]
      else if w6.getLsbD 31 = false then more { t with node := (t.node + 1) % 2 ^ 32 } [(a, 32)]
      else
        let idx := (ws.getD 7 0).toNat
        let b := (leaves + 48 * idx) % 2 ^ 64
        let q := t.leaf (wordsOf (read b 48)) idx (w6.toNat % 2 ^ 31) o d
        if q.2 then (q.1, [(a, 32), (b, 48)]) else more q.1 [(a, 32), (b, 48)]

/-- The walk that `trav` makes for a lane: from the start or, in the mode that resumes and for a pending lane, from its
registers (R240, R242). -/
def Sys2Proof.laneWalk (s : State) (h : Hdr) (f : FA) (read : Nat → Nat → List Byte) (l : Nat) : Trav × List (Nat × Nat) :=
  let ray := s.opndRun h f.imm l (opA f 8)
  pureWalk read (s.opnd h f.imm .i64 l (opB f 2)) (s.opnd h f.imm .i64 l (opC f 2)) (v3At ray 0) (v3At ray 3) 64
    (if f.sub.getLsbD 0 || inMask s.grp.div.pend l then
      Trav.ofWords ((List.range 8).map (fun i => s.grp.reg (s.curLaunch.isGroupRate h.rate.toNat) l (f.d.toNat + i)))
    else Trav.start ray)

/-- `raygen`, `trav` and `travr` complete (R236, R240, R243). `raygen`: where every operand can be read and no executing lane
has made 65,536 calls. `trav`: outside speculative segments, with the sampler cache current, where every record that the
walks of its lanes read in memory can be read; each lane has the state at the end of its walk. `travr`: where every operand
can be read, whatever the state it finds; `trav` and `travr` where no register of the rate is poisoned (R384). -/
def Sys2Proof.RaysCompleteClaim : Prop :=
  ∀ (s : State) (h : Hdr) (f : FA),
    (let u := s.endRegion
     u.readable h [opA f (f.sub.toNat % 16 + 1)] →
     (∀ l ∈ u.grp.execLanes u.curLaunch h, (elementOf u h l).rays.length < 65536) →
     ∃ t, exec (.raygen h f) s = .next t ∧ t.grp.words = u.grp.words + 1 ∧
       ∀ l ∈ u.grp.execLanes u.curLaunch h, u.grp.helper (u.curLaunch.isGroupRate h.rate.toNat) l = false →
         t.grp.reg (u.curLaunch.isGroupRate h.rate.toNat) l f.d.toNat
           = BitVec.ofNat 32 ((elementOf u h l).rays.countP (fun r => r.rate == f.sub.toNat / 16 % 8))) ∧
    (∀ pa : Nat → Nat, s.readable h [opA f 8, opB f 2, opC f 2] → s.speculative s.grp = false → Memory.wf s.mem = true →
     SampCurrent s s.grp.core → soundRegs s (s.curLaunch.isGroupRate h.rate.toNat) →
     let read (va n : Nat) : List Byte := memoryAt s (pa va) n
     (∀ l ∈ s.grp.execLanes s.curLaunch h, ∀ x ∈ (laneWalk s h f read l).2, SampReady s x.1 x.2 (pa x.1)) →
     ∃ v t, exec (.trav h f) s = .next t ∧ v = { s with cores := v.cores } ∧
       Computed v h f.d.toNat (eachLane s h (fun l => { regs := (laneWalk s h f read l).1.toWords })) t) ∧
    (s.readable h [opA f 1, opB f 1, opC f 1] → soundRegs s (s.curLaunch.isGroupRate h.rate.toNat) →
     ∃ t, exec (.travr h f) s = .next t ∧ t.grp.words = s.grp.words + 1 ∧ ∀ a, t.byte a = s.byte a)

/-- Ray generation and traversal words: `RayGenerationClaim`, `TraversalWordsClaim`, `RaysCompleteClaim`. -/
def Obligations.Rays : Prop := RayGenerationClaim ∧ TraversalWordsClaim ∧ RaysCompleteClaim

/-- `regrp` (R244) in a converged group, after the region it ends: every executing lane has arrived, with its key, its source
group index in D, and the following word as its place; it is not live meanwhile, and a group with no live lane waits; the
exchanges of the team that are complete then take place. -/
def Sys2Proof.RegroupArrivesClaim : Prop :=
  ∀ (s : State) (h : Hdr) (f : FA),
    let u := s.endRegion
    u.grp.converged = true → u.readable h [opA f 1] → u.curLaunch.isGroupRate h.rate.toNat = false →
    ∃ v, exec (.regrp h f) s = .next (v.tryExchanges u.grp.team) ∧ u.onlyFocus v ∧
      (∀ l ∈ u.grp.execLanes u.curLaunch h, SMap.find v.grp.keys l = some (wA u h f l) ∧
        v.grp.reg false l f.d.toNat = BitVec.ofNat 32 (u.grp.lg (l / u.grp.lw)).gindex ∧
        pcAt v.grp.div l = following u % 2 ^ 64 ∧ inMask v.grp.div.live l = false) ∧
      v.grp.div.live = u.grp.div.live &&& ~~~ maskOf (u.grp.execLanes u.curLaunch h) ∧
      v.grp.run.on = false ∧ (v.grp.div.live = 0 → v.grp.wait = .regrp)

/-- Registers of the role under which a group's threads are stored (R245). -/
def Sys2Proof.sortRegs (u : State) (h : Hdr) : Nat :=
  let role := (u.grp.lg (((u.grp.execLanes u.curLaunch h).head?).elim 0 (fun l => l / u.grp.lw))).role
  ((u.curLaunch.roles[role]?).map (·.lregs)).getD 0

/-- Where the word's threads go in the sort area of the context: 16 bytes and 4 for each register apiece (R245). -/
def Sys2Proof.sortPlan (u : State) (h : Hdr) : Option (List Nat) :=
  sortPlaces (u.ctx u.grp.asid).sortsize (16 + 4 * sortRegs u h) (u.grp.execLanes u.curLaunch h).length
    (u.sortSpans u.grp.asid)

/-- `regrpk` (R245) in a converged group, after the region it ends. Places in the sort area do not meet each other or what
is stored there, and lie within its size (that each is the lowest free one is the model's choice, log 28). Where there is no
room the group waits. Where there is, and the bead holds the translations of the places, every executing lane's thread is
written at its place and enters the bin of the executing bead that A mod n names, with its element; it is not live, its
element has left the group, and the group then ends as by `exit`. -/
def Sys2Proof.SortIntoBinsClaim : Prop :=
  (∀ (limit size k : Nat) (spans : List (Nat × Nat)) (ps : List Nat), sortPlaces limit size k spans = some ps →
    ps.length = k ∧ (∀ o ∈ ps, o + size ≤ limit ∧ ∀ x ∈ spans, o + size ≤ x.1 ∨ x.1 + x.2 ≤ o) ∧
    ps.Pairwise (fun o p => o + size ≤ p ∨ p + size ≤ o)) ∧
  ∀ (s : State) (h : Hdr) (f : FA) (pa : Nat → Nat),
    let u := s.endRegion
    let n := f.sub.toNat + 1
    let lanes := u.grp.execLanes u.curLaunch h
    let size := 16 + 4 * sortRegs u h
    u.grp.converged = true → u.readable h [opA f 1] → Memory.wf u.mem = true →
    (sortPlan u h = none → exec (.regrpk h f) s = .next (u.setGrp { u.grp with wait := .sortRoom })) ∧
    (∀ ps, sortPlan u h = some ps →
      (∀ o ∈ ps, HeldIn u (u.bead u.grp.bead).tlb2 u.grp.asid .write ((u.ctx u.grp.asid).sortbase + o) size (pa o)) →
      ∃ v : State, exec (.regrpk h f) s = .next (v.groupMayEnd u.grp.gid) ∧
        (∀ a, v.byte a = finalByte ((lanes.zip ps).flatMap (fun x =>
          ((u.grp.threadOf x.1 (u.grp.run.pc + 16)).bytes (sortRegs u h)).zipIdx.map (fun y => (pa x.2 + y.2, y.1))))
          a (u.byte a)) ∧
        v.grp.div.live = u.grp.div.live &&& ~~~ maskOf lanes ∧
        v.grp.elems = u.grp.elems.filter (fun x => !lanes.contains x.1) ∧
        ∀ x ∈ lanes.zip ps, ∃ b ∈ (v.bead u.grp.bead).bins, b.bin = (wA u h f x.1).toNat % n ∧
          b.launch = u.grp.launch ∧ b.rate = u.grp.rate ∧ b.segid = u.grp.segid ∧ b.asid = u.grp.asid ∧
          ∃ y ∈ b.threads, y.place = x.2 ∧ y.size = size ∧ y.team = u.grp.team ∧ y.elem = SMap.find u.grp.elems x.1)

/-! ## Segments -/

/-- A handle names a live condition of the die of the group (R85). -/
def Sys2Proof.liveHandle (u : State) (v : Word) : Prop :=
  v.toNat / 1024 % 2 ^ 21 ≠ 0 ∧ (u.cond (u.grp.core / 256) (v.toNat % 1024)).live = true ∧
    (u.cond (u.grp.core / 256) (v.toNat % 1024)).gen = v.toNat / 1024 % 2 ^ 21

/-- The free condition entry that a new condition takes; which of the free ones is the model's (log 6). -/
def Sys2Proof.newEntry (u : State) : Option Nat :=
  freeFrom ((List.range 1024).filter (fun e => (u.cond (u.grp.core / 256) e).live)) (Config.allocFrom u.tick % 1024) 1024

/-- The cases of R88, for a spawn with condition operand `vc`. -/
def Sys2Proof.spawnRefused (u : State) (vc : Word) : Prop :=
  4096 ≤ u.segs.countP (fun x => x.die == u.grp.core / 256 && x.st == .pending) ∨
  16 ≤ u.depth u.grp.asid u.grp.segid + 1 ∨ 0xffffffff < (u.ctx u.grp.asid).nextSeg ∨ (vc = 0 ∧ newEntry u = none)

/-- The effect of a spawn for one logical group (R86 to R88): the state after it, and the value of `vD`. -/
def Sys2Proof.SpawnedOne (u : State) (f : FC) (prob : Nat) (vc : Word) (args : List Word) (w : State) (val : Word) : Prop :=
  let die := u.grp.core / 256
  let old := u.cond die (vc.toNat % 1024)
  let side := f.side.toNat
  let lost := vc ≠ 0 ∧ old.resolved.isSome = true ∧ old.resolved ≠ some side
  (vc = 0 ∨ liveHandle u vc) ∧
  ((lost ∧ w = u ∧ val = vc) ∨
   (¬ lost ∧ spawnRefused u vc ∧ w = u ∧ val = (if vc = 0 then 0x80000000 else vc ||| 0x80000000)) ∨
   (¬ lost ∧ ¬ spawnRefused u vc ∧ ∃ e x,
      (if vc = 0 then newEntry u = some e else e = vc.toNat % 1024) ∧
      let c : Cond := if vc = 0 then { gen := (u.cond die e).gen, live := true, asid := u.grp.asid,
                                       launch := u.grp.launch, creator := u.grp.segid } else old
      val = BitVec.ofNat 32 (e + 1024 * c.gen) ∧
      w = { (u.updCtx u.grp.asid (fun k => { k with nextSeg := (u.ctx u.grp.asid).nextSeg + 1 })) with
            conds := SMap.set {} u.conds (1024 * die + e)
              { c with spawned := c.spawned ++ [(u.grp.run.pc.toNat / 16 % 256, side)] },
            segs := u.segs ++ [x] } ∧
      x.asid = u.grp.asid ∧ x.segid = (u.ctx u.grp.asid).nextSeg ∧ x.launch = u.grp.launch ∧ x.die = die ∧
      x.parent = u.grp.segid ∧ x.cond = e ∧ x.side = side ∧ x.prob = (if c.resolved = some side then 0xff else prob) ∧
      x.stype = f.seg.toNat ∧ x.args = args ∧ x.depth = u.depth u.grp.asid u.grp.segid + 1 ∧ x.st = .pending ∧
      x.held = false ∧ x.above = (if u.grp.segid = 0 then [] else u.grp.segid ::
        (match u.findSeg u.grp.asid u.grp.segid with | some y => y.above | none => [])) ∧ x.site = u.grp.run.pc.toNat / 16 % 256 ∧
      x.root = (match u.findSeg u.grp.asid u.grp.segid with
        | some y => if u.grp.segid = 0 then u.grp.team else y.root
        | none => u.grp.team) ∧ x.version = 0 ∧ x.bytes = [] ∧ x.reads = [] ∧ x.passed = []))

/-- A spawn word, its operand for the probability, and the probability code of its side (R86, R87, R94). -/
structure Sys2Proof.SpawnForm where
  h : Hdr
  f : FC
  pOps : List Opnd
  prob : Nat → Nat

def Sys2Proof.spawnForm (u : State) : Instr → Option SpawnForm
  | .spawnI h f => some ⟨h, f, [], fun _ => f.imm.toNat % 256⟩
  | .spawnR h f => some ⟨h, f, [opX f.b 1], fun l =>
      match fp32.value (u.opnd h f.imm .f32 l (opX f.b 1)) with
      | .fin false m e => ((max 1 (min 256 ((m : Rat) * 2 ^ e * 256).ceil)) - 1).toNat
      | .inf false => 255
      | _ => 0⟩
  | .spawnH h f => some ⟨h, f, [], fun _ => SMap.get 0x7f (u.part (u.ctx u.grp.asid).part).pred
      (256 * (u.grp.core / 256) + u.grp.run.pc.toNat / 16 % 256)⟩
  | _ => none

/-- The lanes that execute a spawn, one for each logical group, spawn in turn. -/
def Sys2Proof.SpawnsInTurn (x : SpawnForm) (nargs : Nat) : List Nat → State → State → Prop
  | [], u, v => v = u
  | l :: rest, u, v => ∃ w val,
      SpawnedOne u x.f (x.prob l) (u.opndWord x.h x.f.imm l (opX x.f.a 1) 0)
        (if nargs = 0 then [] else u.opndRun x.h x.f.imm l (opX x.f.c nargs)) w val ∧
      SpawnsInTurn x nargs rest (w.writeLanes x.h x.f.d.toNat [(l, { regs := [val] })]) v

/-- Spawns (R86 to R88), after the region that they end: converged, of a segment type that the image has, with arguments
where the type declares them, the logical groups that execute the word spawn in turn, and the word is done; a type that the
image does not have is an illegal state with DETAIL 5 and the type. -/
def Obligations.SpawnWords : Prop :=
  ∀ (s : State) (i : Instr) (x : SpawnForm),
    let u := s.endRegion
    spawnForm u i = some x → u.grp.converged = true →
    (u.curLaunch.segs[x.f.seg.toNat]? = none →
      exec i s = .next (u.trap { cause := 0x07, detail := 5, info := BitVec.ofNat 64 x.f.seg.toNat } false)) ∧
    (∀ ty v, u.curLaunch.segs[x.f.seg.toNat]? = some ty → (if ty.nargs = 0 then x.f.c = 0x800 else x.f.c.toNat < 0x800) →
      u.readable x.h ([opX x.f.a 1] ++ x.pOps ++ (if ty.nargs = 0 then [] else [opX x.f.c ty.nargs])) →
      SpawnsInTurn x ty.nargs (u.grp.execLanes u.curLaunch x.h) u v → Done i s x.h v)

/-- A predictor entry after a resolution (R94): the entry plus a step of an eighth toward T, rounded down. -/
def Sys2Proof.predStep (p : Nat) (won : Bool) : Nat := ((p : Int) + ((if won then 255 else 0) - (p : Int)) / 8).toNat

/-- The effect of a resolution for one logical group (R92 to R94): of a live condition to the side it has, none; of an
unresolved one, the condition has its side, the entry of each spawn site on it is updated once for each segment, and the
speculative segments of the losing side are pruned. -/
def Sys2Proof.ResolvedOne (u : State) (vc vb : Word) (w : State) : Prop :=
  let die := u.grp.core / 256
  let e := vc.toNat % 1024
  let c := u.cond die e
  let side := if vb = 0 then 0 else 1
  let part := (u.ctx u.grp.asid).part
  liveHandle u vc ∧
  ((c.resolved = some side ∧ w = u) ∨
   (c.resolved = none ∧
    let s1 := c.spawned.foldl (fun (t : State) x => t.updPart part (fun p =>
      { p with pred := SMap.set 0x7f p.pred (256 * die + x.1) (predStep (SMap.get 0x7f p.pred (256 * die + x.1))
        (x.2 == side)) })) { u with conds := SMap.set {} u.conds (1024 * die + e) { c with resolved := some side } }
    w = s1.pruneOnly (s1.segs.filter (fun y => y.die == die && y.cond == e && y.side != side && y.st.speculative))))

/-- Resolutions of the logical groups in turn. -/
def Sys2Proof.ResolvesInTurn : List (Word × Word) → State → State → Prop
  | [], u, v => v = u
  | (c, b) :: rest, u, v => ∃ w, ResolvedOne u c b w ∧ ResolvesInTurn rest w v

/-- `resolve` (R92): in a speculative segment it waits until commit; else, converged, it resolves the conditions of its
handles, in turn, and frees those that no segment stands on any longer (R85); a handle whose generation does not match, or a resolution to the other side, is an illegal state with the handle.
`lkh` (R105) reads the likelihood code of the segment with CONFIRMED, COMMITTED and HELD, 0x3ffff in root code. -/
def Obligations.ResolveAndLikelihood : Prop :=
  (∀ (s : State) (h : Hdr) (f : FC),
    (s.speculative s.grp = true → exec (.resolve h f) s = .next (s.setGrp { s.grp with wait := .split .commit })) ∧
    (s.speculative s.grp = false → s.grp.converged = true → s.readable h [opX f.a 1, opX f.b 1] →
      let asked := (s.grp.execLanes s.curLaunch h).map (fun l =>
        (s.opndWord h f.imm l (opX f.a 1) 0, s.opndWord h f.imm l (opX f.b 1) 0))
      (∀ v, ResolvesInTurn asked s v → Done (.resolve h f) s h v.freeConds) ∧
      (asked = [] → Done (.resolve h f) s h s.freeConds) ∧
      (∀ c b, asked = [(c, b)] → liveHandle s c →
        (∀ x, (s.cond (s.grp.core / 256) (c.toNat % 1024)).resolved = some x → x = if b = 0 then 0 else 1) →
        ∃ v, ResolvedOne s c b v ∧ Done (.resolve h f) s h v.freeConds) ∧
      (∀ c b, asked = [(c, b)] → (¬ liveHandle s c ∨
          (∃ x, (s.cond (s.grp.core / 256) (c.toNat % 1024)).resolved = some x ∧ x ≠ if b = 0 then 0 else 1)) →
        exec (.resolve h f) s = .next (s.trap { cause := 0x07, detail := 5, info := c.setWidth 64 } false)))) ∧
  (∀ (s : State) (h : Hdr) (f : FC), Completes (.lkh h f) s h f.d.toNat (fun _ =>
    { regs := [match s.findSeg s.grp.asid s.grp.segid with
      | none => 0x3ffff
      | some x => if s.grp.segid = 0 then 0x3ffff else BitVec.ofNat 32 (s.lcode x % 2 ^ 16
          + (if (s.chain s.grp.asid 16 x.segid).all (fun y => (s.cond y.die y.cond).resolved == some y.side) then 2 ^ 16 else 0)
          + (if x.st.speculative then 0 else 2 ^ 17) + (if x.held then 2 ^ 18 else 0))] }))

/-! ## Engine words -/

/-- The registers of a logical group's live lanes at the word's rate, with `v` written to `d`. -/
def Sys2Proof.withResult (u : State) (h : Hdr) (d j : Nat) (v : Word) : State :=
  u.setGrp ((u.grp.liveOf j).foldl (fun g l => g.setReg (u.curLaunch.isGroupRate h.rate.toNat) l d v) u.grp)

/-- The lowest entry of a logical group's table that is free: R276 takes a free entry, and that it is the lowest one is the
model's choice (log 44). -/
def Sys2Proof.lowestEntry (x : LGroup) : Option Nat := (List.range 32).find? (fun e => x.ops.all (fun o => o.entry != e))

/-- SEQ after an acceptance: modulo 2^27, skipping 0. -/
def Sys2Proof.seqAfter (q : Nat) : Nat := if (q + 1) % 2 ^ 27 = 0 then 1 else (q + 1) % 2 ^ 27

/-- The state after a logical group has bound handle `n` where it lacked it (R288): that it takes the lowest free slots of its
bead is the model's choice (log 44). -/
def Sys2Proof.boundTo (u : State) (j : Nat) (b : Option (Nat × HKind)) : State :=
  match b with
  | none => u
  | some (n, k) => if (SMap.find (u.grp.lg j).handles n).isSome then u
    else u.setGrp { u.grp.updLg j (fun x => { x with handles := SMap.put x.handles n { kind := k, slots := (u.freeSlots u.grp.bead).take (if k = .f64 then 2 else 1) } }) with slotSince := none }

/-- An accepted operation of logical group `j` (R276, R277): it is in the table and among the operations in progress, and
its token is in D of every live lane. -/
def Sys2Proof.accepted (u : State) (h : Hdr) (d j : Nat) (kind : OpKind) : State :=
  let x := u.grp.lg j
  let e := (lowestEntry x).getD 0
  let tok := BitVec.ofNat 32 (e + 32 * x.seq)
  let ent : OpEnt := { entry := e, seq := x.seq, op := u.nextId, err := none }
  let op : EngOp := { oid := u.nextId, asid := u.grp.asid, launch := u.grp.launch, gid := some u.grp.gid, lg := j, entry := e,
                      token := tok, team := u.grp.team, segid := u.grp.segid, bead := u.grp.bead, core := u.grp.core,
                      kind := kind, done := 0, paused := false, queue := 0 }
  withResult { (u.setGrp (u.grp.updLg j (fun y => { y with seq := seqAfter y.seq, ops := y.ops ++ [ent] }))) with
               nextId := u.nextId + 1, engOps := u.engOps ++ [op] } h d j tok

/-- A word that is complete when it is accepted: its token is used up (R294, R293, R287). -/
def Sys2Proof.acceptedDone (u : State) (h : Hdr) (d j : Nat) : State :=
  let x := u.grp.lg j
  withResult (u.setGrp (u.grp.updLg j (fun y => { y with seq := seqAfter y.seq }))) h d j
    (BitVec.ofNat 32 ((lowestEntry x).getD 0 + 32 * x.seq))

/-- What an engine word asks: its sources, the handle it names, the kind it binds the handle with, how many reservation
entries, whether it waits for commit, and `ask t j l t' k`: for logical group `j`, whose sources lane `l` reads, the word's
checks hold in `t`, its reads leave `t'`, and its operation is `k`, or it is complete at once. -/
structure Sys2Proof.EngineForm where
  h : Hdr
  f : FE
  ops : List Opnd
  names : Option Nat
  binds : Option (Nat × HKind)
  matx : Nat
  waits : Bool
  ask : State → Nat → Nat → State → Option OpKind → Prop

/-- The peer of a network word (R402): entry IMM of the table at PEERPTR, configured. -/
def Sys2Proof.PeerOf (f : FE) (t t' : State) (dst : Peer) : Prop :=
  ∃ bs, t.engineRead t.grp.bead t.grp.asid t.grp.segid ((t.ctx t.grp.asid).peerptr + 32 * (f.imm.toNat % 256)) 32
      = (.ok bs, t') ∧ ofLe bs % 2 = 1 ∧ dst.job = BitVec.ofNat 24 (ofLe bs / 2 ^ 16) ∧
      dst.addr = BitVec.ofNat 128 (ofLe bs / 2 ^ 128) ∧ dst.ports = BitVec.ofNat 8 (ofLe bs / 2 ^ 8)

/-- A handle that is bound has the kind. -/
def Sys2Proof.kindIs (t : State) (j n : Nat) (k : HKind) : Prop := ∀ x, SMap.find (t.grp.lg j).handles n = some x → x.kind = k

/-- The engine words (R281 to R290, R294). -/
def Sys2Proof.engineForm (u : State) : Instr → Option EngineForm
  | .tcopy h f => some ⟨h, f, [opX f.a 2, opX f.b 2, opX f.c 2], none, none, 0, false,
      fun t _ l t' k => ∃ bs, t.opnd h f.imm .i64 l (opX f.c 2) % 16 = 0 ∧
        t.loadLane t.grp false (t.opnd h f.imm .i64 l (opX f.c 2)) 256 = (.ok bs, t') ∧
        copyChecks bs (t.opnd h f.imm .i64 l (opX f.a 2)) (t.opnd h f.imm .i64 l (opX f.b 2))
          (t.opnd h f.imm .i64 l (opX f.c 2)) t'.spw = none ∧
        k = some (.tcopy (BitVec.ofNat 64 (t.opnd h f.imm .i64 l (opX f.a 2)))
          (BitVec.ofNat 64 (t.opnd h f.imm .i64 l (opX f.b 2))) bs)⟩
  | .chain h f => some ⟨h, f, [opX f.a 2, opX f.b 2, opX f.c (chainRun f.imm.toNat)], none, none, 0, false,
      fun t _ l t' k => t' = t ∧
        let ps := t.opndRun h f.imm l (opX f.c (chainRun f.imm.toNat))
        chainBad t.curLaunch.slots (chainCodes f.imm.toNat 8) (ps.drop 1) 0 = none ∧
        k = some (.chain (BitVec.ofNat 64 (t.opnd h f.imm .i64 l (opX f.a 2)))
          (BitVec.ofNat 64 (t.opnd h f.imm .i64 l (opX f.b 2))) f.fmt.toNat f.imm ps)⟩
  | .mma h f =>
      let kind := kindOfSlot (u.slot f.fmt)
      let n := f.hd.toNat
      let set := f.sub.getLsbD 0
      some ⟨h, f, [opX f.a 1, opX f.b 1, opX f.c 1], some n, if set then some (n, kind) else none, 1, false,
      fun t j l t' k =>
          let a := t.opnd h f.imm .i32 l (opX f.a 1)
          let b := t.opnd h f.imm .i32 l (opX f.b 1)
          let c := t.opnd h f.imm .i32 l (opX f.c 1)
          mmaChecks (slotFmt (u.slot f.fmt)) a b c (f.imm.toNat % 65536) (f.imm.toNat / 65536) t.spw = none ∧
          kindIs t j n kind ∧ (set = false → (SMap.find (t.grp.lg j).handles n).isSome = true) ∧ t' = t ∧
          k = some (.mma n a b c (f.imm.toNat % 65536) (f.imm.toNat / 65536) f.fmt.toNat (f.sat == 1) set)⟩
  | .accld h f =>
      let kind := kindOfMemSlot (u.slot f.fmt)
      some ⟨h, f, [opX f.a 2, opX f.b 1], some f.hd.toNat, some (f.hd.toNat, kind), 0, false,
      fun t j l t' k => kindIs t j f.hd.toNat kind ∧ t' = t ∧
          k = some (.accld f.hd.toNat (BitVec.ofNat 64 (t.opnd h f.imm .i64 l (opX f.a 2)))
            (BitVec.ofNat 32 (t.opnd h f.imm .i32 l (opX f.b 1))) f.fmt.toNat)⟩
  | .accst h f => some ⟨h, f, [opX f.a 2, opX f.b 1], some f.hs.toNat, none, 0, false,
      fun t j l t' k => (∃ x, SMap.find (t.grp.lg j).handles f.hs.toNat = some x ∧
          (x.kind = kindOfMemSlot (u.slot f.fmt) ∨ (x.kind = .f64 ∧ slotFmt (u.slot f.fmt) = 0))) ∧ t' = t ∧
        k = some (.accst f.hs.toNat (BitVec.ofNat 64 (t.opnd h f.imm .i64 l (opX f.a 2)))
          (BitVec.ofNat 32 (t.opnd h f.imm .i32 l (opX f.b 1))) f.fmt.toNat)⟩
  | .accz h f =>
      let kind : HKind := if f.sub.toNat % 4 = 0 then .f32 else if f.sub.toNat % 4 = 1 then .i32 else .f64
      some ⟨h, f, [], some f.hd.toNat, some (f.hd.toNat, kind), 0, false,
      fun t j _ t' k => kindIs t j f.hd.toNat kind ∧ t' = t ∧ k = some (.accz f.hd.toNat)⟩
  | .accrel h f => some ⟨h, f, [], some f.hd.toNat, none, 0, false,
      fun t j _ t' k => t' = t ∧
        k = if (SMap.find (t.grp.lg j).handles f.hd.toNat).isSome then some (.accrel f.hd.toNat) else none⟩
  | .nput h f => some ⟨h, f, [opX f.a 2, opX f.b 2, opX f.c 1], none, none, 0, true,
      fun t _ l t' k => ∃ dst, PeerOf f t t' dst ∧
        let n := t'.opnd h f.imm .i32 l (opX f.c 1)
        k = if n = 0 then none else some (.nput (BitVec.ofNat 64 (t'.opnd h f.imm .i64 l (opX f.a 2)))
          (BitVec.ofNat 64 (t'.opnd h f.imm .i64 l (opX f.b 2))) n dst)⟩
  | .nget h f => some ⟨h, f, [opX f.a 2, opX f.b 2, opX f.c 1], none, none, 0, true,
      fun t _ l t' k => ∃ dst, PeerOf f t t' dst ∧
        let n := t'.opnd h f.imm .i32 l (opX f.c 1)
        k = if n = 0 then none else some (.nget (BitVec.ofNat 64 (t'.opnd h f.imm .i64 l (opX f.a 2)))
          (BitVec.ofNat 64 (t'.opnd h f.imm .i64 l (opX f.b 2))) n dst)⟩
  | .nsig h f => some ⟨h, f, [opX f.b 2, opX f.c 1], none, none, 0, true,
      fun t _ l t' k => ∃ dst, PeerOf f t t' dst ∧ t'.opnd h f.imm .i64 l (opX f.b 2) % 8 = 0 ∧
        k = some (.nsig (BitVec.ofNat 64 (t'.opnd h f.imm .i64 l (opX f.b 2)))
          (BitVec.ofNat 32 (t'.opnd h f.imm .i32 l (opX f.c 1))) dst)⟩
  | .tpost h f => some ⟨h, f, [opX f.a 2], none, none, 0, true,
      fun t _ l t' k =>
        let a := t.opnd h f.imm .i64 l (opX f.a 2)
        a % 64 = 0 ∧
        (-- a block that the walker cannot read is waited for in the table (R279, R280)
         ((∃ e s1, t.translateRange none t.grp.bead t.grp.asid .atomic a 256 = (.error e, s1)) ∨
            ∃ pas s1, t.translateRange none t.grp.bead t.grp.asid .atomic a 256 = (.ok pas, s1) ∧
              pas.all (fun x => !t.poison.contains (x / 64)) = false) ∧
          t' = t ∧ k = some (.tpost (BitVec.ofNat 64 a)) ∨
         k = none ∧ ∃ pas pas8 s1 s2, t.translateRange none t.grp.bead t.grp.asid .atomic a 256 = (.ok pas, s1) ∧
          t.translateRange none t.grp.bead t.grp.asid .atomic a 8 = (.ok pas8, s2) ∧
          pas.all (fun x => !t.poison.contains (x / 64)) = true ∧
          let x := ofLe (pas.map t.byte)
          blockBad x = false ∧
          let p : Posted := ⟨t.grp.asid, BitVec.ofNat 64 a, t.curLaunch.queue, t.curLaunch.slots, t.grp.launch, t.grp.team, t.grp.core⟩
          let w := t.contextStore t.grp.asid 0 (pas8.zip (leBytes (ofLe (pas8.map t.byte) ||| 2 ^ 35) 8))
          t' = if blockPred x = 0 then w.startNode p x else { w with posted := w.posted ++ [p] })⟩
  | _ => none

/-- The logical groups of an engine word are accepted in turn. -/
def Sys2Proof.AcceptsInTurn (x : EngineForm) : List (Nat × Nat) → State → State → Prop
  | [], u, v => v = u
  | (j, l) :: rest, u, v => ∃ w k, x.ask u j l w k ∧
      AcceptsInTurn x rest (match k with
        | some op => accepted (boundTo w j x.binds) x.h x.f.d.toNat j op
        | none => acceptedDone w x.h x.f.d.toNat j) v

/-- Slots that the logical groups lack for the handle that the word binds. -/
def Sys2Proof.slotsNeeded (s u : State) (x : EngineForm) : Nat :=
  ((u.grp.engLanes.filter (fun y => match x.binds with
    | some (n, _) => (SMap.find (s.grp.lg y.1).handles n).isNone
    | none => false)).length) * (match x.binds with | some (_, .f64) => 2 | _ => 1)

/-- Acceptance of engine words (R275 to R277, R286 to R289, R293, R294), after the region that they end. A network word or
`tpost` in a speculative segment waits until commit. A converged word whose table has no free entry waits; with a free entry,
no release of the handle in progress, a reservation entry and slots where it needs them, and its own checks passed, it is
accepted for each of its logical groups in turn, and is done. -/
def Sys2Proof.EngineAcceptsClaim : Prop :=
  ∀ (s : State) (i : Instr) (x : EngineForm),
    let u := s.endRegion
    let js := u.grp.engLanes
    engineForm s i = some x →
    (x.waits = true → u.speculative u.grp = true → exec i s = .next (u.setGrp { u.grp with wait := .split .commit })) ∧
    (u.speculative u.grp = false → u.grp.converged = true → u.readTrap x.h.rate.toNat x.ops (js.map (·.2)) = none →
      ((∃ y ∈ js, lowestEntry (u.grp.lg y.1) = none) →
        (∀ y ∈ js, lowestEntry (u.grp.lg y.1) = none → (u.grp.lg y.1).ops.any (·.err.isNone) = true) →
        exec i s = .next (u.setGrp { u.grp with wait := .split .table })) ∧
      ((∀ y ∈ js, lowestEntry (u.grp.lg y.1) ≠ none) →
        (∀ n, x.names = some n → u.releasing u.grp.gid n = false) →
        (x.matx = 0 ∨ u.reserved u.grp.bead + js.length ≤ 32) →
        (slotsNeeded s u x = 0 ∨ (u.slotsAvail u.grp (slotsNeeded s u x) = true ∧ u.olderWaits u.grp = false)) →
        ∀ v, AcceptsInTurn x js u v → Done i s x.h v))

/-- The peer table entry that a network word names can be read on the bead and is configured (R402). -/
def Sys2Proof.PeerFit (u : State) (f : FE) : Prop :=
  ∃ pa, HeldIn u (u.bead u.grp.bead).tlb2 u.grp.asid .read ((u.ctx u.grp.asid).peerptr + 32 * (f.imm.toNat % 256)) 32 pa ∧
    Sound u pa 32 ∧ bytesNat (memoryAt u pa 32) % 2 = 1

/-- What an engine word's operands must meet for logical group `j`, whose sources lane `l` reads: the checks of R281, R285,
R286, R289, R290, R292, R294 and R402. -/
def Sys2Proof.EngineFit (u : State) (j l : Nat) : Instr → Prop
  | .tcopy h f =>
      let c := u.opnd h f.imm .i64 l (opX f.c 2)
      c % 16 = 0 ∧ ∃ pa, Held u .read c 256 pa ∧ Sound u pa 256 ∧
        copyChecks (memoryAt u pa 256) (u.opnd h f.imm .i64 l (opX f.a 2)) (u.opnd h f.imm .i64 l (opX f.b 2)) c u.spw = none
  | .chain h f => chainBad u.curLaunch.slots (chainCodes f.imm.toNat 8)
      ((u.opndRun h f.imm l (opX f.c (chainRun f.imm.toNat))).drop 1) 0 = none
  | .mma h f =>
      mmaChecks (slotFmt (u.slot f.fmt)) (u.opnd h f.imm .i32 l (opX f.a 1)) (u.opnd h f.imm .i32 l (opX f.b 1))
        (u.opnd h f.imm .i32 l (opX f.c 1)) (f.imm.toNat % 65536) (f.imm.toNat / 65536) u.spw = none ∧
      kindIs u j f.hd.toNat (kindOfSlot (u.slot f.fmt)) ∧
      (f.sub.getLsbD 0 = false → (SMap.find (u.grp.lg j).handles f.hd.toNat).isSome = true)
  | .accld _ f => kindIs u j f.hd.toNat (kindOfMemSlot (u.slot f.fmt))
  | .accst _ f => ∃ x, SMap.find (u.grp.lg j).handles f.hs.toNat = some x ∧
      (x.kind = kindOfMemSlot (u.slot f.fmt) ∨ (x.kind = .f64 ∧ slotFmt (u.slot f.fmt) = 0))
  | .accz _ f => kindIs u j f.hd.toNat (if f.sub.toNat % 4 = 0 then .f32 else if f.sub.toNat % 4 = 1 then .i32 else .f64)
  | .accrel _ _ => True
  | .nput _ f => PeerFit u f
  | .nget _ f => PeerFit u f
  | .nsig h f => PeerFit u f ∧ u.opnd h f.imm .i64 l (opX f.b 2) % 8 = 0
  | .tpost h f =>
      let a := u.opnd h f.imm .i64 l (opX f.a 2)
      a % 64 = 0 ∧ u.grp.engLanes.length ≤ 1 ∧ (∀ y ∈ u.segs, y.st.speculative = true → y.reads = []) ∧ ∃ pa,
        HeldIn u (u.bead u.grp.bead).tlb2 u.grp.asid .atomic a 256 pa ∧ Sound u pa 256 ∧
        blockBad (bytesNat (memoryAt u pa 256)) = false
  | _ => False

/-- Every engine word completes (R275 to R277): converged, outside speculative segments, with operands that can be read and
meet the word's checks, a free entry of each table, no release of the handle in progress, and the reservation entries and
slots it needs, the word is accepted for every logical group, whose live lanes have its token in D: a free entry, the lowest
one by the model's choice (log 44), and SEQ. (`tpost` of several logical groups may meet one block twice, so it is stated of one.) -/
def Sys2Proof.EngineCompletesClaim : Prop :=
  ∀ (s : State) (i : Instr) (x : EngineForm),
    let u := s.endRegion
    let js := u.grp.engLanes
    engineForm s i = some x → u.chain u.grp.asid 16 u.grp.segid = [] → u.grp.converged = true →
    Memory.wf u.mem = true → nothingBuffered u → L1Current u u.grp.core →
    u.readTrap x.h.rate.toNat x.ops (js.map (·.2)) = none → (∀ y ∈ js, lowestEntry (u.grp.lg y.1) ≠ none) →
    (∀ n, x.names = some n → u.releasing u.grp.gid n = false) →
    (x.matx = 0 ∨ u.reserved u.grp.bead + js.length ≤ 32) →
    (slotsNeeded s u x = 0 ∨ (u.slotsAvail u.grp (slotsNeeded s u x) = true ∧ u.olderWaits u.grp = false)) →
    (∀ y ∈ js, EngineFit u y.1 y.2 i) →
    ∃ t, exec i s = .next t ∧ t.grp.words = u.grp.words + 1 ∧
      ∀ y ∈ js, ∀ l ∈ u.grp.liveOf y.1, t.grp.reg (u.curLaunch.isGroupRate x.h.rate.toNat) l x.f.d.toNat =
        BitVec.ofNat 32 ((lowestEntry (u.grp.lg y.1)).getD 0 + 32 * (u.grp.lg y.1).seq)

/-- Engine and network words queue their operation: `EngineAcceptsClaim`, `EngineCompletesClaim`. -/
def Obligations.EngineWords : Prop := EngineAcceptsClaim ∧ EngineCompletesClaim

/-- The entries that an `ewait` waits for (R278): all for a token of 0, else the one of its ENTRY and SEQ. -/
def Sys2Proof.waitedFor (x : LGroup) (tok : Nat) : List OpEnt :=
  x.ops.filter (fun o => tok == 0 || (o.entry == tok % 32 && o.seq == tok / 32))

/-- `ewait` (R278, R279), after the region that it ends: where none of the operations waited for is in progress it ends its
run with 0 in D; where one has an error, the group takes the engine-fault trap at the word and the entry is
freed; else it waits. Where several have, the lowest entry of the first logical group is the one reported and freed: R279 does
not say which, and this is the model's choice (log 44). -/
def Obligations.EngineWait : Prop :=
  ∀ (s : State) (h : Hdr) (f : FE),
    let u := s.endRegion
    let js := u.grp.engLanes
    let mine (y : Nat × Nat) : List OpEnt := waitedFor (u.grp.lg y.1) (u.opnd h f.imm .i32 y.2 (opX f.a 1))
    u.grp.converged = true → u.readTrap h.rate.toNat [opX f.a 1] (js.map (·.2)) = none →
    (js.all (fun y => (mine y).isEmpty) = true →
      ∃ t, exec (.ewait h f) s = .next t ∧
        RunEnds (js.foldl (fun (w : State) y => withResult w h f.d.toNat y.1 0) u) t (fun _ => following u)) ∧
    (js.all (fun y => (mine y).all (·.err.isNone)) = true → js.any (fun y => !(mine y).isEmpty) = true →
      exec (.ewait h f) s = .next (u.setGrp { u.grp with wait := .engine })) ∧
    (∀ y o k a, js.find? (fun y => (mine y).any (·.err.isSome)) = some y → o ∈ mine y → o.err = some (k, a) →
      (∀ o' ∈ mine y, o'.err.isSome = true → o.entry ≤ o'.entry) → (∀ o' ∈ mine y, o'.entry = o.entry → o' = o) →
      exec (.ewait h f) s = .next ((u.setGrp (u.grp.updLg y.1 (fun x =>
        { x with ops := x.ops.filter (fun o' => o'.entry != o.entry) }))).trap
        { cause := 0x04, info := BitVec.ofNat 64 (k + 16 * o.entry + 2 ^ 12 * (a.toNat % 2 ^ 52)) } false))

/-! ## Issue of runs, and the ends of waits -/

/-- A lane of a group joins its next run (R56): of the slice that NEXT names, else of the subscribed slices, where it
stands at the run's first word. -/
def Sys2Proof.joinsRun (g : Group) (l : Nat) : Bool :=
  decide (l < g.hw) && inMask g.div.live l && match g.div.next with
    | some k => l / 4 == k && pcAt g.div l == (g.div.slicePc k).getD 0
    | none => decide (l / 4 < g.hw / 4) && g.div.splitOf (l / 4) == 0 && pcAt g.div l == g.div.bcast.toNat

/-- The first word of a group's next run. -/
def Sys2Proof.runStart (g : Group) : Nat := match g.div.next with | some k => (g.div.slicePc k).getD 0 | none => g.div.bcast.toNat

/-- The group at the boundary of a run: where the lanes of the rest of a cut run no longer stand at the cut, that run is over,
and SPLIT and NEXT are derived after it (R57; that the rest then goes no further is log 19). -/
def Sys2Proof.atBoundary (g : Group) : Group :=
  match g.rest with
  | some r => if g.restStands r then g else
    let d := g.div.afterRun g.hw r.slices (r.pc.toNat - 16)
    { g with div := { d with next := d.aloneFrom g.hw 0 } }
  | none => g

/-- Issue of a run (R65): a core of a rod that is not clamped, with a port free (a pair needs both), issues the next run of the
group that has been ready longest, or of one that the balancer may prefer. The rest of a run that was cut goes first (R62):
that it does so only while its live lanes stand where it was cut, and that else the run is the next of the divergence record,
is the model's choice (log 19), as is the first in the list of groups of several that have been ready equally long and were
passed over equally often (log 44). Where its first word is at
hand, no index read waits and no links lie on another bead, the run begins with the lanes that stand at it, at the setting
step of the bead (R393), the group has not been passed over, and every
other ready group once more; where the word has to be fetched, the group waits for it. When the fetch completes the group is ready at the same
place. -/
def Obligations.RunsIssue : Prop :=
  (∀ (s : State) (c : Nat) (younger : Option Nat) (g : Group),
    let ready := (s.onCore c).filter s.readyToIssue
    s.coreIssues c = true → s.portsUsed c + g.hw / 64 ≤ 2 → s.findGroup g.gid = some g → g ∈ ready →
    (match younger with
      | none => oldestReady ready = some g
      | some y => ready.find? (fun x => x.gid == y) = some g ∧ s.mayPrefer ready g = true) →
    let s1 := s.focusOn g.gid
    let run := g.beginRun.run
    (∀ r, g.rest = some r → g.restStands r = true → run = { r with on := true, active := r.active &&& g.div.live }) ∧
    ((∀ r, g.rest = some r → g.restStands r = false) →
      (∀ l, l < 128 → inMask run.active l = joinsRun (atBoundary g) l) ∧
      run.pc = BitVec.ofNat 64 (runStart (atBoundary g)) ∧ run.on = true ∧ run.count = 0) ∧
    ((s1.setGrp g.beginRun).wordAtHand = true →
      g.elems.all (fun x => !(x.2.idxBad || x.2.idxWait.isSome || x.2.linkHome.isSome)) = true →
      let base := (s.rod (g.bead / 4)).step
      ∃ t, exec (.runIssue c younger) s = .next t ∧
        t = { s1 with cores := t.cores, groups := t.groups,
                      grp := { atBoundary g with
                        run := { run with step := if (s.bead g.bead).trim then min 4 (base + 1) else base },
                        rest := none, fresh := false, passedOver := 0 } } ∧
        (t.core g.core).lastBal = some (s.balOf g) ∧
        t.groups = s1.groups.map (fun x =>
          if x.gid ≠ g.gid ∧ x.gid ∈ ready.map (·.gid) then { x with passedOver := x.passedOver + 1 } else x)) ∧
    ((s1.setGrp g.beginRun).wordAtHand = false →
      exec (.runIssue c younger) s = .next (s1.setGrp { g with wait := .code }))) ∧
  (∀ (s : State) (g : Group) (w : Inst) (s2 : State), s.findGroup g.gid = some g → g.wait = .code →
    let g0 := { g with wait := .ready, readySince := s.timer.toNat }
    ((s.focusOn g.gid).setGrp g0.beginRun).fetch = (.word w, s2) →
    exec (.codeFetchComplete g.gid) s = .next (s2.setGrp g0) ∧ ∀ a, s2.byte a = s.byte a)

/-- A waiting group becomes ready now, off its port: the words from where it waited to the boundary are the rest of its
run. -/
def Sys2Proof.madeReady (s : State) (gid : Nat) : State :=
  s.updGroup gid (fun g => { g.leavePort with wait := .ready, readySince := s.timer.toNat })

/-- What a split wait waits for has come (R62, R78, R100, R150, R277, R287, R291). -/
def Sys2Proof.splitCleared (s : State) (g : Group) : SplitWhy → Bool
  | .commit => !s.speculative g
  | .buffer need => decide ((s.core g.core).rel.length + need ≤ 64) || (s.core g.core).rel.all (fun e => e.gid == g.gid)
  | .table => g.lgs.all (fun x => (lowestEntry x).isSome || (x.ops.all (·.err.isSome) && x.ops.any (·.entry == 0)))
  | .matrix need => decide (s.reserved g.bead + need ≤ 32)
  | .handle n => !s.releasing g.gid n
  | .paths lgs m => !s.engOps.any (fun o => o.gid == some g.gid && lgs.contains o.lg && m.testBit o.kind.path)

/-- The ends of waits. A split wait ends when its condition clears and a wait for slots when they are free (R62, R288), or
to be made again as a non-speculative group's once its segment has committed (R98); a monitor's when its sets have
triggered, else with the monitor-timeout trap when the timeout of a logical group whose set has not triggered elapses, the
set cleared (R269 to R271), on a bead of a rod that is not clamped; a parked group's
when its entry's sector has been written (R305). A due timer is the timer trap (R322), and slots that a non-speculative
group has waited 65,536 cycles for are the exhaustion trap of the one that has waited longest, with its handle and bead
(R131, R288). On a bead of a clamped rod no timer has an effect (R389). -/
def Obligations.WaitsEnd : Prop :=
  ∀ (s : State) (g : Group), s.findGroup g.gid = some g →
    (∀ why, g.wait = .split why → splitCleared s g why = true →
      exec (.splitWaitResume g.gid) s = .next (madeReady s g.gid)) ∧
    (∀ need hd, g.wait = .slots need hd → s.slotsAvail g need = true →
      (if s.speculative g = true then s.slotWaiters g = [] else s.olderWaits g = false) →
      exec (.splitWaitResume g.gid) s = .next (madeReady s g.gid)) ∧
    (∀ need hd, g.wait = .slots need hd → s.speculative g = false → (s.bead g.bead).exhFrom = none →
      exec (.splitWaitResume g.gid) s = .next (madeReady s g.gid)) ∧
    (∀ js due, g.wait = .monitor js due →
      let woken := fun j => (g.lg j).monTrig || (g.lg j).monSet.isEmpty
      (js.all woken = true → exec (.monitorTrigger g.gid) s = .next (madeReady s g.gid)) ∧
      (∀ d, due.find? (fun d => decide (d.at_ ≤ s.timer.toNat) && !woken d.lg) = some d → (s.rod (g.bead / 4)).clamp = none →
        exec (.monitorTimeout g.gid) s = .next (((s.updGroup g.gid (fun x =>
          x.updLg d.lg (fun y => { y with monSet := [], monTrig := false }))).focusOn g.gid).trap
            { cause := 0x05, info := d.timeout.setWidth 64 } false))) ∧
    (∀ sec, g.wait = .park sec true → exec (.overlayParkWake g.gid) s = .next (madeReady s g.gid)) ∧
    (g.tcmp ≠ 0 → g.tcmp.toNat ≤ s.timer.toNat → g.trapcause.getLsbD 31 = false → g.takesTimer = true →
      g.div.live ≠ 0 → s.teamHolds g = false → (s.rod (g.bead / 4)).clamp = none →
      exec (.timerTrap g.gid) s = .next ((s.focusOn g.gid).trap { cause := 0x06, info := s.timer } false)) ∧
    (∀ need hd since, g.wait = .slots need hd → s.speculative g = false → (s.bead g.bead).exhFrom = some since →
      since + 65536 ≤ s.timer.toNat → (∀ x ∈ s.onBead g.bead, s.speculative x = true → x.slotSince = none) →
      (s.rod (g.bead / 4)).clamp = none →
      oldestWaiter ((s.onBead g.bead).filter (fun x => (match x.wait with | .slots _ _ => true | _ => false)
        && !s.speculative x)) = some g →
      exec (.accumulatorExhaustion g.bead) s = .next (((s.focusOn g.gid).trap
        { cause := 0x13, info := BitVec.ofNat 64 (hd + 16 * g.bead) } false).slotsFreed g.bead)) ∧
    ((s.rod (g.bead / 4)).clamp ≠ none →
      exec (.timerTrap g.gid) s = .next s ∧ exec (.accumulatorExhaustion g.bead) s = .next s ∧
      exec (.spillTimerExpiry g.bead) s = .next s ∧ ((∃ js due, g.wait = .monitor js due) → exec (.monitorTimeout g.gid) s = .next s))

/-! ## The quire, bins, fan-out -/

/-- 16-byte units of a record of `n` words (R35). -/
def Sys2Proof.unitsOf (n : Nat) : Nat := (16 + 4 * n + 15) / 16

/-- The next name is no group's. -/
def Sys2Proof.freshName (s : State) : Prop := s.nextId ≠ 0 ∧ ∀ g ∈ s.allGroups, g.gid ≠ s.nextId

/-- A request's record fits: a run of free units below the context's capacity takes it whole (log 44). -/
def Sys2Proof.fitsOn (s : State) (b : Nat) (r : QReq) : Prop :=
  let n := unitsOf (r.record.links.length + r.record.words.length)
  (s.bead b).place n + n ≤ s.quireCap r.record.asid

/-- Grants and spills (R40, R41, R327). The first stalled request of a bead, once its units fit, leaves the queue and its record
stands in the quire; where a lane's element asked, of a rate that has child rates, in a group each of whose logical groups has
live lanes, its children
are now to be made, and the group goes on once none of its elements is stalled. When the spill timer has expired, on a bead of
a rod that is not clamped (R389), and the
record does not fit, the link and export words of the victim go to the bead's spill area, where memory then holds them; the
record that fits then is granted. -/
def Obligations.QuireGrantsAndSpills : Prop :=
  (∀ (s : State) (b : Nat) (r : QReq) (rest : List QReq) (g : Group) (e : Elem), (s.bead b).reqs = r :: rest →
    fitsOn s b r → r.copy = false → g.run.on = false → r.lane < 128 → s.findGroup r.gid = some g → g.elems.find? (fun x => x.1 == r.lane) = some (r.lane, e) →
    (s.launchOf g).childRates e.rate ≠ [] → g.div.live ≠ 0 → (∀ j, j < g.hw / g.lw → g.div.live &&& g.lgMask j ≠ 0) →
    ∃ t off, exec (.quireGrant b) s = .next t ∧ (t.bead b).reqs = rest ∧
      (t.bead b).quire = (s.bead b).quire ++ [{ r.record with off := off, age := s.nextId }] ∧
      (∃ p ∈ t.parents, p.elem.handle = e.handle ∧ p.record = some off ∧ p.bead = b ∧
        p.todo = (s.launchOf g).childRates e.rate) ∧
      ∀ g', t.findGroup r.gid = some g' → (∀ x ∈ g'.elems, x.1 ≠ r.lane) ∧ g'.regs = g.regs ∧ g'.div = g.div ∧
        g'.wait = if g.wait = .quire ∧ g'.anyStalled = false then .ready else g.wait) ∧
  (∀ (s s1 : State) (b : Nat) (r : QReq) (v : QRec) (since : Nat), (s.bead b).reqs = [r] → (s.bead b).spillFrom = some since →
    since + 65536 ≤ s.timer.toNat → (s.bead b).victim = some v → s.spillVictim b v = .done s1 →
    ¬ fitsOn s b r → fitsOn s1 b r → (s.rod (b / 4)).clamp = none →
    ((s1.grantFirst b r).bead b).reqs = [] →
    exec (.spillTimerExpiry b) s = .next ((s1.grantFirst b r).updBead b (fun x =>
      { x with spillFrom := x.spillFrom.map (fun _ => s.timer.toNat) }))) ∧
  (∀ (s s1 : State) (b : Nat) (v : QRec), Memory.wf s.mem = true → s.spillVictim b v = .done s1 →
    let c := s.ctx v.asid
    let index := ((s.partBeads c.part).filter (fun x => decide (x < b))).length
    ∃ off, (s1.bead b).quire = (s.bead b).quire.map (fun x => if x.off = v.off then { x with spilled := true, spoff := off, spBead := b } else x) ∧
      16 * (off + (4 * (v.links.length + v.words.length) + 15) / 16) ≤ c.spillsize ∧
      ∀ pas s2, s.translateRange none b v.asid .write (c.spillbase + index * c.spillsize + 16 * off)
          (4 * (v.links.length + v.words.length)) = (.ok pas, s2) → pas.Nodup →
        pas.map s1.byte = (v.links.map (BitVec.ofNat 32) ++ v.words).flatMap (fun w => leBytes w.toNat 4))

/-- `REGRPK_BIN_FORM` (R246): a bin that holds a full group's threads, or the lowest of the bins once no group feeds them,
gives a fresh group on a core with room: lane i holds the i-th thread of the bin, at its resume point with its registers, as
the sort area holds them; the threads taken leave the bin. The group's team and role are the first thread's (log 28). -/
def Sys2Proof.BinFormsClaim : Prop :=
  ∀ (s : State) (bead launch rate seg n c : Nat) (b : Bin) (l : Launch) (ts : List Thread),
    let bins := (s.bead bead).bins.filter (fun x => x.launch == launch && x.rate == rate && x.segid == seg)
    let first := b.threads.take l.width
    freshName s → bins.find? (fun x => x.bin == n) = some b → s.findLaunch launch = some l → s.takes bead b.asid = true →
    s.coreFor bead l.hwLanes (l.need l.hwLanes ((first.map (·.role)).take 1)) = some c →
    s.readStored bead b.asid first = some ts →
    (l.width ≤ b.threads.length ∨ (s.binFeeders b bead = false ∧ ∀ x ∈ bins, n ≤ x.bin)) →
    ∃ t, exec (.regrpkBinForm bead launch rate seg n) s = .next t ∧
      (t.bead bead).bins = ((s.bead bead).bins.map (fun x => if x = b then { x with threads := x.threads.drop l.width } else x)).filter
        (fun x => !x.threads.isEmpty) ∧
      ∃ g ∈ t.groups, g.gid = s.nextId ∧ g.core = c ∧ g.rate = b.rate ∧ b.threads.head?.all (fun x => x.team == g.team) = true ∧
        g.segid = b.segid ∧ g.wait = .ready ∧ g.run.on = false ∧
        (∀ i, i < 128 → inMask g.div.live i = decide (i < first.length)) ∧
        ∀ i th, ts[i]? = some th → pcAt g.div i = th.pc.toNat ∧
          ((th.regs.map (·.1)).Nodup → ∀ x ∈ th.regs, g.reg false i x.1 = x.2)

/-- Regrouping arrives, sorts into bins, and a full bin forms a group: `RegroupArrivesClaim`, `SortIntoBinsClaim`, `BinFormsClaim`. -/
def Obligations.Regroup : Prop := RegroupArrivesClaim ∧ SortIntoBinsClaim ∧ BinFormsClaim

/-! ## Fan-out and dispatch -/

/-- What a child and a waiting element have in common. -/
def Sys2Proof.sameChild (k : Kid) (w : Waiting) : Prop :=
  w.elem.rate = k.elem.rate ∧ w.elem.index = k.elem.index ∧ w.elem.parent = k.elem.parent ∧ w.elem.helper = k.elem.helper ∧
  w.elem.px = k.elem.px ∧ w.elem.py = k.elem.py ∧ w.elem.cover = k.elem.cover ∧ w.elem.samp = k.elem.samp ∧ w.regs = k.regs

/-- `FAN_OUT` (R13, R17): of an ended element whose next child rate is not of fan-out LAUNCH, and has code or is the placed
rate, every child comes into being, in the order of the walk, and waits; the rate is no longer to be made. (Of primitives of a
placed rate without code this is said of a parent in root code: an index trap may squash a speculative segment, R102.) With fan-out COUNT
there are as many children as the count register says, with indices from 0. -/
def Sys2Proof.FanOutClaim : Prop :=
  ∀ (s : State) (p : Parent) (l : Launch) (k : Nat), s.findParent p.pid = some p → s.findLaunch p.launch = some l →
    p.bead < 128 → p.todo.find? (fun k => (l.lat k).fanout == 0 || p.ready l k) = some k → (l.lat k).fanout ≠ 0 →
    ((l.section? k).isSome = true ∨ (k = l.placed ∧ ((l.lat k).fanout ≠ 2 ∨ p.elem.segid = 0))) →
    (∀ x ∈ p.kidsOf l k, x.elem.rate = k ∧ x.elem.parent = p.pid) ∧
    ((l.lat k).fanout ∈ [1, 2] → (p.kidsOf l k).map (·.elem.index) =
      List.range (SMap.look 0 p.regs (l.lat k).countreg).toNat) ∧
    ∃ t ws, exec (.fanOut p.pid) s = .next t ∧ t.pool = s.pool ++ ws ∧ List.Forall₂ sameChild (p.kidsOf l k) ws ∧
      (∀ q, t.findParent p.pid = some q → k ∉ q.todo) ∧ ∀ a, t.byte a = s.byte a

/-- A group of the elements `fill` has been dispatched on core `c` (R14, R20): they leave the pool, and each stands in its lane
at the rate's first word, or at a rate packed GROUP is its logical group's. -/
def Sys2Proof.DispatchedTo (s t : State) (l : Launch) (rate pc c : Nat) (fill : List (List Waiting)) : Prop :=
  t.pool = s.pool.filter (fun x => !fill.flatten.contains x) ∧
  ∃ g ∈ t.groups, g.core = c ∧ g.rate = (l.laneRate rate).getD rate ∧ g.launch = l.lid ∧ g.wait = .ready ∧
    ((l.lat rate).pack = 1 → ∀ j w, (fill.getD j []).head? = some w → (g.lg j).elem = w.elem) ∧
    ((l.lat rate).pack ≠ 1 → ∀ j i w, (fill.getD j [])[i]? = some w → i < l.width → j < l.perHw →
      SMap.find g.elems (j * l.width + i) = some w.elem ∧ pcAt g.div (j * l.width + i) = pc % 2 ^ 64)

/-- `GROUP_DISPATCH` and `GROUP_DISPATCH_TIMEOUT` (R14, R20): elements that wait on a bead for lanes of a rate with code, for
which no copy has to be made, form the next group on a core with room, once the group is full or no further element of the
rate is pending that may share it, or 256 cycles after the first of them came to wait. Elements share a group with those of
their own team and segment (log 44). -/
def Sys2Proof.GroupDispatchClaim : Prop :=
  ∀ (s : State) (bead launch rate pc c : Nat) (l : Launch) (w : Waiting) (ws : List Waiting),
    s.findLaunch launch = some l → s.waitingFor bead launch rate = w :: ws → l.section? rate = some pc →
    let fill := l.fillOf rate (w :: ws)
    s.takes bead l.asid = true → s.coreFor bead l.hwLanes (l.need l.hwLanes (fill.map (fun _ => 0))) w.elem.team = some c →
    (∀ x ∈ fill.flatten, (x.elem.present || x.elem.helper) = true ∧ x.elem.bring = none) →
    ((l.full rate fill = true ∨ (l.lat rate).pack ≠ 2 ∨ s.moreComing launch rate w.elem = false) →
      ∃ t, exec (.groupDispatch bead launch rate) s = .next t ∧ DispatchedTo s t l rate pc c fill) ∧
    (w.since + 256 ≤ s.timer.toNat →
      ∃ t, exec (.groupDispatchTimeout bead launch rate) s = .next t ∧ DispatchedTo s t l rate pc c fill)

/-- Fan-out creates and numbers children; groups are formed of elements: `FanOutClaim`, `GroupDispatchClaim`. -/
def Obligations.FansAndGroups : Prop := FanOutClaim ∧ GroupDispatchClaim

/-- An element `e` that is dealt to a bead becomes `x` (R22): what lies there already is its anchor and its links; on another
bead it needs copies, and its links are then those of the copies. -/
def Sys2Proof.DealtTo (e : Elem) (b : Nat) (x : Elem) : Prop :=
  match e.copyOf, e.linkHome with
  | none, none => x = e
  | some (home, off), links =>
    if home = b then x = { e with copyOf := none, linkHome := none, anchor := some off }
    else x = { e with copyOf := none, linkHome := none, links := if links.isSome then [] else e.links, bring := x.bring } ∧
      x.bring.isSome = true
  | none, some home =>
    if home = b then x = { e with linkHome := none }
    else x = { e with linkHome := none, links := [], bring := x.bring } ∧ x.bring.isSome = true

/-- `DISPATCH_UNIT` (R22, R47, R347): the next unit of a launch goes to the first bead from the cursor on that may take it and
has room, and the cursor moves to the bead after it. The first unit is the root element; then, while the root's teams are not
all placed, the next team, with a zeroed window that holds the launch's image and no barrier; then the first dealt element,
of a rate packed QUAD with the other three of its block (R21), which keeps its anchor and links on their own bead and needs
copies on another. Of a migrated launch no further team is new, and a flushed one is placed again here (R356, log 44). -/
def Sys2Proof.UnitsArePlacedClaim : Prop :=
  ∀ (s : State) (l : Launch), s.findLaunch l.lid = some l → (s.ctx l.asid).suspended = false →
    (∀ b, l.begun = none → (s.cursorBeads l).find? (fun b => s.takes b l.asid) = some b →
      ∃ t x, exec (.dispatchUnit l.lid) s = .next t ∧ t.findLaunch l.lid = some x ∧ x.begun = some b ∧
        ((l.placed = 0 ∨ (l.section? 0).isSome = true) → ∃ w, t.pool = s.pool ++ [w] ∧ w.launch = l.lid ∧
          w.bead = (if l.placed = 0 then none else some b) ∧ w.elem.rate = 0 ∧ w.elem.present = true)) ∧
    (∀ b p k num, l.begun.isSome = true → l.teamRate = some k → s.rootParent l = some p →
      (l.again.head? = some num ∨ (l.again = [] ∧ l.nextTeam < l.teams ∧ num = l.nextTeam)) →
      (s.cursorBeads l).find? (fun b => s.mayPlace l b && s.roomForGang l b l.spw (l.gang l.rootRoles)) = some b →
      ∃ t x, exec (.dispatchUnit l.lid) s = .next t ∧ t.teams = s.teams ++ [x] ∧ x.launch = l.lid ∧ x.num = num ∧ x.bead = b ∧
        x.spw = l.spw ∧ x.spad = l.image ∧ x.bars = [] ∧ x.segid = 0 ∧
        ∃ y, t.findLaunch l.lid = some y ∧ y.cursor = (b + 1) % 128 ∧
          (y.nextTeam, y.again) = (if l.again = [] then (l.nextTeam + 1, []) else (l.nextTeam, l.again.tail))) ∧
    (∀ b w, l.begun.isSome = true → l.again = [] → l.teams ≤ l.nextTeam →
      s.pool.find? (fun w => w.launch == l.lid && w.bead.isNone) = some w →
      let ws := if (l.lat w.elem.rate).pack = 4 then (s.pool.filter (fun x => x.launch == l.lid && x.bead.isNone)).take 4 else [w]
      (l.section? w.elem.rate).isSome = true → (∀ x ∈ ws, (l.section? x.elem.rate).isSome = true) →
      (s.cursorBeads l).find? (fun b => s.mayPlace l b && (s.coreFor b l.hwLanes (l.need l.hwLanes [0])).isSome) = some b →
      ∃ t, ∃ dealt : Waiting → Elem, exec (.dispatchUnit l.lid) s = .next t ∧ (∀ x ∈ ws, DealtTo x.elem b (dealt x)) ∧
        t.pool = ws.foldl (fun p x => p.map (fun y => if y = x then { y with bead := some b, elem := dealt x } else y)) s.pool ∧
        ∃ y, t.findLaunch l.lid = some y ∧ y.cursor = (b + 1) % 128)

/-! ## Segments that run and commit -/

/-- Segments: taken, barred and committed. A bead that takes new work of its occupant takes the first of the pending segments
that fit, in the order of the gathering and past no gate, where no bead before it from the launch's cursor on would take it
(R347), under a version number that no other bears on the die (R90, R96); a committed one whose team was flushed has none and
stays committed (R79, R95), its cores without the copies that may be older than its spawn (R147). Its team has the type's window image, and the cursor moves past the bead. A segment passed over 64 times bars the gate (R90). A confirmed segment before which
every segment of its context has ended after committing or is gone commits (R95, R97): memory holds its version, it is
speculative no longer, and the L1 and sampler caches of its cores are empty (R140); one whose groups have all ended is then
gone. -/
def Sys2Proof.SegmentsRunClaim : Prop :=
  (∀ (s : State) (b a v : Nat) (x : Seg) (l : Launch), (s.bead b).occ = some a → s.takes b a = true → s.passDue b a = [] →
    s.segChoice b a = some x → s.findSeg x.asid x.segid = some x → s.findLaunch x.launch = some l → l.lid = x.launch →
    (if x.st = .again then v = 0 else ∃ u, freeFrom ((s.segs.filter (fun y => y.die == b / 64 && y.version != 0)).map
      (fun y => y.version - 1)) (Config.allocFrom s.tick % 2047) 2047 = some u ∧ v = u + 1) →
    (s.cursorBeads l).find? (fun c => c / 64 == x.die && s.offers c x) = some b →
    (x.st ≠ .again → ∀ y ∈ s.segs, y.die = b / 64 → y.version ≠ v) ∧
    ∃ t tm, exec (.segmentTake b) s = .next t ∧ t.teams = s.teams ++ [tm] ∧ tm.segid = x.segid ∧ tm.asid = x.asid ∧
      tm.bead = b ∧ tm.spw = l.segSpw x.stype ∧ tm.bars = [] ∧
      tm.spad = (match l.segs[x.stype]? with | some ty => ty.image | none => []) ∧
      (∃ z, t.findLaunch x.launch = some z ∧ z.cursor = (b + 1) % 128) ∧
      (x.st = .again → ∀ c, c / 4 = b → (t.core c).l1 = [] ∧ (t.core c).samp = []) ∧
      ∃ y, t.findSeg x.asid x.segid = some y ∧ y.st = (if x.st = .again then .committed tm.tid else .running tm.tid) ∧
        y.version = v ∧ y.bytes = [] ∧ y.reads = [] ∧
        y.args = x.args ∧ y.parent = x.parent ∧ y.cond = x.cond ∧ y.side = x.side) ∧
  (∀ (s : State) (b a : Nat), (s.bead b).occ = some a → s.passDue b a ≠ [] →
    exec (.passOverLimit b) s = .next (s.updBead b (fun y =>
      { y with gate := y.gate ++ (s.passDue b a).map (fun x => (a, x.segid)) }))) ∧
  (∀ (s : State) (x : Seg) (tm : Nat), Memory.wf s.mem = true → s.findSeg x.asid x.segid = some x →
    (x.st = .running tm ∨ ∃ runs, x.st = .finished tm runs) →
    s.confirmed x = true → (∀ y ∈ s.segs, y.asid = x.asid → y.segid < x.segid → y.st = .ended) → s.commitViolates x = [] →
    ∃ t, exec (.segmentCommit x.asid x.segid) s = .next t ∧
      (∀ addr, t.byte addr = finalByte x.bytes addr (s.byte addr)) ∧
      (x.st = .running tm →
        (∃ y, t.findSeg x.asid x.segid = some y ∧ y.st = .committed tm ∧ y.version = 0 ∧ y.bytes = [] ∧ y.reads = []) ∧
        (∀ g ∈ s.allGroups, g.team = tm → g.gid ≠ 0 → (t.core g.core).l1 = [] ∧ (t.core g.core).samp = [])) ∧
      (x.st ≠ .running tm → t.findSeg x.asid x.segid = none))

/-- Units are placed on beads; segments are taken, passed over and committed: `UnitsArePlacedClaim`, `SegmentsRunClaim`. -/
def Obligations.Placement : Prop := UnitsArePlacedClaim ∧ SegmentsRunClaim

/-! ## Engines at work -/

/-- What one element of a copy, a zeroing, a release and the network operations do (R282, R287, R294, R402): a copied
element's bytes are the source's, wherever the ranges lie; a zeroed tile reads 0 in every element; a released handle is
unbound; a network operation sends its message to its peer under its job and with the ports it may use, and a refusal is a remote error at the remote
address. -/
def Sys2Proof.EngineEffectsClaim : Prop :=
  (∀ (s s1 s2 : State) (o : EngOp) (c : CopyDesc) (a b k : Nat) (from_ into : List Nat), Memory.wf s.mem = true →
    c.srcsp = false → c.dstsp = false → s.chain o.asid 16 o.segid = [] →
    s.translateRange none o.bead o.asid .read (c.addr true a k) (2 ^ c.esz) = (.ok from_, s1) →
    from_.all (fun x => !s.poison.contains (x / 64)) = true →
    s1.translateRange none o.bead o.asid .write (c.addr false b k) (2 ^ c.esz) = (.ok into, s2) →
    ∃ t, s.copyStep o c a b k = .ok t ∧ ∀ x, t.byte x = finalByte (into.zip (from_.map s.byte)) x (s.byte x)) ∧
  (∀ (s : State) (o : EngOp) (reply : PeerReply) (n : Nat), o.kind = .accz n →
    let h := s.opHandle o n
    h.slots.length = (if h.kind = .f64 then 2 else 1) →
    ∃ t, s.runOp o reply = (t, 1, .done) ∧ ∀ i j, i < 64 → j < 64 → (t.bead o.bead).tile h i j = 0) ∧
  (∀ (s : State) (o : EngOp) (reply : PeerReply) (n gid : Nat) (g : Group), o.kind = .accrel n → o.gid = some gid →
    s.findGroup gid = some g →
    ∃ t g', s.runOp o reply = (t, 1, .done) ∧ t.findGroup gid = some g' ∧
      (∀ x ∈ (g'.lg o.lg).handles, x.1 ≠ n) ∧ g'.regs = g.regs) ∧
  (∀ (s : State) (o : EngOp) (reply : PeerReply) (r : Dword) (v : Word) (dst : Peer),
    o.kind = .nsig r v dst →
    s.runOp o reply = ({ s with out := s.out ++ [.netSig dst r v] }, 1,
      if reply.ok then .done else .error 2 r.toNat)) ∧
  (∀ (s s1 : State) (o : EngOp) (reply : PeerReply) (l r : Dword) (n : Nat) (dst : Peer) (bs : List Byte),
    s.engineRead o.bead o.asid o.segid l.toNat n = (.ok bs, s1) → o.kind = .nput l r n dst →
    s.runOp o reply = ({ s1 with out := s1.out ++ [.netPut dst r bs] }, 1, if reply.ok then .done else .error 2 r.toNat)) ∧
  (∀ (s s1 : State) (o : EngOp) (reply : PeerReply) (l r : Dword) (n : Nat) (dst : Peer),
    reply.ok = true → o.kind = .nget l r n dst →
    s.engineWrite o.bead o.asid o.segid l.toNat ((List.range n).map (fun i => reply.data.getD i 0)) = (.ok (), s1) →
    s.runOp o reply = ({ s1 with out := s1.out ++ [.netGet dst r n] }, 1, .done))

/-- `ENGINE_OPERATION_COMPLETE` (R277 to R280): of an operation that may run, and no graph node. Complete, it is no longer in
progress, its entry is free, and a group at `ewait` is ready (said of a group without stalled elements, each of whose logical
groups has live lanes, or none has); in error, its entry holds the KIND and the address; at a
translation fault it pauses where it stands, attached to a pending record of cause 0x17 while the partition has fewer than
4,096 records held (R368), and at a limit of its speculative segment it waits there for the commit (R100). -/
def Sys2Proof.EngineOperationsEndClaim : Prop :=
  ∀ (s : State) (o : EngOp) (reply : PeerReply) (t : State) (k : Nat), s.findOp o.oid = some o → o.block = none →
    s.mayRun o = true → (∀ a b n, o.kind ≠ .copyCmd a b n) →
    (∀ (e : OpEnd) (err : Option (Nat × Nat)), s.runOp o reply = (t, k, e) →
      (e = .done ∧ err = none ∨ ∃ n a, e = .error n a ∧ err = some (n, a)) →
      ∃ v, exec (.engineOperationComplete o.oid reply) s = .next v ∧ (∀ x ∈ v.engOps, x.oid ≠ o.oid) ∧
        (∀ a, v.byte a = t.byte a) ∧
        ∀ gid g, o.gid = some gid → t.findGroup gid = some g → g.wait ≠ .ending →
          g.anyStalled = false → (g.div.live = 0 ∨ ∀ j, j < g.hw / g.lw → g.div.live &&& g.lgMask j ≠ 0) → ∃ g', v.findGroup gid = some g' ∧
          g'.regs = g.regs ∧ g'.wait = (if g.wait = .engine then .ready else g.wait) ∧
          (g'.lg o.lg).ops = match err with
            | none => (g.lg o.lg).ops.filter (fun x => x.entry != o.entry)
            | some (n, a) => (g.lg o.lg).ops.map (fun x =>
                if x.entry = o.entry then { x with err := some (n, BitVec.ofNat 64 a) } else x)) ∧
    (∀ f, s.runOp o reply = (t, k, .pause f) →
      ∃ v, exec (.engineOperationComplete o.oid reply) s = .next v ∧
        v.engOps = t.engOps.map (fun x => if x.oid = o.oid then { x with done := k, paused := true } else x) ∧
        (∀ a, v.byte a = t.byte a) ∧ ((t.part (t.ctx o.asid).part).held < 4096 →
        ∃ p ∈ (v.part (t.ctx o.asid).part).pend, p.rec_.cause = 0x17 ∧ p.rec_.asid = o.asid ∧
          Attach.op o.oid ∈ p.who)) ∧
    (s.runOp o reply = (t, k, .commit) → exec (.engineOperationComplete o.oid reply) s = .next { t with
      engOps := t.engOps.map (fun x => if x.oid = o.oid then { x with done := k, waitsCommit := true } else x) })

/-- Engine operations move their bytes and end their entries: `EngineEffectsClaim`, `EngineOperationsEndClaim`. -/
def Obligations.EngineOperations : Prop := EngineEffectsClaim ∧ EngineOperationsEndClaim

/-- `MATRIX_PASS` (R291, R290, R125): of a rod that is not clamped, the request that the arbiter chooses has one pass more
done; one that would add to poison, or that reads poison in the window, ends in error of KIND 0 (R279, R384); a window
without poison gives none. With an integer slot of format 8 a pass adds, to element (i, j) of the tile, or to 0 at the first pass of `mma.set`,
the products of the bytes of line i of A and line j of B over its k, at most 128, modulo 2^32 without saturation. -/
def Obligations.MatrixPasses : Prop :=
  ∀ (s : State) (bead : Nat) (o : EngOp) (n a b kmax as_ bs slot : Nat) (sat set : Bool),
    (s.rod (bead / 4)).clamp = none → (s.bead bead).out = false → s.matrixChoice bead = some o →
    o.kind = .mma n a b kmax as_ bs slot sat set →
    let reads := s.passPoison o a b kmax as_ bs (slotFmt (s.slotOf o.launch slot)) = true
    let bad := reads ∨ ¬ (set = true ∧ o.done = 0) ∧ ∃ x ∈ (s.opHandle o n).slots, x ∈ (s.bead bead).accPoison
    ((∀ t ∈ s.teams, t.tid = o.team → t.bad = []) → ¬ reads) ∧
    (bad → exec (.matrixPass bead) s = .next (s.opComplete o (some (0, 0)))) ∧ (¬ bad → ∃ t, exec (.matrixPass bead) s = .next t ∧ (∀ x, t.byte x = s.byte x) ∧
      t.engOps.map (·.done) = s.engOps.map (fun x => if x.oid = o.oid then o.done + 1 else x.done) ∧
      let h := s.opHandle o n
      (slotFmt (s.slotOf o.launch slot) = 8 → sat = false → h.kind = .i32 → h.slots.length = 1 → ∀ i j, i < 64 → j < 64 →
        let at_ (line k : Nat) : Int := (BitVec.ofNat 8 (ofLe (s.winBytes o.team (line + k) 1))).toInt
        let old := if o.done = 0 ∧ set = true then 0 else (s.bead o.bead).tile h i j
        let ks := List.range' (128 * o.done) (min 128 (kmax - 128 * o.done))
        (BitVec.ofNat 32 ((t.bead o.bead).tile h i j) : Word) =
          BitVec.ofNat 32 old + BitVec.ofInt 32 ((ks.map (fun k => at_ (a + 16 * as_ * i) k * at_ (b + 16 * bs * j) k)).foldl (· + ·) 0)))

/-- None of some bytes lies in a poisoned sector (R137). -/
def Sys2Proof.unpoisoned (s : State) (pas : List Nat) : Prop := ∀ a ∈ pas, s.poison.contains (a / 64) = false

/-- The control word of a block, its first 8 bytes, which hold no poison (R292). -/
def Sys2Proof.ControlWord (s : State) (o : EngOp) (a x : Nat) : Prop :=
  ∃ pas, s.blockPas o.bead o.asid a 8 = .ok pas ∧ pas.Nodup ∧ unpoisoned s pas ∧ ofLe (pas.map s.byte) = x

/-- The end of graph nodes and of launches (R293, R104, R341, R356). A node that has ended is no longer in progress, and its
control word has DONE, bit 36, and where it failed ERROR, bit 37, with a record of cause 0x18; one without successors changes
no other byte, one whose block can no longer be read pauses there, and one whose block holds poison by then ends with a record
(R137). A block that a finished node names loses one from PRED; posted, with PRED 1, it starts. A launch of which
nothing is left is gone and completes, with class 0 where its command has CMPL; its unresolved conditions are free, and a
resolved one on which a segment before its commit stands is kept. The report of a target ends the wait of a
migrated launch. -/
def Obligations.NodesAndLaunchesEnd : Prop :=
  (∀ (s t : State) (o : EngOp) (b : Dword) (reply : PeerReply) (k w : Nat) (e : OpEnd), s.findOp o.oid = some o →
    o.block = some b → o.bad = none → s.mayRun o = true → s.runOp o reply = (t, k, e) → Memory.wf t.mem = true →
    ControlWord t o b.toNat w →
    (e = .done → ∃ v pas, v = ({ t with engOps := t.engOps.filter (fun x => x.oid != o.oid) } : State).setBlock o.bead o.asid
        b.toNat (fun x => x ||| 2 ^ 36) ∧ t.blockPas o.bead o.asid b.toNat 8 = .ok pas ∧
      ofLe (pas.map v.byte) = w ||| 2 ^ 36 ∧ (∀ a, a ∉ pas → v.byte a = t.byte a) ∧ (∀ y ∈ v.engOps, y.oid ≠ o.oid) ∧
      (∀ pas', v.blockPas o.bead o.asid b.toNat 256 = .ok pas' → unpoisoned v pas' → blockNsucc (ofLe (pas'.map v.byte)) = 0 →
        exec (.graphNodeFinish o.oid reply) s = .next v) ∧
      (∀ pas', v.blockPas o.bead o.asid b.toNat 256 = .ok pas' → ¬ unpoisoned v pas' →
        (v.part (v.ctx o.asid).part).held < 4096 → ∃ u, exec (.graphNodeFinish o.oid reply) s = .next u ∧
        (∀ a, u.byte a = v.byte a) ∧
        ∃ p ∈ (u.part (v.ctx o.asid).part).pend, p.rec_.cause = 0x18 ∧ p.rec_.asid = o.asid) ∧
      (∀ f, v.blockPas o.bead o.asid b.toNat 256 = .error f → ∃ u, exec (.graphNodeFinish o.oid reply) s = .next u ∧
        (∃ x ∈ u.engOps, x.oid = o.oid ∧ x.paused = true ∧ x.kind = .finishing false ∧ x.done = 1) ∧
        ∀ a, u.byte a = v.byte a)) ∧
    (∀ n a, e = .error n a → (t.part (t.ctx o.asid).part).held < 4096 →
      ∃ v pas, exec (.graphNodeFinish o.oid reply) s = .next v ∧ (∀ y ∈ v.engOps, y.oid ≠ o.oid) ∧
        t.blockPas o.bead o.asid b.toNat 8 = .ok pas ∧ ofLe (pas.map v.byte) = w ||| 2 ^ 37 ||| 2 ^ 36 ∧
        (∀ a, a ∉ pas → v.byte a = t.byte a) ∧
        ∃ p ∈ (v.part (t.ctx o.asid).part).pend, p.rec_.cause = 0x18 ∧ p.rec_.asid = o.asid)) ∧
  (∀ (s : State) (o : EngOp) (succ w : Nat) (pas : List Nat), Memory.wf s.mem = true → ControlWord s o succ w →
    s.blockPas o.bead o.asid succ 256 = .ok pas → unpoisoned s pas → (∀ pas8, s.blockPas o.bead o.asid succ 8 = .ok pas8 → pas.take 8 = pas8) →
    let pred := w % 2 ^ 32
    0 < pred →
    (∃ v, s.setBlock o.bead o.asid succ (fun y => y - 1) = v ∧
      (∀ pas8, s.blockPas o.bead o.asid succ 8 = .ok pas8 → ofLe (pas8.map v.byte) = w - 1) ∧
      ((1 < pred ∨ w / 2 ^ 35 % 2 = 0) → s.decrement o succ = v) ∧
      ∀ p, pred = 1 → w / 2 ^ 35 % 2 = 1 → v.posted.find? (fun p => p.asid == o.asid && p.block.toNat == succ) = some p →
        w / 2 ^ 32 % 8 ≠ 5 → (∀ y ∈ v.engOps, y.oid ≠ v.nextId) →
        ∃ op, (s.decrement o succ).engOps = v.engOps ++ [op] ∧ op.block = some p.block ∧ op.gid = none ∧ op.asid = p.asid ∧
          (s.decrement o succ).posted = v.posted.filter (fun y => y != p))) ∧
  (∀ (s : State) (l : Launch), s.findLaunch l.lid = some l → s.launchBusy l = false → l.node = none →
    (∀ x ∈ s.segs, ¬ (x.launch = l.lid ∧ x.asid = l.asid)) →
    ∃ t, exec (.launchCompletion l.lid) s = .next t ∧ (∀ x ∈ t.launches, x.lid ≠ l.lid) ∧
      t.out = s.out ++ (if l.cmd.getLsbD 8 then
        [if l.cmd.getLsbD 10 then .completion l.queue (completionRecord l.queue l.cmd 0 0 0)
         else .hostWrite l.queue (l.cmd.extractLsb' 64 64) (completionRecord l.queue l.cmd 0 0 0)] else []) ∧
      (∀ d e, (t.cond d e).live = true → (t.cond d e).resolved = none → (t.cond d e).launch ≠ l.lid) ∧
      (∀ d e, (s.cond d e).resolved.isSome = true →
        (∃ x ∈ s.segs, x.st.speculative = true ∧ 1024 * x.die + x.cond = 1024 * d + e) → t.cond d e = s.cond d e) ∧
      ∀ a, t.byte a = s.byte a) ∧
  (∀ (s : State) (l : Launch), s.findLaunch l.lid = some l → l.migrated = true → l.targetEnded = false →
    exec (.targetReport l.lid) s = .next { s with launches := s.launches.map (fun x =>
      if x.lid = l.lid then { x with targetEnded := true } else x) })

/-! ## Peers and the host -/

/-- A number in bytes, the lowest first. -/
def Sys2Proof.bytesOf (x n : Nat) : List Byte := (List.range n).map (fun i => BitVec.ofNat 8 (x / 256 ^ i))

/-- Remote accesses (R397, R402), outside recovery, in which none is answered (R407). A host's write in the context of a queue
that serves it is performed and acknowledged, its
read is answered with the bytes, and where translation fails, or the queue serves no context, both are refused with nothing
performed (that they are refused is log 34). A peer's operation acts in the context whose peer table names its address and job,
in the first of several (log 34): put writes, get answers with
the bytes, signal adds to the aligned 64-bit word; an operation of a peer that no table names is refused. -/
def Obligations.RemoteAccesses : Prop :=
  (∀ s : State, s.boot.recovery = true → (∀ q va data, exec (.hostRemoteWrite q va data) s = .next s) ∧
    (∀ q va n, exec (.hostRemoteRead q va n) s = .next s) ∧ ∀ p, exec (.peerOperationArrival p) s = .next s) ∧
  (∀ (s : State) (q : Nat) (va : Dword) (data : List Byte), s.boot.recovery = false → Memory.wf s.mem = true →
    (∀ pas, s.netPas (s.qAsid q) va.toNat data.length .write = some pas → s.servesQueue q = true →
      ∃ t, exec (.hostRemoteWrite q va data) s = .next t ∧ t.out = s.out ++ [.writeAck q true] ∧
        ∀ a, t.byte a = finalByte (pas.zip data) a (s.byte a)) ∧
    ((s.netPas (s.qAsid q) va.toNat data.length .write = none ∨ s.servesQueue q = false) →
      exec (.hostRemoteWrite q va data) s = .next { s with out := s.out ++ [.writeAck q false] })) ∧
  (∀ (s : State) (q n : Nat) (va : Dword), s.boot.recovery = false →
    (∀ pas, s.netPas (s.qAsid q) va.toNat n .read = some pas → pas.all (fun a => !s.poison.contains (a / 64)) = true →
      s.servesQueue q = true →
      exec (.hostRemoteRead q va n) s = .next { s with out := s.out ++ [.readReply q (some (pas.map s.byte))] }) ∧
    ((s.netPas (s.qAsid q) va.toNat n .read = none ∨ s.servesQueue q = false) →
      exec (.hostRemoteRead q va n) s = .next { s with out := s.out ++ [.readReply q none] })) ∧
  (∀ (s : State) (p : PeerOp), s.boot.recovery = false → s.peerContexts p = [] →
    exec (.peerOperationArrival p) s = .next { s with out := s.out ++ [.peerReply p.src p.job false []] }) ∧
  (∀ (s : State) (p : PeerOp) (a : Nat) (as_ pas : List Nat), s.boot.recovery = false → Memory.wf s.mem = true → s.peerContexts p = a :: as_ →
    (∀ va data, p.ask = .put va data → s.netPas a va.toNat data.length .write = some pas →
      ∃ t, exec (.peerOperationArrival p) s = .next t ∧ t.out = s.out ++ [.peerReply p.src p.job true []] ∧
        ∀ x, t.byte x = finalByte (pas.zip data) x (s.byte x)) ∧
    (∀ va n, p.ask = .get va n → s.netPas a va.toNat n .read = some pas → pas.all (fun x => !s.poison.contains (x / 64)) = true →
      exec (.peerOperationArrival p) s = .next { s with out := s.out ++ [.peerReply p.src p.job true (pas.map s.byte)] }) ∧
    (∀ va v, p.ask = .sig va v → va.toNat % 8 = 0 → s.netPas a va.toNat 8 .atomic = some pas →
      pas.all (fun x => !s.poison.contains (x / 64)) = true →
      ∃ t, exec (.peerOperationArrival p) s = .next t ∧ t.out = s.out ++ [.peerReply p.src p.job true []] ∧
        ∀ x, t.byte x = finalByte (pas.zip (bytesOf ((bytesNat (pas.map s.byte) + v.toNat) % 2 ^ 64) 8)) x (s.byte x)))

/-! ## Commands -/

/-- What a completed command reports (R398, R400): with CMPL, bit 8, set, a record to its endpoint as a message where CMSG,
bit 10, is set, else written at CPLADDR. -/
def Sys2Proof.reported (q : Nat) (c : BitVec 512) (cls code detail : Nat) : List Out :=
  let r : BitVec 128 := (c.extractLsb' 32 32).setWidth 128 ||| BitVec.ofNat 128 (2 ^ 32 * (q % 256))
    ||| ((c.extractLsb' 0 8).setWidth 128 <<< 40) ||| BitVec.ofNat 128 (2 ^ 48 * (cls % 256) + 2 ^ 56 * (code % 256))
    ||| BitVec.ofNat 128 (2 ^ 64 * (detail % 2 ^ 64))
  if c.getLsbD 8 then [if c.getLsbD 10 then .completion q r else .hostWrite q (c.extractLsb' 64 64) r] else []

/-- The queue without its first command. -/
def Sys2Proof.taken (s : State) (q : Nat) : State := s.updQueue q (fun x => { x with cmds := x.cmds.tail })

/-- The state with a report added. -/
def Sys2Proof.withReport (s : State) (q : Nat) (c : BitVec 512) (cls code detail : Nat) : State :=
  { s with out := s.out ++ reported q c cls code detail }

/-- The next command of a queue is `c`, of this OP and not malformed (R341, R399). -/
def Sys2Proof.NextIs (s : State) (q op : Nat) (c : BitVec 512) : Prop :=
  s.nextCommand q = some c ∧ c.toNat % 256 = op ∧ malformedCode c = none

/-- Commands (R339, R341, R398 to R400). A malformed one completes with class 6 and its code, a reserved OP with code 1, and does
nothing else; on a context that is not live any command but a create completes with class 5. A launch whose record fails a
check completes with class 1 and the lowest code; else it is taken, with every L1 empty. A copy becomes an operation of no
group. A signal stores its value and completes. A wait-on-value is taken, completes when its comparison holds, and at its
timeout completes with class 4 and the last value read. -/
def Obligations.QueueCommands : Prop :=
  (∀ (s : State) (q code : Nat) (c : BitVec 512), s.nextCommand q = some c →
    ((c.toNat % 256 = 0 ∨ 5 < c.toNat % 256) → malformedCode c = some 1) ∧
    (malformedCode c = some code → code < 256 → exec (.malformedCommand q) s = .next (withReport (taken s q) q c 6 code 0))) ∧
  (∀ (s : State) (q : Nat) (c : BitVec 512), s.ctx? (s.qAsid q) = none →
    (NextIs s q 1 c → exec (.launchCmd q) s = .next (withReport (taken s q) q c 5 0 0)) ∧
    (NextIs s q 2 c → exec (.copyCmd q) s = .next (withReport (taken s q) q c 5 0 0)) ∧
    (NextIs s q 3 c → exec (.signalCmd q) s = .next (withReport (taken s q) q c 5 0 0)) ∧
    (NextIs s q 4 c → s.waiting? q = none → exec (.waitOnValue q) s = .next (withReport (taken s q) q c 5 0 0)) ∧
    (NextIs s q 5 c →
      ((c.extractLsb' 128 64).toNat = 1 → s.suspending? q = none →
        exec (.contextSuspend q) s = .next (withReport (taken s q) q c 5 0 0)) ∧
      ((c.extractLsb' 128 64).toNat = 2 → exec (.contextResume q) s = .next (withReport (taken s q) q c 5 0 0)) ∧
      ((c.extractLsb' 128 64).toNat = 3 → exec (.contextDestroy q) s = .next (withReport (taken s q) q c 5 0 0)) ∧
      ((c.extractLsb' 128 64).toNat = 4 → exec (.contextMigrate q) s = .next (withReport (taken s q) q c 5 0 0)))) ∧
  (∀ (s : State) (q : Nat) (c : BitVec 512) (x : Ctx), s.ctx? (s.qAsid q) = some x → x.suspended = false →
    (NextIs s q 1 c →
      (∀ code, (taken s q).readLaunch (s.qAsid q) q (c.extractLsb' 128 64).toNat c = .error code → code < 256 →
        exec (.launchCmd q) s = .next (withReport (taken s q) q c 1 code 0)) ∧
      (∀ l, (taken s q).readLaunch (s.qAsid q) q (c.extractLsb' 128 64).toNat c = .ok l →
        ∃ t, exec (.launchCmd q) s = .next t ∧ t.launches = s.launches ++ [l] ∧ l.cmd = c ∧ l.queue = q ∧
          (∀ k ∈ t.cores, k.2.l1 = []) ∧ t.out = s.out)) ∧
    (NextIs s q 2 c →
      ∃ t o, exec (.copyCmd q) s = .next t ∧ t.engOps = s.engOps ++ [o] ∧ o.gid = none ∧ o.asid = s.qAsid q ∧ o.queue = q ∧
        o.kind = .copyCmd (c.extractLsb' 128 64) (c.extractLsb' 192 64) (c.extractLsb' 256 64) ∧ o.done = 0 ∧
        (t.queue q).busy = some c ∧ (t.queue q).cmds = (s.queue q).cmds.tail) ∧
    (NextIs s q 3 c → Memory.wf s.mem = true → ∀ pas s1,
      s.translateRange none (s.homeBead (s.qAsid q)) (s.qAsid q) .write (c.extractLsb' 128 64).toNat 8 = (.ok pas, s1) →
      s.chain (s.qAsid q) 16 0 = [] →
      ∃ t, exec (.signalCmd q) s = .next t ∧ t.out = s.out ++ reported q c 0 0 0 ∧
        ∀ a, t.byte a = finalByte (pas.zip (bytesOf (c.extractLsb' 192 64).toNat 8)) a (s.byte a)) ∧
    (NextIs s q 4 c → s.waiting? q = none →
      let us := (c.extractLsb' 288 32).toNat
      let until_ : Option Nat := if us = 0 then none else some (s.timer.toNat + Config.cyclesPerUs * us)
      exec (.waitOnValue q) s = .next ((taken s q).updQueue q (fun x => { x with busy := some c, waitUntil := until_ })))) ∧
  (∀ (s : State) (q v : Nat) (c : BitVec 512), s.waiting? q = some c → s.watched q c = some v →
    let idle := s.updQueue q (fun x => { x with busy := none, waitUntil := none })
    let w := (c.extractLsb' 192 64).toNat
    ((match (c.extractLsb' 256 2).toNat with | 0 => v = w | 1 => v ≠ w | _ => w ≤ v) →
      exec (.waitOnValue q) s = .next (withReport idle q c 0 0 0)) ∧
    (∀ d, (s.queue q).waitUntil = some d → d ≤ s.timer.toNat →
      exec (.waitOnValueTimeout q) s = .next (withReport idle q c 4 0 v)))

/-- Nothing of a context is left (R373). -/
def Sys2Proof.ContextGone (s : State) (asid : Nat) : Prop :=
  s.ctx? asid = none ∧ (∀ g ∈ s.allGroups, g.gid ≠ 0 → g.asid ≠ asid) ∧ (∀ x ∈ s.teams, x.asid ≠ asid) ∧
  (∀ x ∈ s.launches, x.asid ≠ asid) ∧ (∀ x ∈ s.segs, x.asid ≠ asid) ∧ (∀ x ∈ s.engOps, x.asid ≠ asid) ∧
  (∀ x ∈ s.parents, x.asid ≠ asid) ∧ (∀ x ∈ s.pool, x.asid ≠ asid) ∧ ∀ x ∈ s.saved, x.asid ≠ asid

/-- The launch's image declares a width, or it carries a Griat image (R356; log 23). -/
def Sys2Proof.CarriesImage (l : Launch) : Prop := l.wcode ≠ 0 ∨ Config.carriesGriat (l.cmd.extractLsb' 128 64).toNat = true

/-- Context control (R356, R365 to R367, R399). Create reads the descriptor: without a valid one it completes with class 2 code
1, with a failing check with its code, and the context is not live then: of one that was nothing is left (that it is killed is
the model's choice, log 24); else the context is live as the descriptor has it, and S is written at its byte 12.
Suspend stops every bead of the context and completes when none is left to it; resume makes its queues eligible; destroy leaves
nothing of it and discards its commands; migrate sends the unplaced teams of the queue's migratable launches and places none
of them here. -/
def Obligations.ContextControl : Prop :=
  (∀ (s : State) (q : Nat) (c : BitVec 512), NextIs s q 5 c → (c.extractLsb' 128 64).toNat = 0 →
    let asid := s.qAsid q
    (∀ code, (s.descriptor asid = none ∧ code = 1 ∨ ∃ x, s.descriptor asid = some x ∧ s.createCode asid x = some code) →
      code < 256 →
      (s.ctx? asid = none → exec (.contextCreate q) s = .next (withReport (taken s q) q c 2 code 0)) ∧
      (s.ctx? asid ≠ none → ∃ t outs, exec (.contextCreate q) s = .next t ∧ ContextGone t asid ∧
        t.out = s.out ++ outs ++ reported q c 2 code 0)) ∧
    (∀ x, s.descriptor asid = some x → s.createCode asid x = none → Memory.wf s.mem = true →
      ∃ t k, exec (.contextCreate q) s = .next t ∧ t.ctx? asid = some k ∧ t.out = s.out ++ reported q c 0 0 0 ∧
        k.asid = x % 256 ∧ k.part = x / 2 ^ 8 % 16 ∧ k.spq = x / 2 ^ 16 % 8 ∧ k.acap = x / 2 ^ 24 % 256 ∧
        k.lcap = x / 2 ^ 32 % 4096 ∧ k.gcap = x / 2 ^ 44 % 4096 ∧ k.lpg = x / 2 ^ 56 % 8 ∧ k.qcap = x / 2 ^ 64 % 2 ^ 32 ∧
        k.s1root = x / 2 ^ 128 % 2 ^ 64 ∧ k.savebase = x / 2 ^ 192 % 2 ^ 64 ∧ k.peerptr = x / 2 ^ 576 % 2 ^ 64 ∧
        k.suspended = ((s.ctx? asid).map (·.suspended)).getD false ∧ k.size = k.saveSize ∧
        ∀ a, t.byte a = finalByte (bytesOf k.size 4 |>.zipIdx.map (fun y => (s.ctxDesc asid + 12 + y.2, y.1))) a (s.byte a))) ∧
  (∀ (s : State) (q : Nat) (c : BitVec 512) (x : Ctx), NextIs s q 5 c → s.ctx? (s.qAsid q) = some x →
    ((c.extractLsb' 128 64).toNat = 1 → s.suspending? q = none →
      let t0 := ((taken s q).updCtx (s.qAsid q) (fun y => { y with suspended := true })).updQueue q (fun y =>
        { y with busy := some c })
      exec (.contextSuspend q) s = .next (((List.range 128).filter (fun b => (s.bead b).occ == some (s.qAsid q))).foldl
        (fun u b => u.stopBead b none) t0)) ∧
    ((c.extractLsb' 128 64).toNat = 2 → exec (.contextResume q) s = .next (withReport ((taken s q).updCtx (s.qAsid q) (fun y =>
      { y with suspended := false })) q c 0 0 0)) ∧
    ((c.extractLsb' 128 64).toNat = 3 →
      ∃ t outs, exec (.contextDestroy q) s = .next t ∧ ContextGone t (s.qAsid q) ∧
        (∀ k, k < 256 → s.qAsid k = s.qAsid q → (t.queue k).cmds = [] ∧ (t.queue k).busy = none) ∧
        t.out = s.out ++ outs ++ reported q c 0 0 0 ∧ ∀ a, t.byte a = s.byte a) ∧
    ((c.extractLsb' 128 64).toNat = 4 →
      ∃ t, exec (.contextMigrate q) s = .next t ∧
        (∀ l ∈ t.launches, l.queue = q → l.node = none → l.teamRate.isSome = true → CarriesImage l → l.migrated = false →
          l.unplaced = false) ∧
        (∀ l ∈ t.launches, l.queue = q → l.migrated = true → l ∈ s.launches ∨ l.teams ≤ l.nextTeam) ∧
        (∀ l, (taken s q).running q = [l] → l.teamRate.isSome = true → CarriesImage l → l.unplaced = true → l.migrated = false →
          t.out = s.out ++ [.migrate ((c.extractLsb' 192 64).setWidth 128 <<< 64 ||| (c.extractLsb' 256 64).setWidth 128)
            ((c.extractLsb' 320 64).toNat % 256) l.teams l.nextTeam (l.cmd.extractLsb' 128 64)]
            ++ reported q c 0 0 0))) ∧
  (∀ (s : State) (q : Nat) (c : BitVec 512), s.suspending? q = some c → (∀ b, b < 128 → (s.bead b).occ ≠ some (s.qAsid q)) →
    exec (.contextSuspend q) s = .next (withReport (s.updQueue q (fun x => { x with busy := none, waitUntil := none })) q c 0 0 0))

/-! ## Scheduling -/

/-- What a stop of a bead leaves (R344, R348, R349): the bead is stopped for that context, its drains due in 6,500 cycles. -/
def Sys2Proof.StopClaim : Prop :=
  ∀ (s : State) (b : Nat) (to_ : Option Nat), (s.bead b).stop = none → (s.bead b).occ.isSome = true →
    ((s.stopBead b to_).bead b).stop = some { toAsid := to_, drainBy := s.timer.toNat + 6500, saved := false } ∧
    ∀ a, (s.stopBead b to_).byte a = s.byte a

/-- The deficit of a queue after a charge (R343): a queue that is current pays for each bead that it holds 10/Nb µs, in units
of 1/256 µs rounded down (the rounding is the model's choice, log 32). The current queue of a class stays so while it has work
and its deficit is positive, though a higher class be served (the model's reading, log 32). -/
def Sys2Proof.paidOf (s : State) (p q : Nat) : Int :=
  let pays := (s.part p).cur == some q || ((s.part p).curs.any (fun x => x.2 == q) && s.hasWork q && decide (0 < (s.queue q).deficit))
  if pays then (s.queue q).deficit - ((2560 / (s.partBeads p).length * (s.holds q).length : Nat) : Int) else (s.queue q).deficit

/-- Deficits (R343). Every 10 µs the current queues pay, and a queue without work and beads has deficit 0. Then the highest
class with work is served: its current queue goes on while it has work and its deficit is positive; else the next queue of the
class with work, in ascending number around, gains WEIGHT times QUANTUM and becomes current. With no work there is no current
queue. -/
def Sys2Proof.DeficitRoundRobinClaim : Prop :=
  ∀ (s : State) (p : Nat), s.partEn p = true → (s.part p).chargeAt ≤ s.timer.toNat →
    ∃ t, exec (.deficitCharge p) s = .next t ∧ (t.part p).chargeAt = s.timer.toNat + 10 * 1300 ∧
      (∀ q, q < 256 → (t.part p).cur ≠ some q → (t.queue q).deficit =
        if s.qPart q = p ∧ s.hasWork q = false ∧ s.holds q = [] then 0 else paidOf s p q) ∧
      (s.topClass p = [] → (t.part p).cur = none) ∧
      ∀ q0, (s.topClass p).head? = some q0 →
        let last := SMap.find (s.part p).curs (s.qClass q0)
        (∀ q, last = some q → q ∈ s.topClass p → 0 < paidOf s p q →
          (t.part p).cur = some q ∧ (t.queue q).deficit = paidOf s p q) ∧
        ∀ q, (∀ x, last = some x → x ∉ s.topClass p ∨ paidOf s p x ≤ 0) →
          ((s.topClass p).filter (fun x => last.all (fun c => decide (c < x))) ++ s.topClass p).head? = some q →
          (t.part p).cur = some q ∧ (t.queue q).quantumAt = s.timer.toNat ∧
          (t.queue q).deficit = paidOf s p q + ((256 * s.qWeight q * s.qQuantum q : Nat) : Int)

/-- Pre-emption and hand-over (R342, R344 to R346, R348, R349, R355). A stop of a bead names its next context and gives drains
5 µs. Real time: at DEADLINE less LEAD a queue with work that lacks beads takes the missing ones, the cheapest stops first;
which beads count as its own is log 32. At the quantum end of a background queue each normal queue that waits takes the beads of
its background work that it can use. A
gap filled on a bead ends when its former occupant's queue can use it. Teams that drain past their time are saved. A free bead
goes to the context of the first claim, its caches empty, those of translations too; a bead whose stops have ended goes to the next
context, its groups no longer resident. A restored team then issues. -/
def Sys2Proof.BeadsChangeHandsClaim : Prop :=
  StopClaim ∧
  (∀ (s : State) (q : Nat), s.queueOn q = true → s.qClass q = 0 → s.qDeadline q ≠ 0 →
    s.qDeadline q - s.qLead q * 1300 ≤ s.timer.toNat → s.hasWork q = true →
    let bs := s.partBeads (s.qPart q)
    let have_ := (bs.filter (fun b => (!(s.groupsOf q b).isEmpty && (s.bead b).stop.isNone) || s.atHand (s.qPart q) q b)).length
    let others := s.byCost (bs.filter (fun b => s.stoppable b && (s.bead b).occ != some (s.qAsid q)))
    exec (.realtimeDeadline q) s = .next ((others.take (s.qBeads q - have_)).foldl
      (fun t b => t.stopBead b (some (s.qAsid q))) s)) ∧
  (∀ (s : State) (p q : Nat), s.quantaEnded p = [q] → s.qClass q = 2 → (s.part p).cur ≠ some q →
    let s1 := s.updQueue q (fun x => { x with quantumAt := s.timer.toNat })
    exec (.quantumEndPreemption p) s = .next (((s1.queuesIn p).filter (fun n => s1.qClass n == 1 && s1.waitsForBead p n
      && s1.qAsid n != s1.qAsid q)).foldl (fun t n => (t.byCost ((t.partBeads p).filter (fun b => t.stoppable b
        && (t.bead b).occ == some (s1.qAsid q) && t.background b && t.canUse n b))).foldl
          (fun u b => u.stopBead b (some (s1.qAsid n))) t) s1)) ∧
  (∀ (s : State) (b a : Nat), (s.bead b).gapOf = some a → (∃ q ∈ s.queuesOf a, s.canUse q b = true) →
    exec (.gapFillReclaim b) s = .next (s.stopBead b (some a))) ∧
  (∀ (s : State) (b : Nat) (st : BeadStop), (s.bead b).stop = some st → st.drainBy ≤ s.timer.toNat →
    ∃ t, exec (.drainTimeout b) s = .next t ∧ (t.teams.map (fun x => (x.tid, x.bead))) = s.teams.map (fun x => (x.tid, x.bead)) ∧
      ∀ x ∈ t.teams, x.bead = b → x.stop ≠ some .drain) ∧
  (∀ (s : State) (b a p : Nat), (s.bead b).occ = none → s.rodOwner (b / 4) = some p → s.givable b p = true →
    (s.claimant p b none).map s.qAsid = some a → (∀ x ∈ s.saved, x.asid ≠ a) →
    ∃ t, exec (.handOver b a) s = .next t ∧ (t.bead b).occ = some a ∧ ∀ i, i < 4 →
      (t.core (4 * b + i)).l0 = [] ∧ (t.core (4 * b + i)).l1 = [] ∧ (t.core (4 * b + i)).samp = [] ∧
      (t.core (4 * b + i)).tlb = [] ∧ (t.bead b).tlb2 = []) ∧
  (∀ (s : State) (b a : Nat) (st : BeadStop), (s.bead b).occ = some a → (s.bead b).stop = some st → st.toAsid = none →
    s.stopsEnded b = true → b < 128 →
    ∃ t, exec (.handOver b 0) s = .next t ∧ (t.bead b).occ = none ∧ (t.bead b).stop = none ∧
      (∀ g ∈ t.allGroups, g.gid ≠ 0 → g.bead ≠ b) ∧ (∀ x ∈ t.teams, x.bead ≠ b) ∧
      (∀ g ∈ s.onBead b, ∃ y ∈ t.saved, y.asid = a ∧ ((∀ z ∈ s.saved, ¬ (z.asid = a ∧ z.bead = b)) → y.bead = b) ∧ ∃ g' ∈ y.groups, g'.gid = g.gid ∧ g'.div.live = g.div.live)) ∧
  (∀ (s : State) (tm : Team), s.findTeam tm.tid = some tm → tm.restoring = true →
    exec (.contextRestoreComplete tm.tid) s = .next (s.updTeam tm.tid (fun x => { x with restoring := false })))

/-- Deficit round robin; deadlines, quanta, gap fill, drains, hand-over, restore: `DeficitRoundRobinClaim`, `BeadsChangeHandsClaim`. -/
def Obligations.Scheduling : Prop := DeficitRoundRobinClaim ∧ BeadsChangeHandsClaim

/-! ## Fault records and their answers -/

/-- The 64 bytes of a record as one number (R369). -/
def Sys2Proof.recordNumber (r : FRec) (seq : Nat) : Nat :=
  r.cause + 2 ^ 8 * r.asid + 2 ^ 16 * r.part + 2 ^ 20 * r.kind + 2 ^ 23 * r.stage + 2 ^ 24 * r.level + 2 ^ 26 * r.acc
    + 2 ^ 29 * r.path + 2 ^ 32 * r.bead + 2 ^ 39 * r.core + 2 ^ 41 * r.slot + 2 ^ 45 * r.eng.toNat + 2 ^ 46 * r.coal.toNat
    + 2 ^ 47 * r.esc.toNat + 2 ^ 48 * (r.waiters % 2 ^ 16) + 2 ^ 64 * r.va.toNat + 2 ^ 128 * r.ia.toNat + 2 ^ 192 * r.pc.toNat
    + 2 ^ 256 * r.pend.toNat + 2 ^ 320 * r.token.toNat + 2 ^ 352 * r.segid + 2 ^ 384 * r.info.toNat + 2 ^ 448 * (seq % 2 ^ 32)

/-- Registers of a partition: FQBASE, FQSIZE, FQHEAD. -/
def Sys2Proof.fqBase (s : State) (p : Nat) : Nat := s.pcsr p 0x90a
def Sys2Proof.fqRing (s : State) (p : Nat) : Nat := s.pcsr p 0x90b % 2 ^ 17
def Sys2Proof.fqHead (s : State) (p : Nat) : Nat := s.pcsr p 0x90c % 2 ^ 32

/-- The fault queue (R368 to R371, R401): while it is not full the first record due is written at index FQTAIL mod FQSIZE with
the next SEQ, then FQTAIL advances and, under NOTIFY, a notification is due; a full queue holds it. The notification leaves at
most once in 10 µs, with the partition and FQTAIL, to the address that FQNHI and FQNLO give. A write of FQHEAD stands in the
register. -/
def Sys2Proof.FaultQueueClaim : Prop :=
  (∀ (s : State) (p : Nat) (x : FPend), (s.part p).pend.find? (fun y => y.seq.isNone) = some x →
    ((fqRing s p ≤ ((s.part p).tail + 2 ^ 32 - fqHead s p) % 2 ^ 32) → exec (.faultRecordWrite p) s = .next s) ∧
    (((s.part p).tail + 2 ^ 32 - fqHead s p) % 2 ^ 32 < fqRing s p → Memory.wf s.mem = true →
      ∃ t, exec (.faultRecordWrite p) s = .next t ∧
        (∀ i, i < 64 → t.byte (fqBase s p + 64 * ((s.part p).tail % fqRing s p) + i) =
          BitVec.ofNat 8 (recordNumber x.rec_ (s.part p).seq / 256 ^ i)) ∧
        (∀ a, ¬ (fqBase s p + 64 * ((s.part p).tail % fqRing s p) ≤ a ∧ a < fqBase s p + 64 * ((s.part p).tail % fqRing s p) + 64) →
          t.byte a = s.byte a) ∧
        (t.part p).seq = (s.part p).seq + 1 ∧ (t.part p).tail = ((s.part p).tail + 1) % 2 ^ 32 ∧
        (t.part p).noteDue = ((s.part p).noteDue || decide (s.pcsr p 0x900 / 4 % 2 = 1)) ∧
        (t.part p).pend.map (·.rec_) = (s.part p).pend.map (·.rec_) ∧
        ∃ y ∈ (t.part p).pend, y.rec_ = x.rec_ ∧ y.who = x.who ∧ y.seq = some (s.part p).seq)) ∧
  (∀ (s : State) (p : Nat), (s.part p).noteDue = true → s.pcsr p 0x900 / 4 % 2 = 1 →
    (∀ d, (s.part p).noteAt = some d → d + 10 * 1300 ≤ s.timer.toNat) →
    ∃ t, exec (.faultNotification p) s = .next t ∧ t.out = s.out ++ [.note
        (BitVec.ofNat 128 (s.pcsr p 0x911 * 2 ^ 64 + s.pcsr p 0x912)) (BitVec.ofNat 128 (p + 2 ^ 32 * (s.part p).tail))] ∧
      t.part p = { s.part p with noteDue := false, noteAt := some s.timer.toNat }) ∧
  (∀ (s : State) (p : Nat) (v : Dword), p < 16 → s.boot.recovery = false →
    ∃ t, exec (.fqheadWrite p v) s = .next t ∧ t.pcsr p 0x90c = v.toNat % 2 ^ 32 ∧
      ((∀ x ∈ (s.part p).pend, x.seq.isSome = true) → ∀ a, t.byte a = s.byte a))

/-- The record of a partition with a SEQ that has had no response. -/
def Sys2Proof.Outstanding (s : State) (p : Nat) (n : Word) (x : FPend) : Prop :=
  (s.part p).pend.find? (fun y => y.seq == some n.toNat) = some x

/-- Answers (R373, R374, R279), each to a record that is then no longer outstanding; a number with none is ignored. Resume: a
stopped group outside speculative segments that waits for no copy becomes ready after an acquire, an operation goes on; a pair
whose other member has a record without an answer stays stopped (log 44). Abort: an operation of a group that meets its fault again
ends in error of KIND 1, at that address (said of a group each of whose logical groups has live lanes, or none has); a record
with a group attached acts as kill, and so does one with an element of a rate
without code, of which R373 says nothing (log 44). Kill: nothing of the context is left. -/
def Sys2Proof.FaultAnswersClaim : Prop :=
  (∀ (s : State) (p : Nat) (n : Word), (s.part p).pend.find? (fun y => y.seq == some n.toNat) = none →
    exec (.fqrespResume p n) s = .next s ∧ exec (.fqrespAbort p n) s = .next s ∧ exec (.fqrespKill p n) s = .next s) ∧
  (∀ (s : State) (p : Nat) (n : Word) (x : FPend), Outstanding s p n x →
    let answered := s.updPart p (fun y => { y with pend := y.pend.filter (fun z => z.seq != some n.toNat) })
    let elsewhere (a : Attach) : Prop := ∃ y ∈ (s.part p).pend, y.seq ≠ some n.toNat ∧ a ∈ y.who
    (∀ a, x.who = [a] → x.rec_.cause ≠ 0x19 → elsewhere a → exec (.fqrespResume p n) s = .next answered) ∧
    (∀ g, x.who = [.group g.gid] → s.findGroup g.gid = some g → g.wait = .stopped → s.speculative g = false →
      g.allElems.any (fun y => y.2.bring.isSome) = false → x.rec_.cause ≠ 0x19 → ¬ elsewhere (.group g.gid) →
      ∃ t, exec (.fqrespResume p n) s = .next t ∧
        t = (answered.updCore g.core (fun c => { c with l1 := [] })).updGroup g.gid (fun y =>
          { y with wait := .ready, readySince := s.timer.toNat })) ∧
    (∀ oid, x.who = [.op oid] → x.rec_.cause ≠ 0x19 → ¬ elsewhere (.op oid) →
      exec (.fqrespResume p n) s = .next (answered.updOp oid (fun o => { o with paused := false }))) ∧
    (∀ o f gid g, x.who = [.op o.oid] → s.findOp o.oid = some o → o.block = none → (∀ a b k, o.kind ≠ .copyCmd a b k) →
      o.gid = some gid → s.findGroup gid = some g → g.wait ≠ .ending →
      (g.div.live = 0 ∨ ∀ j, j < g.hw / g.lw → g.div.live &&& g.lgMask j ≠ 0) →
      (answered.runOp { o with paused := false } { ok := true, data := [] }).2.2 = .pause f →
      ∃ t, exec (.fqrespAbort p n) s = .next t ∧ (∀ y ∈ t.engOps, y.oid ≠ o.oid) ∧
        ∃ g', t.findGroup gid = some g' ∧
          (g'.lg o.lg).ops = (g.lg o.lg).ops.map (fun y =>
            if y.entry = o.entry then { y with err := some (1, BitVec.ofNat 64 f.va) } else y)) ∧
    (x.rec_.cause < 0x30 → (s.ctx? x.rec_.asid).isSome = true →
      (∃ t, exec (.fqrespKill p n) s = .next t ∧ ContextGone t x.rec_.asid ∧ ∀ a, t.byte a = s.byte a) ∧
      ((∃ w ∈ x.who, (∃ g, w = .group g) ∨ ∃ l h, w = .element l h) → exec (.fqrespAbort p n) s = exec (.fqrespKill p n) s)))

/-- The fault queue, its notifications, and the answers to records: `FaultQueueClaim`, `FaultAnswersClaim`. -/
def Obligations.Faults : Prop := FaultQueueClaim ∧ FaultAnswersClaim

/-! ## The system register window -/

/-- The command of a SHOOT write, at a SHOOTVA (R375). -/
def Sys2Proof.shootOf (v base : Dword) (scope : Nat) : Shoot :=
  { scope := scope, asid := v.toNat / 8 % 256, part := v.toNat / 2 ^ 11 % 16, base := base.toNat / 2 ^ 16 % 2 ^ 36 * 2 ^ 16
    count := v.toNat / 2 ^ 32, gen := 0, left := [], stores := [] }

/-- `n` bytes from `a` meet the range of a command; COUNT 0 is the whole space (R375). -/
def Sys2Proof.shootMeets (x : Shoot) (a n : Nat) : Bool :=
  x.count == 0 || (decide (a < x.base + 65536 * x.count) && decide (x.base < a + n))

/-- A translation of a cache is covered by a shootdown (R375): of one ASID by virtual address, of one partition by
intermediate address, or every one. -/
def Sys2Proof.covered (x : Shoot) (e : Tlb) : Bool :=
  match x.scope with
  | 0 => e.asid == x.asid && shootMeets x e.vbase e.size
  | 1 => e.part == x.part && shootMeets x e.ibase e.size
  | _ => true

/-- A table entry of a walk cache is covered (R376): it serves a covered address, or it lies at one (log 44). -/
def Sys2Proof.entryCovered (x : Shoot) (e : WalkEnt) : Bool :=
  match x.scope with
  | 0 => e.st == 1 && e.asid == x.asid && shootMeets x e.base e.size
  | 1 => e.part == x.part && (if e.st = 2 then shootMeets x e.base e.size else shootMeets x e.at_ 8)
  | _ => true

/-- A group is in the middle of a run. -/
def Sys2Proof.InRun (g : Group) : Prop := g.gid ≠ 0 ∧ g.run.on = true ∧ g.wait = .ready

/-- Shootdowns and register writes (R375 to R381), outside recovery. A write of SHOOT with GO, by its SCOPE: while one is in
progress ERR is set and nothing else done; else TGEN is one more, no translation cache and no walk cache holds a covered entry,
those not covered stay, the groups between runs have dropped their loop buffers, and it waits for those in a run. It is complete,
with its generation in DONEGEN, when none of these is in its run any more and no store translated before it lies in a release
buffer; no loop buffer is left then, and no L0 line of an earlier generation under a covered translation. PCTL and RODS stand as
written, in their bits; setting EN makes every predictor entry 0x7f; RODS that names a rod of another enabled partition is
ignored, and so is one that changes the mask of an enabled partition with an occupant on its beads (R378). A write to any other
register stands in its writable bits, PWRCAP within 800 to 2,300. -/
def Obligations.RegisterWindow : Prop :=
  (∀ (s : State) (v : Dword) (i : Instr) (scope : Nat),
    (i = .shootdownAsid v ∧ scope = 0 ∨ i = .shootdownPartition v ∧ scope = 1 ∨ i = .shootdownAll v ∧ scope = 2) →
    v.getLsbD 0 = true → v.toNat / 2 % 4 = scope → s.boot.recovery = false →
    (∀ x, s.shoot = some x → exec i s = .next { s with shootErr := true }) ∧
    (s.shoot = none → ∃ t x, exec i s = .next t ∧ t.tgen = s.tgen + 1 ∧ t.shoot = some x ∧ x.gen = (s.tgen + 1).toNat ∧
      (let y := shootOf v (s.win (offModule 0x807)) scope
       x.scope = y.scope ∧ x.asid = y.asid ∧ x.part = y.part ∧ x.base = y.base ∧ x.count = y.count ∧
       t.cores.map (fun c => (c.1, c.2.tlb)) = s.cores.map (fun c => (c.1, c.2.tlb.filter (fun e => !covered y e))) ∧
       t.beads.map (fun b => (b.1, b.2.tlb2)) = s.beads.map (fun b => (b.1, b.2.tlb2.filter (fun e => !covered y e))) ∧
       t.walkers = s.walkers.map (fun w => (w.1, w.2.filter (fun e => !entryCovered y e)))) ∧
      (∀ gid, gid ∈ x.left ↔ ∃ g ∈ s.allGroups, g.gid = gid ∧ InRun g) ∧
      (∀ g ∈ t.allGroups, ¬ InRun g → g.loops = []) ∧
      t.shootErr = false ∧ ∀ a, t.byte a = s.byte a)) ∧
  (∀ (s : State) (x : Shoot), s.shoot = some x →
    let inRun := ∃ g ∈ s.allGroups, g.gid ∈ x.left ∧ InRun g
    let stored := ∃ c ∈ s.cores, ∃ e ∈ c.2.rel, e.window = false ∧ (c.1, e.gid, e.sector) ∈ x.stores
    (¬ inRun → ¬ stored →
      ∃ t, exec .shootdownComplete s = .next t ∧ t.shoot = none ∧ t.doneGen = BitVec.ofNat 32 x.gen ∧ t.tgen = s.tgen ∧
        (∀ g ∈ t.allGroups, g.loops = []) ∧
        ∀ c ∈ t.cores, ∀ w ∈ c.2.l0, ¬ (w.tgen < x.gen ∧ ∀ e, w.page = some e → covered x e = true)) ∧
    (inRun ∨ stored → exec .shootdownComplete s = .next s)) ∧
  (∀ (s : State) (p : Nat) (v : Dword), p < 16 → s.boot.recovery = false →
    (∃ t, exec (.pctlWrite p v) s = .next t ∧ t.pcsr p 0x900 = v.toNat % 8 ∧
      (s.partEn p = false → v.getLsbD 0 = true → ∀ k, SMap.get 0x7f (t.part p).pred k = 0x7f)) ∧
    ((∀ p', p' < 16 → p' ≠ p → s.partEn p' = true → s.rodMask p' &&& (v.toNat % 2 ^ 32) = 0) →
      (s.partEn p = false ∨ v.toNat % 2 ^ 32 = s.rodMask p ∨ ∀ b ∈ s.partBeads p, (s.bead b).occ = none) →
      ∃ t, exec (.rodsWrite p v) s = .next t ∧ t.pcsr p 0x901 = v.toNat % 2 ^ 32) ∧
    ((∃ p', p' < 16 ∧ p' ≠ p ∧ s.partEn p' = true ∧ s.rodMask p' &&& (v.toNat % 2 ^ 32) ≠ 0) →
      exec (.rodsWrite p v) s = .next s) ∧
    (s.partEn p = true → v.toNat % 2 ^ 32 ≠ s.rodMask p → (∃ b ∈ s.partBeads p, (s.bead b).occ ≠ none) →
      exec (.rodsWrite p v) s = .next s)) ∧
  (∀ (s : State) (off : Nat) (v : Dword), s.boot.recovery = false →
    (off = offModule 0x802 → ∃ t, exec (.registerWrite off v) s = .next t ∧
      (t.win off).toNat = min 2300 (max 800 (v.toNat % 2 ^ 16))) ∧
    (off % 8 = 0 → off ≠ offModule 0x802 → ownBehaviour off v = false → writableBits off ≠ 0 →
      ∃ t, exec (.registerWrite off v) s = .next t ∧ t.win off = v &&& BitVec.ofNat 64 (writableBits off) ∧
        ∀ o, o ≠ off → t.win o = s.win o) ∧
    (writableBits off = 0 → exec (.registerWrite off v) s = .next s))

/-! ## Rods and power -/

/-- Node current k, counted from 0 (R385). -/
def Sys2Proof.node (c : RodCurrents) (k : Nat) : Int := [c.i0 - c.i1, c.i1 - c.i2, c.i2 - c.i3].getD k 0

/-- What one sample leaves of a rod, its throttle apart (R385 to R387): filler starts at the light bead of a node at
1,500 mA, stops below 500 mA, and stays as it was between. -/
def Sys2Proof.Sampled (r : Rod) (c : RodCurrents) (t : Rod) : Prop :=
  t.n1 = node c 0 ∧ t.n2 = node c 1 ∧ t.n3 = node c 2 ∧
  (∀ k, k < 3 →
    (1500 ≤ (node c k).natAbs → t.fill.getD k none = some (if 0 < node c k then k + 1 else k)) ∧
    ((node c k).natAbs < 500 → t.fill.getD k none = none) ∧
    (500 ≤ (node c k).natAbs → (node c k).natAbs < 1500 → t.fill.getD k none = r.fill.getD k none)) ∧
  t.clamp = r.clamp ∧ t.budget = r.budget ∧ t.power = r.power ∧ t.ceil = r.ceil ∧ t.step = r.step ∧ t.wear = r.wear ∧
  t.temp = r.temp ∧ t.samples = r.samples + 1

/-- A power event is reported (R396): a record of the partition that owns the rod, while it holds fewer than 4,096 (R368), else only a report to the management
endpoint. -/
def Sys2Proof.Reported (s t : State) (cause rod : Nat) (info : Dword) : Prop :=
  match s.rodOwner rod with
  | none => t.out = s.out ++ [.power cause rod info] ∧ t.parts = s.parts
  | some p => t.out = s.out ∧ (t.part p).pend = (s.part p).pend ++ (if 4096 ≤ (s.part p).held then [] else
      [{ rec_ := { cause := cause, part := p, path := 6, bead := 4 * rod, info := info }, who := [.nobody], seq := none }])

/-- The balancer (R385 to R389). A sample does what `Sampled` says, adds its 130 cycles to FILLCYC and THROTCYC as the rod stood
before it, and changes nothing but its rod and the filler counts of that rod's beads; throttle begins at a node of 3,000 mA, and is lifted at the 100th sample in a row below 1,500 mA at every node. At
4,000 mA an unclamped rod is clamped, its event is reported with ROD_IMB of the last sample, and its groups stay as they are;
at the third clamp within 1 s its four beads are out of service and the contexts with a group there killed. A clamp is lifted
no sooner than 100 µs after it began, at a sample below 500 mA (a thermal one below 100 degrees), under throttle. -/
def Sys2Proof.BalancerClaim : Prop :=
  (∀ (s : State) (rod : Nat) (c : RodCurrents), rod < 32 → ∃ t, exec (.balancerSample rod c) s = .next t ∧
    Sampled (s.rod rod) c (t.rod rod) ∧ { t with rods := s.rods, beads := s.beads } = s ∧ (∀ r, r ≠ rod → t.rod r = s.rod r) ∧
    (∀ b, t.bead b = { s.bead b with
      fillN := (s.bead b).fillN + if b / 4 = rod ∧ (t.rod rod).fill.contains (some (b % 4)) = true then 1 else 0 }) ∧
    (t.rod rod).fillcyc = ((if (s.rod rod).fill.any Option.isSome then (s.rod rod).fillcyc + 130 else (s.rod rod).fillcyc) : Nat) % 2 ^ 32 ∧
    (t.rod rod).throtcyc = ((if (s.rod rod).throt then (s.rod rod).throtcyc + 130 else (s.rod rod).throtcyc) : Nat) % 2 ^ 32 ∧
    ((∃ k, k < 3 ∧ 3000 ≤ (node c k).natAbs) → (t.rod rod).throt = true) ∧
    ((s.rod rod).throt = false → (∀ k, k < 3 → (node c k).natAbs < 3000) → (t.rod rod).throt = false) ∧
    ((s.rod rod).throt = true → (∀ k, k < 3 → (node c k).natAbs < 1500) → (s.rod rod).streak < 99 →
      (t.rod rod).throt = true ∧ (t.rod rod).streak = (s.rod rod).streak + 1) ∧
    ((s.rod rod).throt = true → (∃ k, k < 3 ∧ 1500 ≤ (node c k).natAbs) →
      (t.rod rod).throt = true ∧ (t.rod rod).streak = 0)) ∧
  (∀ (s : State) (rod : Nat) (c : RodCurrents), rod < 32 → (s.rod rod).throt = true → (s.rod rod).hotThrot = false →
    (∀ k, k < 3 → (node c k).natAbs < 1500) →
    ((s.rod rod).streak = 99 → ∃ t, exec (.throttleLift rod c) s = .next t ∧ exec (.balancerSample rod c) s = .next t ∧
      (t.rod rod).throt = false ∧ Sampled (s.rod rod) c (t.rod rod)) ∧
    ((s.rod rod).streak < 99 → exec (.throttleLift rod c) s = .next s)) ∧
  (∀ (s : State) (rod : Nat) (c : RodCurrents), rod < 32 → (s.rod rod).clamp = none →
    ((∀ k, k < 3 → (node c k).natAbs < 4000) → exec (.emergencyClamp rod c) s = .next s) ∧
    ((∃ k, k < 3 ∧ 4000 ≤ (node c k).natAbs) → ∃ t, exec (.emergencyClamp rod c) s = .next t ∧
      (t.rod rod).clamp = some (s.timer.toNat, false) ∧
      (((s.rod rod).clamps.filter (fun x => decide (s.timer.toNat < x + 1300000000))).length < 2 →
        t.allGroups = s.allGroups ∧ Reported s t 0x30 rod (s.rod rod).imb) ∧
      (2 ≤ ((s.rod rod).clamps.filter (fun x => decide (s.timer.toNat < x + 1300000000))).length →
        ∀ i, i < 4 → (t.bead (4 * rod + i)).out = true ∧
          ∀ g ∈ s.allGroups, g.gid ≠ 0 → g.bead = 4 * rod + i → g.asid < 256 →
            t.ctx? g.asid = none ∧ ∀ y ∈ t.allGroups, y.gid ≠ 0 → y.asid ≠ g.asid))) ∧
  (∀ (s : State) (rod start : Nat) (thermal : Bool) (c : RodCurrents), (s.rod rod).clamp = some (start, thermal) →
    (start + 130000 ≤ s.timer.toNat → (∀ k, k < 3 → (node c k).natAbs < 500) →
      (thermal = true → (s.rod rod).temp < 16 * 100) →
      ∃ t, exec (.clampLift rod c) s = .next t ∧ (t.rod rod).clamp = none ∧ (t.rod rod).throt = true ∧
        t.allGroups = s.allGroups ∧ Reported s t 0x32 rod (BitVec.ofNat 64 ((s.timer.toNat - start) / 1300))) ∧
    (s.timer.toNat < start + 130000 ∨ (∃ k, k < 3 ∧ 500 ≤ (node c k).natAbs) ∨
        thermal = true ∧ 16 * 100 ≤ (s.rod rod).temp →
      exec (.clampLift rod c) s = .next s))

/-- CEIL of a WEAR value, in 1/16 W (R394). -/
def Sys2Proof.ceiling (wear : Nat) : Nat :=
  16 * (if wear < 0x1e000000 then 70 else if wear < 0x3c000000 then 64 else if wear < 0x5a000000 then 58 else 52)

/-- The rod has a resident group. -/
def Sys2Proof.occupied (s : State) (r : Nat) : Bool :=
  (List.range 4).any (fun i => s.allGroups.any (fun g => g.gid != 0 && g.bead == 4 * r + i))

/-- AF in 1/65536, rounded down (R394; the rounding is the model's, log 9): the greatest whole number not above
65536 × 2^((V - 850)/50 + (T - 1360)/160), V in mV and T in 1/16 degree, both sides taken to the power 800. -/
def Sys2Proof.IsAgingFactor (volt : Nat) (temp : Int) (f : Nat) : Prop :=
  let n : Int := 12800 + 16 * ((volt : Int) - 850) + 5 * (temp - 1360)
  if n < 0 then f = 0 else f ^ 800 ≤ 2 ^ n.toNat ∧ 2 ^ n.toNat < (f + 1) ^ 800

/-- The arbiter (R391 to R395), for a period whose readings name every rod and none at 120 degrees: readings, wear by AF and its
ceiling; each budget is the quotient of R392, rounded down (log 22), at least 30 W, at most 40 W at 105 degrees, 8 W for an
unoccupied rod; the base step moves as R393 says, step 0 judged by the new budget (log 36) and left where it is not permitted any
more (log 44); at 110 degrees the rod is throttled; a bead is trimmed when it is the heavy bead of a node whose light bead issued filler in more than half of the samples. -/
def Sys2Proof.ArbiterClaim : Prop :=
  (∀ (s : State) (m : PeriodReading), m.rods.length = 32 → (∀ x ∈ m.rods, x.temp < 16 * 120) →
    ∃ t, exec (.powerArbiterPeriod m) s = .next t ∧ t.allGroups = s.allGroups ∧ t.modpwr = m.power % 2 ^ 16 ∧
      t.outside = m.outside % 2 ^ 16 ∧
      (let own (r p : Nat) : Bool := s.rodOwner r == some p && occupied s r
       let demand (p : Nat) : Nat := sumOf ((List.range 32).map (fun r => if own r p then (t.rod r).ceil else 0))
       let share (p : Nat) : Nat := min (16 * (s.pcsr p 0x909 % 2 ^ 16)) (demand p)
       let total := sumOf ((List.range 16).map (fun p => if s.partEn p then share p else 0))
       let unocc := ((List.range 32).filter (fun r => !occupied s r)).length
       let room := 16 * ((s.win (offModule 0x802)).toNat - t.outside) - 16 * 8 * unocc
       ∀ r x, m.rods[r]? = some x →
        let old := s.rod r
        let new := t.rod r
        new.power = x.power ∧ new.temp = x.temp ∧
        (∃ f, IsAgingFactor x.volt x.temp f ∧ new.wear = min (2 ^ 32 - 1) (old.wear + (old.wearFrac + f) / (12500 * 65536)) ∧
          new.wearFrac = (old.wearFrac + f) % (12500 * 65536)) ∧
        new.ceil = ceiling new.wear ∧
        (occupied s r = false → new.budget = 16 * 8) ∧
        (∀ p, own r p = true →
          let b := max (16 * 30) (if total ≤ room then share p * new.ceil / demand p else
            room * share p * new.ceil / (total * demand p))
          new.budget = if 16 * 105 ≤ x.temp then min (16 * 40) b else b) ∧
        (let fast := decide (16 * 52 < new.budget) && decide (x.temp < 16 * 95) && decide (new.wear < 0x5a000000)
         (old.budget < x.power → new.step = min 4 (old.step + 1)) ∧
         (x.power + 16 * 4 < old.budget → 1 < old.step → new.step = old.step - 1) ∧
         (x.power + 16 * 4 < old.budget → old.step = 1 → new.step = if fast then 0 else 1) ∧
         (x.power ≤ old.budget → old.budget ≤ x.power + 16 * 4 → 0 < old.step → new.step = old.step) ∧
         (x.power ≤ old.budget → old.step = 0 → new.step = if fast then 0 else 1)) ∧
        (16 * 110 ≤ x.temp → new.throt = true) ∧
        ∀ i, i < 4 → ((t.bead (4 * r + i)).trim = true ↔ ∃ k n, k < 3 ∧ [old.n1, old.n2, old.n3][k]? = some n ∧ n ≠ 0 ∧
          i = (if 0 < n then k else k + 1) ∧
          old.samples < 2 * (s.bead (4 * r + (if 0 < n then k + 1 else k))).fillN))) ∧
  (∀ (s : State), ∃ t, exec .wearSave s = .next t ∧ { t with flash := s.flash } = s ∧
    ∀ r, r < 32 → SMap.get 0 t.flash.wear r = (s.rod r).wear)

/-- Balancer, clamp, arbiter and wear of the rods: `BalancerClaim`, `ArbiterClaim`. -/
def Obligations.Power : Prop := BalancerClaim ∧ ArbiterClaim

/-! ## Bring-up, sideband and reliability -/

/-- The last record of a step and unit in a journal. -/
def Sys2Proof.lastRecord (j : List Journal) (step unit : Nat) : Option Nat :=
  ((j.filter (fun x => x.step == step && x.unit == unit)).map (·.outcome)).getLast?

/-- Its part passed at this start. -/
def Sys2Proof.Passed (b : BootInputs) (step unit : Nat) : Bool :=
  match b.results.find? (fun r => r.step.toNat == step && r.unit.toNat == unit) with
  | some r => r.passed
  | none => true

/-- The unit was brought up at this start. -/
def Sys2Proof.upAt (t : State) (step unit : Nat) : Bool :=
  t.boot.outcomes.any (fun o => o.step == step && o.unit == unit && (o.outcome == 1 || o.outcome == 3))

/-- Everything starts from reset but the flash; the step counter, what has left the module and what comes to it are not the
module's (log 1). -/
def Sys2Proof.FromReset (s t : State) : Prop :=
  { t with flash := {}, boot := {}, rods := [] } =
    { State.reset with tick := s.tick, out := s.out, agenda := s.agenda, flash := {}, boot := {}, rods := [] }

/-- The image of a firmware stage is accepted (R406): magic, SVN, reserved bytes, and the signature check (log 8). -/
def Sys2Proof.Accepted (img : List Byte) : Prop :=
  img.take 4 = [0x57, 0x5a, 0x42, 0x53] ∧ Config.fusedSvn.toNat ≤ bytesNat ((img.drop 4).take 4) ∧
  (∀ x ∈ (img.drop 12).take 52, x = 0) ∧ Config.imageVerifies img = true

/-- What is measured of an image: its header and body (R406). -/
def Sys2Proof.measurement (img : List Byte) : List Byte :=
  Config.measure384 (img.take (64 + bytesNat ((img.drop 8).take 4)))

/-- The bytes of an image copy. -/
def Sys2Proof.copyBytes (m : SMap Byte) (len : Nat) : List Byte := (List.range len).map (SMap.get 0 m)

/-- WEAR of a rod in the flash once the module has been shut down in order; a stop without record leaves what was there
(R394). -/
def Sys2Proof.savedWear (s : State) (r : Nat) : Nat :=
  if s.flash.orderly then max (SMap.get 0 s.flash.wear r) (s.rod r).wear else SMap.get 0 s.flash.wear r

/-- Bring-up (R394, R403 to R407). Every part starts from reset. WEAR is restored, raised by 7,680 after an unrecorded stop. The
journal goes on, its latest records kept (at least 256, log 8), no outcome stands without the part's answer, and a step whose last
record is started or failed runs at conservative settings (outcomes 2, 3), or is skipped, if it may be, after a failure; any other
runs normally (outcomes 1, 2). The ROM accepts only an image whose magic, SVN and signatures agree, and step 0x10 passes only if
every later stage is accepted too; measured are the stages accepted. Channels and ports are up as their steps passed. A step that
may not be skipped and fails again leaves the module in recovery. A stop in the course of a step leaves the record that it has
started, and a stop that is not recorded. That a part with no listed result passes, that outcome 3 counts as up, and that the later
stages are verified at step 0x10 are the model's (log 37). -/
def Sys2Proof.BringUpClaim : Prop :=
  (∀ (s : State) (b : BootInputs), b.stopAt = none → ∃ t, exec (.powerOnReset b) s = .next t ∧ FromReset s t ∧
    (∀ r, r < 32 → (t.rod r).wear = min (2 ^ 32 - 1) (savedWear s r + if s.flash.orderly then 0 else 7680) ∧
      (t.rod r).ceil = ceiling (t.rod r).wear) ∧
    (∃ new, t.flash.journal <:+ s.flash.journal ++ new ∧
      min 256 (s.flash.journal.length + new.length) ≤ t.flash.journal.length ∧ ∀ o ∈ t.boot.outcomes, o ∈ new) ∧
    t.flash.copyA = s.flash.copyA ∧ t.flash.copyB = s.flash.copyB ∧ t.flash.later = s.flash.later ∧
    t.flash.certs = s.flash.certs ∧ t.flash.boots = s.flash.boots + 1 ∧ t.flash.orderly = true ∧ t.boot.rev = b.rev ∧
    (∀ o ∈ t.boot.outcomes, o ∈ t.flash.journal ∧ o.boot = t.flash.boots % 2 ^ 32 ∧
      (let last := lastRecord s.flash.journal o.step o.unit
       let again := last == some 0 || last == some 2
       let skips := o.step == 0x20 || o.step == 0x50 || o.step == 0x60
       (again = true → o.outcome = 2 ∨ o.outcome = 3 ∨ o.outcome = 4 ∧ last = some 2 ∧ skips = true) ∧
       (again = false → o.outcome = 1 ∨ o.outcome = 2) ∧
       (o.step ≠ 0x02 → o.outcome ≠ 4 → (o.outcome = 2 ↔
         Passed b o.step o.unit = false ∨ o.step = 0x10 ∧ ∃ img ∈ s.flash.later, ¬ Accepted img)) ∧
       (o.step = 0x02 →
         let img := if again then copyBytes s.flash.copyB s.flash.lenB else copyBytes s.flash.copyA s.flash.lenA
         (o.outcome = 2 ↔ ¬ Accepted img) ∧
         (o.outcome ≠ 2 → t.boot.measured = measurement img ++
           if upAt t 0x10 0 then s.flash.later.flatMap measurement else [])) ∧
       (o.outcome = 2 → skips = false → again = true → t.boot.recovery = true))) ∧
    (∀ u k, u < 24 → k < 4 → t.boot.chans.testBit (4 * u + k) = upAt t 0x20 u) ∧
    (∀ p, p < 4 → t.boot.cxl.testBit p = upAt t 0x50 p) ∧ (∀ p, p < 8 → t.boot.eth.testBit p = upAt t 0x60 p) ∧
    t.boot.cons = t.boot.outcomes.any (fun o => o.outcome == 3)) ∧
  (∀ (s : State) (b : BootInputs) (n : Nat), b.stopAt = some n → ∃ t, exec (.powerOnReset b) s = .next t ∧ FromReset s t ∧
    t.boot = {} ∧ t.rods = [] ∧ t.flash.orderly = false ∧ t.flash.boots = s.flash.boots + 1 ∧
    (∀ r, r < 32 → SMap.get 0 t.flash.wear r = savedWear s r) ∧
    (∀ su, bootSteps[n]? = some su → s.flash.journal = [] → (∀ x ∈ b.results, x.passed = true) →
      Accepted (copyBytes s.flash.copyA s.flash.lenA) → (∀ img ∈ s.flash.later, Accepted img) →
      t.flash.journal.getLast? = some { step := su.1, unit := su.2, outcome := 0, boot := t.flash.boots % 2 ^ 32 }))

/-- A byte of an area after `data` has been written at `off`. -/
def Sys2Proof.writtenByte (old : Byte) (off : Nat) (data : List Byte) (i : Nat) : Byte :=
  (if off ≤ i then data[i - off]? else none).getD old

/-- Sideband, attestation and reliability (R383, R384, R394, R403, R405, R408, R409). An unrecorded stop, and a module reset
from the sideband, leave the reset state and the flash, whose stop is not recorded (log 37). The attestation report begins with
the nonce, holds the measurements, and is signed; a module in recovery makes none; the places of its bytes are the model's (log
38). The sideband writes the flash in recovery only: image copies, journal, WEAR, certificates or a later stage, by the number of
the area (log 37); and it reports temperatures, module power and the counts of CAPACITY. An uncorrectable sector is poisoned, a
corrected one counted. A state mismatch stops the bead and kills its contexts. A link that keeps failing is down. -/
def Sys2Proof.SidebandClaim : Prop :=
  (∀ (s : State) (i : Instr), i = .unrecordedStop ∨ i = .sidebandModuleReset → ∃ t, exec i s = .next t ∧ FromReset s t ∧
    t.rods = [] ∧ t.boot = {} ∧ t.flash = { s.flash with orderly := false }) ∧
  (∀ (s : State) (nonce : BitVec 256), ∃ t, exec (.attestationRequest nonce) s = .next t ∧ (s.boot.recovery = true → t = s) ∧
    (s.boot.recovery = false → { t with out := s.out } = s ∧ ∃ rep, t.out = s.out ++ [.attest rep (Config.identitySign rep)] ∧
      rep.take 32 = bytesOf nonce.toNat 32 ∧ (rep.drop 32).take s.boot.measured.length = s.boot.measured ∧
      (rep.drop (32 + s.boot.measured.length)).take 20 =
        bytesOf Config.fusedSvn.toNat 4 ++ bytesOf s.boot.rev.toNat 8 ++ bytesOf s.capacity 8)) ∧
  (∀ (s : State) (copy off : Nat) (data : List Byte),
    ∃ t, exec (.sidebandFlashWrite copy off data) s = .next t ∧ (s.boot.recovery = false → t = s) ∧
      { t with flash := s.flash } = s ∧
      (s.boot.recovery = true →
        (∀ a, SMap.get 0 t.flash.copyA a =
            (if copy = 0 then writtenByte (SMap.get 0 s.flash.copyA a) off data a else SMap.get 0 s.flash.copyA a) ∧
          SMap.get 0 t.flash.copyB a =
            (if copy = 1 then writtenByte (SMap.get 0 s.flash.copyB a) off data a else SMap.get 0 s.flash.copyB a) ∧
          t.flash.certs.getD a 0 =
            (if copy = 4 then writtenByte (s.flash.certs.getD a 0) off data a else s.flash.certs.getD a 0) ∧
          ∀ n, (t.flash.later.getD n []).getD a 0 = (if copy = n + 5 then
            writtenByte ((s.flash.later.getD n []).getD a 0) off data a else (s.flash.later.getD n []).getD a 0)) ∧
        (copy ≠ 2 → t.flash.journal = s.flash.journal) ∧ (copy ≠ 3 → t.flash.wear = s.flash.wear) ∧
        (∀ k, copy = 2 → off = 16 * k → data.length = 16 → k < s.flash.journal.length → s.flash.journal.length ≤ 256 →
          t.flash.journal.length = s.flash.journal.length ∧ t.flash.journal[k]? = some
            { step := bytesNat (data.take 2), unit := bytesNat ((data.drop 2).take 1), outcome := bytesNat ((data.drop 3).take 1) % 16
              boot := bytesNat ((data.drop 4).take 4) }) ∧
        (∀ r, copy = 3 → off = 4 * r → data.length = 4 → r < 32 → SMap.get 0 t.flash.wear r = bytesNat data ∧
          ∀ r', r' < 32 → r' ≠ r → SMap.get 0 t.flash.wear r' = SMap.get 0 s.flash.wear r' % 2 ^ 32))) ∧
  (∀ s : State, exec .sidebandStatusReport s = .next { s with
    out := s.out ++ [.status ((List.range 32).map (fun r => (s.rod r).temp)) s.modpwr
      ((List.range 96).countP s.boot.chans.testBit + 256 * (List.range 4).countP s.boot.cxl.testBit
        + 4096 * (List.range 8).countP s.boot.eth.testBit + 2 ^ 20 * s.boot.cons.toNat)] }) ∧
  (∀ (s : State) (pa : Nat), exec (.patrolScrub pa .clean) s = .next s ∧
    exec (.patrolScrub pa .corrected) s = .next { s with errcnt := s.errcnt + 1 } ∧
    ∃ t, exec (.patrolScrub pa .uncorrectable) s = .next t ∧ { t with poison := s.poison } = s ∧
      ∀ x, x ∈ t.poison ↔ x ∈ s.poison ∨ x = pa / 64) ∧
  (∀ (s : State) (b : Nat), b < 128 → exec (.stateCompare b true) s = .next s ∧
    ∃ t, exec (.stateCompare b false) s = .next t ∧ (t.bead b).out = true ∧
      ∀ g ∈ s.allGroups, g.gid ≠ 0 → g.bead = b → g.asid < 256 →
        t.ctx? g.asid = none ∧ ∀ y ∈ t.allGroups, y.gid ≠ 0 → y.asid ≠ g.asid) ∧
  (∀ (s : State) (l : LinkId), ∃ t, exec (.linkRetransmitFailure l) s = .next t ∧ { t with boot := s.boot } = s ∧
    ∀ k, t.boot.chans.testBit k = (s.boot.chans.testBit k && l != .lpddr k) ∧
      t.boot.cxl.testBit k = (s.boot.cxl.testBit k && l != .cxl k) ∧
      t.boot.eth.testBit k = (s.boot.eth.testBit k && l != .eth k))

/-- Bring-up, attestation, sideband, reliability events: `BringUpClaim`, `SidebandClaim`. -/
def Obligations.BringUpAndSideband : Prop := BringUpClaim ∧ SidebandClaim
end

