-- ==== Sys2Proof/Laws/Encoding.lean ====
section
/-! SUPPORT. Packing and unpacking a word are inverse, layout by layout (R176 to R182). -/

namespace Sys2Proof

/-- A field of the high part of a word. -/
theorem extract_high {m n : Nat} (x : BitVec m) (y : BitVec n) (lo k : Nat) (h : n ≤ lo) :
    (x ++ y).extractLsb' lo k = x.extractLsb' (lo - n) k := by
  apply BitVec.eq_of_getLsbD_eq
  intro i hi
  simp only [BitVec.getLsbD_extractLsb', hi, decide_true, Bool.true_and, BitVec.getLsbD_append]
  rw [if_neg (by omega), show lo + i - n = lo - n + i by omega]

/-- A field of the low part of a word. -/
theorem extract_low {m n : Nat} (x : BitVec m) (y : BitVec n) (lo k : Nat) (h : lo + k ≤ n) :
    (x ++ y).extractLsb' lo k = y.extractLsb' lo k := by
  apply BitVec.eq_of_getLsbD_eq
  intro i hi
  simp only [BitVec.getLsbD_extractLsb', hi, decide_true, Bool.true_and, BitVec.getLsbD_append]
  rw [if_pos (by omega)]

theorem extract_all {n : Nat} (x : BitVec n) : x.extractLsb' 0 n = x := by
  apply BitVec.eq_of_getLsbD_eq
  intro i hi
  simp [BitVec.getLsbD_extractLsb', hi]

/-- Two adjacent fields of a word are one. -/
theorem extract_join {n : Nat} (w : BitVec n) (a m b k : Nat) (h : a = b + k) :
    w.extractLsb' a m ++ w.extractLsb' b k = w.extractLsb' b (m + k) := by
  subst h
  apply BitVec.eq_of_getLsbD_eq
  intro i hi
  simp only [BitVec.getLsbD_append, BitVec.getLsbD_extractLsb', hi, decide_true, Bool.true_and]
  split
  · simp [*]
  · have : i - k < m := by omega
    simp [this, show b + k + (i - k) = b + i by omega]

/-! ## Unpacking a packed word -/

theorem unpackFA_packFA (op : BitVec 8) (h : Hdr) (f : FA) : unpackFA (packFA op h f) = f := by
  unfold unpackFA packFA bitsAt
  congr 1 <;>
    repeat first
      | exact (extract_low _ _ _ _ (by decide)).trans (extract_all _)
      | exact extract_all _
      | refine (extract_high _ _ _ _ (by decide)).trans ?_

theorem unpackFM_packFM (op : BitVec 8) (h : Hdr) (f : FM) : unpackFM (packFM op h f) = f := by
  unfold unpackFM packFM bitsAt
  congr 1 <;>
    repeat first
      | exact (extract_low _ _ _ _ (by decide)).trans (extract_all _)
      | exact extract_all _
      | refine (extract_high _ _ _ _ (by decide)).trans ?_

theorem unpackFE_packFE (op : BitVec 8) (h : Hdr) (f : FE) : unpackFE (packFE op h f) = f := by
  unfold unpackFE packFE bitsAt
  congr 1 <;>
    repeat first
      | exact (extract_low _ _ _ _ (by decide)).trans (extract_all _)
      | exact extract_all _
      | refine (extract_high _ _ _ _ (by decide)).trans ?_

theorem unpackFC_packFC (op : BitVec 8) (h : Hdr) (f : FC) : unpackFC (packFC op h f) = f := by
  unfold unpackFC packFC bitsAt
  congr 1 <;>
    repeat first
      | exact (extract_low _ _ _ _ (by decide)).trans (extract_all _)
      | exact extract_all _
      | refine (extract_high _ _ _ _ (by decide)).trans ?_

theorem unpackFS_packFS (op : BitVec 8) (h : Hdr) (f : FS) : unpackFS (packFS op h f) = f := by
  unfold unpackFS packFS bitsAt
  congr 1 <;>
    repeat first
      | exact (extract_low _ _ _ _ (by decide)).trans (extract_all _)
      | exact extract_all _
      | refine (extract_high _ _ _ _ (by decide)).trans ?_

theorem unpackHdr_packFA (op : BitVec 8) (h : Hdr) (f : FA) : unpackHdr (packFA op h f) = h := by
  unfold unpackHdr packFA packHdr bitsAt
  congr 1 <;>
    repeat first
      | exact (extract_low _ _ _ _ (by decide)).trans (extract_all _)
      | exact extract_all _
      | refine (extract_high _ _ _ _ (by decide)).trans ?_
      | refine (extract_low _ _ _ _ (by decide)).trans ?_

theorem opcOf_packFA (op : BitVec 8) (h : Hdr) (f : FA) : opcOf (packFA op h f) = op.toNat := by
  unfold opcOf natAt packFA packHdr bitsAt
  congr 1
  repeat first
    | exact (extract_low _ _ _ _ (by decide)).trans (extract_all _)
    | refine (extract_low _ _ _ _ (by decide)).trans ?_

theorem unpackHdr_packFM (op : BitVec 8) (h : Hdr) (f : FM) : unpackHdr (packFM op h f) = h := by
  unfold unpackHdr packFM packHdr bitsAt
  congr 1 <;>
    repeat first
      | exact (extract_low _ _ _ _ (by decide)).trans (extract_all _)
      | exact extract_all _
      | refine (extract_high _ _ _ _ (by decide)).trans ?_
      | refine (extract_low _ _ _ _ (by decide)).trans ?_

theorem opcOf_packFM (op : BitVec 8) (h : Hdr) (f : FM) : opcOf (packFM op h f) = op.toNat := by
  unfold opcOf natAt packFM packHdr bitsAt
  congr 1
  repeat first
    | exact (extract_low _ _ _ _ (by decide)).trans (extract_all _)
    | refine (extract_low _ _ _ _ (by decide)).trans ?_

theorem unpackHdr_packFE (op : BitVec 8) (h : Hdr) (f : FE) : unpackHdr (packFE op h f) = h := by
  unfold unpackHdr packFE packHdr bitsAt
  congr 1 <;>
    repeat first
      | exact (extract_low _ _ _ _ (by decide)).trans (extract_all _)
      | exact extract_all _
      | refine (extract_high _ _ _ _ (by decide)).trans ?_
      | refine (extract_low _ _ _ _ (by decide)).trans ?_

theorem opcOf_packFE (op : BitVec 8) (h : Hdr) (f : FE) : opcOf (packFE op h f) = op.toNat := by
  unfold opcOf natAt packFE packHdr bitsAt
  congr 1
  repeat first
    | exact (extract_low _ _ _ _ (by decide)).trans (extract_all _)
    | refine (extract_low _ _ _ _ (by decide)).trans ?_

theorem unpackHdr_packFC (op : BitVec 8) (h : Hdr) (f : FC) : unpackHdr (packFC op h f) = h := by
  unfold unpackHdr packFC packHdr bitsAt
  congr 1 <;>
    repeat first
      | exact (extract_low _ _ _ _ (by decide)).trans (extract_all _)
      | exact extract_all _
      | refine (extract_high _ _ _ _ (by decide)).trans ?_
      | refine (extract_low _ _ _ _ (by decide)).trans ?_

theorem opcOf_packFC (op : BitVec 8) (h : Hdr) (f : FC) : opcOf (packFC op h f) = op.toNat := by
  unfold opcOf natAt packFC packHdr bitsAt
  congr 1
  repeat first
    | exact (extract_low _ _ _ _ (by decide)).trans (extract_all _)
    | refine (extract_low _ _ _ _ (by decide)).trans ?_

theorem unpackHdr_packFS (op : BitVec 8) (h : Hdr) (f : FS) : unpackHdr (packFS op h f) = h := by
  unfold unpackHdr packFS packHdr bitsAt
  congr 1 <;>
    repeat first
      | exact (extract_low _ _ _ _ (by decide)).trans (extract_all _)
      | exact extract_all _
      | refine (extract_high _ _ _ _ (by decide)).trans ?_
      | refine (extract_low _ _ _ _ (by decide)).trans ?_

theorem opcOf_packFS (op : BitVec 8) (h : Hdr) (f : FS) : opcOf (packFS op h f) = op.toNat := by
  unfold opcOf natAt packFS packHdr bitsAt
  congr 1
  repeat first
    | exact (extract_low _ _ _ _ (by decide)).trans (extract_all _)
    | refine (extract_low _ _ _ _ (by decide)).trans ?_

/-! ## Packing what was unpacked -/

theorem packHdr_unpack (w : Inst) : packHdr (bitsAt w 0 8) (unpackHdr w) = w.extractLsb' 0 24 := by
  unfold packHdr unpackHdr bitsAt
  dsimp only
  repeat rw [extract_join]
  all_goals rfl

theorem packFA_unpack (w : Inst) : packFA (bitsAt w 0 8) (unpackHdr w) (unpackFA w) = w := by
  unfold packFA unpackFA
  rw [packHdr_unpack]
  unfold bitsAt
  dsimp only
  repeat rw [extract_join]
  · exact extract_all w
  all_goals rfl

theorem packFM_unpack (w : Inst) : packFM (bitsAt w 0 8) (unpackHdr w) (unpackFM w) = w := by
  unfold packFM unpackFM
  rw [packHdr_unpack]
  unfold bitsAt
  dsimp only
  repeat rw [extract_join]
  · exact extract_all w
  all_goals rfl

theorem packFE_unpack (w : Inst) : packFE (bitsAt w 0 8) (unpackHdr w) (unpackFE w) = w := by
  unfold packFE unpackFE
  rw [packHdr_unpack]
  unfold bitsAt
  dsimp only
  repeat rw [extract_join]
  · exact extract_all w
  all_goals rfl

theorem packFC_unpack (w : Inst) : packFC (bitsAt w 0 8) (unpackHdr w) (unpackFC w) = w := by
  unfold packFC unpackFC
  rw [packHdr_unpack]
  unfold bitsAt
  dsimp only
  repeat rw [extract_join]
  · exact extract_all w
  all_goals rfl

theorem packFS_unpack (w : Inst) : packFS (bitsAt w 0 8) (unpackHdr w) (unpackFS w) = w := by
  unfold packFS unpackFS
  rw [packHdr_unpack]
  unfold bitsAt
  dsimp only
  repeat rw [extract_join]
  · exact extract_all w
  all_goals rfl

end Sys2Proof
end

