-- ==== Sys2Proof/Laws/Maps.lean ====
section
/-! SUPPORT. Sparse maps: every operation keeps the canonical form, and what a read returns after each. -/

namespace Sys2Proof.Machine

variable {α : Type}

/-! ## Order of the keys -/

/-- Every key of the map is above `lo`, and the keys rise. -/
def SMap.rises (lo : Option Nat) : SMap α → Prop
  | [] => True
  | (k, _) :: m => (∀ l, lo = some l → l < k) ∧ SMap.rises (some k) m

theorem SMap.wfFrom_iff [DecidableEq α] (d : α) (lo : Option Nat) (m : SMap α) :
    SMap.wfFrom d lo m = true ↔ SMap.rises lo m ∧ ∀ x ∈ m, x.2 ≠ d := by
  induction m generalizing lo with
  | nil => simp [SMap.wfFrom, SMap.rises]
  | cons x m ih =>
    obtain ⟨k, v⟩ := x
    cases lo <;> simp [SMap.wfFrom, SMap.rises, ih] <;> tauto

theorem SMap.rises_weaken {lo lo' : Option Nat} {m : SMap α} (h : SMap.rises lo m)
    (hl : ∀ l', lo' = some l' → ∃ l, lo = some l ∧ l' ≤ l) : SMap.rises lo' m := by
  cases m with
  | nil => trivial
  | cons x m =>
    refine ⟨fun l' hl' => ?_, h.2⟩
    obtain ⟨l, hl, hle⟩ := hl l' hl'
    exact lt_of_le_of_lt hle (h.1 l hl)

theorem SMap.rises_none {lo : Option Nat} {m : SMap α} (h : SMap.rises lo m) : SMap.rises none m :=
  SMap.rises_weaken h (fun _ h => by simp at h)

theorem SMap.rises_key {lo : Nat} {m : SMap α} (h : SMap.rises (some lo) m) : ∀ x ∈ m, lo < x.1 := by
  induction m generalizing lo with
  | nil => simp
  | cons x m ih =>
    intro y hy
    rcases List.mem_cons.1 hy with rfl | hy
    · exact h.1 lo rfl
    · exact lt_trans (h.1 lo rfl) (ih h.2 y hy)

theorem SMap.rises_of_keys {lo : Option Nat} {m : SMap α} (h : SMap.rises none m)
    (hk : ∀ l, lo = some l → ∀ x ∈ m, l < x.1) : SMap.rises lo m := by
  cases m with
  | nil => trivial
  | cons x m => exact ⟨fun l hl => hk l hl x (by simp), h.2⟩

theorem SMap.rises_append {m m' : SMap α} (h : SMap.rises none m) (h' : SMap.rises none m')
    (hk : ∀ x ∈ m, ∀ y ∈ m', x.1 < y.1) : SMap.rises none (m ++ m') := by
  induction m with
  | nil => exact h'
  | cons x m ih =>
    refine ⟨fun _ hl => by simp at hl, ?_⟩
    refine SMap.rises_of_keys (ih (SMap.rises_none h.2) (fun y hy => hk y (by simp [hy]))) ?_
    intro l hl y hy
    obtain rfl : x.1 = l := by simpa using hl
    rcases List.mem_append.1 hy with hy | hy
    · exact SMap.rises_key h.2 y hy
    · exact hk x (by simp) y hy

/-! ## `put`, `del` and `set` keep the form -/

theorem SMap.rises_put {lo : Option Nat} {m : SMap α} (k : Nat) (v : α) (h : SMap.rises lo m)
    (hk : ∀ l, lo = some l → l < k) : SMap.rises lo (SMap.put m k v) := by
  induction m generalizing lo with
  | nil => exact ⟨hk, trivial⟩
  | cons x m ih =>
    obtain ⟨k', v'⟩ := x
    simp only [SMap.put]
    split
    · subst ‹k = k'›; exact ⟨hk, h.2⟩
    · split
      · exact ⟨hk, ⟨fun l hl => by simp at hl; omega, h.2⟩⟩
      · exact ⟨h.1, ih h.2 (fun l hl => by simp at hl; omega)⟩

theorem SMap.rises_filter {lo : Option Nat} {m : SMap α} (p : Nat × α → Bool) (h : SMap.rises lo m) :
    SMap.rises lo (m.filter p) := by
  induction m generalizing lo with
  | nil => trivial
  | cons x m ih =>
    simp only [List.filter_cons]
    split
    · exact ⟨h.1, ih h.2⟩
    · exact SMap.rises_weaken (ih h.2) (fun l hl => ⟨x.1, rfl, le_of_lt (h.1 l hl)⟩)

theorem SMap.rises_del {lo : Option Nat} {m : SMap α} (k : Nat) (h : SMap.rises lo m) :
    SMap.rises lo (SMap.del m k) := SMap.rises_filter _ h

theorem SMap.mem_put {m : SMap α} {k : Nat} {v : α} {x : Nat × α} (h : x ∈ SMap.put m k v) :
    x = (k, v) ∨ x ∈ m := by
  induction m with
  | nil => simpa [SMap.put] using h
  | cons y m ih =>
    obtain ⟨k', v'⟩ := y
    simp only [SMap.put] at h
    split at h
    · rcases List.mem_cons.1 h with h | h <;> simp [h]
    · split at h
      · rcases List.mem_cons.1 h with h | h
        · exact .inl h
        · exact .inr h
      · rcases List.mem_cons.1 h with h | h
        · simp [h]
        · rcases ih h with h | h <;> simp [h]

theorem SMap.mem_del {m : SMap α} {k : Nat} {x : Nat × α} (h : x ∈ SMap.del m k) : x ∈ m :=
  (List.mem_filter.1 h).1

variable [DecidableEq α]

theorem SMap.wf_iff (d : α) (m : SMap α) : SMap.wf d m = true ↔ SMap.rises none m ∧ ∀ x ∈ m, x.2 ≠ d :=
  SMap.wfFrom_iff d none m

@[simp] theorem SMap.wf_nil (d : α) : SMap.wf d [] = true := rfl

theorem SMap.wf_del {d : α} {m : SMap α} (k : Nat) (h : SMap.wf d m = true) :
    SMap.wf d (SMap.del m k) = true := by
  rw [SMap.wf_iff] at *
  exact ⟨SMap.rises_del k h.1, fun x hx => h.2 x (SMap.mem_del hx)⟩

theorem SMap.wf_put {d : α} {m : SMap α} {k : Nat} {v : α} (h : SMap.wf d m = true) (hv : v ≠ d) :
    SMap.wf d (SMap.put m k v) = true := by
  rw [SMap.wf_iff] at *
  refine ⟨SMap.rises_put k v h.1 (by simp), fun x hx => ?_⟩
  rcases SMap.mem_put hx with rfl | hx
  · exact hv
  · exact h.2 x hx

/-- Writing a key keeps the canonical form. -/
theorem SMap.wf_set {d : α} {m : SMap α} (k : Nat) (v : α) (h : SMap.wf d m = true) :
    SMap.wf d (SMap.set d m k v) = true := by
  unfold SMap.set
  split
  · exact SMap.wf_del k h
  · exact SMap.wf_put h ‹_›

theorem SMap.wf_setMany {d : α} {m : SMap α} (k : Nat) (vs : List α) (h : SMap.wf d m = true) :
    SMap.wf d (SMap.setMany d m k vs) = true := by
  induction vs generalizing m k with
  | nil => exact h
  | cons v vs ih => exact ih (k + 1) (SMap.wf_set k v h)

/-! ## `putRun` keeps the form -/

theorem SMap.entries_keys (d : α) (k : Nat) (vs : List α) :
    ∀ x ∈ SMap.entries d k vs, k ≤ x.1 ∧ x.1 < k + vs.length ∧ x.2 ≠ d := by
  induction vs generalizing k with
  | nil => simp [SMap.entries]
  | cons v vs ih =>
    intro x hx
    simp only [SMap.entries] at hx
    split at hx
    · have := ih (k + 1) x hx; simp only [List.length_cons]; exact ⟨by omega, by omega, this.2.2⟩
    · rcases List.mem_cons.1 hx with rfl | hx
      · exact ⟨le_refl _, by simp, ‹_›⟩
      · have := ih (k + 1) x hx; simp only [List.length_cons]; exact ⟨by omega, by omega, this.2.2⟩

theorem SMap.rises_entries (d : α) (k : Nat) (vs : List α) : SMap.rises none (SMap.entries d k vs) := by
  induction vs generalizing k with
  | nil => trivial
  | cons v vs ih =>
    simp only [SMap.entries]
    split
    · exact ih (k + 1)
    · refine ⟨fun l hl => by simp at hl, SMap.rises_of_keys (ih (k + 1)) ?_⟩
      intro l hl x hx
      obtain rfl : k = l := by simpa using hl
      have := (SMap.entries_keys d (k + 1) vs x hx).1
      omega

theorem SMap.rises_takeWhile {lo : Option Nat} {m : SMap α} (p : Nat × α → Bool) (h : SMap.rises lo m) :
    SMap.rises lo (m.takeWhile p) := by
  induction m generalizing lo with
  | nil => trivial
  | cons x m ih =>
    simp only [List.takeWhile_cons]
    split
    · exact ⟨h.1, ih h.2⟩
    · trivial

theorem SMap.rises_upFrom {m : SMap α} (k : Nat) (h : SMap.rises none m) :
    SMap.rises none (m.upFrom k) ∧ ∀ x ∈ m.upFrom k, k ≤ x.1 := by
  induction m with
  | nil => exact ⟨trivial, by simp [SMap.upFrom]⟩
  | cons x m ih =>
    unfold SMap.upFrom at *
    simp only [List.dropWhile_cons]
    split
    · exact ih (SMap.rises_none h.2)
    · rename_i hx
      refine ⟨h, fun y hy => ?_⟩
      have hk : k ≤ x.1 := by simpa using hx
      rcases List.mem_cons.1 hy with rfl | hy
      · exact hk
      · exact le_trans hk (le_of_lt (SMap.rises_key h.2 y hy))

/-- Writing a run of keys at once keeps the canonical form. -/
theorem SMap.wf_putRun {d : α} {m : SMap α} (k : Nat) (vs : List α) (h : SMap.wf d m = true) :
    SMap.wf d (SMap.putRun d m k vs) = true := by
  rw [SMap.wf_iff] at *
  have hlow : ∀ x ∈ m.takeWhile (fun x => decide (x.1 < k)), x.1 < k := by
    intro x hx; simpa using List.mem_takeWhile_imp hx
  obtain ⟨hup, hge⟩ := SMap.rises_upFrom (k + vs.length) h.1
  refine ⟨?_, ?_⟩
  · refine SMap.rises_append (SMap.rises_append (SMap.rises_takeWhile _ h.1) (SMap.rises_entries d k vs) ?_)
      hup ?_
    · intro x hx y hy
      have := hlow x hx; have := (SMap.entries_keys d k vs y hy).1; omega
    · intro x hx y hy
      have := hge y hy
      rcases List.mem_append.1 hx with hx | hx
      · have := hlow x hx; omega
      · have := (SMap.entries_keys d k vs x hx).2.1; omega
  · intro x hx
    simp only [SMap.putRun, List.mem_append] at hx
    rcases hx with (hx | hx) | hx
    · exact h.2 x ((List.takeWhile_prefix _).subset hx)
    · exact (SMap.entries_keys d k vs x hx).2.2
    · exact h.2 x ((List.dropWhile_suffix _).subset hx)

/-! ## Reads after writes -/

omit [DecidableEq α] in
@[simp] theorem SMap.get_nil (d : α) (k : Nat) : SMap.get d [] k = d := rfl

omit [DecidableEq α] in
@[simp] theorem SMap.get_put_same (d : α) (m : SMap α) (k : Nat) (v : α) : SMap.get d (SMap.put m k v) k = v := by
  induction m with
  | nil => simp [SMap.put, SMap.get]
  | cons x m ih =>
    obtain ⟨k', v'⟩ := x
    simp only [SMap.put]
    split
    · simp [SMap.get]
    · split
      · simp [SMap.get]
      · simp [SMap.get, *]

omit [DecidableEq α] in
theorem SMap.get_put_other (d : α) (m : SMap α) {k j : Nat} (v : α) (h : j ≠ k) :
    SMap.get d (SMap.put m k v) j = SMap.get d m j := by
  induction m with
  | nil => simp [SMap.put, SMap.get, h]
  | cons x m ih =>
    obtain ⟨k', v'⟩ := x
    simp only [SMap.put]
    split
    · subst ‹k = k'›
      simp [SMap.get, h]
    · split
      · simp only [SMap.get, if_neg h]
        split
        · simp [show j ≠ k' by omega, show j < k' by omega]
        · rfl
      · simp only [SMap.get, ih]

omit [DecidableEq α] in
theorem SMap.get_above {d : α} {m : SMap α} {k lo : Nat} (h : SMap.rises (some lo) m) (hk : k ≤ lo) :
    SMap.get d m k = d := by
  cases m with
  | nil => rfl
  | cons x m =>
    have := h.1 lo rfl
    simp [SMap.get, show k ≠ x.1 by omega, show k < x.1 by omega]

omit [DecidableEq α] in
theorem SMap.get_del_same {d : α} {lo : Option Nat} {m : SMap α} (k : Nat) (h : SMap.rises lo m) :
    SMap.get d (SMap.del m k) k = d := by
  induction m generalizing lo with
  | nil => rfl
  | cons x m ih =>
    obtain ⟨k', v'⟩ := x
    simp only [SMap.del, List.filter_cons] at ih ⊢
    split
    · rename_i hx
      have hk : k ≠ k' := fun e => by simp [e] at hx
      simp only [SMap.get, if_neg hk]
      split
      · rfl
      · exact ih h.2
    · exact ih h.2

omit [DecidableEq α] in
theorem SMap.get_del_other {d : α} {lo : Option Nat} {m : SMap α} {k j : Nat} (h : SMap.rises lo m)
    (hj : j ≠ k) : SMap.get d (SMap.del m k) j = SMap.get d m j := by
  induction m generalizing lo with
  | nil => rfl
  | cons x m ih =>
    obtain ⟨k', v'⟩ := x
    simp only [SMap.del, List.filter_cons] at ih ⊢
    split
    · simp only [SMap.get, ih h.2]
    · rename_i hx
      obtain rfl : k' = k := by simpa using hx
      rw [ih h.2]
      simp only [SMap.get, if_neg hj]
      split
      · exact SMap.get_above h.2 (le_of_lt ‹_›)
      · rfl

/-- A read of the key written. -/
theorem SMap.get_set_same {d : α} {m : SMap α} (k : Nat) (v : α) (h : SMap.wf d m = true) :
    SMap.get d (SMap.set d m k v) k = v := by
  unfold SMap.set
  split
  · rw [SMap.get_del_same k ((SMap.wf_iff d m).1 h).1]; exact ‹v = d›.symm
  · simp

/-- A read of any other key. -/
theorem SMap.get_set_other {d : α} {m : SMap α} {k j : Nat} (v : α) (h : SMap.wf d m = true) (hj : j ≠ k) :
    SMap.get d (SMap.set d m k v) j = SMap.get d m j := by
  unfold SMap.set
  split
  · exact SMap.get_del_other ((SMap.wf_iff d m).1 h).1 hj
  · exact SMap.get_put_other d m v hj

/-- A write of one key, read anywhere. -/
theorem SMap.get_set {d : α} {m : SMap α} (k j : Nat) (v : α) (h : SMap.wf d m = true) :
    SMap.get d (SMap.set d m k v) j = if j = k then v else SMap.get d m j := by
  split
  · subst ‹j = k›; exact SMap.get_set_same j v h
  · exact SMap.get_set_other v h ‹_›

/-! ### Runs -/

omit [DecidableEq α] in
theorem SMap.get_append_low {d : α} {m m' : SMap α} {j : Nat} (h : ∀ x ∈ m', j < x.1) :
    SMap.get d (m ++ m') j = SMap.get d m j := by
  induction m with
  | nil =>
    cases m' with
    | nil => rfl
    | cons y m' => have := h y (by simp); simp [SMap.get, show j ≠ y.1 by omega, show j < y.1 by omega]
  | cons x m ih => simp only [List.cons_append, SMap.get, ih]

omit [DecidableEq α] in
theorem SMap.get_append_high {d : α} {m m' : SMap α} {j : Nat} (h : ∀ x ∈ m, x.1 < j) :
    SMap.get d (m ++ m') j = SMap.get d m' j := by
  induction m with
  | nil => rfl
  | cons x m ih =>
    have := h x (by simp)
    simp only [List.cons_append, SMap.get, if_neg (show ¬j = x.1 by omega), if_neg (show ¬j < x.1 by omega)]
    exact ih (fun y hy => h y (by simp [hy]))

omit [DecidableEq α] in
theorem SMap.get_takeWhile {d : α} {lo : Option Nat} {m : SMap α} {k j : Nat} (h : SMap.rises lo m) (hj : j < k) :
    SMap.get d (m.takeWhile (fun x => decide (x.1 < k))) j = SMap.get d m j := by
  induction m generalizing lo with
  | nil => rfl
  | cons x m ih =>
    simp only [List.takeWhile_cons]
    split
    · simp only [SMap.get, ih h.2]
    · rename_i hx
      have : k ≤ x.1 := by simpa using hx
      simp [SMap.get, show j ≠ x.1 by omega, show j < x.1 by omega]

omit [DecidableEq α] in
theorem SMap.get_upFrom {d : α} {lo : Option Nat} {m : SMap α} {k j : Nat} (h : SMap.rises lo m) (hj : k ≤ j) :
    SMap.get d (m.upFrom k) j = SMap.get d m j := by
  induction m generalizing lo with
  | nil => rfl
  | cons x m ih =>
    unfold SMap.upFrom at *
    simp only [List.dropWhile_cons]
    split
    · rename_i hx
      have : x.1 < k := by simpa using hx
      rw [ih h.2]
      simp [SMap.get, show j ≠ x.1 by omega, show ¬j < x.1 by omega]
    · rfl

theorem SMap.get_entries {d : α} (k j : Nat) (vs : List α) (h1 : k ≤ j) (h2 : j < k + vs.length) :
    SMap.get d (SMap.entries d k vs) j = vs.getD (j - k) d := by
  induction vs generalizing k with
  | nil => simp at h2; omega
  | cons v vs ih =>
    simp only [List.length_cons] at h2
    simp only [SMap.entries]
    rcases Nat.eq_or_lt_of_le h1 with rfl | hlt
    · rw [Nat.sub_self, List.getD_cons_zero]
      split
      · subst ‹v = d›
        have : ∀ x ∈ SMap.entries v (k + 1) vs, k < x.1 := fun x hx => (SMap.entries_keys v _ vs x hx).1
        simpa using SMap.get_append_low (d := v) (m := []) this
      · simp [SMap.get]
    · rw [show j - k = (j - (k + 1)) + 1 by omega, List.getD_cons_succ]
      split
      · exact ih (k + 1) hlt (by omega)
      · simp only [SMap.get, if_neg (show ¬j = k by omega), if_neg (show ¬j < k by omega)]
        exact ih (k + 1) hlt (by omega)

/-- Writing a run of keys at once, read anywhere. -/
theorem SMap.get_putRun {d : α} {m : SMap α} (k j : Nat) (vs : List α) (h : SMap.wf d m = true) :
    SMap.get d (SMap.putRun d m k vs) j =
      if k ≤ j ∧ j < k + vs.length then vs.getD (j - k) d else SMap.get d m j := by
  have hr := ((SMap.wf_iff d m).1 h).1
  obtain ⟨hup, hge⟩ := SMap.rises_upFrom (k + vs.length) hr
  have hlow : ∀ x ∈ m.takeWhile (fun x => decide (x.1 < k)), x.1 < k := by
    intro x hx; simpa using List.mem_takeWhile_imp hx
  unfold SMap.putRun
  split
  · rename_i hj
    rw [SMap.get_append_low (fun x hx => by have := hge x hx; omega),
      SMap.get_append_high (fun x hx => by have := hlow x hx; omega)]
    exact SMap.get_entries k j vs hj.1 hj.2
  · rename_i hj
    by_cases hlt : j < k
    · rw [List.append_assoc, SMap.get_append_low, SMap.get_takeWhile hr hlt]
      intro x hx
      rcases List.mem_append.1 hx with hx | hx
      · have := (SMap.entries_keys d k vs x hx).1; omega
      · have := hge x hx; omega
    · rw [SMap.get_append_high, SMap.get_upFrom hr (by omega)]
      intro x hx
      rcases List.mem_append.1 hx with hx | hx
      · have := hlow x hx; omega
      · have := (SMap.entries_keys d k vs x hx).2.1; omega

/-! ## Register files -/

omit [DecidableEq α] in
@[simp] theorem SMap.look_nil (d : α) (k : Nat) : SMap.look d [] k = d := rfl

omit [DecidableEq α] in
theorem SMap.look_put (d : α) (m : SMap α) (k j : Nat) (v : α) :
    SMap.look d (SMap.put m k v) j = if j = k then v else SMap.look d m j := by
  induction m with
  | nil => simp [SMap.put, SMap.look]
  | cons x m ih =>
    obtain ⟨k', v'⟩ := x
    simp only [SMap.put]
    split
    · subst ‹k = k'›
      simp only [SMap.look]; split <;> rfl
    · split
      · simp only [SMap.look]
      · simp only [SMap.look, ih]
        by_cases h : j = k'
        · simp [h, show k' ≠ k from fun e => ‹¬k = k'› e.symm]
        · simp [h]

omit [DecidableEq α] in
theorem SMap.look_del (d : α) (m : SMap α) (k j : Nat) :
    SMap.look d (SMap.del m k) j = if j = k then d else SMap.look d m j := by
  induction m with
  | nil => simp [SMap.del, SMap.look]
  | cons x m ih =>
    obtain ⟨k', v'⟩ := x
    simp only [SMap.del, List.filter_cons] at ih ⊢
    split
    · rename_i hx
      have hk : k' ≠ k := by simpa using hx
      simp only [SMap.look, ih]
      by_cases h : j = k'
      · simp [h, hk]
      · simp [h]
    · rename_i hx
      obtain rfl : k' = k := by simpa using hx
      rw [ih]
      simp only [SMap.look]
      split <;> rfl

/-- A register written, read anywhere. -/
theorem SMap.look_set (d : α) (m : SMap α) (k j : Nat) (v : α) :
    SMap.look d (SMap.set d m k v) j = if j = k then v else SMap.look d m j := by
  unfold SMap.set
  split
  · rw [SMap.look_del]; simp [*]
  · exact SMap.look_put d m k j v

end Sys2Proof.Machine
end

