-- ==== Sys2Proof/Laws/State.lean ====
section
/-! SUPPORT. What each update of the state leaves in each of its fields: one lemma for a field of an
update. -/

namespace Sys2Proof.Machine

variable (s : State)

/-! ## `setGrp` -/

@[simp] theorem State.setGrp_tick (g : Group) : (s.setGrp g).tick = s.tick := rfl
@[simp] theorem State.setGrp_timer (g : Group) : (s.setGrp g).timer = s.timer := rfl
@[simp] theorem State.setGrp_grp (g : Group) : (s.setGrp g).grp = g := rfl
@[simp] theorem State.setGrp_groups (g : Group) : (s.setGrp g).groups = s.groups := rfl
@[simp] theorem State.setGrp_teams (g : Group) : (s.setGrp g).teams = s.teams := rfl
@[simp] theorem State.setGrp_launches (g : Group) : (s.setGrp g).launches = s.launches := rfl
@[simp] theorem State.setGrp_ctxs (g : Group) : (s.setGrp g).ctxs = s.ctxs := rfl
@[simp] theorem State.setGrp_segs (g : Group) : (s.setGrp g).segs = s.segs := rfl
@[simp] theorem State.setGrp_conds (g : Group) : (s.setGrp g).conds = s.conds := rfl
@[simp] theorem State.setGrp_engOps (g : Group) : (s.setGrp g).engOps = s.engOps := rfl
@[simp] theorem State.setGrp_posted (g : Group) : (s.setGrp g).posted = s.posted := rfl
@[simp] theorem State.setGrp_parents (g : Group) : (s.setGrp g).parents = s.parents := rfl
@[simp] theorem State.setGrp_pool (g : Group) : (s.setGrp g).pool = s.pool := rfl
@[simp] theorem State.setGrp_queues (g : Group) : (s.setGrp g).queues = s.queues := rfl
@[simp] theorem State.setGrp_parts (g : Group) : (s.setGrp g).parts = s.parts := rfl
@[simp] theorem State.setGrp_beads (g : Group) : (s.setGrp g).beads = s.beads := rfl
@[simp] theorem State.setGrp_rods (g : Group) : (s.setGrp g).rods = s.rods := rfl
@[simp] theorem State.setGrp_cores (g : Group) : (s.setGrp g).cores = s.cores := rfl
@[simp] theorem State.setGrp_walkers (g : Group) : (s.setGrp g).walkers = s.walkers := rfl
@[simp] theorem State.setGrp_mem (g : Group) : (s.setGrp g).mem = s.mem := rfl
@[simp] theorem State.setGrp_poison (g : Group) : (s.setGrp g).poison = s.poison := rfl
@[simp] theorem State.setGrp_wmask (g : Group) : (s.setGrp g).wmask = s.wmask := rfl
@[simp] theorem State.setGrp_window (g : Group) : (s.setGrp g).window = s.window := rfl
@[simp] theorem State.setGrp_tgen (g : Group) : (s.setGrp g).tgen = s.tgen := rfl
@[simp] theorem State.setGrp_shoot (g : Group) : (s.setGrp g).shoot = s.shoot := rfl
@[simp] theorem State.setGrp_shootErr (g : Group) : (s.setGrp g).shootErr = s.shootErr := rfl
@[simp] theorem State.setGrp_doneGen (g : Group) : (s.setGrp g).doneGen = s.doneGen := rfl
@[simp] theorem State.setGrp_errcnt (g : Group) : (s.setGrp g).errcnt = s.errcnt := rfl
@[simp] theorem State.setGrp_modpwr (g : Group) : (s.setGrp g).modpwr = s.modpwr := rfl
@[simp] theorem State.setGrp_outside (g : Group) : (s.setGrp g).outside = s.outside := rfl
@[simp] theorem State.setGrp_overCap (g : Group) : (s.setGrp g).overCap = s.overCap := rfl
@[simp] theorem State.setGrp_scTicket (g : Group) : (s.setGrp g).scTicket = s.scTicket := rfl
@[simp] theorem State.setGrp_nextId (g : Group) : (s.setGrp g).nextId = s.nextId := rfl
@[simp] theorem State.setGrp_saved (g : Group) : (s.setGrp g).saved = s.saved := rfl
@[simp] theorem State.setGrp_flash (g : Group) : (s.setGrp g).flash = s.flash := rfl
@[simp] theorem State.setGrp_boot (g : Group) : (s.setGrp g).boot = s.boot := rfl
@[simp] theorem State.setGrp_out (g : Group) : (s.setGrp g).out = s.out := rfl
@[simp] theorem State.setGrp_agenda (g : Group) : (s.setGrp g).agenda = s.agenda := rfl

/-! ## `updTeam` -/

@[simp] theorem State.updTeam_tick (n : Nat) (f : Team → Team) : (s.updTeam n f).tick = s.tick := rfl
@[simp] theorem State.updTeam_timer (n : Nat) (f : Team → Team) : (s.updTeam n f).timer = s.timer := rfl
@[simp] theorem State.updTeam_grp (n : Nat) (f : Team → Team) : (s.updTeam n f).grp = s.grp := rfl
@[simp] theorem State.updTeam_groups (n : Nat) (f : Team → Team) : (s.updTeam n f).groups = s.groups := rfl
@[simp] theorem State.updTeam_teams (n : Nat) (f : Team → Team) : (s.updTeam n f).teams = s.teams.map (fun t => if t.tid = n then f t else t) := rfl
@[simp] theorem State.updTeam_launches (n : Nat) (f : Team → Team) : (s.updTeam n f).launches = s.launches := rfl
@[simp] theorem State.updTeam_ctxs (n : Nat) (f : Team → Team) : (s.updTeam n f).ctxs = s.ctxs := rfl
@[simp] theorem State.updTeam_segs (n : Nat) (f : Team → Team) : (s.updTeam n f).segs = s.segs := rfl
@[simp] theorem State.updTeam_conds (n : Nat) (f : Team → Team) : (s.updTeam n f).conds = s.conds := rfl
@[simp] theorem State.updTeam_engOps (n : Nat) (f : Team → Team) : (s.updTeam n f).engOps = s.engOps := rfl
@[simp] theorem State.updTeam_posted (n : Nat) (f : Team → Team) : (s.updTeam n f).posted = s.posted := rfl
@[simp] theorem State.updTeam_parents (n : Nat) (f : Team → Team) : (s.updTeam n f).parents = s.parents := rfl
@[simp] theorem State.updTeam_pool (n : Nat) (f : Team → Team) : (s.updTeam n f).pool = s.pool := rfl
@[simp] theorem State.updTeam_queues (n : Nat) (f : Team → Team) : (s.updTeam n f).queues = s.queues := rfl
@[simp] theorem State.updTeam_parts (n : Nat) (f : Team → Team) : (s.updTeam n f).parts = s.parts := rfl
@[simp] theorem State.updTeam_beads (n : Nat) (f : Team → Team) : (s.updTeam n f).beads = s.beads := rfl
@[simp] theorem State.updTeam_rods (n : Nat) (f : Team → Team) : (s.updTeam n f).rods = s.rods := rfl
@[simp] theorem State.updTeam_cores (n : Nat) (f : Team → Team) : (s.updTeam n f).cores = s.cores := rfl
@[simp] theorem State.updTeam_walkers (n : Nat) (f : Team → Team) : (s.updTeam n f).walkers = s.walkers := rfl
@[simp] theorem State.updTeam_mem (n : Nat) (f : Team → Team) : (s.updTeam n f).mem = s.mem := rfl
@[simp] theorem State.updTeam_poison (n : Nat) (f : Team → Team) : (s.updTeam n f).poison = s.poison := rfl
@[simp] theorem State.updTeam_wmask (n : Nat) (f : Team → Team) : (s.updTeam n f).wmask = s.wmask := rfl
@[simp] theorem State.updTeam_window (n : Nat) (f : Team → Team) : (s.updTeam n f).window = s.window := rfl
@[simp] theorem State.updTeam_tgen (n : Nat) (f : Team → Team) : (s.updTeam n f).tgen = s.tgen := rfl
@[simp] theorem State.updTeam_shoot (n : Nat) (f : Team → Team) : (s.updTeam n f).shoot = s.shoot := rfl
@[simp] theorem State.updTeam_shootErr (n : Nat) (f : Team → Team) : (s.updTeam n f).shootErr = s.shootErr := rfl
@[simp] theorem State.updTeam_doneGen (n : Nat) (f : Team → Team) : (s.updTeam n f).doneGen = s.doneGen := rfl
@[simp] theorem State.updTeam_errcnt (n : Nat) (f : Team → Team) : (s.updTeam n f).errcnt = s.errcnt := rfl
@[simp] theorem State.updTeam_modpwr (n : Nat) (f : Team → Team) : (s.updTeam n f).modpwr = s.modpwr := rfl
@[simp] theorem State.updTeam_outside (n : Nat) (f : Team → Team) : (s.updTeam n f).outside = s.outside := rfl
@[simp] theorem State.updTeam_overCap (n : Nat) (f : Team → Team) : (s.updTeam n f).overCap = s.overCap := rfl
@[simp] theorem State.updTeam_scTicket (n : Nat) (f : Team → Team) : (s.updTeam n f).scTicket = s.scTicket := rfl
@[simp] theorem State.updTeam_nextId (n : Nat) (f : Team → Team) : (s.updTeam n f).nextId = s.nextId := rfl
@[simp] theorem State.updTeam_saved (n : Nat) (f : Team → Team) : (s.updTeam n f).saved = s.saved := rfl
@[simp] theorem State.updTeam_flash (n : Nat) (f : Team → Team) : (s.updTeam n f).flash = s.flash := rfl
@[simp] theorem State.updTeam_boot (n : Nat) (f : Team → Team) : (s.updTeam n f).boot = s.boot := rfl
@[simp] theorem State.updTeam_out (n : Nat) (f : Team → Team) : (s.updTeam n f).out = s.out := rfl
@[simp] theorem State.updTeam_agenda (n : Nat) (f : Team → Team) : (s.updTeam n f).agenda = s.agenda := rfl

/-! ## `updLaunch` -/

@[simp] theorem State.updLaunch_tick (n : Nat) (f : Launch → Launch) : (s.updLaunch n f).tick = s.tick := rfl
@[simp] theorem State.updLaunch_timer (n : Nat) (f : Launch → Launch) : (s.updLaunch n f).timer = s.timer := rfl
@[simp] theorem State.updLaunch_grp (n : Nat) (f : Launch → Launch) : (s.updLaunch n f).grp = s.grp := rfl
@[simp] theorem State.updLaunch_groups (n : Nat) (f : Launch → Launch) : (s.updLaunch n f).groups = s.groups := rfl
@[simp] theorem State.updLaunch_teams (n : Nat) (f : Launch → Launch) : (s.updLaunch n f).teams = s.teams := rfl
@[simp] theorem State.updLaunch_launches (n : Nat) (f : Launch → Launch) : (s.updLaunch n f).launches = s.launches.map (fun l => if l.lid = n then f l else l) := rfl
@[simp] theorem State.updLaunch_ctxs (n : Nat) (f : Launch → Launch) : (s.updLaunch n f).ctxs = s.ctxs := rfl
@[simp] theorem State.updLaunch_segs (n : Nat) (f : Launch → Launch) : (s.updLaunch n f).segs = s.segs := rfl
@[simp] theorem State.updLaunch_conds (n : Nat) (f : Launch → Launch) : (s.updLaunch n f).conds = s.conds := rfl
@[simp] theorem State.updLaunch_engOps (n : Nat) (f : Launch → Launch) : (s.updLaunch n f).engOps = s.engOps := rfl
@[simp] theorem State.updLaunch_posted (n : Nat) (f : Launch → Launch) : (s.updLaunch n f).posted = s.posted := rfl
@[simp] theorem State.updLaunch_parents (n : Nat) (f : Launch → Launch) : (s.updLaunch n f).parents = s.parents := rfl
@[simp] theorem State.updLaunch_pool (n : Nat) (f : Launch → Launch) : (s.updLaunch n f).pool = s.pool := rfl
@[simp] theorem State.updLaunch_queues (n : Nat) (f : Launch → Launch) : (s.updLaunch n f).queues = s.queues := rfl
@[simp] theorem State.updLaunch_parts (n : Nat) (f : Launch → Launch) : (s.updLaunch n f).parts = s.parts := rfl
@[simp] theorem State.updLaunch_beads (n : Nat) (f : Launch → Launch) : (s.updLaunch n f).beads = s.beads := rfl
@[simp] theorem State.updLaunch_rods (n : Nat) (f : Launch → Launch) : (s.updLaunch n f).rods = s.rods := rfl
@[simp] theorem State.updLaunch_cores (n : Nat) (f : Launch → Launch) : (s.updLaunch n f).cores = s.cores := rfl
@[simp] theorem State.updLaunch_walkers (n : Nat) (f : Launch → Launch) : (s.updLaunch n f).walkers = s.walkers := rfl
@[simp] theorem State.updLaunch_mem (n : Nat) (f : Launch → Launch) : (s.updLaunch n f).mem = s.mem := rfl
@[simp] theorem State.updLaunch_poison (n : Nat) (f : Launch → Launch) : (s.updLaunch n f).poison = s.poison := rfl
@[simp] theorem State.updLaunch_wmask (n : Nat) (f : Launch → Launch) : (s.updLaunch n f).wmask = s.wmask := rfl
@[simp] theorem State.updLaunch_window (n : Nat) (f : Launch → Launch) : (s.updLaunch n f).window = s.window := rfl
@[simp] theorem State.updLaunch_tgen (n : Nat) (f : Launch → Launch) : (s.updLaunch n f).tgen = s.tgen := rfl
@[simp] theorem State.updLaunch_shoot (n : Nat) (f : Launch → Launch) : (s.updLaunch n f).shoot = s.shoot := rfl
@[simp] theorem State.updLaunch_shootErr (n : Nat) (f : Launch → Launch) : (s.updLaunch n f).shootErr = s.shootErr := rfl
@[simp] theorem State.updLaunch_doneGen (n : Nat) (f : Launch → Launch) : (s.updLaunch n f).doneGen = s.doneGen := rfl
@[simp] theorem State.updLaunch_errcnt (n : Nat) (f : Launch → Launch) : (s.updLaunch n f).errcnt = s.errcnt := rfl
@[simp] theorem State.updLaunch_modpwr (n : Nat) (f : Launch → Launch) : (s.updLaunch n f).modpwr = s.modpwr := rfl
@[simp] theorem State.updLaunch_outside (n : Nat) (f : Launch → Launch) : (s.updLaunch n f).outside = s.outside := rfl
@[simp] theorem State.updLaunch_overCap (n : Nat) (f : Launch → Launch) : (s.updLaunch n f).overCap = s.overCap := rfl
@[simp] theorem State.updLaunch_scTicket (n : Nat) (f : Launch → Launch) : (s.updLaunch n f).scTicket = s.scTicket := rfl
@[simp] theorem State.updLaunch_nextId (n : Nat) (f : Launch → Launch) : (s.updLaunch n f).nextId = s.nextId := rfl
@[simp] theorem State.updLaunch_saved (n : Nat) (f : Launch → Launch) : (s.updLaunch n f).saved = s.saved := rfl
@[simp] theorem State.updLaunch_flash (n : Nat) (f : Launch → Launch) : (s.updLaunch n f).flash = s.flash := rfl
@[simp] theorem State.updLaunch_boot (n : Nat) (f : Launch → Launch) : (s.updLaunch n f).boot = s.boot := rfl
@[simp] theorem State.updLaunch_out (n : Nat) (f : Launch → Launch) : (s.updLaunch n f).out = s.out := rfl
@[simp] theorem State.updLaunch_agenda (n : Nat) (f : Launch → Launch) : (s.updLaunch n f).agenda = s.agenda := rfl

/-! ## `updCtx` -/

@[simp] theorem State.updCtx_tick (n : Nat) (f : Ctx → Ctx) : (s.updCtx n f).tick = s.tick := rfl
@[simp] theorem State.updCtx_timer (n : Nat) (f : Ctx → Ctx) : (s.updCtx n f).timer = s.timer := rfl
@[simp] theorem State.updCtx_grp (n : Nat) (f : Ctx → Ctx) : (s.updCtx n f).grp = s.grp := rfl
@[simp] theorem State.updCtx_groups (n : Nat) (f : Ctx → Ctx) : (s.updCtx n f).groups = s.groups := rfl
@[simp] theorem State.updCtx_teams (n : Nat) (f : Ctx → Ctx) : (s.updCtx n f).teams = s.teams := rfl
@[simp] theorem State.updCtx_launches (n : Nat) (f : Ctx → Ctx) : (s.updCtx n f).launches = s.launches := rfl
@[simp] theorem State.updCtx_ctxs (n : Nat) (f : Ctx → Ctx) : (s.updCtx n f).ctxs = SMap.upd s.ctxs n f := rfl
@[simp] theorem State.updCtx_segs (n : Nat) (f : Ctx → Ctx) : (s.updCtx n f).segs = s.segs := rfl
@[simp] theorem State.updCtx_conds (n : Nat) (f : Ctx → Ctx) : (s.updCtx n f).conds = s.conds := rfl
@[simp] theorem State.updCtx_engOps (n : Nat) (f : Ctx → Ctx) : (s.updCtx n f).engOps = s.engOps := rfl
@[simp] theorem State.updCtx_posted (n : Nat) (f : Ctx → Ctx) : (s.updCtx n f).posted = s.posted := rfl
@[simp] theorem State.updCtx_parents (n : Nat) (f : Ctx → Ctx) : (s.updCtx n f).parents = s.parents := rfl
@[simp] theorem State.updCtx_pool (n : Nat) (f : Ctx → Ctx) : (s.updCtx n f).pool = s.pool := rfl
@[simp] theorem State.updCtx_queues (n : Nat) (f : Ctx → Ctx) : (s.updCtx n f).queues = s.queues := rfl
@[simp] theorem State.updCtx_parts (n : Nat) (f : Ctx → Ctx) : (s.updCtx n f).parts = s.parts := rfl
@[simp] theorem State.updCtx_beads (n : Nat) (f : Ctx → Ctx) : (s.updCtx n f).beads = s.beads := rfl
@[simp] theorem State.updCtx_rods (n : Nat) (f : Ctx → Ctx) : (s.updCtx n f).rods = s.rods := rfl
@[simp] theorem State.updCtx_cores (n : Nat) (f : Ctx → Ctx) : (s.updCtx n f).cores = s.cores := rfl
@[simp] theorem State.updCtx_walkers (n : Nat) (f : Ctx → Ctx) : (s.updCtx n f).walkers = s.walkers := rfl
@[simp] theorem State.updCtx_mem (n : Nat) (f : Ctx → Ctx) : (s.updCtx n f).mem = s.mem := rfl
@[simp] theorem State.updCtx_poison (n : Nat) (f : Ctx → Ctx) : (s.updCtx n f).poison = s.poison := rfl
@[simp] theorem State.updCtx_wmask (n : Nat) (f : Ctx → Ctx) : (s.updCtx n f).wmask = s.wmask := rfl
@[simp] theorem State.updCtx_window (n : Nat) (f : Ctx → Ctx) : (s.updCtx n f).window = s.window := rfl
@[simp] theorem State.updCtx_tgen (n : Nat) (f : Ctx → Ctx) : (s.updCtx n f).tgen = s.tgen := rfl
@[simp] theorem State.updCtx_shoot (n : Nat) (f : Ctx → Ctx) : (s.updCtx n f).shoot = s.shoot := rfl
@[simp] theorem State.updCtx_shootErr (n : Nat) (f : Ctx → Ctx) : (s.updCtx n f).shootErr = s.shootErr := rfl
@[simp] theorem State.updCtx_doneGen (n : Nat) (f : Ctx → Ctx) : (s.updCtx n f).doneGen = s.doneGen := rfl
@[simp] theorem State.updCtx_errcnt (n : Nat) (f : Ctx → Ctx) : (s.updCtx n f).errcnt = s.errcnt := rfl
@[simp] theorem State.updCtx_modpwr (n : Nat) (f : Ctx → Ctx) : (s.updCtx n f).modpwr = s.modpwr := rfl
@[simp] theorem State.updCtx_outside (n : Nat) (f : Ctx → Ctx) : (s.updCtx n f).outside = s.outside := rfl
@[simp] theorem State.updCtx_overCap (n : Nat) (f : Ctx → Ctx) : (s.updCtx n f).overCap = s.overCap := rfl
@[simp] theorem State.updCtx_scTicket (n : Nat) (f : Ctx → Ctx) : (s.updCtx n f).scTicket = s.scTicket := rfl
@[simp] theorem State.updCtx_nextId (n : Nat) (f : Ctx → Ctx) : (s.updCtx n f).nextId = s.nextId := rfl
@[simp] theorem State.updCtx_saved (n : Nat) (f : Ctx → Ctx) : (s.updCtx n f).saved = s.saved := rfl
@[simp] theorem State.updCtx_flash (n : Nat) (f : Ctx → Ctx) : (s.updCtx n f).flash = s.flash := rfl
@[simp] theorem State.updCtx_boot (n : Nat) (f : Ctx → Ctx) : (s.updCtx n f).boot = s.boot := rfl
@[simp] theorem State.updCtx_out (n : Nat) (f : Ctx → Ctx) : (s.updCtx n f).out = s.out := rfl
@[simp] theorem State.updCtx_agenda (n : Nat) (f : Ctx → Ctx) : (s.updCtx n f).agenda = s.agenda := rfl

/-! ## `updBead` -/

@[simp] theorem State.updBead_tick (n : Nat) (f : Bead → Bead) : (s.updBead n f).tick = s.tick := rfl
@[simp] theorem State.updBead_timer (n : Nat) (f : Bead → Bead) : (s.updBead n f).timer = s.timer := rfl
@[simp] theorem State.updBead_grp (n : Nat) (f : Bead → Bead) : (s.updBead n f).grp = s.grp := rfl
@[simp] theorem State.updBead_groups (n : Nat) (f : Bead → Bead) : (s.updBead n f).groups = s.groups := rfl
@[simp] theorem State.updBead_teams (n : Nat) (f : Bead → Bead) : (s.updBead n f).teams = s.teams := rfl
@[simp] theorem State.updBead_launches (n : Nat) (f : Bead → Bead) : (s.updBead n f).launches = s.launches := rfl
@[simp] theorem State.updBead_ctxs (n : Nat) (f : Bead → Bead) : (s.updBead n f).ctxs = s.ctxs := rfl
@[simp] theorem State.updBead_segs (n : Nat) (f : Bead → Bead) : (s.updBead n f).segs = s.segs := rfl
@[simp] theorem State.updBead_conds (n : Nat) (f : Bead → Bead) : (s.updBead n f).conds = s.conds := rfl
@[simp] theorem State.updBead_engOps (n : Nat) (f : Bead → Bead) : (s.updBead n f).engOps = s.engOps := rfl
@[simp] theorem State.updBead_posted (n : Nat) (f : Bead → Bead) : (s.updBead n f).posted = s.posted := rfl
@[simp] theorem State.updBead_parents (n : Nat) (f : Bead → Bead) : (s.updBead n f).parents = s.parents := rfl
@[simp] theorem State.updBead_pool (n : Nat) (f : Bead → Bead) : (s.updBead n f).pool = s.pool := rfl
@[simp] theorem State.updBead_queues (n : Nat) (f : Bead → Bead) : (s.updBead n f).queues = s.queues := rfl
@[simp] theorem State.updBead_parts (n : Nat) (f : Bead → Bead) : (s.updBead n f).parts = s.parts := rfl
@[simp] theorem State.updBead_beads (n : Nat) (f : Bead → Bead) : (s.updBead n f).beads = SMap.set {} s.beads n (f (s.bead n)) := rfl
@[simp] theorem State.updBead_rods (n : Nat) (f : Bead → Bead) : (s.updBead n f).rods = s.rods := rfl
@[simp] theorem State.updBead_cores (n : Nat) (f : Bead → Bead) : (s.updBead n f).cores = s.cores := rfl
@[simp] theorem State.updBead_walkers (n : Nat) (f : Bead → Bead) : (s.updBead n f).walkers = s.walkers := rfl
@[simp] theorem State.updBead_mem (n : Nat) (f : Bead → Bead) : (s.updBead n f).mem = s.mem := rfl
@[simp] theorem State.updBead_poison (n : Nat) (f : Bead → Bead) : (s.updBead n f).poison = s.poison := rfl
@[simp] theorem State.updBead_wmask (n : Nat) (f : Bead → Bead) : (s.updBead n f).wmask = s.wmask := rfl
@[simp] theorem State.updBead_window (n : Nat) (f : Bead → Bead) : (s.updBead n f).window = s.window := rfl
@[simp] theorem State.updBead_tgen (n : Nat) (f : Bead → Bead) : (s.updBead n f).tgen = s.tgen := rfl
@[simp] theorem State.updBead_shoot (n : Nat) (f : Bead → Bead) : (s.updBead n f).shoot = s.shoot := rfl
@[simp] theorem State.updBead_shootErr (n : Nat) (f : Bead → Bead) : (s.updBead n f).shootErr = s.shootErr := rfl
@[simp] theorem State.updBead_doneGen (n : Nat) (f : Bead → Bead) : (s.updBead n f).doneGen = s.doneGen := rfl
@[simp] theorem State.updBead_errcnt (n : Nat) (f : Bead → Bead) : (s.updBead n f).errcnt = s.errcnt := rfl
@[simp] theorem State.updBead_modpwr (n : Nat) (f : Bead → Bead) : (s.updBead n f).modpwr = s.modpwr := rfl
@[simp] theorem State.updBead_outside (n : Nat) (f : Bead → Bead) : (s.updBead n f).outside = s.outside := rfl
@[simp] theorem State.updBead_overCap (n : Nat) (f : Bead → Bead) : (s.updBead n f).overCap = s.overCap := rfl
@[simp] theorem State.updBead_scTicket (n : Nat) (f : Bead → Bead) : (s.updBead n f).scTicket = s.scTicket := rfl
@[simp] theorem State.updBead_nextId (n : Nat) (f : Bead → Bead) : (s.updBead n f).nextId = s.nextId := rfl
@[simp] theorem State.updBead_saved (n : Nat) (f : Bead → Bead) : (s.updBead n f).saved = s.saved := rfl
@[simp] theorem State.updBead_flash (n : Nat) (f : Bead → Bead) : (s.updBead n f).flash = s.flash := rfl
@[simp] theorem State.updBead_boot (n : Nat) (f : Bead → Bead) : (s.updBead n f).boot = s.boot := rfl
@[simp] theorem State.updBead_out (n : Nat) (f : Bead → Bead) : (s.updBead n f).out = s.out := rfl
@[simp] theorem State.updBead_agenda (n : Nat) (f : Bead → Bead) : (s.updBead n f).agenda = s.agenda := rfl

/-! ## `updRod` -/

@[simp] theorem State.updRod_tick (n : Nat) (f : Rod → Rod) : (s.updRod n f).tick = s.tick := rfl
@[simp] theorem State.updRod_timer (n : Nat) (f : Rod → Rod) : (s.updRod n f).timer = s.timer := rfl
@[simp] theorem State.updRod_grp (n : Nat) (f : Rod → Rod) : (s.updRod n f).grp = s.grp := rfl
@[simp] theorem State.updRod_groups (n : Nat) (f : Rod → Rod) : (s.updRod n f).groups = s.groups := rfl
@[simp] theorem State.updRod_teams (n : Nat) (f : Rod → Rod) : (s.updRod n f).teams = s.teams := rfl
@[simp] theorem State.updRod_launches (n : Nat) (f : Rod → Rod) : (s.updRod n f).launches = s.launches := rfl
@[simp] theorem State.updRod_ctxs (n : Nat) (f : Rod → Rod) : (s.updRod n f).ctxs = s.ctxs := rfl
@[simp] theorem State.updRod_segs (n : Nat) (f : Rod → Rod) : (s.updRod n f).segs = s.segs := rfl
@[simp] theorem State.updRod_conds (n : Nat) (f : Rod → Rod) : (s.updRod n f).conds = s.conds := rfl
@[simp] theorem State.updRod_engOps (n : Nat) (f : Rod → Rod) : (s.updRod n f).engOps = s.engOps := rfl
@[simp] theorem State.updRod_posted (n : Nat) (f : Rod → Rod) : (s.updRod n f).posted = s.posted := rfl
@[simp] theorem State.updRod_parents (n : Nat) (f : Rod → Rod) : (s.updRod n f).parents = s.parents := rfl
@[simp] theorem State.updRod_pool (n : Nat) (f : Rod → Rod) : (s.updRod n f).pool = s.pool := rfl
@[simp] theorem State.updRod_queues (n : Nat) (f : Rod → Rod) : (s.updRod n f).queues = s.queues := rfl
@[simp] theorem State.updRod_parts (n : Nat) (f : Rod → Rod) : (s.updRod n f).parts = s.parts := rfl
@[simp] theorem State.updRod_beads (n : Nat) (f : Rod → Rod) : (s.updRod n f).beads = s.beads := rfl
@[simp] theorem State.updRod_rods (n : Nat) (f : Rod → Rod) : (s.updRod n f).rods = SMap.set {} s.rods n (f (s.rod n)) := rfl
@[simp] theorem State.updRod_cores (n : Nat) (f : Rod → Rod) : (s.updRod n f).cores = s.cores := rfl
@[simp] theorem State.updRod_walkers (n : Nat) (f : Rod → Rod) : (s.updRod n f).walkers = s.walkers := rfl
@[simp] theorem State.updRod_mem (n : Nat) (f : Rod → Rod) : (s.updRod n f).mem = s.mem := rfl
@[simp] theorem State.updRod_poison (n : Nat) (f : Rod → Rod) : (s.updRod n f).poison = s.poison := rfl
@[simp] theorem State.updRod_wmask (n : Nat) (f : Rod → Rod) : (s.updRod n f).wmask = s.wmask := rfl
@[simp] theorem State.updRod_window (n : Nat) (f : Rod → Rod) : (s.updRod n f).window = s.window := rfl
@[simp] theorem State.updRod_tgen (n : Nat) (f : Rod → Rod) : (s.updRod n f).tgen = s.tgen := rfl
@[simp] theorem State.updRod_shoot (n : Nat) (f : Rod → Rod) : (s.updRod n f).shoot = s.shoot := rfl
@[simp] theorem State.updRod_shootErr (n : Nat) (f : Rod → Rod) : (s.updRod n f).shootErr = s.shootErr := rfl
@[simp] theorem State.updRod_doneGen (n : Nat) (f : Rod → Rod) : (s.updRod n f).doneGen = s.doneGen := rfl
@[simp] theorem State.updRod_errcnt (n : Nat) (f : Rod → Rod) : (s.updRod n f).errcnt = s.errcnt := rfl
@[simp] theorem State.updRod_modpwr (n : Nat) (f : Rod → Rod) : (s.updRod n f).modpwr = s.modpwr := rfl
@[simp] theorem State.updRod_outside (n : Nat) (f : Rod → Rod) : (s.updRod n f).outside = s.outside := rfl
@[simp] theorem State.updRod_overCap (n : Nat) (f : Rod → Rod) : (s.updRod n f).overCap = s.overCap := rfl
@[simp] theorem State.updRod_scTicket (n : Nat) (f : Rod → Rod) : (s.updRod n f).scTicket = s.scTicket := rfl
@[simp] theorem State.updRod_nextId (n : Nat) (f : Rod → Rod) : (s.updRod n f).nextId = s.nextId := rfl
@[simp] theorem State.updRod_saved (n : Nat) (f : Rod → Rod) : (s.updRod n f).saved = s.saved := rfl
@[simp] theorem State.updRod_flash (n : Nat) (f : Rod → Rod) : (s.updRod n f).flash = s.flash := rfl
@[simp] theorem State.updRod_boot (n : Nat) (f : Rod → Rod) : (s.updRod n f).boot = s.boot := rfl
@[simp] theorem State.updRod_out (n : Nat) (f : Rod → Rod) : (s.updRod n f).out = s.out := rfl
@[simp] theorem State.updRod_agenda (n : Nat) (f : Rod → Rod) : (s.updRod n f).agenda = s.agenda := rfl

/-! ## `updCore` -/

@[simp] theorem State.updCore_tick (n : Nat) (f : Core → Core) : (s.updCore n f).tick = s.tick := rfl
@[simp] theorem State.updCore_timer (n : Nat) (f : Core → Core) : (s.updCore n f).timer = s.timer := rfl
@[simp] theorem State.updCore_grp (n : Nat) (f : Core → Core) : (s.updCore n f).grp = s.grp := rfl
@[simp] theorem State.updCore_groups (n : Nat) (f : Core → Core) : (s.updCore n f).groups = s.groups := rfl
@[simp] theorem State.updCore_teams (n : Nat) (f : Core → Core) : (s.updCore n f).teams = s.teams := rfl
@[simp] theorem State.updCore_launches (n : Nat) (f : Core → Core) : (s.updCore n f).launches = s.launches := rfl
@[simp] theorem State.updCore_ctxs (n : Nat) (f : Core → Core) : (s.updCore n f).ctxs = s.ctxs := rfl
@[simp] theorem State.updCore_segs (n : Nat) (f : Core → Core) : (s.updCore n f).segs = s.segs := rfl
@[simp] theorem State.updCore_conds (n : Nat) (f : Core → Core) : (s.updCore n f).conds = s.conds := rfl
@[simp] theorem State.updCore_engOps (n : Nat) (f : Core → Core) : (s.updCore n f).engOps = s.engOps := rfl
@[simp] theorem State.updCore_posted (n : Nat) (f : Core → Core) : (s.updCore n f).posted = s.posted := rfl
@[simp] theorem State.updCore_parents (n : Nat) (f : Core → Core) : (s.updCore n f).parents = s.parents := rfl
@[simp] theorem State.updCore_pool (n : Nat) (f : Core → Core) : (s.updCore n f).pool = s.pool := rfl
@[simp] theorem State.updCore_queues (n : Nat) (f : Core → Core) : (s.updCore n f).queues = s.queues := rfl
@[simp] theorem State.updCore_parts (n : Nat) (f : Core → Core) : (s.updCore n f).parts = s.parts := rfl
@[simp] theorem State.updCore_beads (n : Nat) (f : Core → Core) : (s.updCore n f).beads = s.beads := rfl
@[simp] theorem State.updCore_rods (n : Nat) (f : Core → Core) : (s.updCore n f).rods = s.rods := rfl
@[simp] theorem State.updCore_cores (n : Nat) (f : Core → Core) : (s.updCore n f).cores = SMap.set {} s.cores n (f (s.core n)) := rfl
@[simp] theorem State.updCore_walkers (n : Nat) (f : Core → Core) : (s.updCore n f).walkers = s.walkers := rfl
@[simp] theorem State.updCore_mem (n : Nat) (f : Core → Core) : (s.updCore n f).mem = s.mem := rfl
@[simp] theorem State.updCore_poison (n : Nat) (f : Core → Core) : (s.updCore n f).poison = s.poison := rfl
@[simp] theorem State.updCore_wmask (n : Nat) (f : Core → Core) : (s.updCore n f).wmask = s.wmask := rfl
@[simp] theorem State.updCore_window (n : Nat) (f : Core → Core) : (s.updCore n f).window = s.window := rfl
@[simp] theorem State.updCore_tgen (n : Nat) (f : Core → Core) : (s.updCore n f).tgen = s.tgen := rfl
@[simp] theorem State.updCore_shoot (n : Nat) (f : Core → Core) : (s.updCore n f).shoot = s.shoot := rfl
@[simp] theorem State.updCore_shootErr (n : Nat) (f : Core → Core) : (s.updCore n f).shootErr = s.shootErr := rfl
@[simp] theorem State.updCore_doneGen (n : Nat) (f : Core → Core) : (s.updCore n f).doneGen = s.doneGen := rfl
@[simp] theorem State.updCore_errcnt (n : Nat) (f : Core → Core) : (s.updCore n f).errcnt = s.errcnt := rfl
@[simp] theorem State.updCore_modpwr (n : Nat) (f : Core → Core) : (s.updCore n f).modpwr = s.modpwr := rfl
@[simp] theorem State.updCore_outside (n : Nat) (f : Core → Core) : (s.updCore n f).outside = s.outside := rfl
@[simp] theorem State.updCore_overCap (n : Nat) (f : Core → Core) : (s.updCore n f).overCap = s.overCap := rfl
@[simp] theorem State.updCore_scTicket (n : Nat) (f : Core → Core) : (s.updCore n f).scTicket = s.scTicket := rfl
@[simp] theorem State.updCore_nextId (n : Nat) (f : Core → Core) : (s.updCore n f).nextId = s.nextId := rfl
@[simp] theorem State.updCore_saved (n : Nat) (f : Core → Core) : (s.updCore n f).saved = s.saved := rfl
@[simp] theorem State.updCore_flash (n : Nat) (f : Core → Core) : (s.updCore n f).flash = s.flash := rfl
@[simp] theorem State.updCore_boot (n : Nat) (f : Core → Core) : (s.updCore n f).boot = s.boot := rfl
@[simp] theorem State.updCore_out (n : Nat) (f : Core → Core) : (s.updCore n f).out = s.out := rfl
@[simp] theorem State.updCore_agenda (n : Nat) (f : Core → Core) : (s.updCore n f).agenda = s.agenda := rfl

/-! ## `updPart` -/

@[simp] theorem State.updPart_tick (n : Nat) (f : Part → Part) : (s.updPart n f).tick = s.tick := rfl
@[simp] theorem State.updPart_timer (n : Nat) (f : Part → Part) : (s.updPart n f).timer = s.timer := rfl
@[simp] theorem State.updPart_grp (n : Nat) (f : Part → Part) : (s.updPart n f).grp = s.grp := rfl
@[simp] theorem State.updPart_groups (n : Nat) (f : Part → Part) : (s.updPart n f).groups = s.groups := rfl
@[simp] theorem State.updPart_teams (n : Nat) (f : Part → Part) : (s.updPart n f).teams = s.teams := rfl
@[simp] theorem State.updPart_launches (n : Nat) (f : Part → Part) : (s.updPart n f).launches = s.launches := rfl
@[simp] theorem State.updPart_ctxs (n : Nat) (f : Part → Part) : (s.updPart n f).ctxs = s.ctxs := rfl
@[simp] theorem State.updPart_segs (n : Nat) (f : Part → Part) : (s.updPart n f).segs = s.segs := rfl
@[simp] theorem State.updPart_conds (n : Nat) (f : Part → Part) : (s.updPart n f).conds = s.conds := rfl
@[simp] theorem State.updPart_engOps (n : Nat) (f : Part → Part) : (s.updPart n f).engOps = s.engOps := rfl
@[simp] theorem State.updPart_posted (n : Nat) (f : Part → Part) : (s.updPart n f).posted = s.posted := rfl
@[simp] theorem State.updPart_parents (n : Nat) (f : Part → Part) : (s.updPart n f).parents = s.parents := rfl
@[simp] theorem State.updPart_pool (n : Nat) (f : Part → Part) : (s.updPart n f).pool = s.pool := rfl
@[simp] theorem State.updPart_queues (n : Nat) (f : Part → Part) : (s.updPart n f).queues = s.queues := rfl
@[simp] theorem State.updPart_parts (n : Nat) (f : Part → Part) : (s.updPart n f).parts = SMap.set {} s.parts n (f (s.part n)) := rfl
@[simp] theorem State.updPart_beads (n : Nat) (f : Part → Part) : (s.updPart n f).beads = s.beads := rfl
@[simp] theorem State.updPart_rods (n : Nat) (f : Part → Part) : (s.updPart n f).rods = s.rods := rfl
@[simp] theorem State.updPart_cores (n : Nat) (f : Part → Part) : (s.updPart n f).cores = s.cores := rfl
@[simp] theorem State.updPart_walkers (n : Nat) (f : Part → Part) : (s.updPart n f).walkers = s.walkers := rfl
@[simp] theorem State.updPart_mem (n : Nat) (f : Part → Part) : (s.updPart n f).mem = s.mem := rfl
@[simp] theorem State.updPart_poison (n : Nat) (f : Part → Part) : (s.updPart n f).poison = s.poison := rfl
@[simp] theorem State.updPart_wmask (n : Nat) (f : Part → Part) : (s.updPart n f).wmask = s.wmask := rfl
@[simp] theorem State.updPart_window (n : Nat) (f : Part → Part) : (s.updPart n f).window = s.window := rfl
@[simp] theorem State.updPart_tgen (n : Nat) (f : Part → Part) : (s.updPart n f).tgen = s.tgen := rfl
@[simp] theorem State.updPart_shoot (n : Nat) (f : Part → Part) : (s.updPart n f).shoot = s.shoot := rfl
@[simp] theorem State.updPart_shootErr (n : Nat) (f : Part → Part) : (s.updPart n f).shootErr = s.shootErr := rfl
@[simp] theorem State.updPart_doneGen (n : Nat) (f : Part → Part) : (s.updPart n f).doneGen = s.doneGen := rfl
@[simp] theorem State.updPart_errcnt (n : Nat) (f : Part → Part) : (s.updPart n f).errcnt = s.errcnt := rfl
@[simp] theorem State.updPart_modpwr (n : Nat) (f : Part → Part) : (s.updPart n f).modpwr = s.modpwr := rfl
@[simp] theorem State.updPart_outside (n : Nat) (f : Part → Part) : (s.updPart n f).outside = s.outside := rfl
@[simp] theorem State.updPart_overCap (n : Nat) (f : Part → Part) : (s.updPart n f).overCap = s.overCap := rfl
@[simp] theorem State.updPart_scTicket (n : Nat) (f : Part → Part) : (s.updPart n f).scTicket = s.scTicket := rfl
@[simp] theorem State.updPart_nextId (n : Nat) (f : Part → Part) : (s.updPart n f).nextId = s.nextId := rfl
@[simp] theorem State.updPart_saved (n : Nat) (f : Part → Part) : (s.updPart n f).saved = s.saved := rfl
@[simp] theorem State.updPart_flash (n : Nat) (f : Part → Part) : (s.updPart n f).flash = s.flash := rfl
@[simp] theorem State.updPart_boot (n : Nat) (f : Part → Part) : (s.updPart n f).boot = s.boot := rfl
@[simp] theorem State.updPart_out (n : Nat) (f : Part → Part) : (s.updPart n f).out = s.out := rfl
@[simp] theorem State.updPart_agenda (n : Nat) (f : Part → Part) : (s.updPart n f).agenda = s.agenda := rfl

/-! ## `updQueue` -/

@[simp] theorem State.updQueue_tick (n : Nat) (f : Queue → Queue) : (s.updQueue n f).tick = s.tick := rfl
@[simp] theorem State.updQueue_timer (n : Nat) (f : Queue → Queue) : (s.updQueue n f).timer = s.timer := rfl
@[simp] theorem State.updQueue_grp (n : Nat) (f : Queue → Queue) : (s.updQueue n f).grp = s.grp := rfl
@[simp] theorem State.updQueue_groups (n : Nat) (f : Queue → Queue) : (s.updQueue n f).groups = s.groups := rfl
@[simp] theorem State.updQueue_teams (n : Nat) (f : Queue → Queue) : (s.updQueue n f).teams = s.teams := rfl
@[simp] theorem State.updQueue_launches (n : Nat) (f : Queue → Queue) : (s.updQueue n f).launches = s.launches := rfl
@[simp] theorem State.updQueue_ctxs (n : Nat) (f : Queue → Queue) : (s.updQueue n f).ctxs = s.ctxs := rfl
@[simp] theorem State.updQueue_segs (n : Nat) (f : Queue → Queue) : (s.updQueue n f).segs = s.segs := rfl
@[simp] theorem State.updQueue_conds (n : Nat) (f : Queue → Queue) : (s.updQueue n f).conds = s.conds := rfl
@[simp] theorem State.updQueue_engOps (n : Nat) (f : Queue → Queue) : (s.updQueue n f).engOps = s.engOps := rfl
@[simp] theorem State.updQueue_posted (n : Nat) (f : Queue → Queue) : (s.updQueue n f).posted = s.posted := rfl
@[simp] theorem State.updQueue_parents (n : Nat) (f : Queue → Queue) : (s.updQueue n f).parents = s.parents := rfl
@[simp] theorem State.updQueue_pool (n : Nat) (f : Queue → Queue) : (s.updQueue n f).pool = s.pool := rfl
@[simp] theorem State.updQueue_queues (n : Nat) (f : Queue → Queue) : (s.updQueue n f).queues = SMap.set {} s.queues n (f (s.queue n)) := rfl
@[simp] theorem State.updQueue_parts (n : Nat) (f : Queue → Queue) : (s.updQueue n f).parts = s.parts := rfl
@[simp] theorem State.updQueue_beads (n : Nat) (f : Queue → Queue) : (s.updQueue n f).beads = s.beads := rfl
@[simp] theorem State.updQueue_rods (n : Nat) (f : Queue → Queue) : (s.updQueue n f).rods = s.rods := rfl
@[simp] theorem State.updQueue_cores (n : Nat) (f : Queue → Queue) : (s.updQueue n f).cores = s.cores := rfl
@[simp] theorem State.updQueue_walkers (n : Nat) (f : Queue → Queue) : (s.updQueue n f).walkers = s.walkers := rfl
@[simp] theorem State.updQueue_mem (n : Nat) (f : Queue → Queue) : (s.updQueue n f).mem = s.mem := rfl
@[simp] theorem State.updQueue_poison (n : Nat) (f : Queue → Queue) : (s.updQueue n f).poison = s.poison := rfl
@[simp] theorem State.updQueue_wmask (n : Nat) (f : Queue → Queue) : (s.updQueue n f).wmask = s.wmask := rfl
@[simp] theorem State.updQueue_window (n : Nat) (f : Queue → Queue) : (s.updQueue n f).window = s.window := rfl
@[simp] theorem State.updQueue_tgen (n : Nat) (f : Queue → Queue) : (s.updQueue n f).tgen = s.tgen := rfl
@[simp] theorem State.updQueue_shoot (n : Nat) (f : Queue → Queue) : (s.updQueue n f).shoot = s.shoot := rfl
@[simp] theorem State.updQueue_shootErr (n : Nat) (f : Queue → Queue) : (s.updQueue n f).shootErr = s.shootErr := rfl
@[simp] theorem State.updQueue_doneGen (n : Nat) (f : Queue → Queue) : (s.updQueue n f).doneGen = s.doneGen := rfl
@[simp] theorem State.updQueue_errcnt (n : Nat) (f : Queue → Queue) : (s.updQueue n f).errcnt = s.errcnt := rfl
@[simp] theorem State.updQueue_modpwr (n : Nat) (f : Queue → Queue) : (s.updQueue n f).modpwr = s.modpwr := rfl
@[simp] theorem State.updQueue_outside (n : Nat) (f : Queue → Queue) : (s.updQueue n f).outside = s.outside := rfl
@[simp] theorem State.updQueue_overCap (n : Nat) (f : Queue → Queue) : (s.updQueue n f).overCap = s.overCap := rfl
@[simp] theorem State.updQueue_scTicket (n : Nat) (f : Queue → Queue) : (s.updQueue n f).scTicket = s.scTicket := rfl
@[simp] theorem State.updQueue_nextId (n : Nat) (f : Queue → Queue) : (s.updQueue n f).nextId = s.nextId := rfl
@[simp] theorem State.updQueue_saved (n : Nat) (f : Queue → Queue) : (s.updQueue n f).saved = s.saved := rfl
@[simp] theorem State.updQueue_flash (n : Nat) (f : Queue → Queue) : (s.updQueue n f).flash = s.flash := rfl
@[simp] theorem State.updQueue_boot (n : Nat) (f : Queue → Queue) : (s.updQueue n f).boot = s.boot := rfl
@[simp] theorem State.updQueue_out (n : Nat) (f : Queue → Queue) : (s.updQueue n f).out = s.out := rfl
@[simp] theorem State.updQueue_agenda (n : Nat) (f : Queue → Queue) : (s.updQueue n f).agenda = s.agenda := rfl

/-! ## `updSeg` -/

@[simp] theorem State.updSeg_tick (a n : Nat) (f : Seg → Seg) : (s.updSeg a n f).tick = s.tick := rfl
@[simp] theorem State.updSeg_timer (a n : Nat) (f : Seg → Seg) : (s.updSeg a n f).timer = s.timer := rfl
@[simp] theorem State.updSeg_grp (a n : Nat) (f : Seg → Seg) : (s.updSeg a n f).grp = s.grp := rfl
@[simp] theorem State.updSeg_groups (a n : Nat) (f : Seg → Seg) : (s.updSeg a n f).groups = s.groups := rfl
@[simp] theorem State.updSeg_teams (a n : Nat) (f : Seg → Seg) : (s.updSeg a n f).teams = s.teams := rfl
@[simp] theorem State.updSeg_launches (a n : Nat) (f : Seg → Seg) : (s.updSeg a n f).launches = s.launches := rfl
@[simp] theorem State.updSeg_ctxs (a n : Nat) (f : Seg → Seg) : (s.updSeg a n f).ctxs = s.ctxs := rfl
@[simp] theorem State.updSeg_segs (a n : Nat) (f : Seg → Seg) : (s.updSeg a n f).segs = s.segs.map (fun x => if x.asid = a ∧ x.segid = n then f x else x) := rfl
@[simp] theorem State.updSeg_conds (a n : Nat) (f : Seg → Seg) : (s.updSeg a n f).conds = s.conds := rfl
@[simp] theorem State.updSeg_engOps (a n : Nat) (f : Seg → Seg) : (s.updSeg a n f).engOps = s.engOps := rfl
@[simp] theorem State.updSeg_posted (a n : Nat) (f : Seg → Seg) : (s.updSeg a n f).posted = s.posted := rfl
@[simp] theorem State.updSeg_parents (a n : Nat) (f : Seg → Seg) : (s.updSeg a n f).parents = s.parents := rfl
@[simp] theorem State.updSeg_pool (a n : Nat) (f : Seg → Seg) : (s.updSeg a n f).pool = s.pool := rfl
@[simp] theorem State.updSeg_queues (a n : Nat) (f : Seg → Seg) : (s.updSeg a n f).queues = s.queues := rfl
@[simp] theorem State.updSeg_parts (a n : Nat) (f : Seg → Seg) : (s.updSeg a n f).parts = s.parts := rfl
@[simp] theorem State.updSeg_beads (a n : Nat) (f : Seg → Seg) : (s.updSeg a n f).beads = s.beads := rfl
@[simp] theorem State.updSeg_rods (a n : Nat) (f : Seg → Seg) : (s.updSeg a n f).rods = s.rods := rfl
@[simp] theorem State.updSeg_cores (a n : Nat) (f : Seg → Seg) : (s.updSeg a n f).cores = s.cores := rfl
@[simp] theorem State.updSeg_walkers (a n : Nat) (f : Seg → Seg) : (s.updSeg a n f).walkers = s.walkers := rfl
@[simp] theorem State.updSeg_mem (a n : Nat) (f : Seg → Seg) : (s.updSeg a n f).mem = s.mem := rfl
@[simp] theorem State.updSeg_poison (a n : Nat) (f : Seg → Seg) : (s.updSeg a n f).poison = s.poison := rfl
@[simp] theorem State.updSeg_wmask (a n : Nat) (f : Seg → Seg) : (s.updSeg a n f).wmask = s.wmask := rfl
@[simp] theorem State.updSeg_window (a n : Nat) (f : Seg → Seg) : (s.updSeg a n f).window = s.window := rfl
@[simp] theorem State.updSeg_tgen (a n : Nat) (f : Seg → Seg) : (s.updSeg a n f).tgen = s.tgen := rfl
@[simp] theorem State.updSeg_shoot (a n : Nat) (f : Seg → Seg) : (s.updSeg a n f).shoot = s.shoot := rfl
@[simp] theorem State.updSeg_shootErr (a n : Nat) (f : Seg → Seg) : (s.updSeg a n f).shootErr = s.shootErr := rfl
@[simp] theorem State.updSeg_doneGen (a n : Nat) (f : Seg → Seg) : (s.updSeg a n f).doneGen = s.doneGen := rfl
@[simp] theorem State.updSeg_errcnt (a n : Nat) (f : Seg → Seg) : (s.updSeg a n f).errcnt = s.errcnt := rfl
@[simp] theorem State.updSeg_modpwr (a n : Nat) (f : Seg → Seg) : (s.updSeg a n f).modpwr = s.modpwr := rfl
@[simp] theorem State.updSeg_outside (a n : Nat) (f : Seg → Seg) : (s.updSeg a n f).outside = s.outside := rfl
@[simp] theorem State.updSeg_overCap (a n : Nat) (f : Seg → Seg) : (s.updSeg a n f).overCap = s.overCap := rfl
@[simp] theorem State.updSeg_scTicket (a n : Nat) (f : Seg → Seg) : (s.updSeg a n f).scTicket = s.scTicket := rfl
@[simp] theorem State.updSeg_nextId (a n : Nat) (f : Seg → Seg) : (s.updSeg a n f).nextId = s.nextId := rfl
@[simp] theorem State.updSeg_saved (a n : Nat) (f : Seg → Seg) : (s.updSeg a n f).saved = s.saved := rfl
@[simp] theorem State.updSeg_flash (a n : Nat) (f : Seg → Seg) : (s.updSeg a n f).flash = s.flash := rfl
@[simp] theorem State.updSeg_boot (a n : Nat) (f : Seg → Seg) : (s.updSeg a n f).boot = s.boot := rfl
@[simp] theorem State.updSeg_out (a n : Nat) (f : Seg → Seg) : (s.updSeg a n f).out = s.out := rfl
@[simp] theorem State.updSeg_agenda (a n : Nat) (f : Seg → Seg) : (s.updSeg a n f).agenda = s.agenda := rfl

/-! ## `updOp` -/

@[simp] theorem State.updOp_tick (n : Nat) (f : EngOp → EngOp) : (s.updOp n f).tick = s.tick := rfl
@[simp] theorem State.updOp_timer (n : Nat) (f : EngOp → EngOp) : (s.updOp n f).timer = s.timer := rfl
@[simp] theorem State.updOp_grp (n : Nat) (f : EngOp → EngOp) : (s.updOp n f).grp = s.grp := rfl
@[simp] theorem State.updOp_groups (n : Nat) (f : EngOp → EngOp) : (s.updOp n f).groups = s.groups := rfl
@[simp] theorem State.updOp_teams (n : Nat) (f : EngOp → EngOp) : (s.updOp n f).teams = s.teams := rfl
@[simp] theorem State.updOp_launches (n : Nat) (f : EngOp → EngOp) : (s.updOp n f).launches = s.launches := rfl
@[simp] theorem State.updOp_ctxs (n : Nat) (f : EngOp → EngOp) : (s.updOp n f).ctxs = s.ctxs := rfl
@[simp] theorem State.updOp_segs (n : Nat) (f : EngOp → EngOp) : (s.updOp n f).segs = s.segs := rfl
@[simp] theorem State.updOp_conds (n : Nat) (f : EngOp → EngOp) : (s.updOp n f).conds = s.conds := rfl
@[simp] theorem State.updOp_engOps (n : Nat) (f : EngOp → EngOp) : (s.updOp n f).engOps = s.engOps.map (fun o => if o.oid = n then f o else o) := rfl
@[simp] theorem State.updOp_posted (n : Nat) (f : EngOp → EngOp) : (s.updOp n f).posted = s.posted := rfl
@[simp] theorem State.updOp_parents (n : Nat) (f : EngOp → EngOp) : (s.updOp n f).parents = s.parents := rfl
@[simp] theorem State.updOp_pool (n : Nat) (f : EngOp → EngOp) : (s.updOp n f).pool = s.pool := rfl
@[simp] theorem State.updOp_queues (n : Nat) (f : EngOp → EngOp) : (s.updOp n f).queues = s.queues := rfl
@[simp] theorem State.updOp_parts (n : Nat) (f : EngOp → EngOp) : (s.updOp n f).parts = s.parts := rfl
@[simp] theorem State.updOp_beads (n : Nat) (f : EngOp → EngOp) : (s.updOp n f).beads = s.beads := rfl
@[simp] theorem State.updOp_rods (n : Nat) (f : EngOp → EngOp) : (s.updOp n f).rods = s.rods := rfl
@[simp] theorem State.updOp_cores (n : Nat) (f : EngOp → EngOp) : (s.updOp n f).cores = s.cores := rfl
@[simp] theorem State.updOp_walkers (n : Nat) (f : EngOp → EngOp) : (s.updOp n f).walkers = s.walkers := rfl
@[simp] theorem State.updOp_mem (n : Nat) (f : EngOp → EngOp) : (s.updOp n f).mem = s.mem := rfl
@[simp] theorem State.updOp_poison (n : Nat) (f : EngOp → EngOp) : (s.updOp n f).poison = s.poison := rfl
@[simp] theorem State.updOp_wmask (n : Nat) (f : EngOp → EngOp) : (s.updOp n f).wmask = s.wmask := rfl
@[simp] theorem State.updOp_window (n : Nat) (f : EngOp → EngOp) : (s.updOp n f).window = s.window := rfl
@[simp] theorem State.updOp_tgen (n : Nat) (f : EngOp → EngOp) : (s.updOp n f).tgen = s.tgen := rfl
@[simp] theorem State.updOp_shoot (n : Nat) (f : EngOp → EngOp) : (s.updOp n f).shoot = s.shoot := rfl
@[simp] theorem State.updOp_shootErr (n : Nat) (f : EngOp → EngOp) : (s.updOp n f).shootErr = s.shootErr := rfl
@[simp] theorem State.updOp_doneGen (n : Nat) (f : EngOp → EngOp) : (s.updOp n f).doneGen = s.doneGen := rfl
@[simp] theorem State.updOp_errcnt (n : Nat) (f : EngOp → EngOp) : (s.updOp n f).errcnt = s.errcnt := rfl
@[simp] theorem State.updOp_modpwr (n : Nat) (f : EngOp → EngOp) : (s.updOp n f).modpwr = s.modpwr := rfl
@[simp] theorem State.updOp_outside (n : Nat) (f : EngOp → EngOp) : (s.updOp n f).outside = s.outside := rfl
@[simp] theorem State.updOp_overCap (n : Nat) (f : EngOp → EngOp) : (s.updOp n f).overCap = s.overCap := rfl
@[simp] theorem State.updOp_scTicket (n : Nat) (f : EngOp → EngOp) : (s.updOp n f).scTicket = s.scTicket := rfl
@[simp] theorem State.updOp_nextId (n : Nat) (f : EngOp → EngOp) : (s.updOp n f).nextId = s.nextId := rfl
@[simp] theorem State.updOp_saved (n : Nat) (f : EngOp → EngOp) : (s.updOp n f).saved = s.saved := rfl
@[simp] theorem State.updOp_flash (n : Nat) (f : EngOp → EngOp) : (s.updOp n f).flash = s.flash := rfl
@[simp] theorem State.updOp_boot (n : Nat) (f : EngOp → EngOp) : (s.updOp n f).boot = s.boot := rfl
@[simp] theorem State.updOp_out (n : Nat) (f : EngOp → EngOp) : (s.updOp n f).out = s.out := rfl
@[simp] theorem State.updOp_agenda (n : Nat) (f : EngOp → EngOp) : (s.updOp n f).agenda = s.agenda := rfl

/-! ## `vacateAll` -/

@[simp] theorem State.vacateAll_tick : (s.vacateAll).tick = s.tick := rfl
@[simp] theorem State.vacateAll_timer : (s.vacateAll).timer = s.timer := rfl
@[simp] theorem State.vacateAll_grp : (s.vacateAll).grp = s.grp := rfl
@[simp] theorem State.vacateAll_groups : (s.vacateAll).groups = s.groups := rfl
@[simp] theorem State.vacateAll_teams : (s.vacateAll).teams = s.teams := rfl
@[simp] theorem State.vacateAll_launches : (s.vacateAll).launches = s.launches := rfl
@[simp] theorem State.vacateAll_ctxs : (s.vacateAll).ctxs = s.ctxs := rfl
@[simp] theorem State.vacateAll_segs : (s.vacateAll).segs = s.segs := rfl
@[simp] theorem State.vacateAll_conds : (s.vacateAll).conds = s.conds := rfl
@[simp] theorem State.vacateAll_engOps : (s.vacateAll).engOps = s.engOps := rfl
@[simp] theorem State.vacateAll_posted : (s.vacateAll).posted = s.posted := rfl
@[simp] theorem State.vacateAll_parents : (s.vacateAll).parents = s.parents := rfl
@[simp] theorem State.vacateAll_pool : (s.vacateAll).pool = s.pool := rfl
@[simp] theorem State.vacateAll_queues : (s.vacateAll).queues = s.queues := rfl
@[simp] theorem State.vacateAll_parts : (s.vacateAll).parts = s.parts := rfl
@[simp] theorem State.vacateAll_beads : (s.vacateAll).beads = s.beads.map (fun (x : Nat × Bead) => (x.1, if s.vacant x.1 x.2 then { x.2 with occ := none, gapOf := none } else x.2)) := rfl
@[simp] theorem State.vacateAll_rods : (s.vacateAll).rods = s.rods := rfl
@[simp] theorem State.vacateAll_cores : (s.vacateAll).cores = s.cores := rfl
@[simp] theorem State.vacateAll_walkers : (s.vacateAll).walkers = s.walkers := rfl
@[simp] theorem State.vacateAll_mem : (s.vacateAll).mem = s.mem := rfl
@[simp] theorem State.vacateAll_poison : (s.vacateAll).poison = s.poison := rfl
@[simp] theorem State.vacateAll_wmask : (s.vacateAll).wmask = s.wmask := rfl
@[simp] theorem State.vacateAll_window : (s.vacateAll).window = s.window := rfl
@[simp] theorem State.vacateAll_tgen : (s.vacateAll).tgen = s.tgen := rfl
@[simp] theorem State.vacateAll_shoot : (s.vacateAll).shoot = s.shoot := rfl
@[simp] theorem State.vacateAll_shootErr : (s.vacateAll).shootErr = s.shootErr := rfl
@[simp] theorem State.vacateAll_doneGen : (s.vacateAll).doneGen = s.doneGen := rfl
@[simp] theorem State.vacateAll_errcnt : (s.vacateAll).errcnt = s.errcnt := rfl
@[simp] theorem State.vacateAll_modpwr : (s.vacateAll).modpwr = s.modpwr := rfl
@[simp] theorem State.vacateAll_outside : (s.vacateAll).outside = s.outside := rfl
@[simp] theorem State.vacateAll_overCap : (s.vacateAll).overCap = s.overCap := rfl
@[simp] theorem State.vacateAll_scTicket : (s.vacateAll).scTicket = s.scTicket := rfl
@[simp] theorem State.vacateAll_nextId : (s.vacateAll).nextId = s.nextId := rfl
@[simp] theorem State.vacateAll_saved : (s.vacateAll).saved = s.saved := rfl
@[simp] theorem State.vacateAll_flash : (s.vacateAll).flash = s.flash := rfl
@[simp] theorem State.vacateAll_boot : (s.vacateAll).boot = s.boot := rfl
@[simp] theorem State.vacateAll_out : (s.vacateAll).out = s.out := rfl
@[simp] theorem State.vacateAll_agenda : (s.vacateAll).agenda = s.agenda := rfl

/-! ## `settleSlots` -/

@[simp] theorem State.settleSlots_tick : (s.settleSlots).tick = s.tick := rfl
@[simp] theorem State.settleSlots_timer : (s.settleSlots).timer = s.timer := rfl
@[simp] theorem State.settleSlots_grp : (s.settleSlots).grp = s.grp := rfl
@[simp] theorem State.settleSlots_groups : (s.settleSlots).groups = s.groups := rfl
@[simp] theorem State.settleSlots_teams : (s.settleSlots).teams = s.teams := rfl
@[simp] theorem State.settleSlots_launches : (s.settleSlots).launches = s.launches := rfl
@[simp] theorem State.settleSlots_ctxs : (s.settleSlots).ctxs = s.ctxs := rfl
@[simp] theorem State.settleSlots_segs : (s.settleSlots).segs = s.segs := rfl
@[simp] theorem State.settleSlots_conds : (s.settleSlots).conds = s.conds := rfl
@[simp] theorem State.settleSlots_engOps : (s.settleSlots).engOps = s.engOps := rfl
@[simp] theorem State.settleSlots_posted : (s.settleSlots).posted = s.posted := rfl
@[simp] theorem State.settleSlots_parents : (s.settleSlots).parents = s.parents := rfl
@[simp] theorem State.settleSlots_pool : (s.settleSlots).pool = s.pool := rfl
@[simp] theorem State.settleSlots_queues : (s.settleSlots).queues = s.queues := rfl
@[simp] theorem State.settleSlots_parts : (s.settleSlots).parts = s.parts := rfl
@[simp] theorem State.settleSlots_beads : (s.settleSlots).beads = s.beads.map (fun (x : Nat × Bead) =>
      (x.1, if x.2.exhFrom.isSome && !s.allGroups.any (fun g => g.bead == x.1 && g.seeksSlots && !s.speculative g)
        then { x.2 with exhFrom := none } else x.2)) := rfl
@[simp] theorem State.settleSlots_rods : (s.settleSlots).rods = s.rods := rfl
@[simp] theorem State.settleSlots_cores : (s.settleSlots).cores = s.cores := rfl
@[simp] theorem State.settleSlots_walkers : (s.settleSlots).walkers = s.walkers := rfl
@[simp] theorem State.settleSlots_mem : (s.settleSlots).mem = s.mem := rfl
@[simp] theorem State.settleSlots_poison : (s.settleSlots).poison = s.poison := rfl
@[simp] theorem State.settleSlots_wmask : (s.settleSlots).wmask = s.wmask := rfl
@[simp] theorem State.settleSlots_window : (s.settleSlots).window = s.window := rfl
@[simp] theorem State.settleSlots_tgen : (s.settleSlots).tgen = s.tgen := rfl
@[simp] theorem State.settleSlots_shoot : (s.settleSlots).shoot = s.shoot := rfl
@[simp] theorem State.settleSlots_shootErr : (s.settleSlots).shootErr = s.shootErr := rfl
@[simp] theorem State.settleSlots_doneGen : (s.settleSlots).doneGen = s.doneGen := rfl
@[simp] theorem State.settleSlots_errcnt : (s.settleSlots).errcnt = s.errcnt := rfl
@[simp] theorem State.settleSlots_modpwr : (s.settleSlots).modpwr = s.modpwr := rfl
@[simp] theorem State.settleSlots_outside : (s.settleSlots).outside = s.outside := rfl
@[simp] theorem State.settleSlots_overCap : (s.settleSlots).overCap = s.overCap := rfl
@[simp] theorem State.settleSlots_scTicket : (s.settleSlots).scTicket = s.scTicket := rfl
@[simp] theorem State.settleSlots_nextId : (s.settleSlots).nextId = s.nextId := rfl
@[simp] theorem State.settleSlots_saved : (s.settleSlots).saved = s.saved := rfl
@[simp] theorem State.settleSlots_flash : (s.settleSlots).flash = s.flash := rfl
@[simp] theorem State.settleSlots_boot : (s.settleSlots).boot = s.boot := rfl
@[simp] theorem State.settleSlots_out : (s.settleSlots).out = s.out := rfl
@[simp] theorem State.settleSlots_agenda : (s.settleSlots).agenda = s.agenda := rfl

/-! ## `emit` -/

@[simp] theorem State.emit_tick (o : Out) : (s.emit o).tick = s.tick := rfl
@[simp] theorem State.emit_timer (o : Out) : (s.emit o).timer = s.timer := rfl
@[simp] theorem State.emit_grp (o : Out) : (s.emit o).grp = s.grp := rfl
@[simp] theorem State.emit_groups (o : Out) : (s.emit o).groups = s.groups := rfl
@[simp] theorem State.emit_teams (o : Out) : (s.emit o).teams = s.teams := rfl
@[simp] theorem State.emit_launches (o : Out) : (s.emit o).launches = s.launches := rfl
@[simp] theorem State.emit_ctxs (o : Out) : (s.emit o).ctxs = s.ctxs := rfl
@[simp] theorem State.emit_segs (o : Out) : (s.emit o).segs = s.segs := rfl
@[simp] theorem State.emit_conds (o : Out) : (s.emit o).conds = s.conds := rfl
@[simp] theorem State.emit_engOps (o : Out) : (s.emit o).engOps = s.engOps := rfl
@[simp] theorem State.emit_posted (o : Out) : (s.emit o).posted = s.posted := rfl
@[simp] theorem State.emit_parents (o : Out) : (s.emit o).parents = s.parents := rfl
@[simp] theorem State.emit_pool (o : Out) : (s.emit o).pool = s.pool := rfl
@[simp] theorem State.emit_queues (o : Out) : (s.emit o).queues = s.queues := rfl
@[simp] theorem State.emit_parts (o : Out) : (s.emit o).parts = s.parts := rfl
@[simp] theorem State.emit_beads (o : Out) : (s.emit o).beads = s.beads := rfl
@[simp] theorem State.emit_rods (o : Out) : (s.emit o).rods = s.rods := rfl
@[simp] theorem State.emit_cores (o : Out) : (s.emit o).cores = s.cores := rfl
@[simp] theorem State.emit_walkers (o : Out) : (s.emit o).walkers = s.walkers := rfl
@[simp] theorem State.emit_mem (o : Out) : (s.emit o).mem = s.mem := rfl
@[simp] theorem State.emit_poison (o : Out) : (s.emit o).poison = s.poison := rfl
@[simp] theorem State.emit_wmask (o : Out) : (s.emit o).wmask = s.wmask := rfl
@[simp] theorem State.emit_window (o : Out) : (s.emit o).window = s.window := rfl
@[simp] theorem State.emit_tgen (o : Out) : (s.emit o).tgen = s.tgen := rfl
@[simp] theorem State.emit_shoot (o : Out) : (s.emit o).shoot = s.shoot := rfl
@[simp] theorem State.emit_shootErr (o : Out) : (s.emit o).shootErr = s.shootErr := rfl
@[simp] theorem State.emit_doneGen (o : Out) : (s.emit o).doneGen = s.doneGen := rfl
@[simp] theorem State.emit_errcnt (o : Out) : (s.emit o).errcnt = s.errcnt := rfl
@[simp] theorem State.emit_modpwr (o : Out) : (s.emit o).modpwr = s.modpwr := rfl
@[simp] theorem State.emit_outside (o : Out) : (s.emit o).outside = s.outside := rfl
@[simp] theorem State.emit_overCap (o : Out) : (s.emit o).overCap = s.overCap := rfl
@[simp] theorem State.emit_scTicket (o : Out) : (s.emit o).scTicket = s.scTicket := rfl
@[simp] theorem State.emit_nextId (o : Out) : (s.emit o).nextId = s.nextId := rfl
@[simp] theorem State.emit_saved (o : Out) : (s.emit o).saved = s.saved := rfl
@[simp] theorem State.emit_flash (o : Out) : (s.emit o).flash = s.flash := rfl
@[simp] theorem State.emit_boot (o : Out) : (s.emit o).boot = s.boot := rfl
@[simp] theorem State.emit_out (o : Out) : (s.emit o).out = s.out ++ [o] := rfl
@[simp] theorem State.emit_agenda (o : Out) : (s.emit o).agenda = s.agenda := rfl

/-! ## `setWin` -/

@[simp] theorem State.setWin_tick (n : Nat) (v : Dword) : (s.setWin n v).tick = s.tick := rfl
@[simp] theorem State.setWin_timer (n : Nat) (v : Dword) : (s.setWin n v).timer = s.timer := rfl
@[simp] theorem State.setWin_grp (n : Nat) (v : Dword) : (s.setWin n v).grp = s.grp := rfl
@[simp] theorem State.setWin_groups (n : Nat) (v : Dword) : (s.setWin n v).groups = s.groups := rfl
@[simp] theorem State.setWin_teams (n : Nat) (v : Dword) : (s.setWin n v).teams = s.teams := rfl
@[simp] theorem State.setWin_launches (n : Nat) (v : Dword) : (s.setWin n v).launches = s.launches := rfl
@[simp] theorem State.setWin_ctxs (n : Nat) (v : Dword) : (s.setWin n v).ctxs = s.ctxs := rfl
@[simp] theorem State.setWin_segs (n : Nat) (v : Dword) : (s.setWin n v).segs = s.segs := rfl
@[simp] theorem State.setWin_conds (n : Nat) (v : Dword) : (s.setWin n v).conds = s.conds := rfl
@[simp] theorem State.setWin_engOps (n : Nat) (v : Dword) : (s.setWin n v).engOps = s.engOps := rfl
@[simp] theorem State.setWin_posted (n : Nat) (v : Dword) : (s.setWin n v).posted = s.posted := rfl
@[simp] theorem State.setWin_parents (n : Nat) (v : Dword) : (s.setWin n v).parents = s.parents := rfl
@[simp] theorem State.setWin_pool (n : Nat) (v : Dword) : (s.setWin n v).pool = s.pool := rfl
@[simp] theorem State.setWin_queues (n : Nat) (v : Dword) : (s.setWin n v).queues = s.queues := rfl
@[simp] theorem State.setWin_parts (n : Nat) (v : Dword) : (s.setWin n v).parts = s.parts := rfl
@[simp] theorem State.setWin_beads (n : Nat) (v : Dword) : (s.setWin n v).beads = s.beads := rfl
@[simp] theorem State.setWin_rods (n : Nat) (v : Dword) : (s.setWin n v).rods = s.rods := rfl
@[simp] theorem State.setWin_cores (n : Nat) (v : Dword) : (s.setWin n v).cores = s.cores := rfl
@[simp] theorem State.setWin_walkers (n : Nat) (v : Dword) : (s.setWin n v).walkers = s.walkers := rfl
@[simp] theorem State.setWin_mem (n : Nat) (v : Dword) : (s.setWin n v).mem = s.mem := rfl
@[simp] theorem State.setWin_poison (n : Nat) (v : Dword) : (s.setWin n v).poison = s.poison := rfl
@[simp] theorem State.setWin_wmask (n : Nat) (v : Dword) : (s.setWin n v).wmask = s.wmask := rfl
@[simp] theorem State.setWin_window (n : Nat) (v : Dword) : (s.setWin n v).window = SMap.put s.window n v := rfl
@[simp] theorem State.setWin_tgen (n : Nat) (v : Dword) : (s.setWin n v).tgen = s.tgen := rfl
@[simp] theorem State.setWin_shoot (n : Nat) (v : Dword) : (s.setWin n v).shoot = s.shoot := rfl
@[simp] theorem State.setWin_shootErr (n : Nat) (v : Dword) : (s.setWin n v).shootErr = s.shootErr := rfl
@[simp] theorem State.setWin_doneGen (n : Nat) (v : Dword) : (s.setWin n v).doneGen = s.doneGen := rfl
@[simp] theorem State.setWin_errcnt (n : Nat) (v : Dword) : (s.setWin n v).errcnt = s.errcnt := rfl
@[simp] theorem State.setWin_modpwr (n : Nat) (v : Dword) : (s.setWin n v).modpwr = s.modpwr := rfl
@[simp] theorem State.setWin_outside (n : Nat) (v : Dword) : (s.setWin n v).outside = s.outside := rfl
@[simp] theorem State.setWin_overCap (n : Nat) (v : Dword) : (s.setWin n v).overCap = s.overCap := rfl
@[simp] theorem State.setWin_scTicket (n : Nat) (v : Dword) : (s.setWin n v).scTicket = s.scTicket := rfl
@[simp] theorem State.setWin_nextId (n : Nat) (v : Dword) : (s.setWin n v).nextId = s.nextId := rfl
@[simp] theorem State.setWin_saved (n : Nat) (v : Dword) : (s.setWin n v).saved = s.saved := rfl
@[simp] theorem State.setWin_flash (n : Nat) (v : Dword) : (s.setWin n v).flash = s.flash := rfl
@[simp] theorem State.setWin_boot (n : Nat) (v : Dword) : (s.setWin n v).boot = s.boot := rfl
@[simp] theorem State.setWin_out (n : Nat) (v : Dword) : (s.setWin n v).out = s.out := rfl
@[simp] theorem State.setWin_agenda (n : Nat) (v : Dword) : (s.setWin n v).agenda = s.agenda := rfl

/-! ## `updGroup` -/

@[simp] theorem State.updGroup_tick (n : Nat) (f : Group → Group) : (s.updGroup n f).tick = s.tick := by unfold State.updGroup; split <;> rfl
@[simp] theorem State.updGroup_timer (n : Nat) (f : Group → Group) : (s.updGroup n f).timer = s.timer := by unfold State.updGroup; split <;> rfl
@[simp] theorem State.updGroup_teams (n : Nat) (f : Group → Group) : (s.updGroup n f).teams = s.teams := by unfold State.updGroup; split <;> rfl
@[simp] theorem State.updGroup_launches (n : Nat) (f : Group → Group) : (s.updGroup n f).launches = s.launches := by unfold State.updGroup; split <;> rfl
@[simp] theorem State.updGroup_ctxs (n : Nat) (f : Group → Group) : (s.updGroup n f).ctxs = s.ctxs := by unfold State.updGroup; split <;> rfl
@[simp] theorem State.updGroup_segs (n : Nat) (f : Group → Group) : (s.updGroup n f).segs = s.segs := by unfold State.updGroup; split <;> rfl
@[simp] theorem State.updGroup_conds (n : Nat) (f : Group → Group) : (s.updGroup n f).conds = s.conds := by unfold State.updGroup; split <;> rfl
@[simp] theorem State.updGroup_engOps (n : Nat) (f : Group → Group) : (s.updGroup n f).engOps = s.engOps := by unfold State.updGroup; split <;> rfl
@[simp] theorem State.updGroup_posted (n : Nat) (f : Group → Group) : (s.updGroup n f).posted = s.posted := by unfold State.updGroup; split <;> rfl
@[simp] theorem State.updGroup_parents (n : Nat) (f : Group → Group) : (s.updGroup n f).parents = s.parents := by unfold State.updGroup; split <;> rfl
@[simp] theorem State.updGroup_pool (n : Nat) (f : Group → Group) : (s.updGroup n f).pool = s.pool := by unfold State.updGroup; split <;> rfl
@[simp] theorem State.updGroup_queues (n : Nat) (f : Group → Group) : (s.updGroup n f).queues = s.queues := by unfold State.updGroup; split <;> rfl
@[simp] theorem State.updGroup_parts (n : Nat) (f : Group → Group) : (s.updGroup n f).parts = s.parts := by unfold State.updGroup; split <;> rfl
@[simp] theorem State.updGroup_beads (n : Nat) (f : Group → Group) : (s.updGroup n f).beads = s.beads := by unfold State.updGroup; split <;> rfl
@[simp] theorem State.updGroup_rods (n : Nat) (f : Group → Group) : (s.updGroup n f).rods = s.rods := by unfold State.updGroup; split <;> rfl
@[simp] theorem State.updGroup_cores (n : Nat) (f : Group → Group) : (s.updGroup n f).cores = s.cores := by unfold State.updGroup; split <;> rfl
@[simp] theorem State.updGroup_walkers (n : Nat) (f : Group → Group) : (s.updGroup n f).walkers = s.walkers := by unfold State.updGroup; split <;> rfl
@[simp] theorem State.updGroup_mem (n : Nat) (f : Group → Group) : (s.updGroup n f).mem = s.mem := by unfold State.updGroup; split <;> rfl
@[simp] theorem State.updGroup_poison (n : Nat) (f : Group → Group) : (s.updGroup n f).poison = s.poison := by unfold State.updGroup; split <;> rfl
@[simp] theorem State.updGroup_wmask (n : Nat) (f : Group → Group) : (s.updGroup n f).wmask = s.wmask := by unfold State.updGroup; split <;> rfl
@[simp] theorem State.updGroup_window (n : Nat) (f : Group → Group) : (s.updGroup n f).window = s.window := by unfold State.updGroup; split <;> rfl
@[simp] theorem State.updGroup_tgen (n : Nat) (f : Group → Group) : (s.updGroup n f).tgen = s.tgen := by unfold State.updGroup; split <;> rfl
@[simp] theorem State.updGroup_shoot (n : Nat) (f : Group → Group) : (s.updGroup n f).shoot = s.shoot := by unfold State.updGroup; split <;> rfl
@[simp] theorem State.updGroup_shootErr (n : Nat) (f : Group → Group) : (s.updGroup n f).shootErr = s.shootErr := by unfold State.updGroup; split <;> rfl
@[simp] theorem State.updGroup_doneGen (n : Nat) (f : Group → Group) : (s.updGroup n f).doneGen = s.doneGen := by unfold State.updGroup; split <;> rfl
@[simp] theorem State.updGroup_errcnt (n : Nat) (f : Group → Group) : (s.updGroup n f).errcnt = s.errcnt := by unfold State.updGroup; split <;> rfl
@[simp] theorem State.updGroup_modpwr (n : Nat) (f : Group → Group) : (s.updGroup n f).modpwr = s.modpwr := by unfold State.updGroup; split <;> rfl
@[simp] theorem State.updGroup_outside (n : Nat) (f : Group → Group) : (s.updGroup n f).outside = s.outside := by unfold State.updGroup; split <;> rfl
@[simp] theorem State.updGroup_overCap (n : Nat) (f : Group → Group) : (s.updGroup n f).overCap = s.overCap := by unfold State.updGroup; split <;> rfl
@[simp] theorem State.updGroup_scTicket (n : Nat) (f : Group → Group) : (s.updGroup n f).scTicket = s.scTicket := by unfold State.updGroup; split <;> rfl
@[simp] theorem State.updGroup_nextId (n : Nat) (f : Group → Group) : (s.updGroup n f).nextId = s.nextId := by unfold State.updGroup; split <;> rfl
@[simp] theorem State.updGroup_saved (n : Nat) (f : Group → Group) : (s.updGroup n f).saved = s.saved := by unfold State.updGroup; split <;> rfl
@[simp] theorem State.updGroup_flash (n : Nat) (f : Group → Group) : (s.updGroup n f).flash = s.flash := by unfold State.updGroup; split <;> rfl
@[simp] theorem State.updGroup_boot (n : Nat) (f : Group → Group) : (s.updGroup n f).boot = s.boot := by unfold State.updGroup; split <;> rfl
@[simp] theorem State.updGroup_out (n : Nat) (f : Group → Group) : (s.updGroup n f).out = s.out := by unfold State.updGroup; split <;> rfl
@[simp] theorem State.updGroup_agenda (n : Nat) (f : Group → Group) : (s.updGroup n f).agenda = s.agenda := by unfold State.updGroup; split <;> rfl

/-! ## `dropGroup` -/

@[simp] theorem State.dropGroup_tick (n : Nat) : (s.dropGroup n).tick = s.tick := by unfold State.dropGroup; split <;> rfl
@[simp] theorem State.dropGroup_timer (n : Nat) : (s.dropGroup n).timer = s.timer := by unfold State.dropGroup; split <;> rfl
@[simp] theorem State.dropGroup_teams (n : Nat) : (s.dropGroup n).teams = s.teams := by unfold State.dropGroup; split <;> rfl
@[simp] theorem State.dropGroup_launches (n : Nat) : (s.dropGroup n).launches = s.launches := by unfold State.dropGroup; split <;> rfl
@[simp] theorem State.dropGroup_ctxs (n : Nat) : (s.dropGroup n).ctxs = s.ctxs := by unfold State.dropGroup; split <;> rfl
@[simp] theorem State.dropGroup_segs (n : Nat) : (s.dropGroup n).segs = s.segs := by unfold State.dropGroup; split <;> rfl
@[simp] theorem State.dropGroup_conds (n : Nat) : (s.dropGroup n).conds = s.conds := by unfold State.dropGroup; split <;> rfl
@[simp] theorem State.dropGroup_engOps (n : Nat) : (s.dropGroup n).engOps = s.engOps := by unfold State.dropGroup; split <;> rfl
@[simp] theorem State.dropGroup_posted (n : Nat) : (s.dropGroup n).posted = s.posted := by unfold State.dropGroup; split <;> rfl
@[simp] theorem State.dropGroup_parents (n : Nat) : (s.dropGroup n).parents = s.parents := by unfold State.dropGroup; split <;> rfl
@[simp] theorem State.dropGroup_pool (n : Nat) : (s.dropGroup n).pool = s.pool := by unfold State.dropGroup; split <;> rfl
@[simp] theorem State.dropGroup_queues (n : Nat) : (s.dropGroup n).queues = s.queues := by unfold State.dropGroup; split <;> rfl
@[simp] theorem State.dropGroup_parts (n : Nat) : (s.dropGroup n).parts = s.parts := by unfold State.dropGroup; split <;> rfl
@[simp] theorem State.dropGroup_beads (n : Nat) : (s.dropGroup n).beads = s.beads := by unfold State.dropGroup; split <;> rfl
@[simp] theorem State.dropGroup_rods (n : Nat) : (s.dropGroup n).rods = s.rods := by unfold State.dropGroup; split <;> rfl
@[simp] theorem State.dropGroup_cores (n : Nat) : (s.dropGroup n).cores = s.cores := by unfold State.dropGroup; split <;> rfl
@[simp] theorem State.dropGroup_walkers (n : Nat) : (s.dropGroup n).walkers = s.walkers := by unfold State.dropGroup; split <;> rfl
@[simp] theorem State.dropGroup_mem (n : Nat) : (s.dropGroup n).mem = s.mem := by unfold State.dropGroup; split <;> rfl
@[simp] theorem State.dropGroup_poison (n : Nat) : (s.dropGroup n).poison = s.poison := by unfold State.dropGroup; split <;> rfl
@[simp] theorem State.dropGroup_wmask (n : Nat) : (s.dropGroup n).wmask = s.wmask := by unfold State.dropGroup; split <;> rfl
@[simp] theorem State.dropGroup_window (n : Nat) : (s.dropGroup n).window = s.window := by unfold State.dropGroup; split <;> rfl
@[simp] theorem State.dropGroup_tgen (n : Nat) : (s.dropGroup n).tgen = s.tgen := by unfold State.dropGroup; split <;> rfl
@[simp] theorem State.dropGroup_shoot (n : Nat) : (s.dropGroup n).shoot = s.shoot := by unfold State.dropGroup; split <;> rfl
@[simp] theorem State.dropGroup_shootErr (n : Nat) : (s.dropGroup n).shootErr = s.shootErr := by unfold State.dropGroup; split <;> rfl
@[simp] theorem State.dropGroup_doneGen (n : Nat) : (s.dropGroup n).doneGen = s.doneGen := by unfold State.dropGroup; split <;> rfl
@[simp] theorem State.dropGroup_errcnt (n : Nat) : (s.dropGroup n).errcnt = s.errcnt := by unfold State.dropGroup; split <;> rfl
@[simp] theorem State.dropGroup_modpwr (n : Nat) : (s.dropGroup n).modpwr = s.modpwr := by unfold State.dropGroup; split <;> rfl
@[simp] theorem State.dropGroup_outside (n : Nat) : (s.dropGroup n).outside = s.outside := by unfold State.dropGroup; split <;> rfl
@[simp] theorem State.dropGroup_overCap (n : Nat) : (s.dropGroup n).overCap = s.overCap := by unfold State.dropGroup; split <;> rfl
@[simp] theorem State.dropGroup_scTicket (n : Nat) : (s.dropGroup n).scTicket = s.scTicket := by unfold State.dropGroup; split <;> rfl
@[simp] theorem State.dropGroup_nextId (n : Nat) : (s.dropGroup n).nextId = s.nextId := by unfold State.dropGroup; split <;> rfl
@[simp] theorem State.dropGroup_saved (n : Nat) : (s.dropGroup n).saved = s.saved := by unfold State.dropGroup; split <;> rfl
@[simp] theorem State.dropGroup_flash (n : Nat) : (s.dropGroup n).flash = s.flash := by unfold State.dropGroup; split <;> rfl
@[simp] theorem State.dropGroup_boot (n : Nat) : (s.dropGroup n).boot = s.boot := by unfold State.dropGroup; split <;> rfl
@[simp] theorem State.dropGroup_out (n : Nat) : (s.dropGroup n).out = s.out := by unfold State.dropGroup; split <;> rfl
@[simp] theorem State.dropGroup_agenda (n : Nat) : (s.dropGroup n).agenda = s.agenda := by unfold State.dropGroup; split <;> rfl

/-! ## `focusOn` -/

@[simp] theorem State.focusOn_tick (n : Nat) : (s.focusOn n).tick = s.tick := by unfold State.focusOn; split <;> [rfl; (split <;> rfl)]
@[simp] theorem State.focusOn_timer (n : Nat) : (s.focusOn n).timer = s.timer := by unfold State.focusOn; split <;> [rfl; (split <;> rfl)]
@[simp] theorem State.focusOn_teams (n : Nat) : (s.focusOn n).teams = s.teams := by unfold State.focusOn; split <;> [rfl; (split <;> rfl)]
@[simp] theorem State.focusOn_launches (n : Nat) : (s.focusOn n).launches = s.launches := by unfold State.focusOn; split <;> [rfl; (split <;> rfl)]
@[simp] theorem State.focusOn_ctxs (n : Nat) : (s.focusOn n).ctxs = s.ctxs := by unfold State.focusOn; split <;> [rfl; (split <;> rfl)]
@[simp] theorem State.focusOn_segs (n : Nat) : (s.focusOn n).segs = s.segs := by unfold State.focusOn; split <;> [rfl; (split <;> rfl)]
@[simp] theorem State.focusOn_conds (n : Nat) : (s.focusOn n).conds = s.conds := by unfold State.focusOn; split <;> [rfl; (split <;> rfl)]
@[simp] theorem State.focusOn_engOps (n : Nat) : (s.focusOn n).engOps = s.engOps := by unfold State.focusOn; split <;> [rfl; (split <;> rfl)]
@[simp] theorem State.focusOn_posted (n : Nat) : (s.focusOn n).posted = s.posted := by unfold State.focusOn; split <;> [rfl; (split <;> rfl)]
@[simp] theorem State.focusOn_parents (n : Nat) : (s.focusOn n).parents = s.parents := by unfold State.focusOn; split <;> [rfl; (split <;> rfl)]
@[simp] theorem State.focusOn_pool (n : Nat) : (s.focusOn n).pool = s.pool := by unfold State.focusOn; split <;> [rfl; (split <;> rfl)]
@[simp] theorem State.focusOn_queues (n : Nat) : (s.focusOn n).queues = s.queues := by unfold State.focusOn; split <;> [rfl; (split <;> rfl)]
@[simp] theorem State.focusOn_parts (n : Nat) : (s.focusOn n).parts = s.parts := by unfold State.focusOn; split <;> [rfl; (split <;> rfl)]
@[simp] theorem State.focusOn_beads (n : Nat) : (s.focusOn n).beads = s.beads := by unfold State.focusOn; split <;> [rfl; (split <;> rfl)]
@[simp] theorem State.focusOn_rods (n : Nat) : (s.focusOn n).rods = s.rods := by unfold State.focusOn; split <;> [rfl; (split <;> rfl)]
@[simp] theorem State.focusOn_cores (n : Nat) : (s.focusOn n).cores = s.cores := by unfold State.focusOn; split <;> [rfl; (split <;> rfl)]
@[simp] theorem State.focusOn_walkers (n : Nat) : (s.focusOn n).walkers = s.walkers := by unfold State.focusOn; split <;> [rfl; (split <;> rfl)]
@[simp] theorem State.focusOn_mem (n : Nat) : (s.focusOn n).mem = s.mem := by unfold State.focusOn; split <;> [rfl; (split <;> rfl)]
@[simp] theorem State.focusOn_poison (n : Nat) : (s.focusOn n).poison = s.poison := by unfold State.focusOn; split <;> [rfl; (split <;> rfl)]
@[simp] theorem State.focusOn_wmask (n : Nat) : (s.focusOn n).wmask = s.wmask := by unfold State.focusOn; split <;> [rfl; (split <;> rfl)]
@[simp] theorem State.focusOn_window (n : Nat) : (s.focusOn n).window = s.window := by unfold State.focusOn; split <;> [rfl; (split <;> rfl)]
@[simp] theorem State.focusOn_tgen (n : Nat) : (s.focusOn n).tgen = s.tgen := by unfold State.focusOn; split <;> [rfl; (split <;> rfl)]
@[simp] theorem State.focusOn_shoot (n : Nat) : (s.focusOn n).shoot = s.shoot := by unfold State.focusOn; split <;> [rfl; (split <;> rfl)]
@[simp] theorem State.focusOn_shootErr (n : Nat) : (s.focusOn n).shootErr = s.shootErr := by unfold State.focusOn; split <;> [rfl; (split <;> rfl)]
@[simp] theorem State.focusOn_doneGen (n : Nat) : (s.focusOn n).doneGen = s.doneGen := by unfold State.focusOn; split <;> [rfl; (split <;> rfl)]
@[simp] theorem State.focusOn_errcnt (n : Nat) : (s.focusOn n).errcnt = s.errcnt := by unfold State.focusOn; split <;> [rfl; (split <;> rfl)]
@[simp] theorem State.focusOn_modpwr (n : Nat) : (s.focusOn n).modpwr = s.modpwr := by unfold State.focusOn; split <;> [rfl; (split <;> rfl)]
@[simp] theorem State.focusOn_outside (n : Nat) : (s.focusOn n).outside = s.outside := by unfold State.focusOn; split <;> [rfl; (split <;> rfl)]
@[simp] theorem State.focusOn_overCap (n : Nat) : (s.focusOn n).overCap = s.overCap := by unfold State.focusOn; split <;> [rfl; (split <;> rfl)]
@[simp] theorem State.focusOn_scTicket (n : Nat) : (s.focusOn n).scTicket = s.scTicket := by unfold State.focusOn; split <;> [rfl; (split <;> rfl)]
@[simp] theorem State.focusOn_nextId (n : Nat) : (s.focusOn n).nextId = s.nextId := by unfold State.focusOn; split <;> [rfl; (split <;> rfl)]
@[simp] theorem State.focusOn_saved (n : Nat) : (s.focusOn n).saved = s.saved := by unfold State.focusOn; split <;> [rfl; (split <;> rfl)]
@[simp] theorem State.focusOn_flash (n : Nat) : (s.focusOn n).flash = s.flash := by unfold State.focusOn; split <;> [rfl; (split <;> rfl)]
@[simp] theorem State.focusOn_boot (n : Nat) : (s.focusOn n).boot = s.boot := by unfold State.focusOn; split <;> [rfl; (split <;> rfl)]
@[simp] theorem State.focusOn_out (n : Nat) : (s.focusOn n).out = s.out := by unfold State.focusOn; split <;> [rfl; (split <;> rfl)]
@[simp] theorem State.focusOn_agenda (n : Nat) : (s.focusOn n).agenda = s.agenda := by unfold State.focusOn; split <;> [rfl; (split <;> rfl)]

/-! ## `settleShoot` -/

@[simp] theorem State.settleShoot_tick  : (s.settleShoot ).tick = s.tick := by unfold State.settleShoot; split <;> [rfl; (dsimp only; split <;> rfl)]
@[simp] theorem State.settleShoot_timer  : (s.settleShoot ).timer = s.timer := by unfold State.settleShoot; split <;> [rfl; (dsimp only; split <;> rfl)]
@[simp] theorem State.settleShoot_teams  : (s.settleShoot ).teams = s.teams := by unfold State.settleShoot; split <;> [rfl; (dsimp only; split <;> rfl)]
@[simp] theorem State.settleShoot_launches  : (s.settleShoot ).launches = s.launches := by unfold State.settleShoot; split <;> [rfl; (dsimp only; split <;> rfl)]
@[simp] theorem State.settleShoot_ctxs  : (s.settleShoot ).ctxs = s.ctxs := by unfold State.settleShoot; split <;> [rfl; (dsimp only; split <;> rfl)]
@[simp] theorem State.settleShoot_segs  : (s.settleShoot ).segs = s.segs := by unfold State.settleShoot; split <;> [rfl; (dsimp only; split <;> rfl)]
@[simp] theorem State.settleShoot_conds  : (s.settleShoot ).conds = s.conds := by unfold State.settleShoot; split <;> [rfl; (dsimp only; split <;> rfl)]
@[simp] theorem State.settleShoot_engOps  : (s.settleShoot ).engOps = s.engOps := by unfold State.settleShoot; split <;> [rfl; (dsimp only; split <;> rfl)]
@[simp] theorem State.settleShoot_posted  : (s.settleShoot ).posted = s.posted := by unfold State.settleShoot; split <;> [rfl; (dsimp only; split <;> rfl)]
@[simp] theorem State.settleShoot_parents  : (s.settleShoot ).parents = s.parents := by unfold State.settleShoot; split <;> [rfl; (dsimp only; split <;> rfl)]
@[simp] theorem State.settleShoot_pool  : (s.settleShoot ).pool = s.pool := by unfold State.settleShoot; split <;> [rfl; (dsimp only; split <;> rfl)]
@[simp] theorem State.settleShoot_queues  : (s.settleShoot ).queues = s.queues := by unfold State.settleShoot; split <;> [rfl; (dsimp only; split <;> rfl)]
@[simp] theorem State.settleShoot_parts  : (s.settleShoot ).parts = s.parts := by unfold State.settleShoot; split <;> [rfl; (dsimp only; split <;> rfl)]
@[simp] theorem State.settleShoot_beads  : (s.settleShoot ).beads = s.beads := by unfold State.settleShoot; split <;> [rfl; (dsimp only; split <;> rfl)]
@[simp] theorem State.settleShoot_rods  : (s.settleShoot ).rods = s.rods := by unfold State.settleShoot; split <;> [rfl; (dsimp only; split <;> rfl)]
@[simp] theorem State.settleShoot_walkers  : (s.settleShoot ).walkers = s.walkers := by unfold State.settleShoot; split <;> [rfl; (dsimp only; split <;> rfl)]
@[simp] theorem State.settleShoot_mem  : (s.settleShoot ).mem = s.mem := by unfold State.settleShoot; split <;> [rfl; (dsimp only; split <;> rfl)]
@[simp] theorem State.settleShoot_poison  : (s.settleShoot ).poison = s.poison := by unfold State.settleShoot; split <;> [rfl; (dsimp only; split <;> rfl)]
@[simp] theorem State.settleShoot_wmask  : (s.settleShoot ).wmask = s.wmask := by unfold State.settleShoot; split <;> [rfl; (dsimp only; split <;> rfl)]
@[simp] theorem State.settleShoot_window  : (s.settleShoot ).window = s.window := by unfold State.settleShoot; split <;> [rfl; (dsimp only; split <;> rfl)]
@[simp] theorem State.settleShoot_tgen  : (s.settleShoot ).tgen = s.tgen := by unfold State.settleShoot; split <;> [rfl; (dsimp only; split <;> rfl)]
@[simp] theorem State.settleShoot_shootErr  : (s.settleShoot ).shootErr = s.shootErr := by unfold State.settleShoot; split <;> [rfl; (dsimp only; split <;> rfl)]
@[simp] theorem State.settleShoot_doneGen  : (s.settleShoot ).doneGen = s.doneGen := by unfold State.settleShoot; split <;> [rfl; (dsimp only; split <;> rfl)]
@[simp] theorem State.settleShoot_errcnt  : (s.settleShoot ).errcnt = s.errcnt := by unfold State.settleShoot; split <;> [rfl; (dsimp only; split <;> rfl)]
@[simp] theorem State.settleShoot_modpwr  : (s.settleShoot ).modpwr = s.modpwr := by unfold State.settleShoot; split <;> [rfl; (dsimp only; split <;> rfl)]
@[simp] theorem State.settleShoot_outside  : (s.settleShoot ).outside = s.outside := by unfold State.settleShoot; split <;> [rfl; (dsimp only; split <;> rfl)]
@[simp] theorem State.settleShoot_overCap  : (s.settleShoot ).overCap = s.overCap := by unfold State.settleShoot; split <;> [rfl; (dsimp only; split <;> rfl)]
@[simp] theorem State.settleShoot_scTicket  : (s.settleShoot ).scTicket = s.scTicket := by unfold State.settleShoot; split <;> [rfl; (dsimp only; split <;> rfl)]
@[simp] theorem State.settleShoot_nextId  : (s.settleShoot ).nextId = s.nextId := by unfold State.settleShoot; split <;> [rfl; (dsimp only; split <;> rfl)]
@[simp] theorem State.settleShoot_saved  : (s.settleShoot ).saved = s.saved := by unfold State.settleShoot; split <;> [rfl; (dsimp only; split <;> rfl)]
@[simp] theorem State.settleShoot_flash  : (s.settleShoot ).flash = s.flash := by unfold State.settleShoot; split <;> [rfl; (dsimp only; split <;> rfl)]
@[simp] theorem State.settleShoot_boot  : (s.settleShoot ).boot = s.boot := by unfold State.settleShoot; split <;> [rfl; (dsimp only; split <;> rfl)]
@[simp] theorem State.settleShoot_out  : (s.settleShoot ).out = s.out := by unfold State.settleShoot; split <;> [rfl; (dsimp only; split <;> rfl)]
@[simp] theorem State.settleShoot_agenda  : (s.settleShoot ).agenda = s.agenda := by unfold State.settleShoot; split <;> [rfl; (dsimp only; split <;> rfl)]

/-! ## `passTime` -/

/-- Without a shootdown no group drops code at the end of its run. -/
theorem State.settleShoot_none {s : State} (h : s.shoot = none) : s.settleShoot = s := by
  unfold State.settleShoot; rw [h]

@[simp] theorem State.passTime_tick : s.passTime.tick = s.tick + 1 := rfl
@[simp] theorem State.passTime_timer : s.passTime.timer = s.timer + BitVec.ofNat 64 (Config.elapsed s.tick) := rfl
@[simp] theorem State.passTime_grp : s.passTime.grp = s.settleShoot.grp := rfl
@[simp] theorem State.passTime_groups : s.passTime.groups = s.settleShoot.groups := rfl
@[simp] theorem State.passTime_teams : s.passTime.teams = s.teams := s.settleShoot_teams
@[simp] theorem State.passTime_launches : s.passTime.launches = s.launches := s.settleShoot_launches
@[simp] theorem State.passTime_ctxs : s.passTime.ctxs = s.ctxs := s.settleShoot_ctxs
@[simp] theorem State.passTime_segs : s.passTime.segs = s.segs := s.settleShoot_segs
@[simp] theorem State.passTime_conds : s.passTime.conds = s.conds := s.settleShoot_conds
@[simp] theorem State.passTime_engOps : s.passTime.engOps = s.engOps := s.settleShoot_engOps
@[simp] theorem State.passTime_posted : s.passTime.posted = s.posted := s.settleShoot_posted
@[simp] theorem State.passTime_parents : s.passTime.parents = s.parents := s.settleShoot_parents
@[simp] theorem State.passTime_pool : s.passTime.pool = s.pool := s.settleShoot_pool
@[simp] theorem State.passTime_queues : s.passTime.queues = s.queues := s.settleShoot_queues
@[simp] theorem State.passTime_parts : s.passTime.parts = s.parts := s.settleShoot_parts
@[simp] theorem State.passTime_beads : s.passTime.beads = s.settleShoot.vacateAll.settleSlots.beads := rfl
@[simp] theorem State.passTime_rods : s.passTime.rods = s.rods := s.settleShoot_rods
@[simp] theorem State.passTime_cores : s.passTime.cores = s.settleShoot.cores := rfl
@[simp] theorem State.passTime_walkers : s.passTime.walkers = s.walkers := s.settleShoot_walkers
@[simp] theorem State.passTime_mem : s.passTime.mem = s.mem := s.settleShoot_mem
@[simp] theorem State.passTime_poison : s.passTime.poison = s.poison := s.settleShoot_poison
@[simp] theorem State.passTime_wmask : s.passTime.wmask = s.wmask := s.settleShoot_wmask
@[simp] theorem State.passTime_window : s.passTime.window = s.window := s.settleShoot_window
@[simp] theorem State.passTime_tgen : s.passTime.tgen = s.tgen := s.settleShoot_tgen
@[simp] theorem State.passTime_shoot : s.passTime.shoot = s.settleShoot.shoot := rfl
@[simp] theorem State.passTime_shootErr : s.passTime.shootErr = s.shootErr := s.settleShoot_shootErr
@[simp] theorem State.passTime_doneGen : s.passTime.doneGen = s.doneGen := s.settleShoot_doneGen
@[simp] theorem State.passTime_errcnt : s.passTime.errcnt = s.errcnt := s.settleShoot_errcnt
@[simp] theorem State.passTime_modpwr : s.passTime.modpwr = s.modpwr := s.settleShoot_modpwr
@[simp] theorem State.passTime_outside : s.passTime.outside = s.outside := s.settleShoot_outside
@[simp] theorem State.passTime_overCap : s.passTime.overCap = s.overCap := s.settleShoot_overCap
@[simp] theorem State.passTime_scTicket : s.passTime.scTicket = s.scTicket := s.settleShoot_scTicket
@[simp] theorem State.passTime_nextId : s.passTime.nextId = s.nextId := s.settleShoot_nextId
@[simp] theorem State.passTime_saved : s.passTime.saved = s.saved := s.settleShoot_saved
@[simp] theorem State.passTime_flash : s.passTime.flash = s.flash := s.settleShoot_flash
@[simp] theorem State.passTime_boot : s.passTime.boot = s.boot := s.settleShoot_boot
@[simp] theorem State.passTime_out : s.passTime.out = s.out := s.settleShoot_out
@[simp] theorem State.passTime_agenda : s.passTime.agenda = s.agenda := s.settleShoot_agenda

/-! ## A table's own entry -/

theorem State.updGroup_focus {s : State} {n : Nat} (f : Group → Group) (h : s.grp.gid = n) :
    s.updGroup n f = s.setGrp (f s.grp) := by simp [State.updGroup, State.setGrp, h]
theorem State.updGroup_other {s : State} {n : Nat} (f : Group → Group) (h : s.grp.gid ≠ n) :
    (s.updGroup n f).grp = s.grp := by simp [State.updGroup, h]
@[simp] theorem State.setGrp_setGrp (g g' : Group) : (s.setGrp g).setGrp g' = s.setGrp g' := rfl
@[simp] theorem State.setGrp_self : s.setGrp s.grp = s := rfl

end Sys2Proof.Machine
end

