-- ==== Sys2Proof/Laws/Memory.lean ====
section
/-! SUPPORT. Device memory: its canonical form is kept by every store, a store changes the bytes it stores and no
other, and what leaves memory as it is. -/

namespace Sys2Proof.Machine

/-! ## Stores -/

/-- Cells written one after the other keep the canonical form. -/
theorem writeBytes_wf {m : List (Nat × Byte)} (bs : List (Nat × Byte)) (h : Memory.wf m = true) :
    Memory.wf (writeBytes m bs) = true := by
  induction bs generalizing m with
  | nil => exact h
  | cons b bs ih => exact ih (SMap.wf_set b.1 b.2 h)

/-- The last cell of a list that names an address. -/
def lastCell (bs : List (Nat × Byte)) (a : Nat) (old : Byte) : Byte :=
  bs.foldl (fun v x => if x.1 = a then x.2 else v) old

theorem get_writeBytes {m : List (Nat × Byte)} (bs : List (Nat × Byte)) (a : Nat) (h : Memory.wf m = true) :
    SMap.get 0 (writeBytes m bs) a = lastCell bs a (SMap.get 0 m a) := by
  induction bs generalizing m with
  | nil => rfl
  | cons b bs ih =>
    have e : writeBytes m (b :: bs) = writeBytes (SMap.set 0 m b.1 b.2) bs := rfl
    rw [e, ih (SMap.wf_set b.1 b.2 h), SMap.get_set _ _ _ h]
    simp only [lastCell, List.foldl_cons, eq_comm (a := a)]

theorem lastCell_other {bs : List (Nat × Byte)} {a : Nat} (old : Byte) (h : ∀ x ∈ bs, x.1 ≠ a) :
    lastCell bs a old = old := by
  induction bs generalizing old with
  | nil => rfl
  | cons b bs ih =>
    simp only [lastCell, List.foldl_cons, if_neg (h b (by simp))]
    exact ih old (fun x hx => h x (by simp [hx]))

theorem lastCell_of_mem {bs : List (Nat × Byte)} {a : Nat} {v : Byte} (old : Byte) (hm : (a, v) ∈ bs)
    (hu : ∀ w, (a, w) ∈ bs → w = v) : lastCell bs a old = v := by
  induction bs generalizing old with
  | nil => simp at hm
  | cons b bs ih =>
    simp only [lastCell, List.foldl_cons]
    by_cases hb : (a, v) ∈ bs
    · exact ih _ hb (fun w hw => hu w (by simp [hw]))
    · have hbv : b = (a, v) := by
        rcases List.mem_cons.1 hm with h | h
        · exact h.symm
        · exact absurd h hb
      subst hbv
      rw [if_pos rfl]
      refine lastCell_other v (fun x hx he => ?_)
      obtain ⟨x1, x2⟩ := x
      subst he
      have := hu x2 (by simp [hx])
      subst this
      exact hb hx

@[simp] theorem State.homeStore_mem (s : State) (bs : List (Nat × Byte)) :
    (s.homeStore bs).mem = writeBytes s.mem bs := rfl

/-- A store at the home slices keeps the canonical form. -/
theorem State.homeStore_wf {s : State} (bs : List (Nat × Byte)) (h : Memory.wf s.mem = true) :
    Memory.wf (s.homeStore bs).mem = true := writeBytes_wf bs h

/-- A byte outside a store is as before. -/
theorem State.byte_homeStore_other {s : State} {bs : List (Nat × Byte)} {a : Nat} (h : Memory.wf s.mem = true)
    (ha : ∀ x ∈ bs, x.1 ≠ a) : (s.homeStore bs).byte a = s.byte a := by
  unfold State.byte
  rw [State.homeStore_mem, get_writeBytes bs a h]
  exact lastCell_other _ ha

/-- A byte of a store. -/
theorem State.byte_homeStore {s : State} {bs : List (Nat × Byte)} {a : Nat} {v : Byte} (h : Memory.wf s.mem = true)
    (hm : (a, v) ∈ bs) (hu : ∀ w, (a, w) ∈ bs → w = v) : (s.homeStore bs).byte a = v := by
  unfold State.byte
  rw [State.homeStore_mem, get_writeBytes bs a h]
  exact lastCell_of_mem _ hm hu

theorem State.homeRun_mem (s : State) (pa : Nat) (bs : List Byte) :
    (s.homeRun pa bs).mem = if bs.length = 0 then s.mem else SMap.putRun 0 s.mem pa bs := by
  unfold State.homeRun; dsimp only; split <;> rfl

/-- A run of stores keeps the canonical form. -/
theorem State.homeRun_wf {s : State} (pa : Nat) (bs : List Byte) (h : Memory.wf s.mem = true) :
    Memory.wf (s.homeRun pa bs).mem = true := by
  rw [State.homeRun_mem]; split
  · exact h
  · exact SMap.wf_putRun pa bs h

/-- A byte after a run of stores. -/
theorem State.byte_homeRun {s : State} (pa : Nat) (bs : List Byte) (a : Nat) (h : Memory.wf s.mem = true) :
    (s.homeRun pa bs).byte a = if pa ≤ a ∧ a < pa + bs.length then bs.getD (a - pa) 0 else s.byte a := by
  unfold State.byte
  rw [State.homeRun_mem]
  split
  · rename_i h0
    rw [if_neg (by omega)]
  · exact SMap.get_putRun pa a bs h

end Sys2Proof.Machine
end

