-- ==== Sys2Proof/Laws/Frames.lean ====
section
/-! SUPPORT. What leaves memory as it is: every shared operation but the stores. -/

namespace Sys2Proof.Machine

theorem foldl_mem {α : Type} (f : State → α → State) (h : ∀ t x, (f t x).mem = t.mem) (s : State) (xs : List α) :
    (xs.foldl f s).mem = s.mem := by
  induction xs generalizing s with
  | nil => rfl
  | cons x xs ih => rw [List.foldl_cons, ih, h]
@[simp] theorem foldl_mem' {α : Type} (f : State → α → State) (h : ∀ t x, (f t x).mem = t.mem) (s : State)
    (xs : List α) : (List.foldl f s xs).mem = s.mem := foldl_mem f h s xs

@[simp] theorem State.dropRefs_mem (s : State) (bead : Nat) (offs : List Nat) :
    (State.dropRefs s bead offs).mem = s.mem := by
  unfold State.dropRefs; dsimp only; split <;> rfl
@[simp] theorem State.takeRef_mem (s : State) (bead off : Nat) : (State.takeRef s bead off).mem = s.mem := by
  rfl
@[simp] theorem State.placeRecord_mem (s : State) (bead : Nat) (r : QRec) :
    (State.placeRecord s bead r).2.mem = s.mem := by
  rfl
@[simp] theorem State.noteLinked_mem (s : State) (parent index off : Nat) :
    (State.noteLinked s parent index off).mem = s.mem := by
  rfl
@[simp] theorem State.noteEnded_mem (s : State) (parent rate : Nat) :
    (State.noteEnded s parent rate).mem = s.mem := by
  rfl
@[simp] theorem State.elementEnded_mem (s : State) (l : Launch) (bead : Nat) (e : Elem) (record : Option Nat) (regs : SMap Word) :
    (State.elementEnded s l bead e record regs).mem = s.mem := by
  unfold State.elementEnded; (try dsimp only); repeat' split
  all_goals first | rfl | simp [*]
@[simp] theorem State.reanchor_mem (s : State) (gid j bead off : Nat) :
    (State.reanchor s gid j bead off).mem = s.mem := by
  unfold State.reanchor; (try dsimp only); repeat' split
  all_goals first | rfl | simp [*]
@[simp] theorem State.afterRecord_mem (s : State) (l : Launch) (gid bead lane : Nat) (e : Elem) (regs : SMap Word) (off : Nat) :
    (State.afterRecord s l gid bead lane e regs off).mem = s.mem := by
  unfold State.afterRecord; (try dsimp only); repeat' split
  all_goals first | rfl | simp [*]
@[simp] theorem State.endElement_mem (s : State) (l : Launch) (gid bead lane : Nat) (e : Elem) (regs : SMap Word) :
    (State.endElement s l gid bead lane e regs).1.mem = s.mem := by
  unfold State.endElement; (try dsimp only); repeat' split
  all_goals first | rfl | simp [*]
@[simp] theorem State.withdraw_mem (s : State) (bead gid : Nat) : (State.withdraw s bead gid).mem = s.mem := by
  rfl
@[simp] theorem State.slotsFreed_mem (s : State) (bead : Nat) : (State.slotsFreed s bead).mem = s.mem := by
  rfl
@[simp] theorem State.unpin_mem (s : State) (g : Group) : (State.unpin s g).mem = s.mem := by
  unfold State.unpin; (try dsimp only); repeat' split
  all_goals first | rfl | simp [*]
@[simp] theorem State.killGroup_mem (s : State) (gid : Nat) : (State.killGroup s gid).mem = s.mem := by
  unfold State.killGroup; (try dsimp only); repeat' split
  all_goals first | rfl | simp [*]
@[simp] theorem State.dropElements_mem (s : State) (gone : Elem → Bool) :
    (State.dropElements s gone).mem = s.mem := by
  unfold State.dropElements
  rw [foldl_mem, foldl_mem]
  · intro t x; simp
  · intro t x
    split
    · rfl
    · dsimp only
      split <;> simp
@[simp] theorem State.roomFrees_mem (s : State) (asid : Nat) : (State.roomFrees s asid).mem = s.mem := by
  rfl
@[simp] theorem State.killTeam_mem (s : State) (tid : Nat) : (State.killTeam s tid).mem = s.mem := by
  unfold State.killTeam
  dsimp only
  split
  all_goals
    simp only [State.roomFrees_mem, State.dropElements_mem, State.dropRefs_mem, State.updBead_mem,
      foldl_mem State.killGroup State.killGroup_mem]
@[simp] theorem State.setCond_mem (s : State) (die e : Nat) (c : Cond) :
    (State.setCond s die e c).mem = s.mem := by
  rfl
@[simp] theorem State.freeConds_mem (s : State) : (State.freeConds s).mem = s.mem := by
  rfl
@[simp] theorem State.stopSegTeam_mem (s : State) (x : Seg) : (State.stopSegTeam s x).mem = s.mem := by
  unfold State.stopSegTeam
  split
  · exact State.killTeam_mem _ _
  · rfl
@[simp] theorem State.freeOwnConds_mem (s : State) (x : Seg) : (State.freeOwnConds s x).mem = s.mem := by
  unfold State.freeOwnConds; simp
@[simp] theorem State.pruneAll_mem (s : State) (x0 : Nat) (x1 : List Seg) :
    (State.pruneAll s x0 x1).mem = s.mem := by
  fun_induction State.pruneAll with
  | case1 => rfl
  | case2 => rfl
  | case3 s n x rest h ih => exact ih
  | case4 s n x rest y h kids s1 s2 ih =>
    rw [ih]
    show s1.mem = s.mem
    simp [s1]
@[simp] theorem State.pruneOnly_mem (s : State) (xs : List Seg) : (State.pruneOnly s xs).mem = s.mem :=
  State.pruneAll_mem _ _ _
@[simp] theorem State.prune_mem (s : State) (xs : List Seg) : (State.prune s xs).mem = s.mem := by
  unfold State.prune; simp
@[simp] theorem State.squash_mem (s : State) (asid segid : Nat) (held : Bool) :
    (State.squash s asid segid held).mem = s.mem := by
  unfold State.squash; (try dsimp only); repeat' split
  all_goals first | rfl | simp [*]
@[simp] theorem State.squashViolated_mem (s : State) (asid segid : Nat) (spec : Bool) (secs : List Nat) :
    (State.squashViolated s asid segid spec secs).mem = s.mem := by
  unfold State.squashViolated; simp
@[simp] theorem State.train_mem (s : State) (part die side : Nat) (c : Cond) :
    (State.train s part die side c).mem = s.mem := by
  unfold State.train
  exact foldl_mem _ (fun t x => by rfl) s c.spawned
@[simp] theorem State.versionStore_mem (s : State) (asid segid : Nat) (bs : List (Nat × Byte)) :
    (State.versionStore s asid segid bs).mem = s.mem := by
  unfold State.versionStore; simp
@[simp] theorem State.fillL1_mem (s : State) (core sec : Nat) : (State.fillL1 s core sec).mem = s.mem := by
  rfl
@[simp] theorem State.freshenL1_mem (s : State) (core sec : Nat) : (State.freshenL1 s core sec).mem = s.mem := by
  unfold State.freshenL1; split <;> rfl
@[simp] theorem State.fillCaches_mem (s : State) (core : Option Nat) (bead : Nat) (x : Walked) :
    (State.fillCaches s core bead x).mem = s.mem := by
  unfold State.fillCaches; dsimp only; split <;> rfl
@[simp] theorem State.lsuBytes_mem (s : State) (g : Group) (bypass : Bool) (pas : List Nat) :
    (State.lsuBytes s g bypass pas).2.mem = s.mem := by
  unfold State.lsuBytes; (try dsimp only); repeat' split
  all_goals first | rfl | simp [*]
@[simp] theorem State.translate_mem (s : State) (core : Option Nat) (bead asid va : Nat) (acc : Acc) :
    (s.translate core bead asid va acc).2.mem = s.mem := by
  unfold State.translate; dsimp only; repeat' split
  all_goals simp
@[simp] theorem State.translateRange_mem (s : State) (core : Option Nat) (bead asid : Nat) (acc : Acc) (va n : Nat) :
    (s.translateRange core bead asid acc va n).2.mem = s.mem := by
  induction n generalizing s va with
  | zero => rfl
  | succ n ih =>
    unfold State.translateRange
    have h := State.translate_mem s core bead asid (va % 2 ^ 64) acc
    split
    · rename_i e; rw [e] at h; exact h
    · rename_i s1 e
      rw [e] at h
      have h2 := ih s1 (va + 1)
      split
      · rename_i e2; rw [e2] at h2; exact h2.trans h
      · rename_i e2; rw [e2] at h2; exact h2.trans h
@[simp] theorem State.noteReads_mem (s : State) (asid segid : Nat) (pas : List Nat) :
    (s.noteReads asid segid pas).mem = s.mem := rfl
@[simp] theorem State.loadLane_mem (s : State) (g : Group) (bypass : Bool) (va n : Nat) :
    (State.loadLane s g bypass va n).2.mem = s.mem := by
  unfold State.loadLane
  have h := State.translateRange_mem s (some g.core) g.bead g.asid .read va n
  split
  · rename_i e; rw [e] at h; exact h
  · rename_i e
    rw [e] at h
    split
    · exact h
    · exact (State.lsuBytes_mem _ _ _ _).trans h
@[simp] theorem State.engineRead_mem (s : State) (bead asid segid va n : Nat) :
    (State.engineRead s bead asid segid va n).2.mem = s.mem := by
  unfold State.engineRead
  have h := State.translateRange_mem s none bead asid .read va n
  split
  · rename_i e; rw [e] at h; exact h
  · rename_i e
    rw [e] at h
    dsimp only
    split
    · exact h
    · dsimp only
      split
      · exact h
      · exact (State.noteReads_mem _ _ _ _).trans h
@[simp] theorem State.dropL1_mem (s : State) (core : Nat) : (State.dropL1 s core).mem = s.mem := by
  rfl
@[simp] theorem State.dropSamp_mem (s : State) (core : Nat) : (State.dropSamp s core).mem = s.mem := by
  rfl
@[simp] theorem State.sampBytes_mem (s : State) (g : Group) (pas : List Nat) :
    (State.sampBytes s g pas).2.mem = s.mem := by
  unfold State.sampBytes
  split
  · rfl
  · dsimp only
    exact foldl_mem' _ (by intro t x; rfl) _ _
@[simp] theorem State.sampLane_mem (s : State) (g : Group) (va n : Nat) :
    (State.sampLane s g va n).2.mem = s.mem := by
  unfold State.sampLane
  have h := State.translateRange_mem s (some g.core) g.bead g.asid .read va n
  split
  · rename_i e; rw [e] at h; exact h
  · rename_i e
    rw [e] at h
    dsimp only
    split
    · exact h
    · exact (State.sampBytes_mem _ _ _).trans h
@[simp] theorem State.done_mem (s : State) (h : Hdr) : (State.done s h).mem = s.mem := by
  rfl
@[simp] theorem State.doneAt_mem (s : State) (moved : List (Nat × Nat)) :
    (State.doneAt s moved).mem = s.mem := by
  rfl
@[simp] theorem State.waitAt_mem (s : State) (w : Wait) : (State.waitAt s w).mem = s.mem := by
  rfl
@[simp] theorem State.killRegion_mem (s : State) (gid : Nat) : (State.killRegion s gid).mem = s.mem := by
  unfold State.killRegion; (try dsimp only); repeat' split
  all_goals first | rfl | simp [*]
@[simp] theorem State.recordFault_mem (s : State) (r : FRec) (who : Attach) :
    (State.recordFault s r who).mem = s.mem := by
  rfl
@[simp] theorem State.sendRecord_mem (s : State) (g : Group) (r : FRec) : (s.sendRecord g r).mem = s.mem := by
  unfold State.sendRecord; split <;> simp
@[simp] theorem State.trap_mem (s : State) (t : Trap) (after : Bool) : (State.trap s t after).mem = s.mem := by
  unfold State.trap; (try dsimp only); repeat' split
  all_goals first | rfl | simp [foldl_mem]
@[simp] theorem State.illegalMask_mem (s : State) (m : Mask) : (State.illegalMask s m).mem = s.mem := by
  unfold State.illegalMask; simp
@[simp] theorem State.illegalState_mem (s : State) (detail : Nat) (info : Dword) :
    (State.illegalState s detail info).mem = s.mem := by
  unfold State.illegalState; simp
@[simp] theorem State.illegalInstr_mem (s : State) (r : Reject) : (State.illegalInstr s r).mem = s.mem := by
  unfold State.illegalInstr; simp
@[simp] theorem State.accessViolation_mem (s : State) (kind lane a : Nat) :
    (State.accessViolation s kind lane a).mem = s.mem := by
  unfold State.accessViolation; simp
@[simp] theorem State.poisonTrap_mem (s : State) (stops : List (Nat × LaneStop)) (path acc : Nat) :
    (s.poisonTrap stops path acc).mem = s.mem := by
  unfold State.poisonTrap; split <;> simp
@[simp] theorem State.stopLanes_mem (s : State) (stops : List (Nat × LaneStop)) (path acc : Nat) :
    (State.stopLanes s stops path acc).mem = s.mem := by
  unfold State.stopLanes; (try dsimp only); repeat' split
  all_goals first | rfl | simp [*]
@[simp] theorem State.siblingEnded_mem (s : State) (launch runs : Nat) : (s.siblingEnded launch runs).mem = s.mem := rfl
@[simp] theorem State.teamEnded_mem (s : State) (tid : Nat) : (State.teamEnded s tid).mem = s.mem := by
  unfold State.teamEnded; (try dsimp only); repeat' split
  all_goals first | rfl | simp [*]
@[simp] theorem State.removeGroup_mem (s : State) (gid : Nat) : (State.removeGroup s gid).mem = s.mem := by
  unfold State.removeGroup; (try dsimp only); repeat' split
  all_goals first | rfl | simp [*]
@[simp] theorem State.endLaneElem_mem (s : State) (gid lane : Nat) :
    (State.endLaneElem s gid lane).mem = s.mem := by
  unfold State.endLaneElem; (try dsimp only); repeat' split
  all_goals first | rfl | simp [*]
@[simp] theorem State.releaseLg_mem (s : State) (gid j : Nat) : (State.releaseLg s gid j).mem = s.mem := by
  unfold State.releaseLg; repeat' split
  all_goals simp
@[simp] theorem State.endLogical_mem (s : State) (gid j : Nat) : (State.endLogical s gid j).mem = s.mem := by
  unfold State.endLogical
  split
  · rfl
  · dsimp only
    split <;> split
    all_goals (try split)
    all_goals simp [foldl_mem, State.endLaneElem_mem]
@[simp] theorem State.groupMayEnd_mem (s : State) (gid : Nat) : (State.groupMayEnd s gid).mem = s.mem := by
  unfold State.groupMayEnd; (try dsimp only); repeat' split
  all_goals first | rfl | simp [foldl_mem]
@[simp] theorem State.endLanes_mem (s : State) (gid : Nat) (lanes : List Nat) :
    (State.endLanes s gid lanes).mem = s.mem := by
  unfold State.endLanes; (try dsimp only); repeat' split
  all_goals first | rfl | simp [*]
@[simp] theorem State.writeLanes_mem (s : State) (h : Hdr) (d : Nat) (outs : List (Nat × LaneOut)) :
    (State.writeLanes s h d outs).mem = s.mem := by
  rfl

/-! ## Operations that store -/

theorem foldl_wf {α : Type} (f : State → α → State)
    (h : ∀ t x, Memory.wf t.mem = true → Memory.wf (f t x).mem = true) (s : State) (xs : List α)
    (hs : Memory.wf s.mem = true) : Memory.wf (xs.foldl f s).mem = true := by
  induction xs generalizing s with
  | nil => exact hs
  | cons x xs ih => exact ih (f s x) (h s x hs)

theorem State.contextStore_mem (s : State) (asid segid : Nat) (bs : List (Nat × Byte)) :
    (s.contextStore asid segid bs).mem = writeBytes s.mem bs := by
  unfold State.contextStore; simp

/-- A store of a context keeps the canonical form. -/
theorem State.contextStore_wf {s : State} (asid segid : Nat) (bs : List (Nat × Byte)) (h : Memory.wf s.mem = true) :
    Memory.wf (s.contextStore asid segid bs).mem = true := by
  rw [State.contextStore_mem]; exact writeBytes_wf bs h

/-- A store of an engine or an agent keeps the canonical form. -/
theorem State.engineWrite_wf {s : State} (bead asid segid va : Nat) (bs : List Byte) (h : Memory.wf s.mem = true) :
    Memory.wf (s.engineWrite bead asid segid va bs).2.mem = true := by
  unfold State.engineWrite
  have ht := State.translateRange_mem s none bead asid .write va bs.length
  split
  · rename_i e; rw [e] at ht; rw [show _ = s.mem from ht]; exact h
  · rename_i s1 e
    rw [e] at ht
    have h1 : Memory.wf s1.mem = true := by rw [show s1.mem = s.mem from ht]; exact h
    dsimp only
    split
    · exact State.contextStore_wf _ _ _ h1
    · simpa using h1

/-- Performing a group's buffered stores keeps the canonical form. -/
theorem State.flushRelease_wf {s : State} (g : Group) (h : Memory.wf s.mem = true) :
    Memory.wf (s.flushRelease g).mem = true := by
  unfold State.flushRelease
  refine foldl_wf _ (fun t e ht => ?_) _ _ (by simpa using h)
  dsimp only
  split
  · simpa using ht
  · split
    · simpa using ht
    · exact State.contextStore_wf _ _ _ (by simpa using ht)

/-- A store of a group keeps the canonical form. -/
theorem State.groupStore_wf {s : State} (g : Group) (cells : List (Nat × Byte)) (h : Memory.wf s.mem = true) :
    Memory.wf (s.groupStore g cells).mem = true := by
  unfold State.groupStore
  split
  · simpa using h
  · split
    · simpa using h
    · exact State.contextStore_wf _ _ _ (by simpa using h)

/-- The end of a region keeps the canonical form. -/
theorem State.endRegion_wf {s : State} (h : Memory.wf s.mem = true) : Memory.wf s.endRegion.mem = true := by
  unfold State.endRegion
  split
  · simpa using State.flushRelease_wf s.grp h
  · exact h

/-! ## The common course of a word -/

@[simp] theorem State.overflowTaken_mem (s : State) (t : Trap) : (s.overflowTaken t).mem = s.mem := by
  unfold State.overflowTaken; split <;> rfl

@[simp] theorem State.pendAll_mem (s : State) (h : Hdr) (stops : List (Nat × LaneStop)) : (s.pendAll h stops).mem = s.mem := by
  unfold State.pendAll; simp

/-- A word whose operands can all be read takes its effect on the lanes that execute it. -/
theorem State.withOpsOr_readable {s : State} {h : Hdr} {ops : List Opnd} {p : List Nat → List (Nat × LaneStop) → State}
    {f : List Nat → State} (hr : s.readable h ops) : s.withOpsOr h ops p f = f (s.grp.execLanes s.curLaunch h) := by
  unfold State.withOpsOr; unfold State.readable at hr; simp only [hr]

theorem State.withOps_readable {s : State} {h : Hdr} {ops : List Opnd} {f : List Nat → State} (hr : s.readable h ops) :
    s.withOps h ops f = f (s.grp.execLanes s.curLaunch h) := State.withOpsOr_readable hr

theorem State.withOpsOr_mem {s : State} {h : Hdr} {ops : List Opnd} {p : List Nat → List (Nat × LaneStop) → State}
    {f : List Nat → State} (hp : ∀ ls st, (p ls st).mem = s.mem) (hf : ∀ ls, (f ls).mem = s.mem) :
    (s.withOpsOr h ops p f).mem = s.mem := by
  unfold State.withOpsOr; dsimp only; split
  · split
    · exact hp _ _
    · simp
  · exact hf _

theorem State.withOps_mem {s : State} {h : Hdr} {ops : List Opnd} {f : List Nat → State}
    (hf : ∀ ls, (f ls).mem = s.mem) : (s.withOps h ops f).mem = s.mem :=
  State.withOpsOr_mem (fun _ _ => State.pendAll_mem _ _ _) hf

theorem State.groupWide_mem {s f : State} (hf : f.mem = s.mem) : (s.groupWide f).mem = s.mem := by
  unfold State.groupWide; split
  · exact hf
  · simp

@[simp] theorem State.laneWord_mem (s : State) (h : Hdr) (d : Nat) (ops : List Opnd) (f : Nat → LaneOut) :
    (s.laneWord h d ops f).mem = s.mem := by
  unfold State.laneWord
  exact State.withOpsOr_mem (fun _ _ => by simp) (fun _ => by simp)

end Sys2Proof.Machine
end

