-- ==== Sys2Proof/Laws/Groups.lean ====
section
/-! SUPPORT. Groups: what each update leaves, lanes of a mask, and that a word's lanes hold their registers in
different places. -/

namespace Sys2Proof.Machine

/-! ## Lanes of a mask -/

theorem inMask_lt {m : Mask} {l : Nat} (h : inMask m l = true) : l < 128 := by
  by_contra hl
  unfold inMask at h
  rw [BitVec.getLsbD_of_ge _ _ (by omega)] at h
  exact Bool.false_ne_true h

theorem mem_lanesOf {m : Mask} {n l : Nat} : l ∈ lanesOf m n ↔ l < n ∧ inMask m l = true := by
  simp [lanesOf]

theorem lanesOf_nodup (m : Mask) (n : Nat) : (lanesOf m n).Nodup := List.nodup_range.filter _

theorem lowLane_mem {m : Mask} {n l : Nat} (h : lowLane m n = some l) : l < n ∧ inMask m l = true := by
  rw [← mem_lanesOf]
  exact List.mem_of_head? h

theorem inMask_and (a b : Mask) (l : Nat) : inMask (a &&& b) l = (inMask a l && inMask b l) := by
  simp [inMask]
theorem inMask_or (a b : Mask) (l : Nat) : inMask (a ||| b) l = (inMask a l || inMask b l) := by
  simp [inMask]

theorem inMask_oneLane {l l' : Nat} (h : l' < 128) : inMask (oneLane l) l' = decide (l' = l) := by
  simp only [inMask, oneLane, BitVec.getLsbD_ofNat, h, decide_true, Bool.true_and, Nat.testBit_two_pow]
  exact decide_eq_decide.2 eq_comm

theorem inMask_laneRange {lo n l : Nat} (h : inMask (laneRange lo n) l = true) : lo ≤ l ∧ l < lo + n := by
  simp only [inMask, laneRange, BitVec.getLsbD_ofNat, ← Nat.shiftLeft_eq, Nat.testBit_shiftLeft,
    Nat.testBit_two_pow_sub_one, Bool.and_eq_true, decide_eq_true_eq] at h
  omega

/-- A lane of a logical group's mask belongs to it. -/
theorem Group.lgOf_of_mask {g : Group} {j l : Nat} (h : inMask (g.lgMask j) l = true) : g.lgOf l = j := by
  obtain ⟨h1, h2⟩ := inMask_laneRange h
  unfold Group.lgOf
  have hpos : 0 < g.lw := by omega
  rw [Nat.div_eq_iff hpos]
  constructor
  · omega
  · have : j * g.lw + g.lw = (j + 1) * g.lw := by ring
    omega

/-! ## Updates of a group -/

@[simp] theorem Group.updLg_lw (g : Group) (j : Nat) (f : LGroup → LGroup) : (g.updLg j f).lw = g.lw := rfl
@[simp] theorem Group.updLg_div (g : Group) (j : Nat) (f : LGroup → LGroup) : (g.updLg j f).div = g.div := rfl
@[simp] theorem Group.updLg_regs (g : Group) (j : Nat) (f : LGroup → LGroup) : (g.updLg j f).regs = g.regs := rfl
@[simp] theorem Group.updLg_preds (g : Group) (j : Nat) (f : LGroup → LGroup) : (g.updLg j f).preds = g.preds := rfl
@[simp] theorem Group.updLg_words (g : Group) (j : Nat) (f : LGroup → LGroup) : (g.updLg j f).words = g.words := rfl
@[simp] theorem Group.updLg_run (g : Group) (j : Nat) (f : LGroup → LGroup) : (g.updLg j f).run = g.run := rfl

/-- A logical group after an update of one. -/
theorem Group.lg_updLg (g : Group) (j i : Nat) (f : LGroup → LGroup) :
    (g.updLg j f).lg i = if i = j then f (g.lg i) else g.lg i := by
  unfold Group.updLg Group.lg
  simp only [List.getD_eq_getElem?_getD, List.getElem?_map, List.getElem?_range']
  by_cases h : i < max g.lgs.length (j + 1)
  · simp [List.getElem?_range h]
  · have h1 : g.lgs.length ≤ i := by omega
    have h2 : i ≠ j := by omega
    have h3 : (List.range (max g.lgs.length (j + 1)))[i]? = none := by simp; omega
    simp [h3, h2, List.getElem?_eq_none h1]

/-! ## Registers -/

@[simp] theorem Group.setReg_lw (g : Group) (gr : Bool) (l r : Nat) (v : Word) : (g.setReg gr l r v).lw = g.lw := by
  unfold Group.setReg; split <;> rfl
@[simp] theorem Group.setReg_div (g : Group) (gr : Bool) (l r : Nat) (v : Word) : (g.setReg gr l r v).div = g.div := by
  unfold Group.setReg; split <;> rfl
@[simp] theorem Group.setReg_preds (g : Group) (gr : Bool) (l r : Nat) (v : Word) :
    (g.setReg gr l r v).preds = g.preds := by
  unfold Group.setReg; split <;> rfl
@[simp] theorem Group.setReg_words (g : Group) (gr : Bool) (l r : Nat) (v : Word) :
    (g.setReg gr l r v).words = g.words := by
  unfold Group.setReg; split <;> rfl

/-- A logical group after one of its registers was written. -/
theorem Group.lg_setReg (g : Group) (l r : Nat) (v : Word) (j : Nat) :
    (g.setReg true l r v).lg j
      = if j = g.lgOf l then { g.lg j with gregs := SMap.set 0 (g.lg j).gregs r v } else g.lg j :=
  Group.lg_updLg { g with bad := SMap.del g.bad (g.badKey true l r) } (g.lgOf l) j
    (fun x => { x with gregs := SMap.set 0 x.gregs r v })

/-- A written register is the only one whose poison goes (R137). -/
theorem Group.setReg_bad (g : Group) (gr : Bool) (l r : Nat) (v : Word) :
    (g.setReg gr l r v).bad = SMap.del g.bad (g.badKey gr l r) := by
  cases gr <;> rfl

theorem SMap.mem_of_mem_del {α : Type} {m : SMap α} {k : Nat} {x : Nat × α} (h : x ∈ SMap.del m k) : x ∈ m :=
  (List.mem_filter.1 h).1

/-- A register read after one was written. -/
theorem Group.reg_setReg (g : Group) (gr : Bool) {l l' : Nat} (r r' : Nat) (v : Word) (h : l < 128) (h' : l' < 128) :
    (g.setReg gr l r v).reg gr l' r' = if g.samePlace gr l' l = true ∧ r' = r then v else g.reg gr l' r' := by
  cases gr
  · simp only [Group.setReg, Group.reg, Group.samePlace, SMap.look_set, Bool.false_eq_true, if_false,
      decide_eq_true_eq]
    congr 1
    simp only [eq_iff_iff]
    omega
  · have e : (g.setReg true l r v).lgOf l' = g.lgOf l' := rfl
    simp only [Group.reg, Group.samePlace, if_true, e, Group.lg_setReg, decide_eq_true_eq]
    by_cases hp : g.lgOf l' = g.lgOf l
    · simp [hp, SMap.look_set]
    · simp [hp]

/-- Registers of the rates held in the other way. -/
theorem Group.reg_setReg_not (g : Group) (gr : Bool) (l l' r r' : Nat) (v : Word) :
    (g.setReg gr l r v).reg (!gr) l' r' = g.reg (!gr) l' r' := by
  cases gr
  · rfl
  · rfl

theorem Group.samePlace_congr {g t : Group} (h : t.lw = g.lw) (gr : Bool) (l l' : Nat) :
    t.samePlace gr l l' = g.samePlace gr l l' := by
  unfold Group.samePlace Group.lgOf; rw [h]

/-! ## What a computing word leaves -/

theorem Group.sameRest_refl (g : Group) : g.sameRest g := by
  simp [Group.sameRest]

theorem Group.sameRest_trans {a b c : Group} (h : a.sameRest b) (h' : b.sameRest c) : a.sameRest c := by
  unfold Group.sameRest at *
  obtain ⟨h1, h2, h3, h4, h5, h6, h7, h8, h9, h10, h11, h12, h13, h14, h15, h16, h17, h18, h19, h20, h21, h22,
    h23, h24, h25, h26, hb, hl⟩ := h
  obtain ⟨k1, k2, k3, k4, k5, k6, k7, k8, k9, k10, k11, k12, k13, k14, k15, k16, k17, k18, k19, k20, k21, k22,
    k23, k24, k25, k26, kb, kl⟩ := h'
  refine ⟨k1.trans h1, k2.trans h2, k3.trans h3, k4.trans h4, k5.trans h5, k6.trans h6, k7.trans h7,
    k8.trans h8, k9.trans h9, k10.trans h10, k11.trans h11, k12.trans h12, k13.trans h13, k14.trans h14,
    k15.trans h15, k16.trans h16, k17.trans h17, k18.trans h18, k19.trans h19, k20.trans h20, k21.trans h21,
    k22.trans h22, k23.trans h23, k24.trans h24, k25.trans h25, k26.trans h26,
    fun x hx => hb x (kb x hx), fun j => ?_⟩
  obtain ⟨p1, p2, p3, p4, p5, p6, p7, p8⟩ := hl j
  obtain ⟨q1, q2, q3, q4, q5, q6, q7, q8⟩ := kl j
  exact ⟨q1.trans p1, q2.trans p2, q3.trans p3, q4.trans p4, q5.trans p5, q6.trans p6, q7.trans p7, q8.trans p8⟩

theorem Group.sameRest_setReg (g : Group) (gr : Bool) (l r : Nat) (v : Word) : g.sameRest (g.setReg gr l r v) := by
  have hb : ∀ x ∈ (g.setReg gr l r v).bad, x ∈ g.bad := fun x hx =>
    SMap.mem_of_mem_del (by rwa [Group.setReg_bad] at hx)
  cases gr
  · exact ⟨rfl, rfl, rfl, rfl, rfl, rfl, rfl, rfl, rfl, rfl, rfl, rfl, rfl, rfl, rfl, rfl, rfl, rfl, rfl, rfl,
      rfl, rfl, rfl, rfl, rfl, rfl, hb, fun _ => ⟨rfl, rfl, rfl, rfl, rfl, rfl, rfl, rfl⟩⟩
  · refine ⟨rfl, rfl, rfl, rfl, rfl, rfl, rfl, rfl, rfl, rfl, rfl, rfl, rfl, rfl, rfl, rfl, rfl, rfl, rfl, rfl,
      rfl, rfl, rfl, rfl, rfl, rfl, hb, fun j => ?_⟩
    rw [Group.lg_setReg]
    split <;> simp

/-! ## Runs of registers -/

theorem Group.sameRest_writeRun (g : Group) (gr : Bool) (l r : Nat) (ws : List Word) :
    g.sameRest (g.writeRun gr l r ws) := by
  induction ws generalizing g r with
  | nil => exact g.sameRest_refl
  | cons w ws ih => exact Group.sameRest_trans (g.sameRest_setReg gr l r w) (ih _ _)

@[simp] theorem Group.writeRun_preds (g : Group) (gr : Bool) (l r : Nat) (ws : List Word) :
    (g.writeRun gr l r ws).preds = g.preds := by
  induction ws generalizing g r with
  | nil => rfl
  | cons w ws ih => simp [Group.writeRun, ih]
@[simp] theorem Group.writeRun_div (g : Group) (gr : Bool) (l r : Nat) (ws : List Word) :
    (g.writeRun gr l r ws).div = g.div := by
  induction ws generalizing g r with
  | nil => rfl
  | cons w ws ih => simp [Group.writeRun, ih]
@[simp] theorem Group.writeRun_lw (g : Group) (gr : Bool) (l r : Nat) (ws : List Word) :
    (g.writeRun gr l r ws).lw = g.lw := by
  induction ws generalizing g r with
  | nil => rfl
  | cons w ws ih => simp [Group.writeRun, ih]
@[simp] theorem Group.writeRun_words (g : Group) (gr : Bool) (l r : Nat) (ws : List Word) :
    (g.writeRun gr l r ws).words = g.words := by
  induction ws generalizing g r with
  | nil => rfl
  | cons w ws ih => simp [Group.writeRun, ih]

theorem Group.setReg_fpflags (g : Group) (gr : Bool) (l r : Nat) (v : Word) (j : Nat) :
    ((g.setReg gr l r v).lg j).fpflags = (g.lg j).fpflags := by
  cases gr
  · rfl
  · rw [Group.lg_setReg]; split <;> rfl
theorem Group.writeRun_fpflags (g : Group) (gr : Bool) (l r : Nat) (ws : List Word) (j : Nat) :
    ((g.writeRun gr l r ws).lg j).fpflags = (g.lg j).fpflags := by
  induction ws generalizing g r with
  | nil => rfl
  | cons w ws ih => simp [Group.writeRun, ih, Group.setReg_fpflags]

/-- A register after a run of them was written. -/
theorem Group.reg_writeRun (g : Group) (gr : Bool) {l l' : Nat} (r r' : Nat) (ws : List Word) (h : l < 128)
    (h' : l' < 128) :
    (g.writeRun gr l r ws).reg gr l' r' =
      if g.samePlace gr l' l = true ∧ r ≤ r' ∧ r' < r + ws.length then ws.getD (r' - r) 0 else g.reg gr l' r' := by
  induction ws generalizing g r with
  | nil =>
    have : ¬ (g.samePlace gr l' l = true ∧ r ≤ r' ∧ r' < r + ([] : List Word).length) := by
      simp only [List.length_nil]; omega
    rw [if_neg this]; rfl
  | cons w ws ih =>
    simp only [Group.writeRun, ih, Group.reg_setReg _ _ _ _ _ h h',
      Group.samePlace_congr (Group.setReg_lw g gr l r w), List.length_cons]
    by_cases hp : g.samePlace gr l' l = true
    · simp only [hp, true_and]
      by_cases e : r' = r
      · subst e
        simp
      · by_cases c : r + 1 ≤ r' ∧ r' < r + 1 + ws.length
        · rw [if_pos c, if_pos (by omega), show r' - r = (r' - (r + 1)) + 1 by omega, List.getD_cons_succ]
        · rw [if_neg c, if_neg e, if_neg (by omega)]
    · simp [hp]

theorem Group.reg_writeRun_not (g : Group) (gr : Bool) (l l' r r' : Nat) (ws : List Word) :
    (g.writeRun gr l r ws).reg (!gr) l' r' = g.reg (!gr) l' r' := by
  induction ws generalizing g r with
  | nil => rfl
  | cons w ws ih => simp [Group.writeRun, ih, Group.reg_setReg_not]

/-! ## Predicates and flags -/

theorem Group.sameRest_setPred (g : Group) (p : Nat) (m : Mask) (v : Bool) : g.sameRest (g.setPred p m v) := by
  unfold Group.setPred; split
  · exact g.sameRest_refl
  · simp [Group.sameRest, Group.lg]

theorem Group.reg_setPred (g : Group) (p : Nat) (m : Mask) (v gr : Bool) (l r : Nat) :
    (g.setPred p m v).reg gr l r = g.reg gr l r := by
  unfold Group.setPred; split <;> rfl
theorem Group.setPred_lg (g : Group) (p : Nat) (m : Mask) (v : Bool) (j : Nat) :
    (g.setPred p m v).lg j = g.lg j := by
  unfold Group.setPred; split <;> rfl
@[simp] theorem Group.setPred_words (g : Group) (p : Nat) (m : Mask) (v : Bool) : (g.setPred p m v).words = g.words := by
  unfold Group.setPred; split <;> rfl
@[simp] theorem Group.setPred_lw (g : Group) (p : Nat) (m : Mask) (v : Bool) : (g.setPred p m v).lw = g.lw := by
  unfold Group.setPred; split <;> rfl
@[simp] theorem Group.setPred_div (g : Group) (p : Nat) (m : Mask) (v : Bool) : (g.setPred p m v).div = g.div := by
  unfold Group.setPred; split <;> rfl

/-- A predicate after one was written: `p0` reads 1 (R49). -/
theorem Group.predOf_setPred (g : Group) (p : Nat) (m : Mask) (v : Bool) (q l : Nat) (hl : l < 128) :
    (g.setPred p m v).predOf q l = if q = p ∧ p ≠ 0 ∧ inMask m l = true then v else g.predOf q l := by
  unfold Group.setPred
  by_cases hp : p = 0
  · simp [hp]
  · simp only [if_neg hp, Group.predOf, SMap.look_set]
    by_cases hq : q = p
    · subst hq
      have hb : (q == 0) = false := by simp [hp]
      simp only [hb, Bool.false_or, if_true, true_and, ne_eq, hp, not_false_eq_true]
      cases v <;> cases hm : inMask m l <;> simp_all [inMask]
    · simp [hq]

theorem Group.predOf_high (g : Group) (p l : Nat) (hl : 128 ≤ l) : g.predOf p l = (p == 0) := by
  have : inMask (SMap.look 0 g.preds p) l = false := by
    rw [Bool.eq_false_iff]; intro h; have := inMask_lt h; omega
  unfold Group.predOf
  rw [this, Bool.or_false]

theorem Group.sameRest_raise (g : Group) (l : Nat) (f : Word) : g.sameRest (g.raise l f) := by
  unfold Group.raise; split
  · exact g.sameRest_refl
  · simp only [Group.sameRest, Group.lg_updLg]
    refine ⟨rfl, rfl, rfl, rfl, rfl, rfl, rfl, rfl, rfl, rfl, rfl, rfl, rfl, rfl, rfl, rfl, rfl, rfl, rfl, rfl,
      rfl, rfl, rfl, rfl, rfl, rfl, fun _ h => h, fun j => ?_⟩
    split <;> simp

theorem Group.reg_raise (g : Group) (l' : Nat) (f : Word) (gr : Bool) (l r : Nat) :
    (g.raise l' f).reg gr l r = g.reg gr l r := by
  unfold Group.raise; split
  · rfl
  · cases gr
    · rfl
    · have e : (g.updLg (g.lgOf l') (fun x => { x with fpflags := x.fpflags ||| f })).lgOf l = g.lgOf l := rfl
      simp only [Group.reg, if_true, e, Group.lg_updLg]; split <;> rfl
theorem Group.predOf_raise (g : Group) (l' : Nat) (f : Word) (p l : Nat) :
    (g.raise l' f).predOf p l = g.predOf p l := by
  unfold Group.raise; split <;> rfl
@[simp] theorem Group.raise_words (g : Group) (l : Nat) (f : Word) : (g.raise l f).words = g.words := by
  unfold Group.raise; split <;> rfl
@[simp] theorem Group.raise_lw (g : Group) (l : Nat) (f : Word) : (g.raise l f).lw = g.lw := by
  unfold Group.raise; split <;> rfl
@[simp] theorem Group.raise_div (g : Group) (l : Nat) (f : Word) : (g.raise l f).div = g.div := by
  unfold Group.raise; split <;> rfl

/-- Flags after a lane raised some (R123). -/
theorem Group.raise_fpflags (g : Group) (l : Nat) (f : Word) (j : Nat) :
    ((g.raise l f).lg j).fpflags = (g.lg j).fpflags ||| (if g.lgOf l = j then f else 0) := by
  unfold Group.raise; split
  · simp [*]
  · simp only [Group.lg_updLg, eq_comm (a := j)]; split <;> simp

end Sys2Proof.Machine
end

