-- ==== Sys2Proof/Laws/Operands.lean ====
section
/-! SUPPORT. What a computing word does, once for all of them: its results, its flags, and all that it leaves. -/

namespace Sys2Proof.Machine

/-! ## The results of one lane -/

/-- The predicate part of a lane's results reaches these lanes. -/
def Group.predPlace (g : Group) (gr : Bool) (l l' : Nat) : Prop :=
  if gr = true then inMask (g.div.live &&& g.lgMask (g.lgOf l)) l' = true else l' = l

theorem Group.predPlace_congr {g t : Group} (hd : t.div.live = g.div.live) (hw : t.lw = g.lw) (gr : Bool)
    (l l' : Nat) : t.predPlace gr l l' ↔ g.predPlace gr l l' := by
  unfold Group.predPlace Group.lgMask Group.lgOf; rw [hd, hw]

theorem Group.predPlace_lt {g : Group} {gr : Bool} {l l' : Nat} (hl : l < 128) (h : g.predPlace gr l l') : l' < 128 := by
  cases gr
  · simp only [Group.predPlace, Bool.false_eq_true, if_false] at h; omega
  · simp only [Group.predPlace, if_true] at h; exact inMask_lt h

theorem Group.predOf_writePred (g : Group) (gr : Bool) {l : Nat} (p : Nat) (b : Bool) (q l' : Nat) (hl : l < 128) :
    ((g.predPlace gr l l' ∧ q = p ∧ p ≠ 0) → (g.writePred gr l p b).predOf q l' = b) ∧
    (¬ (g.predPlace gr l l' ∧ q = p ∧ p ≠ 0) → (g.writePred gr l p b).predOf q l' = g.predOf q l') := by
  have key : ∀ m : Mask, (inMask m l' = true ↔ g.predPlace gr l l') → l' < 128 →
      ((g.predPlace gr l l' ∧ q = p ∧ p ≠ 0) → (g.setPred p m b).predOf q l' = b) ∧
      (¬ (g.predPlace gr l l' ∧ q = p ∧ p ≠ 0) → (g.setPred p m b).predOf q l' = g.predOf q l') := by
    intro m hm hl'
    rw [Group.predOf_setPred _ _ _ _ _ _ hl']
    constructor
    · rintro ⟨h1, h2, h3⟩; rw [if_pos ⟨h2, h3, hm.2 h1⟩]
    · intro h
      rw [if_neg]
      rintro ⟨h1, h2, h3⟩; exact h ⟨hm.1 h3, h1, h2⟩
  by_cases hl' : l' < 128
  · unfold Group.writePred
    cases gr
    · refine key _ ?_ hl'
      simp [Group.predPlace, inMask_oneLane hl']
    · refine key _ ?_ hl'
      simp [Group.predPlace]
  · constructor
    · rintro ⟨h, _⟩; exact absurd (Group.predPlace_lt hl h) hl'
    · intro _
      rw [Group.predOf_high _ _ _ (by omega), Group.predOf_high _ _ _ (by omega)]

theorem Group.sameRest_writeOut (g : Group) (gr : Bool) (l d : Nat) (o : LaneOut) :
    g.sameRest (g.writeOut gr l d o) := by
  unfold Group.writeOut
  refine Group.sameRest_trans (g.sameRest_writeRun gr l d o.regs) ?_
  cases o.pred
  · exact Group.sameRest_raise _ _ _
  · exact Group.sameRest_trans (Group.sameRest_setPred _ _ _ _) (Group.sameRest_raise _ _ _)

@[simp] theorem Group.writeOut_lw (g : Group) (gr : Bool) (l d : Nat) (o : LaneOut) :
    (g.writeOut gr l d o).lw = g.lw := by
  unfold Group.writeOut Group.writePred; cases o.pred <;> simp
@[simp] theorem Group.writeOut_div (g : Group) (gr : Bool) (l d : Nat) (o : LaneOut) :
    (g.writeOut gr l d o).div = g.div := by
  unfold Group.writeOut Group.writePred; cases o.pred <;> simp
@[simp] theorem Group.writeOut_words (g : Group) (gr : Bool) (l d : Nat) (o : LaneOut) :
    (g.writeOut gr l d o).words = g.words := by
  unfold Group.writeOut Group.writePred; cases o.pred <;> simp

theorem Group.reg_writeOut (g : Group) (gr gr' : Bool) (l d : Nat) (o : LaneOut) (l' r : Nat) :
    (g.writeOut gr l d o).reg gr' l' r = (g.writeRun gr l d o.regs).reg gr' l' r := by
  unfold Group.writeOut Group.writePred
  cases o.pred <;> simp [Group.reg_raise, Group.reg_setPred]

theorem Group.writeOut_fpflags (g : Group) (gr : Bool) (l d : Nat) (o : LaneOut) (j : Nat) :
    ((g.writeOut gr l d o).lg j).fpflags = (g.lg j).fpflags ||| (if g.lgOf l = j then o.flags else 0) := by
  have h1 : ∀ t : Group, t.lw = g.lw → (t.lg j).fpflags = (g.lg j).fpflags →
      ((t.raise l o.flags).lg j).fpflags = (g.lg j).fpflags ||| (if g.lgOf l = j then o.flags else 0) := by
    intro t hw hf
    have e : t.lgOf l = g.lgOf l := by unfold Group.lgOf; rw [hw]
    rw [Group.raise_fpflags, hf, e]
  unfold Group.writeOut Group.writePred
  cases o.pred
  · exact h1 _ (by simp) (by simp [Group.writeRun_fpflags])
  · exact h1 _ (by simp) (by simp [Group.writeRun_fpflags, Group.setPred_lg])

theorem Group.predOf_writeRun (g : Group) (gr : Bool) (l r : Nat) (ws : List Word) (p l' : Nat) :
    (g.writeRun gr l r ws).predOf p l' = g.predOf p l' := by
  unfold Group.predOf; simp

theorem Group.predOf_writeOut (g : Group) (gr : Bool) {l : Nat} (d : Nat) (o : LaneOut) (q l' : Nat) (hl : l < 128) :
    (∀ b, o.pred = some b → (g.predPlace gr l l' ∧ q = d ∧ d ≠ 0) → (g.writeOut gr l d o).predOf q l' = b) ∧
    ((o.pred ≠ none → ¬ (g.predPlace gr l l' ∧ q = d ∧ d ≠ 0)) →
      (g.writeOut gr l d o).predOf q l' = g.predOf q l') := by
  have hpp : (g.writeRun gr l d o.regs).predPlace gr l l' ↔ g.predPlace gr l l' :=
    Group.predPlace_congr (by simp) (by simp) gr l l'
  unfold Group.writeOut
  cases ho : o.pred with
  | none => simp [Group.predOf_raise, Group.predOf_writeRun]
  | some b =>
    obtain ⟨h1, h2⟩ := Group.predOf_writePred (g.writeRun gr l d o.regs) gr d b q l' hl
    rw [hpp] at h1 h2
    simp only [Group.predOf_raise]
    constructor
    · rintro b' hb h
      obtain rfl : b = b' := by simpa using hb
      exact h1 h
    · intro h
      rw [h2 (h (by simp)), Group.predOf_writeRun]

/-! ## The results of all lanes -/

/-- Two results go to different places. -/
def Group.apart (g : Group) (gr : Bool) (x y : Nat × LaneOut) : Prop := g.samePlace gr x.1 y.1 = false

theorem Group.samePlace_comm (g : Group) (gr : Bool) (l l' : Nat) : g.samePlace gr l l' = g.samePlace gr l' l := by
  cases gr <;> simp [Group.samePlace, eq_comm]

theorem Group.predPlace_apart {g : Group} {gr : Bool} {l m l' : Nat} (h : g.samePlace gr l m = false)
    (h1 : g.predPlace gr l l') : ¬ g.predPlace gr m l' := by
  cases gr
  · simp only [Group.predPlace, Group.samePlace, Bool.false_eq_true, if_false, decide_eq_false_iff_not] at *
    omega
  · simp only [Group.predPlace, Group.samePlace, if_true, decide_eq_false_iff_not, inMask_and,
      Bool.and_eq_true] at *
    intro h2
    exact h ((Group.lgOf_of_mask h1.2).symm.trans (Group.lgOf_of_mask h2.2))

/-- What a list of results leaves in a group. -/
structure Wrote (g : Group) (gr : Bool) (d : Nat) (outs : List (Nat × LaneOut)) (t : Group) : Prop where
  regs : ∀ x ∈ outs, ∀ i v, x.2.regs[i]? = some v → t.reg gr x.1 (d + i) = v
  preds : ∀ x ∈ outs, ∀ b, x.2.pred = some b → d ≠ 0 → ∀ l, g.predPlace gr x.1 l → t.predOf d l = b
  flags : ∀ j, (t.lg j).fpflags = (g.lg j).fpflags ||| g.raised outs j
  otherRegs : ∀ l r, l < 128 → (∀ x ∈ outs, g.samePlace gr l x.1 = true → ¬ (d ≤ r ∧ r < d + x.2.regs.length)) →
    t.reg gr l r = g.reg gr l r
  otherRates : ∀ l r, t.reg (!gr) l r = g.reg (!gr) l r
  otherPreds : ∀ p l, (∀ x ∈ outs, x.2.pred ≠ none → p = d → ¬ g.predPlace gr x.1 l) → t.predOf p l = g.predOf p l
  rest : g.sameRest t
  words : t.words = g.words

theorem Group.raised_cons (g : Group) (x : Nat × LaneOut) (xs : List (Nat × LaneOut)) (j : Nat) :
    g.raised (x :: xs) j = (if g.lgOf x.1 = j then x.2.flags else 0) ||| g.raised xs j := by
  have fold : ∀ (ys : List (Nat × LaneOut)) (a : Word),
      ys.foldl (fun w x => w ||| x.2.flags) a = a ||| ys.foldl (fun w x => w ||| x.2.flags) 0 := by
    intro ys
    induction ys with
    | nil => intro a; simp
    | cons y ys ih =>
      intro a
      simp only [List.foldl_cons]
      rw [ih (a ||| y.2.flags), ih ((0 : Word) ||| y.2.flags), BitVec.or_assoc]
      simp
  unfold Group.raised
  simp only [List.filter_cons]
  by_cases h : g.lgOf x.1 = j
  · simp only [h, decide_true, if_true, List.foldl_cons]
    rw [fold]; simp
  · simp [h]

theorem Group.wrote (g : Group) (gr : Bool) (d : Nat) (outs : List (Nat × LaneOut)) (hl : ∀ x ∈ outs, x.1 < 128)
    (ha : outs.Pairwise (g.apart gr)) :
    Wrote g gr d outs (outs.foldl (fun t x => t.writeOut gr x.1 d x.2) g) := by
  induction outs generalizing g with
  | nil =>
    constructor <;> simp [Group.raised, Group.sameRest_refl]
  | cons x xs ih =>
    set g1 := g.writeOut gr x.1 d x.2 with hg1
    have hlw : g1.lw = g.lw := by simp [hg1]
    have hsp : ∀ l l', g1.samePlace gr l l' = g.samePlace gr l l' := Group.samePlace_congr hlw gr
    have hpp : ∀ l l', g1.predPlace gr l l' ↔ g.predPlace gr l l' := Group.predPlace_congr (by simp [hg1]) hlw gr
    have hx : x.1 < 128 := hl x (by simp)
    rw [List.pairwise_cons] at ha
    obtain ⟨hax, haxs⟩ := ha
    have w := ih g1 (fun y hy => hl y (by simp [hy]))
      (haxs.imp (fun {a b} h => by unfold Group.apart at *; rw [hsp]; exact h))
    simp only [List.foldl_cons]
    rw [← hg1]
    refine ⟨?_, ?_, ?_, ?_, ?_, ?_, ?_, ?_⟩
    · intro y hy i v hv
      rcases List.mem_cons.1 hy with rfl | hy
      · rw [w.otherRegs _ _ hx, hg1, Group.reg_writeOut, Group.reg_writeRun _ _ _ _ _ hx hx]
        · have hi : i < y.2.regs.length := by
            by_contra hc; rw [List.getElem?_eq_none (by omega)] at hv; simp at hv
          rw [if_pos ⟨by cases gr <;> simp [Group.samePlace], by omega, by omega⟩]
          simp [hv]
        · intro z hz hsame
          rw [hsp] at hsame
          have := hax z hz
          unfold Group.apart at this
          rw [this] at hsame; exact absurd hsame (by simp)
      · exact w.regs y hy i v hv
    · intro y hy b hb hd l hpl
      rcases List.mem_cons.1 hy with rfl | hy
      · rw [w.otherPreds]
        · exact (Group.predOf_writeOut g gr d y.2 d l hx).1 b hb ⟨hpl, rfl, hd⟩
        · intro z hz _ _
          rw [hpp]
          exact Group.predPlace_apart (hax z hz) hpl
      · exact w.preds y hy b hb hd l ((hpp _ _).2 hpl)
    · intro j
      have e : g1.raised xs j = g.raised xs j := by unfold Group.raised Group.lgOf; rw [hlw]
      rw [w.flags, hg1, Group.writeOut_fpflags, ← hg1, e, Group.raised_cons, BitVec.or_assoc]
    · intro l r hl' hn
      rw [w.otherRegs l r hl' (fun z hz hs => hn z (by simp [hz]) (by rw [← hsp]; exact hs)), hg1,
        Group.reg_writeOut, Group.reg_writeRun _ _ _ _ _ hx hl', if_neg]
      rintro ⟨h1, h2, h3⟩
      exact hn x (by simp) h1 ⟨h2, h3⟩
    · intro l r
      rw [w.otherRates, hg1, Group.reg_writeOut, Group.reg_writeRun_not]
    · intro p l hn
      rw [w.otherPreds p l (fun z hz h1 h2 => by rw [hpp]; exact hn z (by simp [hz]) h1 h2)]
      refine (Group.predOf_writeOut g gr d x.2 p l hx).2 (fun h1 => ?_)
      rintro ⟨h2, h3, -⟩
      exact hn x (by simp) h1 h3 h2
    · exact Group.sameRest_trans (Group.sameRest_writeOut _ _ _ _ _) w.rest
    · rw [w.words, hg1]; simp

/-! ## The lanes that execute a word -/

theorem Group.execLanes_lt {g : Group} {l : Launch} {h : Hdr} {x : Nat} (hx : x ∈ g.execLanes l h) : x < 128 := by
  unfold Group.execLanes at hx
  split at hx
  · obtain ⟨hx, -⟩ := List.mem_filter.1 hx
    obtain ⟨j, -, hj⟩ := List.mem_filterMap.1 hx
    split at hj
    · exact inMask_lt (lowLane_mem hj).2
    · simp at hj
  · exact inMask_lt (mem_lanesOf.1 (List.mem_filter.1 hx).1).2

/-- They hold their registers in different places. -/
theorem Group.execLanes_apart (g : Group) (l : Launch) (h : Hdr) :
    (g.execLanes l h).Pairwise (fun a b => g.samePlace (l.isGroupRate h.rate.toNat) a b = false) := by
  unfold Group.execLanes
  split
  · rename_i hgr
    refine List.Pairwise.filter _ ?_
    rw [List.pairwise_filterMap]
    refine List.Pairwise.imp ?_ (List.nodup_range (n := g.nLg))
    intro j j' hne b hb c hc
    split at hb
    · split at hc
      · have h1 := (lowLane_mem hb).2
        have h2 := (lowLane_mem hc).2
        rw [inMask_and, Bool.and_eq_true] at h1 h2
        simp only [Group.samePlace, hgr, if_true, decide_eq_false_iff_not, Group.lgOf_of_mask h1.2,
          Group.lgOf_of_mask h2.2]
        exact hne
      · simp at hc
    · simp at hb
  · rename_i hgr
    refine List.Pairwise.filter _ ?_
    refine List.Pairwise.imp ?_ (lanesOf_nodup g.run.active g.hw)
    intro a b hne
    simp only [Group.samePlace, hgr, Bool.false_eq_true, if_false, decide_eq_false_iff_not]
    exact hne

/-! ## The end of a word -/

@[simp] theorem Div.setSplit_live (d : Div) (k v : Nat) : (d.setSplit k v).live = d.live := rfl

/-- What the state update of R57 leaves. -/
theorem Div.afterRun_keeps (d : Div) (hw : Nat) (ex : List Nat) (last : Nat) :
    (d.afterRun hw ex last).live = d.live ∧ (d.afterRun hw ex last).inreg = d.inreg ∧
    (d.afterRun hw ex last).rstart = d.rstart ∧ (d.afterRun hw ex last).rmask = d.rmask := by
  have key : ∀ (ks : List Nat) (b : Nat) (e : Div), let t := (ks.foldl (fun d k =>
      match d.slicePc k with
      | none => d.setSplit k 3
      | some pc =>
        if pc = b then d.setSplit k 0
        else if ex.contains k then d.setSplit k (if pc ≤ last then 1 else 2)
        else if d.splitOf k = 0 then d.setSplit k 2 else d) e)
      t.live = e.live ∧ t.inreg = e.inreg ∧ t.rstart = e.rstart ∧ t.rmask = e.rmask := by
    intro ks b
    induction ks with
    | nil => intro e; exact ⟨rfl, rfl, rfl, rfl⟩
    | cons k ks ih =>
      intro e
      simp only [List.foldl_cons]
      have h := ih (match e.slicePc k with
        | none => e.setSplit k 3
        | some pc =>
          if pc = b then e.setSplit k 0
          else if ex.contains k then e.setSplit k (if pc ≤ last then 1 else 2)
          else if e.splitOf k = 0 then e.setSplit k 2 else e)
      obtain ⟨h1, h2, h3, h4⟩ := h
      rw [h1, h2, h3, h4]
      split
      · exact ⟨rfl, rfl, rfl, rfl⟩
      · split
        · exact ⟨rfl, rfl, rfl, rfl⟩
        · split
          · exact ⟨rfl, rfl, rfl, rfl⟩
          · split <;> exact ⟨rfl, rfl, rfl, rfl⟩
  exact key _ _ _

theorem Div.afterRun_live (d : Div) (hw : Nat) (ex : List Nat) (last : Nat) : (d.afterRun hw ex last).live = d.live :=
  (d.afterRun_keeps hw ex last).1

theorem Group.sameRest_wordDone (g : Group) (h : Hdr) (now : Nat) : g.sameRest (g.wordDone h now) := by
  unfold Group.wordDone
  split
  · simp [Group.sameRest, Group.endRun, Div.afterRun_keeps, Group.lg]
  · simp [Group.sameRest, Group.lg]

/-- A word that only computes: when its operands can be read, it does what `Computed` says (R189). -/
theorem State.laneWord_spec {s : State} {h : Hdr} {d : Nat} {ops : List Opnd} {f : Nat → LaneOut}
    (hr : s.readable h ops) :
    Computed s h d ((s.grp.execLanes s.curLaunch h).map (fun l => (l, f l))) (s.laneWord h d ops f) := by
  set gr := s.curLaunch.isGroupRate h.rate.toNat with hgr
  set outs := (s.grp.execLanes s.curLaunch h).map (fun l => (l, f l)) with houts
  have e : s.laneWord h d ops f =
      s.setGrp ((outs.foldl (fun t x => t.writeOut gr x.1 d x.2) s.grp).wordDone h s.timer.toNat) := by
    unfold State.laneWord
    rw [State.withOpsOr_readable hr]
    rfl
  have hl : ∀ x ∈ outs, x.1 < 128 := by
    intro x hx
    obtain ⟨l, hl, rfl⟩ := List.mem_map.1 hx
    exact Group.execLanes_lt hl
  have ha : outs.Pairwise (s.grp.apart gr) := by
    rw [houts, List.pairwise_map]
    exact Group.execLanes_apart s.grp s.curLaunch h
  have w := s.grp.wrote gr d outs hl ha
  set t := outs.foldl (fun t x => t.writeOut gr x.1 d x.2) s.grp with ht
  have hreg : ∀ b l r, (t.wordDone h s.timer.toNat).reg b l r = t.reg b l r := by
    intro b l r
    unfold Group.wordDone; split <;> rfl
  have hpred : ∀ p l, (t.wordDone h s.timer.toNat).predOf p l = t.predOf p l := by
    intro p l
    unfold Group.wordDone; split <;> rfl
  have hlg : ∀ j, (t.wordDone h s.timer.toNat).lg j = t.lg j := by
    intro j
    unfold Group.wordDone; split <;> rfl
  rw [e]
  refine ⟨?_, ?_, ?_, ?_, ?_, ?_, ?_, rfl, fun _ => rfl, ?_⟩
  · intro x hx i v hv
    rw [State.setGrp_grp, hreg]; exact w.regs x hx i v hv
  · intro x hx b hb hd l hp
    rw [State.setGrp_grp, hpred]; exact w.preds x hx b hb hd l hp
  · intro j; rw [State.setGrp_grp, hlg]; exact w.flags j
  · intro l r hl' hn; rw [State.setGrp_grp, hreg]; exact w.otherRegs l r hl' hn
  · intro l r; rw [State.setGrp_grp, hreg]; exact w.otherRates l r
  · intro p l hn; rw [State.setGrp_grp, hpred]; exact w.otherPreds p l hn
  · exact Group.sameRest_trans w.rest (Group.sameRest_wordDone _ _ _)
  · have : (t.wordDone h s.timer.toNat).words = t.words + 1 := by unfold Group.wordDone; split <;> rfl
    rw [State.setGrp_grp, this, w.words]

end Sys2Proof.Machine
end

