-- ==== Sys2Proof/Laws/PerInstr.lean ====
section
/-! SUPPORT. Statements for all instructions, one lemma for each constructor of `Instr`. -/

set_option maxRecDepth 4000

namespace Sys2Proof.Laws.EncodeBuild

/-- The word that an instruction encodes to (R176 to R184), read back field by field, is that instruction; a
machine event has no word. -/
def Statement (i : Instr) : Prop := ∀ w, encode i = some w → build w = some i

theorem event {i : Instr} (h : encode i = none) : Statement i := fun w hw => by rw [h] at hw; cases hw

theorem iadd (v : Wid) (h : Hdr) (f : FA) : Statement (.iadd v h f) := by
  intro w hw
  cases v <;>
    (obtain rfl := Option.some.inj hw; unfold build
     rw [opcOf_packFA, unpackHdr_packFA, unpackFA_packFA]; rfl)
theorem isub (v : Wid) (h : Hdr) (f : FA) : Statement (.isub v h f) := by
  intro w hw
  cases v <;>
    (obtain rfl := Option.some.inj hw; unfold build
     rw [opcOf_packFA, unpackHdr_packFA, unpackFA_packFA]; rfl)
theorem imul (v : Wid) (h : Hdr) (f : FA) : Statement (.imul v h f) := by
  intro w hw
  cases v <;>
    (obtain rfl := Option.some.inj hw; unfold build
     rw [opcOf_packFA, unpackHdr_packFA, unpackFA_packFA]; rfl)
theorem imulh (sg : Sgn) (h : Hdr) (f : FA) : Statement (.imulh sg h f) := by
  intro w hw
  cases sg <;>
    (obtain rfl := Option.some.inj hw; unfold build
     rw [opcOf_packFA, unpackHdr_packFA, unpackFA_packFA]; rfl)
theorem imad (v : Wid) (h : Hdr) (f : FA) : Statement (.imad v h f) := by
  intro w hw
  cases v <;>
    (obtain rfl := Option.some.inj hw; unfold build
     rw [opcOf_packFA, unpackHdr_packFA, unpackFA_packFA]; rfl)
theorem idiv (sg : Sgn) (h : Hdr) (f : FA) : Statement (.idiv sg h f) := by
  intro w hw
  cases sg <;>
    (obtain rfl := Option.some.inj hw; unfold build
     rw [opcOf_packFA, unpackHdr_packFA, unpackFA_packFA]; rfl)
theorem irem (sg : Sgn) (h : Hdr) (f : FA) : Statement (.irem sg h f) := by
  intro w hw
  cases sg <;>
    (obtain rfl := Option.some.inj hw; unfold build
     rw [opcOf_packFA, unpackHdr_packFA, unpackFA_packFA]; rfl)
theorem imin (sg : Sgn) (h : Hdr) (f : FA) : Statement (.imin sg h f) := by
  intro w hw
  cases sg <;>
    (obtain rfl := Option.some.inj hw; unfold build
     rw [opcOf_packFA, unpackHdr_packFA, unpackFA_packFA]; rfl)
theorem imax (sg : Sgn) (h : Hdr) (f : FA) : Statement (.imax sg h f) := by
  intro w hw
  cases sg <;>
    (obtain rfl := Option.some.inj hw; unfold build
     rw [opcOf_packFA, unpackHdr_packFA, unpackFA_packFA]; rfl)
theorem iabs (h : Hdr) (f : FA) : Statement (.iabs h f) := by
  intro w hw
  obtain rfl := Option.some.inj hw; unfold build
  rw [opcOf_packFA, unpackHdr_packFA, unpackFA_packFA]; rfl
theorem ineg (h : Hdr) (f : FA) : Statement (.ineg h f) := by
  intro w hw
  obtain rfl := Option.some.inj hw; unfold build
  rw [opcOf_packFA, unpackHdr_packFA, unpackFA_packFA]; rfl
theorem iaddsat (sg : Sgn) (h : Hdr) (f : FA) : Statement (.iaddsat sg h f) := by
  intro w hw
  cases sg <;>
    (obtain rfl := Option.some.inj hw; unfold build
     rw [opcOf_packFA, unpackHdr_packFA, unpackFA_packFA]; rfl)
theorem isubsat (sg : Sgn) (h : Hdr) (f : FA) : Statement (.isubsat sg h f) := by
  intro w hw
  cases sg <;>
    (obtain rfl := Option.some.inj hw; unfold build
     rw [opcOf_packFA, unpackHdr_packFA, unpackFA_packFA]; rfl)
theorem andB (h : Hdr) (f : FA) : Statement (.andB h f) := by
  intro w hw
  obtain rfl := Option.some.inj hw; unfold build
  rw [opcOf_packFA, unpackHdr_packFA, unpackFA_packFA]; rfl
theorem orB (h : Hdr) (f : FA) : Statement (.orB h f) := by
  intro w hw
  obtain rfl := Option.some.inj hw; unfold build
  rw [opcOf_packFA, unpackHdr_packFA, unpackFA_packFA]; rfl
theorem xorB (h : Hdr) (f : FA) : Statement (.xorB h f) := by
  intro w hw
  obtain rfl := Option.some.inj hw; unfold build
  rw [opcOf_packFA, unpackHdr_packFA, unpackFA_packFA]; rfl
theorem andn (h : Hdr) (f : FA) : Statement (.andn h f) := by
  intro w hw
  obtain rfl := Option.some.inj hw; unfold build
  rw [opcOf_packFA, unpackHdr_packFA, unpackFA_packFA]; rfl
theorem lop3 (h : Hdr) (f : FA) : Statement (.lop3 h f) := by
  intro w hw
  obtain rfl := Option.some.inj hw; unfold build
  rw [opcOf_packFA, unpackHdr_packFA, unpackFA_packFA]; rfl
theorem shl (v : Wid) (h : Hdr) (f : FA) : Statement (.shl v h f) := by
  intro w hw
  cases v <;>
    (obtain rfl := Option.some.inj hw; unfold build
     rw [opcOf_packFA, unpackHdr_packFA, unpackFA_packFA]; rfl)
theorem shr (v : Wid) (h : Hdr) (f : FA) : Statement (.shr v h f) := by
  intro w hw
  cases v <;>
    (obtain rfl := Option.some.inj hw; unfold build
     rw [opcOf_packFA, unpackHdr_packFA, unpackFA_packFA]; rfl)
theorem sar (v : Wid) (h : Hdr) (f : FA) : Statement (.sar v h f) := by
  intro w hw
  cases v <;>
    (obtain rfl := Option.some.inj hw; unfold build
     rw [opcOf_packFA, unpackHdr_packFA, unpackFA_packFA]; rfl)
theorem rot (h : Hdr) (f : FA) : Statement (.rot h f) := by
  intro w hw
  obtain rfl := Option.some.inj hw; unfold build
  rw [opcOf_packFA, unpackHdr_packFA, unpackFA_packFA]; rfl
theorem popc (h : Hdr) (f : FA) : Statement (.popc h f) := by
  intro w hw
  obtain rfl := Option.some.inj hw; unfold build
  rw [opcOf_packFA, unpackHdr_packFA, unpackFA_packFA]; rfl
theorem clz (h : Hdr) (f : FA) : Statement (.clz h f) := by
  intro w hw
  obtain rfl := Option.some.inj hw; unfold build
  rw [opcOf_packFA, unpackHdr_packFA, unpackFA_packFA]; rfl
theorem ctz (h : Hdr) (f : FA) : Statement (.ctz h f) := by
  intro w hw
  obtain rfl := Option.some.inj hw; unfold build
  rw [opcOf_packFA, unpackHdr_packFA, unpackFA_packFA]; rfl
theorem brev (h : Hdr) (f : FA) : Statement (.brev h f) := by
  intro w hw
  obtain rfl := Option.some.inj hw; unfold build
  rw [opcOf_packFA, unpackHdr_packFA, unpackFA_packFA]; rfl
theorem bfe (sg : Sgn) (h : Hdr) (f : FA) : Statement (.bfe sg h f) := by
  intro w hw
  cases sg <;>
    (obtain rfl := Option.some.inj hw; unfold build
     rw [opcOf_packFA, unpackHdr_packFA, unpackFA_packFA]; rfl)
theorem bfi (h : Hdr) (f : FA) : Statement (.bfi h f) := by
  intro w hw
  obtain rfl := Option.some.inj hw; unfold build
  rw [opcOf_packFA, unpackHdr_packFA, unpackFA_packFA]; rfl
theorem icmp (sg : Sgn) (v : Wid) (h : Hdr) (f : FA) : Statement (.icmp sg v h f) := by
  intro w hw
  cases sg <;> cases v <;>
    (obtain rfl := Option.some.inj hw; unfold build
     rw [opcOf_packFA, unpackHdr_packFA, unpackFA_packFA]; rfl)
theorem icmpR (sg : Sgn) (h : Hdr) (f : FA) : Statement (.icmpR sg h f) := by
  intro w hw
  cases sg <;>
    (obtain rfl := Option.some.inj hw; unfold build
     rw [opcOf_packFA, unpackHdr_packFA, unpackFA_packFA]; rfl)
theorem sel (v : Wid) (h : Hdr) (f : FA) : Statement (.sel v h f) := by
  intro w hw
  cases v <;>
    (obtain rfl := Option.some.inj hw; unfold build
     rw [opcOf_packFA, unpackHdr_packFA, unpackFA_packFA]; rfl)
theorem mov (v : Wid) (h : Hdr) (f : FA) : Statement (.mov v h f) := by
  intro w hw
  cases v <;>
    (obtain rfl := Option.some.inj hw; unfold build
     rw [opcOf_packFA, unpackHdr_packFA, unpackFA_packFA]; rfl)
theorem movi (h : Hdr) (f : FA) : Statement (.movi h f) := by
  intro w hw
  obtain rfl := Option.some.inj hw; unfold build
  rw [opcOf_packFA, unpackHdr_packFA, unpackFA_packFA]; rfl
theorem aadd (h : Hdr) (f : FA) : Statement (.aadd h f) := by
  intro w hw
  obtain rfl := Option.some.inj hw; unfold build
  rw [opcOf_packFA, unpackHdr_packFA, unpackFA_packFA]; rfl
theorem alea (h : Hdr) (f : FA) : Statement (.alea h f) := by
  intro w hw
  obtain rfl := Option.some.inj hw; unfold build
  rw [opcOf_packFA, unpackHdr_packFA, unpackFA_packFA]; rfl
theorem amul (h : Hdr) (f : FA) : Statement (.amul h f) := by
  intro w hw
  obtain rfl := Option.some.inj hw; unfold build
  rw [opcOf_packFA, unpackHdr_packFA, unpackFA_packFA]; rfl
theorem acmp (h : Hdr) (f : FA) : Statement (.acmp h f) := by
  intro w hw
  obtain rfl := Option.some.inj hw; unfold build
  rw [opcOf_packFA, unpackHdr_packFA, unpackFA_packFA]; rfl
theorem acmpR (h : Hdr) (f : FA) : Statement (.acmpR h f) := by
  intro w hw
  obtain rfl := Option.some.inj hw; unfold build
  rw [opcOf_packFA, unpackHdr_packFA, unpackFA_packFA]; rfl
theorem fadd (h : Hdr) (f : FA) : Statement (.fadd h f) := by
  intro w hw
  obtain rfl := Option.some.inj hw; unfold build
  rw [opcOf_packFA, unpackHdr_packFA, unpackFA_packFA]; rfl
theorem fsub (h : Hdr) (f : FA) : Statement (.fsub h f) := by
  intro w hw
  obtain rfl := Option.some.inj hw; unfold build
  rw [opcOf_packFA, unpackHdr_packFA, unpackFA_packFA]; rfl
theorem fmul (h : Hdr) (f : FA) : Statement (.fmul h f) := by
  intro w hw
  obtain rfl := Option.some.inj hw; unfold build
  rw [opcOf_packFA, unpackHdr_packFA, unpackFA_packFA]; rfl
theorem ffma (h : Hdr) (f : FA) : Statement (.ffma h f) := by
  intro w hw
  obtain rfl := Option.some.inj hw; unfold build
  rw [opcOf_packFA, unpackHdr_packFA, unpackFA_packFA]; rfl
theorem fmin (h : Hdr) (f : FA) : Statement (.fmin h f) := by
  intro w hw
  obtain rfl := Option.some.inj hw; unfold build
  rw [opcOf_packFA, unpackHdr_packFA, unpackFA_packFA]; rfl
theorem fmax (h : Hdr) (f : FA) : Statement (.fmax h f) := by
  intro w hw
  obtain rfl := Option.some.inj hw; unfold build
  rw [opcOf_packFA, unpackHdr_packFA, unpackFA_packFA]; rfl
theorem fdiv (h : Hdr) (f : FA) : Statement (.fdiv h f) := by
  intro w hw
  obtain rfl := Option.some.inj hw; unfold build
  rw [opcOf_packFA, unpackHdr_packFA, unpackFA_packFA]; rfl
theorem frcp (h : Hdr) (f : FA) : Statement (.frcp h f) := by
  intro w hw
  obtain rfl := Option.some.inj hw; unfold build
  rw [opcOf_packFA, unpackHdr_packFA, unpackFA_packFA]; rfl
theorem frsq (h : Hdr) (f : FA) : Statement (.frsq h f) := by
  intro w hw
  obtain rfl := Option.some.inj hw; unfold build
  rw [opcOf_packFA, unpackHdr_packFA, unpackFA_packFA]; rfl
theorem fsqrt (h : Hdr) (f : FA) : Statement (.fsqrt h f) := by
  intro w hw
  obtain rfl := Option.some.inj hw; unfold build
  rw [opcOf_packFA, unpackHdr_packFA, unpackFA_packFA]; rfl
theorem fexp2 (h : Hdr) (f : FA) : Statement (.fexp2 h f) := by
  intro w hw
  obtain rfl := Option.some.inj hw; unfold build
  rw [opcOf_packFA, unpackHdr_packFA, unpackFA_packFA]; rfl
theorem flog2 (h : Hdr) (f : FA) : Statement (.flog2 h f) := by
  intro w hw
  obtain rfl := Option.some.inj hw; unfold build
  rw [opcOf_packFA, unpackHdr_packFA, unpackFA_packFA]; rfl
theorem fsin (h : Hdr) (f : FA) : Statement (.fsin h f) := by
  intro w hw
  obtain rfl := Option.some.inj hw; unfold build
  rw [opcOf_packFA, unpackHdr_packFA, unpackFA_packFA]; rfl
theorem fcos (h : Hdr) (f : FA) : Statement (.fcos h f) := by
  intro w hw
  obtain rfl := Option.some.inj hw; unfold build
  rw [opcOf_packFA, unpackHdr_packFA, unpackFA_packFA]; rfl
theorem ffloor (h : Hdr) (f : FA) : Statement (.ffloor h f) := by
  intro w hw
  obtain rfl := Option.some.inj hw; unfold build
  rw [opcOf_packFA, unpackHdr_packFA, unpackFA_packFA]; rfl
theorem fceil (h : Hdr) (f : FA) : Statement (.fceil h f) := by
  intro w hw
  obtain rfl := Option.some.inj hw; unfold build
  rw [opcOf_packFA, unpackHdr_packFA, unpackFA_packFA]; rfl
theorem ftrunc (h : Hdr) (f : FA) : Statement (.ftrunc h f) := by
  intro w hw
  obtain rfl := Option.some.inj hw; unfold build
  rw [opcOf_packFA, unpackHdr_packFA, unpackFA_packFA]; rfl
theorem frnd (h : Hdr) (f : FA) : Statement (.frnd h f) := by
  intro w hw
  obtain rfl := Option.some.inj hw; unfold build
  rw [opcOf_packFA, unpackHdr_packFA, unpackFA_packFA]; rfl
theorem ffract (h : Hdr) (f : FA) : Statement (.ffract h f) := by
  intro w hw
  obtain rfl := Option.some.inj hw; unfold build
  rw [opcOf_packFA, unpackHdr_packFA, unpackFA_packFA]; rfl
theorem fcmp (h : Hdr) (f : FA) : Statement (.fcmp h f) := by
  intro w hw
  obtain rfl := Option.some.inj hw; unfold build
  rw [opcOf_packFA, unpackHdr_packFA, unpackFA_packFA]; rfl
theorem fcmpR (h : Hdr) (f : FA) : Statement (.fcmpR h f) := by
  intro w hw
  obtain rfl := Option.some.inj hw; unfold build
  rw [opcOf_packFA, unpackHdr_packFA, unpackFA_packFA]; rfl
theorem fclass (h : Hdr) (f : FA) : Statement (.fclass h f) := by
  intro w hw
  obtain rfl := Option.some.inj hw; unfold build
  rw [opcOf_packFA, unpackHdr_packFA, unpackFA_packFA]; rfl
theorem hfma2 (t : Half) (h : Hdr) (f : FA) : Statement (.hfma2 t h f) := by
  intro w hw
  cases t <;>
    (obtain rfl := Option.some.inj hw; unfold build
     rw [opcOf_packFA, unpackHdr_packFA, unpackFA_packFA]; rfl)
theorem fdot2 (t : Half) (h : Hdr) (f : FA) : Statement (.fdot2 t h f) := by
  intro w hw
  cases t <;>
    (obtain rfl := Option.some.inj hw; unfold build
     rw [opcOf_packFA, unpackHdr_packFA, unpackFA_packFA]; rfl)
theorem fdot4 (h : Hdr) (f : FA) : Statement (.fdot4 h f) := by
  intro w hw
  obtain rfl := Option.some.inj hw; unfold build
  rw [opcOf_packFA, unpackHdr_packFA, unpackFA_packFA]; rfl
theorem dadd (h : Hdr) (f : FA) : Statement (.dadd h f) := by
  intro w hw
  obtain rfl := Option.some.inj hw; unfold build
  rw [opcOf_packFA, unpackHdr_packFA, unpackFA_packFA]; rfl
theorem dmul (h : Hdr) (f : FA) : Statement (.dmul h f) := by
  intro w hw
  obtain rfl := Option.some.inj hw; unfold build
  rw [opcOf_packFA, unpackHdr_packFA, unpackFA_packFA]; rfl
theorem dfma (h : Hdr) (f : FA) : Statement (.dfma h f) := by
  intro w hw
  obtain rfl := Option.some.inj hw; unfold build
  rw [opcOf_packFA, unpackHdr_packFA, unpackFA_packFA]; rfl
theorem ddiv (h : Hdr) (f : FA) : Statement (.ddiv h f) := by
  intro w hw
  obtain rfl := Option.some.inj hw; unfold build
  rw [opcOf_packFA, unpackHdr_packFA, unpackFA_packFA]; rfl
theorem dcmp (h : Hdr) (f : FA) : Statement (.dcmp h f) := by
  intro w hw
  obtain rfl := Option.some.inj hw; unfold build
  rw [opcOf_packFA, unpackHdr_packFA, unpackFA_packFA]; rfl
theorem dcmpR (h : Hdr) (f : FA) : Statement (.dcmpR h f) := by
  intro w hw
  obtain rfl := Option.some.inj hw; unfold build
  rw [opcOf_packFA, unpackHdr_packFA, unpackFA_packFA]; rfl
theorem cvti2f (sg : Sgn) (v : Wid) (h : Hdr) (f : FA) : Statement (.cvti2f sg v h f) := by
  intro w hw
  cases sg <;> cases v <;>
    (obtain rfl := Option.some.inj hw; unfold build
     rw [opcOf_packFA, unpackHdr_packFA, unpackFA_packFA]; rfl)
theorem cvtf2i (sg : Sgn) (v : Wid) (h : Hdr) (f : FA) : Statement (.cvtf2i sg v h f) := by
  intro w hw
  cases sg <;> cases v <;>
    (obtain rfl := Option.some.inj hw; unfold build
     rw [opcOf_packFA, unpackHdr_packFA, unpackFA_packFA]; rfl)
theorem cvtffF64 (h : Hdr) (f : FA) : Statement (.cvtffF64 h f) := by
  intro w hw
  obtain rfl := Option.some.inj hw; unfold build
  rw [opcOf_packFA, unpackHdr_packFA, unpackFA_packFA]; rfl
theorem cvtffF32 (h : Hdr) (f : FA) : Statement (.cvtffF32 h f) := by
  intro w hw
  obtain rfl := Option.some.inj hw; unfold build
  rw [opcOf_packFA, unpackHdr_packFA, unpackFA_packFA]; rfl
theorem cvtfmt (h : Hdr) (f : FA) : Statement (.cvtfmt h f) := by
  intro w hw
  obtain rfl := Option.some.inj hw; unfold build
  rw [opcOf_packFA, unpackHdr_packFA, unpackFA_packFA]; rfl
theorem packh (h : Hdr) (f : FA) : Statement (.packh h f) := by
  intro w hw
  obtain rfl := Option.some.inj hw; unfold build
  rw [opcOf_packFA, unpackHdr_packFA, unpackFA_packFA]; rfl
theorem unpackh (h : Hdr) (f : FA) : Statement (.unpackh h f) := by
  intro w hw
  obtain rfl := Option.some.inj hw; unfold build
  rw [opcOf_packFA, unpackHdr_packFA, unpackFA_packFA]; rfl
theorem shflIdx (h : Hdr) (f : FA) : Statement (.shflIdx h f) := by
  intro w hw
  obtain rfl := Option.some.inj hw; unfold build
  rw [opcOf_packFA, unpackHdr_packFA, unpackFA_packFA]; rfl
theorem shflXor (h : Hdr) (f : FA) : Statement (.shflXor h f) := by
  intro w hw
  obtain rfl := Option.some.inj hw; unfold build
  rw [opcOf_packFA, unpackHdr_packFA, unpackFA_packFA]; rfl
theorem shflUp (h : Hdr) (f : FA) : Statement (.shflUp h f) := by
  intro w hw
  obtain rfl := Option.some.inj hw; unfold build
  rw [opcOf_packFA, unpackHdr_packFA, unpackFA_packFA]; rfl
theorem shflDown (h : Hdr) (f : FA) : Statement (.shflDown h f) := by
  intro w hw
  obtain rfl := Option.some.inj hw; unfold build
  rw [opcOf_packFA, unpackHdr_packFA, unpackFA_packFA]; rfl
theorem bcast (h : Hdr) (f : FA) : Statement (.bcast h f) := by
  intro w hw
  obtain rfl := Option.some.inj hw; unfold build
  rw [opcOf_packFA, unpackHdr_packFA, unpackFA_packFA]; rfl
theorem voteAny (h : Hdr) (f : FA) : Statement (.voteAny h f) := by
  intro w hw
  obtain rfl := Option.some.inj hw; unfold build
  rw [opcOf_packFA, unpackHdr_packFA, unpackFA_packFA]; rfl
theorem voteAll (h : Hdr) (f : FA) : Statement (.voteAll h f) := by
  intro w hw
  obtain rfl := Option.some.inj hw; unfold build
  rw [opcOf_packFA, unpackHdr_packFA, unpackFA_packFA]; rfl
theorem voteEq (h : Hdr) (f : FA) : Statement (.voteEq h f) := by
  intro w hw
  obtain rfl := Option.some.inj hw; unfold build
  rw [opcOf_packFA, unpackHdr_packFA, unpackFA_packFA]; rfl
theorem voteMask (h : Hdr) (f : FA) : Statement (.voteMask h f) := by
  intro w hw
  obtain rfl := Option.some.inj hw; unfold build
  rw [opcOf_packFA, unpackHdr_packFA, unpackFA_packFA]; rfl
theorem lred (t : RedTy) (h : Hdr) (f : FA) : Statement (.lred t h f) := by
  intro w hw
  cases t <;>
    (obtain rfl := Option.some.inj hw; unfold build
     rw [opcOf_packFA, unpackHdr_packFA, unpackFA_packFA]; rfl)
theorem lscan (t : RedTy) (h : Hdr) (f : FA) : Statement (.lscan t h f) := by
  intro w hw
  cases t <;>
    (obtain rfl := Option.some.inj hw; unfold build
     rw [opcOf_packFA, unpackHdr_packFA, unpackFA_packFA]; rfl)
theorem csamp (h : Hdr) (f : FA) : Statement (.csamp h f) := by
  intro w hw
  obtain rfl := Option.some.inj hw; unfold build
  rw [opcOf_packFA, unpackHdr_packFA, unpackFA_packFA]; rfl
theorem prng (h : Hdr) (f : FA) : Statement (.prng h f) := by
  intro w hw
  obtain rfl := Option.some.inj hw; unfold build
  rw [opcOf_packFA, unpackHdr_packFA, unpackFA_packFA]; rfl
theorem hrnd (h : Hdr) (f : FA) : Statement (.hrnd h f) := by
  intro w hw
  obtain rfl := Option.some.inj hw; unfold build
  rw [opcOf_packFA, unpackHdr_packFA, unpackFA_packFA]; rfl
theorem qrel (h : Hdr) (f : FA) : Statement (.qrel h f) := by
  intro w hw
  obtain rfl := Option.some.inj hw; unfold build
  rw [opcOf_packFA, unpackHdr_packFA, unpackFA_packFA]; rfl
theorem emitc (h : Hdr) (f : FA) : Statement (.emitc h f) := by
  intro w hw
  obtain rfl := Option.some.inj hw; unfold build
  rw [opcOf_packFA, unpackHdr_packFA, unpackFA_packFA]; rfl
theorem elem (h : Hdr) (f : FA) : Statement (.elem h f) := by
  intro w hw
  obtain rfl := Option.some.inj hw; unfold build
  rw [opcOf_packFA, unpackHdr_packFA, unpackFA_packFA]; rfl
theorem bary (h : Hdr) (f : FA) : Statement (.bary h f) := by
  intro w hw
  obtain rfl := Option.some.inj hw; unfold build
  rw [opcOf_packFA, unpackHdr_packFA, unpackFA_packFA]; rfl
theorem rast (h : Hdr) (f : FA) : Statement (.rast h f) := by
  intro w hw
  obtain rfl := Option.some.inj hw; unfold build
  rw [opcOf_packFA, unpackHdr_packFA, unpackFA_packFA]; rfl
theorem raygen (h : Hdr) (f : FA) : Statement (.raygen h f) := by
  intro w hw
  obtain rfl := Option.some.inj hw; unfold build
  rw [opcOf_packFA, unpackHdr_packFA, unpackFA_packFA]; rfl
theorem trav (h : Hdr) (f : FA) : Statement (.trav h f) := by
  intro w hw
  obtain rfl := Option.some.inj hw; unfold build
  rw [opcOf_packFA, unpackHdr_packFA, unpackFA_packFA]; rfl
theorem travr (h : Hdr) (f : FA) : Statement (.travr h f) := by
  intro w hw
  obtain rfl := Option.some.inj hw; unfold build
  rw [opcOf_packFA, unpackHdr_packFA, unpackFA_packFA]; rfl
theorem regrp (h : Hdr) (f : FA) : Statement (.regrp h f) := by
  intro w hw
  obtain rfl := Option.some.inj hw; unfold build
  rw [opcOf_packFA, unpackHdr_packFA, unpackFA_packFA]; rfl
theorem regrpk (h : Hdr) (f : FA) : Statement (.regrpk h f) := by
  intro w hw
  obtain rfl := Option.some.inj hw; unfold build
  rw [opcOf_packFA, unpackHdr_packFA, unpackFA_packFA]; rfl
theorem ld (h : Hdr) (f : FM) : Statement (.ld h f) := by
  intro w hw
  obtain rfl := Option.some.inj hw; unfold build
  rw [opcOf_packFM, unpackHdr_packFM, unpackFM_packFM]; rfl
theorem st (h : Hdr) (f : FM) : Statement (.st h f) := by
  intro w hw
  obtain rfl := Option.some.inj hw; unfold build
  rw [opcOf_packFM, unpackHdr_packFM, unpackFM_packFM]; rfl
theorem lds (h : Hdr) (f : FM) : Statement (.lds h f) := by
  intro w hw
  obtain rfl := Option.some.inj hw; unfold build
  rw [opcOf_packFM, unpackHdr_packFM, unpackFM_packFM]; rfl
theorem sts (h : Hdr) (f : FM) : Statement (.sts h f) := by
  intro w hw
  obtain rfl := Option.some.inj hw; unfold build
  rw [opcOf_packFM, unpackHdr_packFM, unpackFM_packFM]; rfl
theorem pf (h : Hdr) (f : FM) : Statement (.pf h f) := by
  intro w hw
  obtain rfl := Option.some.inj hw; unfold build
  rw [opcOf_packFM, unpackHdr_packFM, unpackFM_packFM]; rfl
theorem cinv (h : Hdr) (f : FM) : Statement (.cinv h f) := by
  intro w hw
  obtain rfl := Option.some.inj hw; unfold build
  rw [opcOf_packFM, unpackHdr_packFM, unpackFM_packFM]; rfl
theorem cwb (h : Hdr) (f : FM) : Statement (.cwb h f) := by
  intro w hw
  obtain rfl := Option.some.inj hw; unfold build
  rw [opcOf_packFM, unpackHdr_packFM, unpackFM_packFM]; rfl
theorem tsmp (h : Hdr) (f : FM) : Statement (.tsmp h f) := by
  intro w hw
  obtain rfl := Option.some.inj hw; unfold build
  rw [opcOf_packFM, unpackHdr_packFM, unpackFM_packFM]; rfl
theorem tsmpL (h : Hdr) (f : FM) : Statement (.tsmpL h f) := by
  intro w hw
  obtain rfl := Option.some.inj hw; unfold build
  rw [opcOf_packFM, unpackHdr_packFM, unpackFM_packFM]; rfl
theorem tsmpG (h : Hdr) (f : FM) : Statement (.tsmpG h f) := by
  intro w hw
  obtain rfl := Option.some.inj hw; unfold build
  rw [opcOf_packFM, unpackHdr_packFM, unpackFM_packFM]; rfl
theorem tld (h : Hdr) (f : FM) : Statement (.tld h f) := by
  intro w hw
  obtain rfl := Option.some.inj hw; unfold build
  rw [opcOf_packFM, unpackHdr_packFM, unpackFM_packFM]; rfl
theorem atom (h : Hdr) (f : FM) : Statement (.atom h f) := by
  intro w hw
  obtain rfl := Option.some.inj hw; unfold build
  rw [opcOf_packFM, unpackHdr_packFM, unpackFM_packFM]; rfl
theorem atomSp (h : Hdr) (f : FM) : Statement (.atomSp h f) := by
  intro w hw
  obtain rfl := Option.some.inj hw; unfold build
  rw [opcOf_packFM, unpackHdr_packFM, unpackFM_packFM]; rfl
theorem cas (h : Hdr) (f : FM) : Statement (.cas h f) := by
  intro w hw
  obtain rfl := Option.some.inj hw; unfold build
  rw [opcOf_packFM, unpackHdr_packFM, unpackFM_packFM]; rfl
theorem casSp (h : Hdr) (f : FM) : Statement (.casSp h f) := by
  intro w hw
  obtain rfl := Option.some.inj hw; unfold build
  rw [opcOf_packFM, unpackHdr_packFM, unpackFM_packFM]; rfl
theorem vbat (h : Hdr) (f : FM) : Statement (.vbat h f) := by
  intro w hw
  obtain rfl := Option.some.inj hw; unfold build
  rw [opcOf_packFM, unpackHdr_packFM, unpackFM_packFM]; rfl
theorem fence (h : Hdr) (f : FM) : Statement (.fence h f) := by
  intro w hw
  obtain rfl := Option.some.inj hw; unfold build
  rw [opcOf_packFM, unpackHdr_packFM, unpackFM_packFM]; rfl
theorem xfence (h : Hdr) (f : FM) : Statement (.xfence h f) := by
  intro w hw
  obtain rfl := Option.some.inj hw; unfold build
  rw [opcOf_packFM, unpackHdr_packFM, unpackFM_packFM]; rfl
theorem barArv (h : Hdr) (f : FM) : Statement (.barArv h f) := by
  intro w hw
  obtain rfl := Option.some.inj hw; unfold build
  rw [opcOf_packFM, unpackHdr_packFM, unpackFM_packFM]; rfl
theorem barWait (h : Hdr) (f : FM) : Statement (.barWait h f) := by
  intro w hw
  obtain rfl := Option.some.inj hw; unfold build
  rw [opcOf_packFM, unpackHdr_packFM, unpackFM_packFM]; rfl
theorem mon (h : Hdr) (f : FM) : Statement (.mon h f) := by
  intro w hw
  obtain rfl := Option.some.inj hw; unfold build
  rw [opcOf_packFM, unpackHdr_packFM, unpackFM_packFM]; rfl
theorem mwait (h : Hdr) (f : FM) : Statement (.mwait h f) := by
  intro w hw
  obtain rfl := Option.some.inj hw; unfold build
  rw [opcOf_packFM, unpackHdr_packFM, unpackFM_packFM]; rfl
theorem tkt (h : Hdr) (f : FM) : Statement (.tkt h f) := by
  intro w hw
  obtain rfl := Option.some.inj hw; unfold build
  rw [opcOf_packFM, unpackHdr_packFM, unpackFM_packFM]; rfl
theorem tcopy (h : Hdr) (f : FE) : Statement (.tcopy h f) := by
  intro w hw
  obtain rfl := Option.some.inj hw; unfold build
  rw [opcOf_packFE, unpackHdr_packFE, unpackFE_packFE]; rfl
theorem chain (h : Hdr) (f : FE) : Statement (.chain h f) := by
  intro w hw
  obtain rfl := Option.some.inj hw; unfold build
  rw [opcOf_packFE, unpackHdr_packFE, unpackFE_packFE]; rfl
theorem mma (h : Hdr) (f : FE) : Statement (.mma h f) := by
  intro w hw
  obtain rfl := Option.some.inj hw; unfold build
  rw [opcOf_packFE, unpackHdr_packFE, unpackFE_packFE]; rfl
theorem accld (h : Hdr) (f : FE) : Statement (.accld h f) := by
  intro w hw
  obtain rfl := Option.some.inj hw; unfold build
  rw [opcOf_packFE, unpackHdr_packFE, unpackFE_packFE]; rfl
theorem accst (h : Hdr) (f : FE) : Statement (.accst h f) := by
  intro w hw
  obtain rfl := Option.some.inj hw; unfold build
  rw [opcOf_packFE, unpackHdr_packFE, unpackFE_packFE]; rfl
theorem accz (h : Hdr) (f : FE) : Statement (.accz h f) := by
  intro w hw
  obtain rfl := Option.some.inj hw; unfold build
  rw [opcOf_packFE, unpackHdr_packFE, unpackFE_packFE]; rfl
theorem accrel (h : Hdr) (f : FE) : Statement (.accrel h f) := by
  intro w hw
  obtain rfl := Option.some.inj hw; unfold build
  rw [opcOf_packFE, unpackHdr_packFE, unpackFE_packFE]; rfl
theorem ewait (h : Hdr) (f : FE) : Statement (.ewait h f) := by
  intro w hw
  obtain rfl := Option.some.inj hw; unfold build
  rw [opcOf_packFE, unpackHdr_packFE, unpackFE_packFE]; rfl
theorem tpost (h : Hdr) (f : FE) : Statement (.tpost h f) := by
  intro w hw
  obtain rfl := Option.some.inj hw; unfold build
  rw [opcOf_packFE, unpackHdr_packFE, unpackFE_packFE]; rfl
theorem nput (h : Hdr) (f : FE) : Statement (.nput h f) := by
  intro w hw
  obtain rfl := Option.some.inj hw; unfold build
  rw [opcOf_packFE, unpackHdr_packFE, unpackFE_packFE]; rfl
theorem nget (h : Hdr) (f : FE) : Statement (.nget h f) := by
  intro w hw
  obtain rfl := Option.some.inj hw; unfold build
  rw [opcOf_packFE, unpackHdr_packFE, unpackFE_packFE]; rfl
theorem nsig (h : Hdr) (f : FE) : Statement (.nsig h f) := by
  intro w hw
  obtain rfl := Option.some.inj hw; unfold build
  rw [opcOf_packFE, unpackHdr_packFE, unpackFE_packFE]; rfl
theorem br (h : Hdr) (f : FC) : Statement (.br h f) := by
  intro w hw
  obtain rfl := Option.some.inj hw; unfold build
  rw [opcOf_packFC, unpackHdr_packFC, unpackFC_packFC]; rfl
theorem brp (h : Hdr) (f : FC) : Statement (.brp h f) := by
  intro w hw
  obtain rfl := Option.some.inj hw; unfold build
  rw [opcOf_packFC, unpackHdr_packFC, unpackFC_packFC]; rfl
theorem brd (h : Hdr) (f : FC) : Statement (.brd h f) := by
  intro w hw
  obtain rfl := Option.some.inj hw; unfold build
  rw [opcOf_packFC, unpackHdr_packFC, unpackFC_packFC]; rfl
theorem call (h : Hdr) (f : FC) : Statement (.call h f) := by
  intro w hw
  obtain rfl := Option.some.inj hw; unfold build
  rw [opcOf_packFC, unpackHdr_packFC, unpackFC_packFC]; rfl
theorem ret (h : Hdr) (f : FC) : Statement (.ret h f) := by
  intro w hw
  obtain rfl := Option.some.inj hw; unfold build
  rw [opcOf_packFC, unpackHdr_packFC, unpackFC_packFC]; rfl
theorem jfence (h : Hdr) (f : FC) : Statement (.jfence h f) := by
  intro w hw
  obtain rfl := Option.some.inj hw; unfold build
  rw [opcOf_packFC, unpackHdr_packFC, unpackFC_packFC]; rfl
theorem cfetch (h : Hdr) (f : FC) : Statement (.cfetch h f) := by
  intro w hw
  obtain rfl := Option.some.inj hw; unfold build
  rw [opcOf_packFC, unpackHdr_packFC, unpackFC_packFC]; rfl
theorem ifence (h : Hdr) (f : FC) : Statement (.ifence h f) := by
  intro w hw
  obtain rfl := Option.some.inj hw; unfold build
  rw [opcOf_packFC, unpackHdr_packFC, unpackFC_packFC]; rfl
theorem exitW (h : Hdr) (f : FC) : Statement (.exitW h f) := by
  intro w hw
  obtain rfl := Option.some.inj hw; unfold build
  rw [opcOf_packFC, unpackHdr_packFC, unpackFC_packFC]; rfl
theorem yield (h : Hdr) (f : FC) : Statement (.yield h f) := by
  intro w hw
  obtain rfl := Option.some.inj hw; unfold build
  rw [opcOf_packFC, unpackHdr_packFC, unpackFC_packFC]; rfl
theorem nop (h : Hdr) (f : FC) : Statement (.nop h f) := by
  intro w hw
  obtain rfl := Option.some.inj hw; unfold build
  rw [opcOf_packFC, unpackHdr_packFC, unpackFC_packFC]; rfl
theorem spawnI (h : Hdr) (f : FC) : Statement (.spawnI h f) := by
  intro w hw
  obtain rfl := Option.some.inj hw; unfold build
  rw [opcOf_packFC, unpackHdr_packFC, unpackFC_packFC]; rfl
theorem spawnR (h : Hdr) (f : FC) : Statement (.spawnR h f) := by
  intro w hw
  obtain rfl := Option.some.inj hw; unfold build
  rw [opcOf_packFC, unpackHdr_packFC, unpackFC_packFC]; rfl
theorem spawnH (h : Hdr) (f : FC) : Statement (.spawnH h f) := by
  intro w hw
  obtain rfl := Option.some.inj hw; unfold build
  rw [opcOf_packFC, unpackHdr_packFC, unpackFC_packFC]; rfl
theorem resolve (h : Hdr) (f : FC) : Statement (.resolve h f) := by
  intro w hw
  obtain rfl := Option.some.inj hw; unfold build
  rw [opcOf_packFC, unpackHdr_packFC, unpackFC_packFC]; rfl
theorem segend (h : Hdr) (f : FC) : Statement (.segend h f) := by
  intro w hw
  obtain rfl := Option.some.inj hw; unfold build
  rw [opcOf_packFC, unpackHdr_packFC, unpackFC_packFC]; rfl
theorem lkh (h : Hdr) (f : FC) : Statement (.lkh h f) := by
  intro w hw
  obtain rfl := Option.some.inj hw; unfold build
  rw [opcOf_packFC, unpackHdr_packFC, unpackFC_packFC]; rfl
theorem trapW (h : Hdr) (f : FS) : Statement (.trapW h f) := by
  intro w hw
  obtain rfl := Option.some.inj hw; unfold build
  rw [opcOf_packFS, unpackHdr_packFS, unpackFS_packFS]; rfl
theorem rfe (h : Hdr) (f : FS) : Statement (.rfe h f) := by
  intro w hw
  obtain rfl := Option.some.inj hw; unfold build
  rw [opcOf_packFS, unpackHdr_packFS, unpackFS_packFS]; rfl
theorem csrr (h : Hdr) (f : FS) : Statement (.csrr h f) := by
  intro w hw
  obtain rfl := Option.some.inj hw; unfold build
  rw [opcOf_packFS, unpackHdr_packFS, unpackFS_packFS]; rfl
theorem csrw (h : Hdr) (f : FS) : Statement (.csrw h f) := by
  intro w hw
  obtain rfl := Option.some.inj hw; unfold build
  rw [opcOf_packFS, unpackHdr_packFS, unpackFS_packFS]; rfl
theorem csrwI (h : Hdr) (f : FS) : Statement (.csrwI h f) := by
  intro w hw
  obtain rfl := Option.some.inj hw; unfold build
  rw [opcOf_packFS, unpackHdr_packFS, unpackFS_packFS]; rfl
theorem tcmp (h : Hdr) (f : FS) : Statement (.tcmp h f) := by
  intro w hw
  obtain rfl := Option.some.inj hw; unfold build
  rw [opcOf_packFS, unpackHdr_packFS, unpackFS_packFS]; rfl
theorem bkpt (h : Hdr) (f : FS) : Statement (.bkpt h f) := by
  intro w hw
  obtain rfl := Option.some.inj hw; unfold build
  rw [opcOf_packFS, unpackHdr_packFS, unpackFS_packFS]; rfl
theorem runIssue (core : Nat) (younger : Option Nat) : Statement (.runIssue core younger) := event rfl
theorem splitWaitResume (g : Nat) : Statement (.splitWaitResume g) := event rfl
theorem barrierWake (g : Nat) : Statement (.barrierWake g) := event rfl
theorem monitorTrigger (g : Nat) : Statement (.monitorTrigger g) := event rfl
theorem monitorTimeout (g : Nat) : Statement (.monitorTimeout g) := event rfl
theorem timerTrap (g : Nat) : Statement (.timerTrap g) := event rfl
theorem regrpkBinForm (bead launch rate seg bin : Nat) : Statement (.regrpkBinForm bead launch rate seg bin) := event rfl
theorem overlayParkWake (g : Nat) : Statement (.overlayParkWake g) := event rfl
theorem fanOut (parent : Nat) : Statement (.fanOut parent) := event rfl
theorem groupDispatch (bead launch rate : Nat) : Statement (.groupDispatch bead launch rate) := event rfl
theorem groupDispatchTimeout (bead launch rate : Nat) : Statement (.groupDispatchTimeout bead launch rate) := event rfl
theorem quireGrant (bead : Nat) : Statement (.quireGrant bead) := event rfl
theorem spillTimerExpiry (bead : Nat) : Statement (.spillTimerExpiry bead) := event rfl
theorem dispatchUnit (launch : Nat) : Statement (.dispatchUnit launch) := event rfl
theorem segmentTake (bead : Nat) : Statement (.segmentTake bead) := event rfl
theorem passOverLimit (bead : Nat) : Statement (.passOverLimit bead) := event rfl
theorem segmentCommit (asid segid : Nat) : Statement (.segmentCommit asid segid) := event rfl
theorem accumulatorExhaustion (bead : Nat) : Statement (.accumulatorExhaustion bead) := event rfl
theorem matrixPass (bead : Nat) : Statement (.matrixPass bead) := event rfl
theorem engineOperationComplete (op : Nat) (reply : PeerReply) : Statement (.engineOperationComplete op reply) := event rfl
theorem graphNodeFinish (op : Nat) (reply : PeerReply) : Statement (.graphNodeFinish op reply) := event rfl
theorem launchCompletion (launch : Nat) : Statement (.launchCompletion launch) := event rfl
theorem peerOperationArrival (p : PeerOp) : Statement (.peerOperationArrival p) := event rfl
theorem hostRemoteWrite (q : Nat) (va : Dword) (data : List Byte) : Statement (.hostRemoteWrite q va data) := event rfl
theorem hostRemoteRead (q : Nat) (va : Dword) (len : Nat) : Statement (.hostRemoteRead q va len) := event rfl
theorem launchCmd (q : Nat) : Statement (.launchCmd q) := event rfl
theorem copyCmd (q : Nat) : Statement (.copyCmd q) := event rfl
theorem signalCmd (q : Nat) : Statement (.signalCmd q) := event rfl
theorem waitOnValue (q : Nat) : Statement (.waitOnValue q) := event rfl
theorem waitOnValueTimeout (q : Nat) : Statement (.waitOnValueTimeout q) := event rfl
theorem contextCreate (q : Nat) : Statement (.contextCreate q) := event rfl
theorem contextSuspend (q : Nat) : Statement (.contextSuspend q) := event rfl
theorem contextResume (q : Nat) : Statement (.contextResume q) := event rfl
theorem contextDestroy (q : Nat) : Statement (.contextDestroy q) := event rfl
theorem contextMigrate (q : Nat) : Statement (.contextMigrate q) := event rfl
theorem deficitCharge (part : Nat) : Statement (.deficitCharge part) := event rfl
theorem realtimeDeadline (q : Nat) : Statement (.realtimeDeadline q) := event rfl
theorem quantumEndPreemption (part : Nat) : Statement (.quantumEndPreemption part) := event rfl
theorem gapFillReclaim (bead : Nat) : Statement (.gapFillReclaim bead) := event rfl
theorem drainTimeout (bead : Nat) : Statement (.drainTimeout bead) := event rfl
theorem handOver (bead asid : Nat) : Statement (.handOver bead asid) := event rfl
theorem faultRecordWrite (part : Nat) : Statement (.faultRecordWrite part) := event rfl
theorem faultNotification (part : Nat) : Statement (.faultNotification part) := event rfl
theorem fqrespResume (part : Nat) (seq : Word) : Statement (.fqrespResume part seq) := event rfl
theorem fqrespAbort (part : Nat) (seq : Word) : Statement (.fqrespAbort part seq) := event rfl
theorem fqrespKill (part : Nat) (seq : Word) : Statement (.fqrespKill part seq) := event rfl
theorem shootdownAsid (v : Dword) : Statement (.shootdownAsid v) := event rfl
theorem shootdownPartition (v : Dword) : Statement (.shootdownPartition v) := event rfl
theorem shootdownAll (v : Dword) : Statement (.shootdownAll v) := event rfl
theorem shootdownComplete : Statement .shootdownComplete := event rfl
theorem pctlWrite (part : Nat) (v : Dword) : Statement (.pctlWrite part v) := event rfl
theorem rodsWrite (part : Nat) (v : Dword) : Statement (.rodsWrite part v) := event rfl
theorem registerWrite (off : Nat) (v : Dword) : Statement (.registerWrite off v) := event rfl
theorem balancerSample (rod : Nat) (c : RodCurrents) : Statement (.balancerSample rod c) := event rfl
theorem throttleLift (rod : Nat) (c : RodCurrents) : Statement (.throttleLift rod c) := event rfl
theorem emergencyClamp (rod : Nat) (c : RodCurrents) : Statement (.emergencyClamp rod c) := event rfl
theorem clampLift (rod : Nat) (c : RodCurrents) : Statement (.clampLift rod c) := event rfl
theorem powerArbiterPeriod (r : PeriodReading) : Statement (.powerArbiterPeriod r) := event rfl
theorem wearSave : Statement .wearSave := event rfl
theorem powerOnReset (b : BootInputs) : Statement (.powerOnReset b) := event rfl
theorem attestationRequest (nonce : BitVec 256) : Statement (.attestationRequest nonce) := event rfl
theorem sidebandModuleReset : Statement .sidebandModuleReset := event rfl
theorem sidebandFlashWrite (copy : Nat) (off : Nat) (data : List Byte) : Statement (.sidebandFlashWrite copy off data) := event rfl
theorem sidebandStatusReport : Statement .sidebandStatusReport := event rfl
theorem patrolScrub (pa : Nat) (found : ScrubFinding) : Statement (.patrolScrub pa found) := event rfl
theorem stateCompare (bead : Nat) (agrees : Bool) : Statement (.stateCompare bead agrees) := event rfl
theorem linkRetransmitFailure (link : LinkId) : Statement (.linkRetransmitFailure link) := event rfl
theorem codeFetchComplete (g : Nat) : Statement (.codeFetchComplete g) := event rfl
theorem fqheadWrite (part : Nat) (v : Dword) : Statement (.fqheadWrite part v) := event rfl
theorem malformedCommand (q : Nat) : Statement (.malformedCommand q) := event rfl
theorem targetReport (launch : Nat) : Statement (.targetReport launch) := event rfl
theorem contextRestoreComplete (team : Nat) : Statement (.contextRestoreComplete team) := event rfl
theorem unrecordedStop : Statement .unrecordedStop := event rfl

end Sys2Proof.Laws.EncodeBuild
end

