-- ==== Sys2Proof/Tests/Slice0.lean ====
section
/-! SUPPORT. Tests: ill-formed words for each check of `Instr.wf`, words written out from the spec's layouts, worked
examples of the spec, and for each statement with hypotheses a state that meets them. Expected values come from
the spec's tables and examples, cited with each test. -/

namespace Sys2Proof.Tests

set_option Elab.async false

open Machine

/-! ## Ill-formed words (R185, R187) -/

/-- A header of rate 3 without predicate, boundary and lookahead. -/
def hL : Hdr := { rate := 3, la := 0, b := 0, i := 0, pred := 0, pneg := 0, ret := 0 }
/-- The same with the boundary. -/
def hB : Hdr := { rate := 3, la := 0, b := 1, i := 0, pred := 0, pneg := 0, ret := 0 }
def fa : FA := { d := 0, sa := 0, sb := 0, sc := 0, inh := 0, nega := 0, absa := 0, negb := 0, absb := 0, negc := 0,
                 absc := 0, sub := 0, fmt := 0, rm := 0, imm := 0 }
def fm : FM := { d := 0, a := 0, b := 0, c := 0, e := 0, size := 2, sign := 0, shift := 0, scope := 0, order := 0,
                 scf := 0, res := 0, imm := 0 }
def fe : FE := { d := 0, a := 0, b := 0, c := 0, hd := 0, hs := 0, res1 := 0, sub := 0, fmt := 0, sat := 0, res2 := 0,
                 imm := 0 }
def fc : FC := { d := 0, a := 0, b := 0, c := 0, seg := 0, side := 0, res1 := 0, sub := 0, res2 := 0, imm := 0 }
def fs : FS := { d := 0, a := 0, b := 0, res1 := 0, csr := 0, sub := 0, res2 := 0, imm := 0 }

/-- The check refuses the instruction, and the word's first reason and field are these. -/
def refused (i : Instr) (reason lo hi : Nat) : Bool :=
  !i.wf && (encode i).elim false (fun w => lowestReject (staticRejects w) == some ⟨reason, lo, hi⟩)

/-- What these start from is well-formed. -/
theorem test_wf_bases : [Instr.iadd .w32 hL fa, .ld hL fm, .accrel hL { fe with hd := 1 }, .br hB fc,
    .csrr hL { fs with csr := 5 }, .sel .w32 hL fa].all Instr.wf = true := by decide +kernel

/-- Reason 0x02: a field that the entry does not use is not zero, in the destination, each source, the immediate. -/
theorem test_wf_unused_operands :
    refused (.br hB { fc with d := 1 }) 2 24 34 = true ∧ refused (.iabs hL { fa with sb := 1 }) 2 47 58 = true ∧
    refused (.iadd .w32 hL { fa with sc := 1 }) 2 59 70 = true ∧
    refused (.iadd .w32 hL { fa with imm := 1 }) 2 96 127 = true ∧ refused (.br hB { fc with a := 1 }) 2 35 46 = true ∧
    refused (.icmp .s .w32 hL { fa with d := 16 }) 2 24 34 = true ∧
    refused (.sel .w32 hL { fa with sc := 16 }) 2 59 70 = true ∧
    refused (.barArv hL { fm with d := 3, e := 1, size := 0 }) 2 24 34 = true ∧
    refused (.jfence hB { fc with d := 2 }) 2 24 34 = true ∧ refused (.call hB { fc with a := 2 }) 2 35 46 = true ∧
    refused (.call hB { fc with a := 2, sub := 1, imm := 1 }) 2 96 127 = true ∧
    refused (.spawnI hL { fc with imm := 256 }) 2 96 127 = true ∧
    refused (.chain hL { fe with imm := 0x10 }) 2 96 127 = true := by decide +kernel

/-- Reason 0x02 in layout A: inheritance of an unused source, SUB, FMT, RM; reason 0x08: modifiers. -/
theorem test_wf_layout_a :
    refused (.iabs hL { fa with inh := 4 }) 2 71 76 = true ∧ refused (.iadd .w32 hL { fa with sub := 1 }) 2 83 90 = true ∧
    refused (.iadd .w32 hL { fa with fmt := 1 }) 2 91 93 = true ∧ refused (.iadd .w32 hL { fa with rm := 1 }) 2 94 95 = true ∧
    refused (.iadd .w32 hL { fa with nega := 1 }) 8 77 77 = true ∧ refused (.iadd .w32 hL { fa with absa := 1 }) 8 78 78 = true ∧
    refused (.iadd .w32 hL { fa with negb := 1 }) 8 79 79 = true ∧ refused (.iadd .w32 hL { fa with absb := 1 }) 8 80 80 = true ∧
    refused (.iadd .w32 hL { fa with negc := 1 }) 8 81 81 = true ∧ refused (.iadd .w32 hL { fa with absc := 1 }) 8 82 82 = true ∧
    refused (.icmp .s .w32 hL { fa with d := 1, sub := 6 }) 2 83 90 = true := by decide +kernel

/-- Reason 0x02 in the memory layout: E, an unused SIZE, SIGN, SHIFT, SCOPE, ORDER, SC, the reserved bit; a SIZE that the
entry does not list. -/
theorem test_wf_layout_m :
    refused (.ld hL { fm with e := 3 }) 2 71 82 = true ∧ refused (.pf hL fm) 2 83 85 = true ∧
    refused (.st hL { fm with sign := 1, size := 0 }) 2 86 86 = true ∧ refused (.st hL { fm with sign := 1 }) 0x11 86 86 = true ∧
    refused (.fence hL { fm with size := 0, order := 1, scope := 1, shift := 1 }) 2 87 88 = true ∧
    refused (.ld hL { fm with scope := 1 }) 2 89 91 = true ∧ refused (.ld hL { fm with order := 1 }) 2 92 93 = true ∧
    refused (.ld hL { fm with scf := 1 }) 2 94 94 = true ∧ refused (.ld hL { fm with res := 1 }) 2 95 95 = true ∧
    refused (.mon hL { fm with size := 1 }) 2 83 85 = true := by decide +kernel

/-- Reason 0x02 in the engine, control and system layouts. -/
theorem test_wf_other_layouts :
    refused (.accst hL { fe with hd := 1 }) 2 71 74 = true ∧ refused (.accrel hL { fe with hs := 1 }) 2 75 78 = true ∧
    refused (.accrel hL { fe with res1 := 1 }) 2 79 82 = true ∧ refused (.accrel hL { fe with sub := 1 }) 2 83 90 = true ∧
    refused (.accrel hL { fe with fmt := 1 }) 2 91 93 = true ∧ refused (.accrel hL { fe with sat := 1 }) 2 94 94 = true ∧
    refused (.accrel hL { fe with res2 := 1 }) 2 95 95 = true ∧ refused (.br hB { fc with seg := 1 }) 2 71 76 = true ∧
    refused (.br hB { fc with side := 1 }) 2 77 77 = true ∧ refused (.br hB { fc with res1 := 1 }) 2 78 82 = true ∧
    refused (.br hB { fc with sub := 1 }) 2 83 90 = true ∧ refused (.br hB { fc with res2 := 1 }) 2 91 95 = true ∧
    refused (.csrr hL { fs with csr := 1, res1 := 1 }) 2 59 70 = true ∧ refused (.tcmp hL { fs with csr := 1 }) 2 71 82 = true ∧
    refused (.csrr hL { fs with csr := 1, sub := 1 }) 2 83 90 = true ∧
    refused (.csrr hL { fs with csr := 1, res2 := 1 }) 2 91 95 = true := by decide +kernel

/-- Reasons 0x03, 0x04, 0x06, 0x07: special operands, predicates and registers where they may not stand. -/
theorem test_wf_operands :
    refused (.iadd .w32 hL { fa with sa := 0x807 }) 3 35 46 = true ∧ refused (.iadd .w32 hL { fa with sa := 0x940 }) 3 35 46 = true ∧
    refused (.alea hL { fa with sb := 0x806 }) 3 47 58 = true ∧ refused (.tld hL { fm with size := 0, a := 0x800 }) 3 35 46 = true ∧
    refused (.iadd .w64 hL { fa with d := 1 }) 6 24 34 = true ∧ refused (.iadd .w64 hL { fa with sa := 1 }) 6 35 46 = true ∧
    refused (.icmp .s .w32 hL fa) 4 24 34 = true ∧ refused (.raygen hL { fa with sb := 0x801 }) 4 47 58 = true ∧
    refused (.iadd .w32 hL { fa with sa := 0x800, inh := 1 }) 7 71 76 = true := by decide +kernel

/-- Reasons 0x0b to 0x12: boundary, predicate of a group-wide word, rounding, scope and order, RET, SIZE and SIGN, CSR. -/
theorem test_wf_forms :
    refused (.br hL fc) 0x0b 15 15 = true ∧
    refused (.shflIdx { hL with pred := 1 } fa) 0x0c 17 20 = true ∧
    refused (.shflIdx { hL with pneg := 1 } fa) 0x0c 21 21 = true ∧ refused (.fadd hL { fa with rm := 3 }) 0x0d 94 95 = true ∧
    refused (.fdot4 hL { fa with rm := 3 }) 0x0d 94 95 = true ∧
    refused (.fence hL { fm with size := 0, order := 1, scope := 6 }) 0x0f 89 91 = true ∧
    refused (.fence hL { fm with size := 0, scope := 1 }) 0x0f 92 93 = true ∧
    refused (.atom hL { fm with scf := 1, order := 3, scope := 3 }) 0x0f 94 94 = true ∧
    refused (.xfence hL { fm with size := 0, e := 0x20, scope := 1 }) 0x0f 71 75 = true ∧
    refused (.xfence hL { fm with size := 0, e := 0x01, scope := 1 }) 0x0f 76 80 = true ∧
    refused (.movi { hL with ret := 1 } fa) 0x10 22 23 = true ∧ refused (.ld hL { fm with size := 5 }) 0x11 83 85 = true ∧
    refused (.ld hL { fm with sign := 1 }) 0x11 86 86 = true ∧ refused (.csrr hL { fs with csr := 0x800 }) 0x12 71 82 = true ∧
    refused (.csrr hL { fs with csr := 0x010 }) 2 71 82 = true ∧ refused (.csrw hL { fs with csr := 0x001 }) 0x12 71 82 = true ∧
    refused (.atom hL { fm with size := 3, e := 9 }) 2 83 85 = true := by decide +kernel

/-! ## Every opcode of R184 decodes to its instruction, its operand fields where R176 to R182 put them -/

/-- A word of rate 3: opcode, further header bits, D, A, B, C at bits 24, 35, 47, 59, and the bits from 71 on. -/
def wordOf (op hdr d a b c hi : Nat) : Nat := op + hdr + 2 ^ 8 * 3 + 2 ^ 24 * d + 2 ^ 35 * a + 2 ^ 47 * b + 2 ^ 59 * c + 2 ^ 71 * hi

def decodesA (d a b c : Nat) (h : Hdr) (hdr hi : Nat) (f : FA) (x : Nat × (Hdr → FA → Instr)) : Bool :=
  decodeTableWord 128 (wordOf x.1 hdr d a b c hi) ==
    some (x.2 h { f with d := .ofNat 11 d, sa := .ofNat 12 a, sb := .ofNat 12 b, sc := .ofNat 12 c })

/-- Words of one destination. -/
theorem test_decode_a0 : [(0x34, Instr.movi), (0x92, .elem), (0x93, .bary)].all (decodesA 4 0 0 0 hL 0 0 fa) = true := by
  decide +kernel

/-- Words of one source. -/
theorem test_decode_a1 :
    ([(0x12, Instr.iabs), (0x13, .ineg), (0x24, .popc), (0x25, .clz), (0x26, .ctz), (0x27, .brev), (0x32, .mov .w32),
      (0x33, .mov .w64), (0x47, .frcp), (0x48, .frsq), (0x49, .fsqrt), (0x4a, .fexp2), (0x4b, .flog2), (0x4c, .fsin),
      (0x4d, .fcos), (0x4e, .ffloor), (0x4f, .fceil), (0x50, .ftrunc), (0x51, .frnd), (0x52, .ffract), (0x55, .fclass)]
    ++ [(0x61, Instr.cvti2f .s .w32), (0x62, .cvti2f .u .w32), (0x63, .cvti2f .s .w64), (0x64, .cvti2f .u .w64),
      (0x65, .cvtf2i .s .w32), (0x66, .cvtf2i .u .w32), (0x67, .cvtf2i .s .w64), (0x68, .cvtf2i .u .w64), (0x69, .cvtffF64),
      (0x6a, .cvtffF32), (0x6b, .cvtfmt), (0x6d, .unpackh), (0x85, .voteAny), (0x86, .voteAll), (0x87, .voteEq),
      (0x88, .voteMask), (0x89, .lred .int), (0x8a, .lred .flt), (0x8b, .lscan .int), (0x8c, .lscan .flt),
      (0x91, .emitc)]).all (decodesA 4 8 0 0 hL 0 0 fa) = true := by decide +kernel

/-- Words of two sources. -/
theorem test_decode_a2 :
    ([(0x00, Instr.iadd .w32), (0x01, .iadd .w64), (0x02, .isub .w32), (0x03, .isub .w64), (0x04, .imul .w32),
      (0x05, .imul .w64), (0x06, .imulh .s), (0x07, .imulh .u), (0x0a, .idiv .s), (0x0b, .idiv .u), (0x0c, .irem .s),
      (0x0d, .irem .u), (0x0e, .imin .s), (0x0f, .imin .u), (0x10, .imax .s), (0x11, .imax .u), (0x14, .iaddsat .s),
      (0x15, .iaddsat .u), (0x16, .isubsat .s), (0x17, .isubsat .u), (0x18, .andB), (0x19, .orB), (0x1a, .xorB)]
    ++ [(0x1b, Instr.andn), (0x1d, .shl .w32), (0x1e, .shl .w64), (0x1f, .shr .w32), (0x20, .shr .w64), (0x21, .sar .w32),
      (0x22, .sar .w64), (0x23, .rot), (0x28, .bfe .s), (0x29, .bfe .u), (0x2b, .icmp .s .w32), (0x2c, .icmp .u .w32),
      (0x2d, .icmp .s .w64), (0x2e, .icmp .u .w64), (0x2f, .icmpR .s), (0x30, .icmpR .u), (0x35, .aadd), (0x36, .alea),
      (0x37, .amul), (0x38, .acmp), (0x39, .acmpR)]
    ++ [(0x40, Instr.fadd), (0x41, .fsub), (0x42, .fmul), (0x44, .fmin), (0x45, .fmax), (0x46, .fdiv), (0x53, .fcmp),
      (0x54, .fcmpR), (0x5b, .dadd), (0x5c, .dmul), (0x5e, .ddiv), (0x5f, .dcmp), (0x60, .dcmpR), (0x6c, .packh),
      (0x80, .shflIdx), (0x81, .shflXor), (0x82, .shflUp), (0x83, .shflDown), (0x84, .bcast), (0x8d, .csamp), (0x8e, .prng),
      (0x8f, .hrnd), (0x95, .raygen)]).all (decodesA 4 8 16 0 hL 0 0 fa) = true := by decide +kernel

/-- Words of three sources; SUB at bit 83 and IMM at bit 96. -/
theorem test_decode_a3 :
    [(0x08, Instr.imad .w32), (0x09, .imad .w64), (0x1c, .lop3), (0x2a, .bfi), (0x31, .sel .w32), (0x3a, .sel .w64),
      (0x43, .ffma), (0x56, .hfma2 .f16), (0x57, .hfma2 .bf16), (0x58, .fdot2 .f16), (0x59, .fdot2 .bf16), (0x5a, .fdot4),
      (0x5d, .dfma), (0x94, .rast)].all (decodesA 4 8 16 12 hL 0 0 fa) = true ∧
    decodesA 4 8 16 12 hL 0 (2 ^ 12 * 0xd8) { fa with sub := 0xd8 } (0x1c, .lop3) = true ∧
    decodesA 4 8 16 0 hL 0 (2 ^ 12 * 2 + 2 ^ 25 * 64) { fa with sub := 2, imm := 64 } (0x36, .alea) = true ∧
    decodesA 0 8 0 0 hB 0x8000 0 fa (0x98, fun h f => .regrp h { f with d := 0 }) = true ∧
    decodesA 0 8 0 0 hB 0x8000 (2 ^ 12 * 63) { fa with sub := 63 } (0x99, .regrpk) = true := by decide +kernel

def decodesM (d a b c : Nat) (h : Hdr) (hdr hi : Nat) (f : FM) (x : Nat × (Hdr → FM → Instr)) : Bool :=
  decodeTableWord 128 (wordOf x.1 hdr d a b c hi) ==
    some (x.2 h { f with d := .ofNat 11 d, a := .ofNat 12 a, b := .ofNat 12 b, c := .ofNat 12 c })

/-- Memory words: SIZE at bit 83, SHIFT at 87, SCOPE at 89, ORDER at 92, SC at 94. -/
theorem test_decode_m :
    [(0xa0, Instr.ld), (0xa2, .lds)].all (decodesM 4 8 16 0 hL 0 (2 ^ 12 * 2) fm) = true ∧
    [(0xa1, Instr.st), (0xa3, .sts)].all (decodesM 0 8 16 12 hL 0 (2 ^ 12 * 2 + 2 ^ 16 * 3) { fm with shift := 3 }) = true ∧
    [(0xa4, Instr.pf), (0xa6, .cwb)].all (decodesM 0 8 16 0 hL 0 0 { fm with size := 0 }) = true ∧
    decodesM 0 8 16 0 hL 0 1 { fm with size := 0, e := 1 } (0xa5, .cinv) = true ∧
    [(0xa7, Instr.tsmp), (0xa8, .tsmpL), (0xa9, .tsmpG), (0xaa, .tld)].all (decodesM 4 8 16 12 hL 0 0 { fm with size := 0 })
      = true ∧
    decodesM 4 8 16 12 hL 0 (5 + 2 ^ 12 * 2 + 2 ^ 18 * 4 + 2 ^ 21 * 3 + 2 ^ 23)
      { fm with e := 5, scope := 4, order := 3, scf := 1 } (0xab, .atom) = true ∧
    decodesM 4 8 16 12 hL 0 (5 + 2 ^ 12 * 2 + 2 ^ 18 * 2 + 2 ^ 21) { fm with e := 5, scope := 2, order := 1 } (0xac, .atomSp)
      = true ∧
    [(0xad, Instr.cas), (0xae, .casSp)].all (decodesM 4 8 16 12 hL 0 (20 + 2 ^ 12 * 2) { fm with e := 20 }) = true ∧
    decodesM 4 8 16 12 hL 0 (2 ^ 12 * 3 + 2 ^ 18) { fm with size := 3, scope := 1 } (0xaf, .vbat) = true ∧
    decodesM 0 0 0 0 hL 0 (2 ^ 18 * 4 + 2 ^ 21) { fm with size := 0, scope := 4, order := 1 } (0xc0, .fence) = true ∧
    decodesM 4 8 16 0 hL 0 (2 * 5) { fm with size := 0, e := 10 } (0xc2, .barArv) = true ∧
    decodesM 0 8 0 0 hB 0x8000 (2 * 5) { fm with size := 0, e := 10 } (0xc3, .barWait) = true ∧
    decodesM 4 8 16 0 hL 0 (2 ^ 12 * 2) fm (0xc4, .mon) = true ∧
    decodesM 4 8 0 0 hB 0x8000 0 { fm with size := 0 } (0xc5, .mwait) = true ∧
    decodesM 4 8 16 0 hL 0 (2 ^ 12 * 2) fm (0xc6, .tkt) = true := by decide +kernel

def decodesE (d a b c : Nat) (h : Hdr) (hdr hi : Nat) (f : FE) (x : Nat × (Hdr → FE → Instr)) : Bool :=
  decodeTableWord 128 (wordOf x.1 hdr d a b c hi) ==
    some (x.2 h { f with d := .ofNat 11 d, a := .ofNat 12 a, b := .ofNat 12 b, c := .ofNat 12 c })

/-- Engine words: HD at bit 71, HS at 75, SUB at 83, FMT at 91, SAT at 94. -/
theorem test_decode_e :
    [(0xd0, Instr.tcopy), (0xd1, .chain), (0xd9, .nput), (0xda, .nget)].all (decodesE 4 8 16 12 hL 0 0 fe) = true ∧
    decodesE 4 8 16 12 hL 0 (3 + 2 ^ 12 + 2 ^ 20 * 5 + 2 ^ 23) { fe with hd := 3, sub := 1, fmt := 5, sat := 1 } (0xd2, .mma)
      = true ∧
    decodesE 4 8 16 0 hL 0 (3 + 2 ^ 20 * 5) { fe with hd := 3, fmt := 5 } (0xd3, .accld) = true ∧
    decodesE 4 8 16 0 hL 0 (2 ^ 4 * 3 + 2 ^ 20 * 5) { fe with hs := 3, fmt := 5 } (0xd4, .accst) = true ∧
    decodesE 4 0 0 0 hL 0 (3 + 2 ^ 12 * 2) { fe with hd := 3, sub := 2 } (0xd5, .accz) = true ∧
    decodesE 4 0 0 0 hL 0 3 { fe with hd := 3 } (0xd6, .accrel) = true ∧
    decodesE 4 8 0 0 hB 0x8000 0 fe (0xd7, .ewait) = true ∧ decodesE 4 8 0 0 hL 0 0 fe (0xd8, .tpost) = true ∧
    decodesE 4 0 16 12 hL 0 (2 ^ 25 * 9) { fe with imm := 9 } (0xdb, .nsig) = true := by decide +kernel

def decodesC (d a b c : Nat) (h : Hdr) (hdr hi : Nat) (f : FC) (x : Nat × (Hdr → FC → Instr)) : Bool :=
  decodeTableWord 128 (wordOf x.1 hdr d a b c hi) ==
    some (x.2 h { f with d := .ofNat 11 d, a := .ofNat 12 a, b := .ofNat 12 b, c := .ofNat 12 c })
def decodesS (d a : Nat) (h : Hdr) (hdr hi : Nat) (f : FS) (x : Nat × (Hdr → FS → Instr)) : Bool :=
  decodeTableWord 128 (wordOf x.1 hdr d a 0 0 hi) == some (x.2 h { f with d := .ofNat 11 d, a := .ofNat 12 a })

/-- Control words: SEG at bit 71, SIDE at 77, SUB at 83, IMM at 96. -/
theorem test_decode_c :
    decodesC 0 0 0 0 hB 0x8000 (2 ^ 25 * 9) { fc with imm := 9 } (0xe0, .br) = true ∧
    decodesC 0 8 0 0 hB 0x8000 (2 ^ 12 * 3 + 2 ^ 25 * 9) { fc with sub := 3, imm := 9 } (0xe1, .brp) = true ∧
    [(0xe2, Instr.brd), (0xe4, .ret)].all (decodesC 0 8 0 0 hB 0x8000 0 fc) = true ∧
    decodesC 4 0 0 0 hB 0x8000 (2 ^ 25 * 9) { fc with imm := 9 } (0xe3, .call) = true ∧
    decodesC 4 8 0 0 hB 0x8000 (2 ^ 12) { fc with sub := 1 } (0xe3, .call) = true ∧
    decodesC 4 8 16 0 hB 0x8000 (2 ^ 12) { fc with sub := 1 } (0xe5, .jfence) = true ∧
    decodesC 0 8 0 0 hL 0 0 fc (0xe6, .cfetch) = true ∧
    [(0xe7, Instr.ifence), (0xe8, .exitW), (0xe9, .yield), (0xef, .segend)].all (decodesC 0 0 0 0 hB 0x8000 0 fc) = true ∧
    decodesC 0 0 0 0 hL 0 0 fc (0xea, .nop) = true ∧
    decodesC 4 8 0 12 hL 0 (5 + 2 ^ 6 + 2 ^ 25 * 9) { fc with seg := 5, side := 1, imm := 9 } (0xeb, .spawnI) = true ∧
    decodesC 4 8 16 12 hL 0 (5 + 2 ^ 6) { fc with seg := 5, side := 1 } (0xec, .spawnR) = true ∧
    decodesC 4 8 0 12 hL 0 (5 + 2 ^ 6) { fc with seg := 5, side := 1 } (0xed, .spawnH) = true ∧
    decodesC 0 8 16 0 hL 0 0 fc (0xee, .resolve) = true ∧ decodesC 4 0 0 0 hL 0 0 fc (0xf0, .lkh) = true := by decide +kernel

/-- System words: CSR at bit 71. -/
theorem test_decode_s :
    [(0xf8, Instr.trapW), (0xfe, .bkpt)].all (decodesS 0 0 hB 0x8000 (2 ^ 25 * 9) { fs with imm := 9 }) = true ∧
    decodesS 0 0 hB 0x8000 (2 ^ 12) { fs with sub := 1 } (0xf9, .rfe) = true ∧
    decodesS 4 0 hL 0 5 { fs with csr := 5 } (0xfa, .csrr) = true ∧
    decodesS 0 8 hL 0 6 { fs with csr := 6 } (0xfb, .csrw) = true ∧
    decodesS 0 0 hL 0 (6 + 2 ^ 25 * 9) { fs with csr := 6, imm := 9 } (0xfc, .csrwI) = true ∧
    decodesS 0 8 hL 0 0 fs (0xfd, .tcmp) = true := by decide +kernel

/-- Words that the spec prints: `mov` and `iadd` of R8's programs, `qrel`, `shfl.xor`, `trav`, `travr`, `tld`,
`fence.rel.device`, `mma.set`, `spawn.r`. -/
theorem test_decode_printed :
    decodeWord (word4 0x2c000d32 0x120 0x80 0) = .ok (.mov .w32 { hL with rate := 5, la := 1 } { fa with d := 44, sa := 36, inh := 1 }) ∧
    decodeWord (word4 0x00002f90 0 0 0) = .ok (.qrel { hL with rate := 7, la := 5 } fa) ∧
    decodeWord (word4 0x0a000381 0x04908040 0x00080000 0) = .ok (.shflXor hL { fa with d := 10, sa := 8, sb := 0x921, sub := 1 }) ∧
    decodeWord (word4 0x1e000396 0xb00a0140 0 0) = .ok (.trav hL { fa with d := 30, sa := 40, sb := 20, sc := 22 }) ∧
    decodeWord (word4 0x1e080b97 0xc81c01f8 1 0) = .ok (.travr { hL with la := 1, pred := 4 } { fa with d := 30, sa := 63, sb := 56, sc := 57 }) ∧
    decodeWord (word4 0x1c0003aa 0xa80a00b0 0 0) = .ok (.tld hL { fm with d := 28, a := 22, b := 20, c := 21, size := 0 }) ∧
    decodeWord (word4 0x000003c0 0 0x28000000 0) = .ok (.fence hL { fm with size := 0, scope := 4, order := 2 }) ∧
    decodeWord (word4 0x3c002bd2 0x201dc900 0x00080049 0x00010001) = .ok (.mma { hL with rate := 3, la := 5 }
      { fe with d := 60, a := 0x920, b := 59, c := 0x924, sub := 1, imm := 0x00010001 }) ∧
    decodeWord (word4 0x16007aec 0x90074000 0x00002000 0) = .ok (.spawnR { hL with rate := 2, la := 15 }
      { fc with d := 22, a := 0x800, b := 14, c := 18, side := 1 }) := by decide +kernel
/-! ## States of the tests -/

/-- A launch with one rate, 3, packed LANE, and one role. -/
def tLaunch : Launch :=
  { lid := 1, asid := 1, queue := 0, regDflt := 3, nroot := 1, slots := [0, 0x41, 0x148, 0, 0, 0, 0, 0]
    lattice := [{}, {}, {}, { valid := true, root := true, pack := 2 }]
    roles := [{ entry := 0, lregs := 256, gregs := 64, bal := 0, groups := 1, inseg := false, seg := 0 }] }

/-- A group of two live lanes in a run at word 0x10000, on bead 0. -/
def tGroup : Group :=
  { gid := 1, asid := 1, launch := 1, team := 1, rate := 3, fresh := false
    div := { live := 3, pcs := [(0, 0x10000), (1, 0x10000)], bcast := 0x10000 }
    elems := [(0, { present := true, rate := 3 }), (1, { present := true, rate := 3, index := 1 })]
    lgs := [{}], run := { on := true, active := 3, slices := [0], pc := 0x10000, rate := 3 } }

def tTeam : Team :=
  { tid := 1, asid := 1, launch := 1, num := 0, segid := 0, bead := 0, spw := 256, spad := [], bars := [], startedAt := 0
    retired := 0, stop := none, restoring := false }

def tState : State :=
  { State.reset with
    grp := tGroup, launches := [tLaunch], teams := [tTeam], nextId := 2
    ctxs := [(1, { asid := 1, part := 0, acap := 64, lcap := 100, gcap := 100 })] }

/-- The state with lane registers given: register, lane 0, lane 1. -/
def withRegs (s : State) (rs : List (Nat × Word × Word)) : State :=
  s.setGrp (rs.foldl (fun (g : Group) x => (g.setReg false 0 x.1 x.2.1).setReg false 1 x.1 x.2.2) s.grp)

/-- Sources v1, v2, v3 or their pairs, destination v8. -/
def f3 : FA := { fa with d := 8, sa := 2, sb := 4, sc := 6 }

/-- A lane of the next state's group. -/
def regAfter (o : Host.Outcome State Fault Refusal) (l r : Nat) : Option Word :=
  match o with
  | .next t => some (t.grp.reg false l r)
  | _ => none
def flagsAfter (o : Host.Outcome State Fault Refusal) : Option Word :=
  match o with
  | .next t => some (t.grp.lg 0).fpflags
  | _ => none
def causeAfter (o : Host.Outcome State Fault Refusal) : Option (Nat × Dword) :=
  match o with
  | .next t => some (t.grp.trapcause.toNat % 256, t.grp.trapinfo)
  | _ => none

/-! ## Integer words -/

theorem witness_readable_1 : tState.readable hL [opA f3 1, opB f3 1, opC f3 1] :=
  (by decide +kernel : tState.readTrap hL.rate.toNat [opA f3 1, opB f3 1, opC f3 1] _ = none)
theorem witness_readable_2 : tState.readable hL [opA f3 2, opB f3 2, opC f3 2] :=
  (by decide +kernel : tState.readTrap hL.rate.toNat [opA f3 2, opB f3 2, opC f3 2] _ = none)
theorem witness_readable_ab : tState.readable hL [opA f3 1, opB f3 1] ∧ tState.readable hL [opA f3 2, opB f3 2] ∧
    tState.readable hL [opA f3 2, opB f3 1] ∧ tState.readable hL [opA f3 1] ∧ tState.readable hL [opA f3 2] :=
  ⟨(by decide +kernel : tState.readTrap hL.rate.toNat [opA f3 1, opB f3 1] _ = none),
   (by decide +kernel : tState.readTrap hL.rate.toNat [opA f3 2, opB f3 2] _ = none),
   (by decide +kernel : tState.readTrap hL.rate.toNat [opA f3 2, opB f3 1] _ = none),
   (by decide +kernel : tState.readTrap hL.rate.toNat [opA f3 1] _ = none),
   (by decide +kernel : tState.readTrap hL.rate.toNat [opA f3 2] _ = none)⟩

/-- `IntegerResults`: a form of each width, ready. -/
theorem witness_integer : (∃ x, integerForm tState (.iadd .w32 hL f3) = some x ∧ tState.readable x.h x.ops) ∧
    ∃ x, integerForm tState (.imad .w64 hL f3) = some x ∧ tState.readable x.h x.ops :=
  ⟨⟨_, rfl, witness_readable_ab.1⟩, ⟨_, rfl, witness_readable_2⟩⟩

/-- Additions wrap, saturate at both ends, and shifts take the low bits of b (R192, R195). -/
theorem test_integer_corners :
    let s := withRegs tState [(2, 0xffffffff, 0x80000000), (4, 33, 0xffffffff)]
    regAfter (exec (.iadd .w32 hL f3) s) 0 8 = some 32 ∧ regAfter (exec (.iaddsat .s hL f3) s) 1 8 = some 0x80000000 ∧
    regAfter (exec (.iaddsat .u hL f3) s) 0 8 = some 0xffffffff ∧ regAfter (exec (.shl .w32 hL f3) s) 0 8 = some 0xfffffffe ∧
    regAfter (exec (.iabs hL f3) s) 1 8 = some 0x80000000 ∧ regAfter (exec (.imulh .u hL f3) s) 0 8 = some 32 ∧
    regAfter (exec (.imulh .s hL f3) s) 0 8 = some 0xffffffff := by decide +kernel

/-- The example of R196. -/
theorem test_bfe_example :
    let s := withRegs tState [(1, 0xabcdef01, 0xabcdef01)]
    let f := { fa with d := 3, sa := 1, sb := 0x806, imm := 0x0808 }
    regAfter (exec (.bfe .s hL f) s) 0 3 = some 0xffffffef ∧ regAfter (exec (.bfe .u hL f) s) 0 3 = some 0xef := by
  decide +kernel

/-- Boundary descriptors of `BitFields`: an empty field, the whole word, a field cut at bit 32. -/
theorem witness_bit_fields : fieldAt 0x0020 = (32, 0) ∧ fieldAt 0xff00 = (0, 32) ∧ fieldAt 0x201f = (31, 1) := by decide +kernel

/-- The tables of `lop3` that R195 names: 0xd8 selects b or c by a, 0xe8 is the majority. -/
theorem test_lop3 :
    let s := withRegs tState [(2, 0xff00ff00, 0), (4, 0x12345678, 0), (6, 0x9abcdef0, 0)]
    regAfter (exec (.lop3 hL { f3 with sub := 0xd8 }) s) 0 8 = some 0x12bc56f0 ∧
    regAfter (exec (.lop3 hL { f3 with sub := 0xe8 }) s) 0 8 = some 0x9a34de70 := by decide +kernel

/-- The table of R193. -/
theorem test_division_table :
    let s := withRegs tState [(2, 7, 0x80000000), (4, 0, 0xffffffff)]
    let n := withRegs tState [(2, 0xfffffff9, 0xfffffff9), (4, 2, 2)]
    regAfter (exec (.idiv .s hL f3) s) 0 8 = some 0xffffffff ∧ regAfter (exec (.irem .s hL f3) s) 0 8 = some 7 ∧
    regAfter (exec (.idiv .u hL f3) s) 0 8 = some 0xffffffff ∧ regAfter (exec (.idiv .s hL f3) s) 1 8 = some 0x80000000 ∧
    regAfter (exec (.irem .s hL f3) s) 1 8 = some 0 ∧ regAfter (exec (.idiv .u hL f3) s) 1 8 = some 0 ∧
    regAfter (exec (.irem .u hL f3) s) 1 8 = some 0x80000000 ∧ flagsAfter (exec (.idiv .s hL f3) s) = some fIDIV ∧
    regAfter (exec (.idiv .s hL f3) n) 0 8 = some 0xfffffffd ∧ regAfter (exec (.irem .s hL f3) n) 0 8 = some 0xffffffff ∧
    flagsAfter (exec (.idiv .s hL f3) n) = some 0 := by decide +kernel

/-- `Division`: no event, events with the trap disabled, and events with it enabled (R194). -/
theorem witness_division :
    divideEvents (withRegs tState [(4, 2, 2)]) .s hL f3 = [] ∧ divideEvents tState .u hL f3 = [] ∧
    divideEvents (tState.setGrp { tGroup with lgs := [{ divzEn := 1 }] }) .s hL f3 = [0, 1] ∧
    (tState.setGrp { tGroup with lgs := [{ divzEn := 1 }] }).readable hL [opA f3 1, opB f3 1] :=
  ⟨by decide +kernel, by decide +kernel, by decide +kernel, (by decide +kernel : State.readTrap _ _ _ _ = none)⟩

/-- A division by zero with the trap enabled is cause 0x02 with the mask of the event lanes (R194). -/
theorem test_division_trap :
    let s := (withRegs tState [(2, 7, 7), (4, 0, 2)])
    causeAfter (exec (.idiv .s hL f3) (s.setGrp { s.grp with utvec := 1, lgs := [{ divzEn := 1 }] })) = some (0x02, 1) := by
  decide +kernel

/-! ## Floating words -/

/-- Where `RoundingIsCorrect` and `OverflowResults` meet: the largest finite value, and twice it. -/
theorem witness_rounding :
    (0xffffff : Rat) * 2 ^ (104 : Int) ≤ magOf fp32 fp32.maxFin ∧ (1 : Rat) * 2 ^ (-149 : Int) ≤ magOf fp32 fp32.maxFin ∧
    (14 : Rat) * 2 ^ (5 : Int) ≤ magOf e4m3 e4m3.maxFin ∧ 2 * magOf e4m3 e4m3.maxFin ≤ (28 : Rat) * 2 ^ (5 : Int) ∧
    2 * magOf fp32 fp32.maxFin ≤ (0x1fffffe : Rat) * 2 ^ (104 : Int) := by
  have h : fp32.value fp32.maxFin = .fin false 0xffffff 104 := by decide +kernel
  have k : e4m3.value e4m3.maxFin = .fin false 14 5 := by decide +kernel
  simp only [magOf, h, k, ratOf]
  norm_num

theorem witness_float_arithmetic :
    finite fp32 0x3f800000 = true ∧ finite fp32 1 = true ∧ finite fp64 0x3ff0000000000000 = true ∧
    0 < ratOf (fp32.value 0x40000000) ∧ ratOf (fp32.value 0x40000000) ≤ magOf fp32 fp32.maxFin ∧
    (fp32.value 0x7f800001).isNan = true := by
  have h : fp32.value fp32.maxFin = .fin false 0xffffff 104 := by decide +kernel
  have k : fp32.value 0x40000000 = .fin false 0x800000 (-22) := by decide +kernel
  refine ⟨by decide +kernel, by decide +kernel, by decide +kernel, ?_, ?_, by decide +kernel⟩ <;>
    simp only [magOf, h, k, ratOf] <;> norm_num

theorem witness_float_words :
    (∃ x, floatForm tState (.fadd hL f3) = some x ∧ tState.readable x.h x.ops) ∧
    (∃ x, packedForm tState (.dadd hL f3) = some x ∧ tState.readable x.h x.ops) ∧
    (∃ x, convertForm tState (.cvti2f .s .w64 hL f3) = some x ∧ tState.readable x.h x.ops) :=
  ⟨⟨_, rfl, witness_readable_ab.1⟩, ⟨_, rfl, witness_readable_ab.2.1⟩, ⟨_, rfl, witness_readable_ab.2.2.2.2⟩⟩

/-- 1 + 2^-24 ties to even, toward infinity it goes up; 0/0 is NV and the canonical NaN (R118, R202). -/
theorem test_float :
    fp32.add .rne 0x3f800000 0x33800000 = (0x3f800000, fNX) ∧ fp32.add .rp 0x3f800000 0x33800000 = (0x3f800001, fNX) ∧
    fp32.div .rne 0 0 = (0x7fc00000, fNV) ∧ (fp32.sqrt .rne 0x40800000).1 = 0x40000000 := by decide +kernel

/-! ## Cross-lane words -/

theorem witness_cross : CrossReady tState hL [opA f3 1, opB f3 1] ∧ CrossReady tState hL [] ∧ CrossReady tState hL [opA f3 1] ∧
    tState.grp.lw = 2 ^ 6 :=
  ⟨⟨by decide +kernel, by decide +kernel⟩, ⟨by decide +kernel, by decide +kernel⟩, ⟨by decide +kernel, by decide +kernel⟩, rfl⟩

/-- One live lane in a logical group of width 1, for the scan of one lane. -/
theorem witness_one_lane :
    liveList (tState.setGrp { tGroup with lw := 1 }) 0 = [0] ∧ liveList tState 0 = [0, 1] := by decide +kernel

/-- Two lanes exchange; a source lane that is not live gives the lane its own value (R221, R222). -/
theorem test_shuffle :
    let s := withRegs tState [(2, 10, 20), (4, 1, 1)]
    regAfter (exec (.shflXor hL f3) s) 0 8 = some 20 ∧ regAfter (exec (.shflXor hL f3) s) 1 8 = some 10 ∧
    regAfter (exec (.shflDown hL f3) s) 1 8 = some 20 ∧ regAfter (exec (.shflUp hL f3) s) 1 8 = some 10 ∧
    regAfter (exec (.bcast hL f3) s) 0 8 = some 20 ∧ regAfter (exec (.lred .int hL f3) s) 0 8 = some 30 ∧
    regAfter (exec (.lscan .int hL { f3 with sub := 8 }) s) 1 8 = some 10 := by decide +kernel

/-- The example of R226: 0.5, 1.5 and u. -/
theorem test_csamp :
    let s (u : Word) := withRegs tState [(2, 0x3f000000, 0x3fc00000), (4, u, 0)]
    regAfter (exec (.csamp hL f3) (s 0x20000000)) 1 8 = some 0 ∧ regAfter (exec (.csamp hL f3) (s 0x40000000)) 0 8 = some 1 ∧
    regAfter (exec (.csamp hL f3) (s 0xc0000000)) 0 8 = some 1 := by decide +kernel

/-- `WordTraps`: a group that is not converged, and a word whose lanes lack an ancestor's record. -/
theorem witness_word_traps :
    (tState.setGrp { tGroup with run := { tGroup.run with active := 1 } }).grp.converged = false := by decide +kernel
/-! ## Traps, CSRs, control -/

/-- The lanes of the group lack the record of rate 2 whose v2 they inherit. -/
def tLacking : State :=
  { tState with launches := [{ tLaunch with
      lattice := [{}, {}, { valid := true, root := true, pack := 2, nexp := 4, expbase := 0 }, { valid := true, parent := 2, pack := 2 }]
      regRates := [(2, 2)] }] }

theorem witness_missing :
    ∃ x, integerForm tLacking (.iadd .w32 hL f3) = some x ∧
      (tLacking.grp.execLanes tLacking.curLaunch x.h).filter (fun l =>
        x.ops.any (fun o => (tLacking.opndReads x.h.rate.toNat l o).contains .missing)) ≠ [] :=
  ⟨_, rfl, by decide +kernel⟩

/-- The group with handlers enabled at BASE 0x120 (R315). -/
def tHandled : State := tState.setGrp { tGroup with utvec := 0x12001 }
def tInHandler : State := tState.setGrp { tGroup with utvec := 0x12001, trapcause := 0x80001001 }
/-- The group in a speculative segment, 5, that runs in team 1. -/
def tSeg : Seg :=
  { asid := 1, segid := 5, launch := 1, die := 0, parent := 0, cond := 1, side := 1, prob := 0x40, stype := 0, args := [], depth := 1
    root := 1, site := 0, st := .running 1, held := false, version := 1, bytes := [], reads := [], passed := [] }
def tSpec : State := { tState.setGrp { tGroup with segid := 5 } with segs := [tSeg], conds := [(1, { live := true, asid := 1, launch := 1 })] }

/-- `TrapDelivery` at the greatest user cause and DETAIL. -/
theorem witness_delivery :
    (0x0f < 0x10 ∧ 255 < 256) ∧ tHandled.grp.utvec.getLsbD 0 = true ∧ tHandled.grp.trapcause.getLsbD 31 = false ∧
    tHandled.speculative tHandled.grp = false ∧ tHandled.grp.div.inreg = false ∧ tHandled.grp.run.on = true := by decide +kernel

/-- `StoppingCauses`: a system cause, EN clear, a handler running; a segment whose trap is not held. -/
theorem witness_stopping :
    (0x10 ≤ 0xff ∧ tState.grp.utvec.getLsbD 0 = false ∧ tInHandler.grp.trapcause.getLsbD 31 = true) ∧
    tInHandler.speculative tInHandler.grp = false ∧ tInHandler.grp.run.on = true ∧
    tSpec.speculative tSpec.grp = true ∧ tSpec.findSeg tSpec.grp.asid tSpec.grp.segid = some tSeg ∧ tSeg.held = false := by
  decide +kernel

/-- A user trap goes to BASE × 256 + 256 × rate: 0x12000 + 0x300, with its code (R315, R316, R318). -/
theorem test_user_trap :
    (match exec (.trapW hB { fs with imm := 0x55 }) tHandled with
      | .next t => decide (t.grp.trapcause = 0x80000001 ∧ t.grp.trapinfo = 0x55 ∧ t.grp.div.bcast = 0x12300 ∧
          t.grp.tsave.pcs = [(0, 0x10010), (1, 0x10010)])
      | _ => false) = true := by decide +kernel

/-- `TrapsAndReturn`: lanes that execute, none, no handler, one running outside a serviced segment. -/
theorem witness_traps_and_return :
    (tState.endRegion.grp.execLanes tState.endRegion.curLaunch hB ≠ [] ∧
      tState.endRegion.grp.execLanes tState.endRegion.curLaunch { hB with pred := 3 } = []) ∧
    tState.grp.trapcause.getLsbD 31 = false ∧ tInHandler.grp.converged = true ∧ tInHandler.grp.trapcause.getLsbD 31 = true ∧
    tInHandler.findSeg tInHandler.grp.asid tInHandler.grp.segid = none := by decide +kernel

/-- A handler returns past the word that trapped, with the rest of its run kept, at that word and beyond it. -/
theorem witness_return_skips :
    let r (p : Dword) (last : Bool) : Run := { tGroup.run with on := false, pc := p, count := 1, last := last }
    let s (p : Dword) (last : Bool) : State := tInHandler.setGrp { tInHandler.grp with trapPc := some 0x10010, trest := some (r p last) }
    ((s 0x10010 false).grp.converged = true ∧ (s 0x10010 false).grp.trapPc.isSome = true ∧ (s 0x10010 true).grp.trest = some (r 0x10010 true)) ∧
    (r 0x10010 false).pc = (s 0x10010 false).grp.trapPc.getD 0 ∧ (r 0x10020 false).pc ≠ (s 0x10020 false).grp.trapPc.getD 0 := by
  decide +kernel

/-- The registers of R320 at both ends; the CSR writes' sources are ready. -/
theorem witness_csr : ({ fs with csr := 15 } : FS).csr.toNat < 16 ∧ wideCsr 6 = true ∧ wideCsr 9 = false ∧
    tState.readTrap hL.rate.toNat [opX ({ fs with a := 2 } : FS).a 2] (tState.grp.execLanes tState.curLaunch hL) = none ∧
    tState.readTrap hL.rate.toNat [opX ({ fs with a := 2 } : FS).a 1] (tState.grp.execLanes tState.curLaunch hL) = none := by
  decide +kernel

/-- The moment of R322: TIMER 5,000,000 and `tcmp 20000`. -/
theorem test_tcmp :
    (match exec (.tcmp hL { fs with a := 2 }) (withRegs { tState with timer := 5000000 } [(2, 20000, 20000)]) with
      | .next t => decide (t.grp.tcmp = 5020000)
      | _ => false) = true := by decide +kernel

/-- Addresses in v2: a word address, and one that is not. -/
def tJump (a : Word) : State := withRegs tState [(2, a, a)]
def fJump : FC := { fc with a := 2 }

/-- `ControlTransfer`: the highest and the lowest target of a word; a target off a word, and one beyond 2^52. -/
theorem witness_transfer :
    (badTargets tState hB (fun _ => labelTarget tState { fc with imm := 0xfffffffd }) = [] ∧ labelTarget tState { fc with imm := 0xfffffffd } = 0xffd0) ∧
    badTargets tState hB (fun _ => 2 ^ 52 - 16) = [] ∧ tState.grp.converged = true ∧
    badTargets (tJump 0x2000) hB (pairTargetOf (tJump 0x2000) hB fJump) = [] ∧
    badTargets (tJump 0x2008) hB (pairTargetOf (tJump 0x2008) hB fJump) = [0, 1] ∧
    badTargets (withRegs tState [(3, 0x100000, 0)]) hB (pairTargetOf (withRegs tState [(3, 0x100000, 0)]) hB fJump) = [0] ∧
    (tJump 0x2000).readTrap hB.rate.toNat [opX fJump.a 2] ((tJump 0x2000).grp.execLanes (tJump 0x2000).curLaunch hB) = none := by
  decide +kernel

/-- The loop-back branch of R301's example: IMM −3. -/
theorem test_branch :
    (match exec (.br hB { fc with imm := 0xfffffffd }) tState with
      | .next t => decide (t.grp.div.pcs = [(0, 0xffd0), (1, 0xffd0)] ∧ t.grp.run.on = false)
      | _ => false) = true := by decide +kernel

/-! ## Memory behind a translation-cache entry -/

/-- The first 2 MiB of context 1, addresses unchanged, read, write and execute. -/
def tEntry : Tlb :=
  { asid := 1, part := 0, gen := 0, vbase := 0, ibase := 0, pbase := 0, size := 2 ^ 21, rd := true, wr := true, ex := true, plc := 0 }
/-- The test state over it, with an overlay table of two entries at 0x8000: entry 0 present, 4 words at 0x20000. -/
def tMem : State :=
  { tState with
    boot := { chans := 1 }
    cores := [(0, { tlb := [tEntry] })], beads := [(0, { occ := some 1, tlb2 := [tEntry] })]
    ctxs := [(1, { asid := 1, part := 0, acap := 64, lcap := 100, gcap := 100, ovlcount := 3, ovlbase := 0x8000 })]
    mem := [(0x8000, 1), (0x8001, 0), (0x8002, 2), (0x8008, 4), (0x8020, 2)].filter (fun x => x.2 != 0) }

theorem witness_memory : Memory.wf tMem.mem = true := by decide +kernel

theorem backed_first (s : State) (hb : s.boot = { chans := 1 }) (pa : Nat) (h : pa < 2 ^ 33) : s.backed pa = true := by
  have one : sumOf ((List.range 96).map (fun i => nbits 1 i 1)) = 1 := by decide +kernel
  simp only [State.backed, hb, one, if_pos (show pa < 0xc000000000 by omega), decide_eq_true_eq]
  omega

/-- The entry gives every access within it its own address. -/
theorem held_entry (s : State) (acc : Acc) (va n : Nat) (hb : s.boot = { chans := 1 }) (hp : (s.ctx 1).part = 0)
    (h : va + n ≤ 2 ^ 21) : HeldIn s [tEntry] 1 acc va n va := by
  refine ⟨by omega, fun i hi => ⟨tEntry, by cases acc <;> rfl, ?_, backed_first s hb _ (by omega), ?_⟩⟩
  · show 0 + (va + i - 0) = va + i
    omega
  · have : tEntry.covers 1 (s.ctx 1).part (va + i) = true := by
      rw [hp]
      simp [Tlb.covers, tEntry]
      omega
    simp [this]

/-- What the core of the test group holds: every access within the entry, none of it poisoned. -/
theorem held_lanes (s : State) (acc : Acc) (n : Nat) (f : Nat → Nat) (lanes : List Nat)
    (h : s.boot = { chans := 1 } ∧ (s.ctx 1).part = 0 ∧ (s.core s.grp.core).tlb = [tEntry] ∧ s.grp.asid = 1 ∧ s.poison = [])
    (hl : lanes.all (fun l => decide (f l + n ≤ 2 ^ 21)) = true) :
    ∀ l ∈ lanes, Held s acc (f l) n (f l) ∧ Sound s (f l) n := fun l m => by
  refine ⟨?_, fun i _ => by rw [h.2.2.2.2]; rfl⟩
  unfold Held
  rw [h.2.2.1, h.2.2.2.1]
  exact held_entry s acc _ n h.1 h.2.1 (by simpa using List.all_eq_true.1 hl l m)

/-- The same of the bead's cache. -/
theorem held_bead (s : State) (acc : Acc) (va n : Nat) (h : s.boot = { chans := 1 } ∧ (s.ctx 1).part = 0 ∧ (s.bead s.grp.bead).tlb2 = [tEntry])
    (hv : va + n ≤ 2 ^ 21) : HeldIn s (s.bead s.grp.bead).tlb2 1 acc va n va := by
  rw [h.2.2]
  exact held_entry s acc va n h.1 h.2.1 hv

theorem witness_cache_lines :
    tMem.readable hL [opX fm.a 2, opX fm.b 1] ∧
    (∀ l ∈ tMem.grp.execLanes tMem.curLaunch hL, Held tMem .read (addressOf tMem hL fm l) 1 (addressOf tMem hL fm l)) ∧
    ((tMem.setGrp { tMem.grp with run := { tMem.grp.run with active := 1 } }).grp.execLanes tMem.curLaunch hL = [0] ∧
      SMap.wf [] (tMem.core 0).l1 = true ∧ SMap.wf [] (tMem.core 0).samp = true ∧ SMap.wf 0 tMem.wmask = true ∧
      (tMem.core 0).l1.length + 4 ≤ tMem.l1Sectors 0) ∧
    tMem.speculative tMem.grp = false :=
  ⟨by unfold State.readable; decide +kernel,
   fun l m => (held_lanes tMem .read 1 (addressOf tMem hL fm) _ (by decide +kernel) (by decide +kernel) l m).1,
   by decide +kernel, by decide +kernel⟩

/-- `FencesAndCaches`: scopes 3 and 4, in a segment and not; a copy in progress on its path, and none. -/
theorem witness_fences :
    ({ fm with scope := 3 } : FM).scope.toNat < 4 ∧ 4 ≤ ({ fm with scope := 4 } : FM).scope.toNat ∧
    tState.endRegion.speculative tState.endRegion.grp = false ∧ tSpec.endRegion.speculative tSpec.endRegion.grp = true ∧
    anyLane tState.endRegion hL = true ∧
    tState.readTrap hL.rate.toNat [opX fm.a 2, opX fm.b 1] (tState.grp.execLanes tState.curLaunch hL) = none := by decide +kernel

def tOp (k : OpKind) : EngOp :=
  { oid := 7, asid := 1, launch := 1, gid := some 1, lg := 0, entry := 0, token := 0x11, team := 1, segid := 0, bead := 0, core := 0
    kind := k, done := 0, paused := false, queue := 0 }

/-- A release at system scope while a peer operation of the group is in progress. -/
theorem witness_fence_waits :
    let s := { tState with engOps := [tOp (.nsig 8 1 { addr := 0, job := 0, ports := 0 })] }
    2 ≤ ({ fm with order := 2, scope := 5 } : FM).order.toNat ∧ 5 ≤ ({ fm with order := 2, scope := 5 } : FM).scope.toNat ∧
    netBusy s.endRegion hL = true ∧ netBusy tState.endRegion hL = false := by decide +kernel

theorem witness_xfence :
    let s := { tState with engOps := [tOp (.chain 0 0 1 0 [])] }
    let busy (f : FM) := s.endRegion.engOps.any (fun o => o.gid == some s.endRegion.grp.gid && (execGroups s.endRegion hL).contains o.lg
      && f.e.toNat.testBit o.kind.path && decide (o.kind.path < 5))
    busy { fm with e := 0x3f } = true ∧ busy { fm with e := 0x21 } = false := by decide +kernel

/-- `CodeWords`: entry 0 present with LEN 4, entry 1 absent with FIF clear, entry 2 absent with FIF set, entry 3 beyond. -/
theorem witness_overlay :
    (tMem.grp.execLanes tMem.curLaunch hB).head? = some 0 ∧ (tMem.ctx 1).ovlcount = 3 ∧
    (∀ k, k < 3 → (tMem.translate (some 0) 0 1 (0x8000 + 16 * k) .atomic).1.toOption = some (0x8000 + 16 * k)) ∧
    ((tMem.natAtPa 0x8000 8).testBit 0 = true ∧ tMem.natAtPa 0x8008 2 = 4) ∧
    ((tMem.natAtPa 0x8010 8).testBit 0 = false ∧ (tMem.natAtPa 0x8010 8).testBit 1 = false) ∧
    ((tMem.natAtPa 0x8020 8).testBit 0 = false ∧ (tMem.natAtPa 0x8020 8).testBit 1 = true) ∧
    tMem.readTrap hB.rate.toNat [opX fc.a 1, opX fc.b 1] (tMem.grp.execLanes tMem.curLaunch hB) = none := by decide +kernel

/-- An overlay jump to word 3 of entry 0: 0x20000 + 48 (R303). -/
theorem test_overlay_jump :
    (match exec (.jfence hB { fc with a := 2, b := 4 }) (withRegs tMem [(2, 0, 0), (4, 3, 3)]) with
      | .next t => decide (t.grp.div.pcs = [(0, 0x20030), (1, 0x20030)])
      | _ => false) = true := by decide +kernel

/-- `ThreadsEnd`: one lane of two ends, and the last ends; in a segment too. -/
theorem witness_threads_end :
    anyLane tState.endRegion hB = true ∧
    tState.endRegion.badCount ((List.range 64).filter (movesIn tState.endRegion hB)) = none ∧ tState.endRegion.grp.gid ≠ 0 ∧
    leftLive tState.endRegion hB = 0 ∧
    leftLive (tState.setGrp { tGroup with preds := [(3, 2)] }).endRegion { hB with pred := 3 } = 1 ∧
    tState.endRegion.grp.anyStalled = false ∧ tSpec.endRegion.grp.segid ≠ 0 ∧ tSpec.endRegion.grp.converged = true := by
  decide +kernel
theorem witness_no_exchange : noExchange tState.endRegion ∧ ∀ k, tState.endRegion.curLaunch.hasRecord k = false :=
  ⟨by unfold noExchange; decide +kernel, fun k => by rcases k with _ | _ | _ | _ | k <;> rfl⟩
/-! ## Memory words -/

/-- Address 0x10 + 4 × lane in v2, index 0 in v4, data in v6; v8 receives. -/
def tLoad : State :=
  { withRegs tMem [(2, 0x40, 0x44), (6, 0x11223344, 0x55667788)] with mem := [(0x40, 0x81), (0x41, 0x02), (0x44, 0xff), (0x45, 7)] }
def fLoad : FM := { fm with d := 8, a := 2, b := 4, c := 6 }

theorem witness_loads :
    Memory.wf tLoad.mem = true ∧ tLoad.speculative tLoad.grp = false ∧
    tLoad.readTrap hL.rate.toNat [opX fLoad.a 2, opX fLoad.b 1] (tLoad.grp.execLanes tLoad.curLaunch hL) = none ∧
    (tLoad.loadAll tLoad.grp (fLoad.e.toNat == 2) (accessBytes fLoad) (loadedRegs fLoad) (eachLane tLoad hL (addressOf tLoad hL fLoad))).2.2
      = [] := by decide +kernel

/-- One lane's bytes translate, at the last bytes of the mapped range; one past it does not; a poisoned sector. -/
theorem witness_load_lane :
    (tLoad.translateRange (some 0) 0 1 .read 0x40 4).1.toOption = some [0x40, 0x41, 0x42, 0x43] ∧
    (tLoad.translateRange (some 0) 0 1 .read 0x1ffffc 4).1.toOption = some [0x1ffffc, 0x1ffffd, 0x1ffffe, 0x1fffff] ∧
    (tLoad.translateRange (some 0) 0 1 .read 0x1ffffd 4).1.toOption = none ∧
    [0x40, 0x41].all (fun a => !({ tLoad with poison := [1] } : State).poison.contains (a / 64)) = false ∧
    (tLoad.core 0).buffered 1 false 1 0x40 = none := by decide +kernel

/-- `LoadCompletes`: every lane's bytes held and sound, nothing buffered, the L1 current with no sector and with one. -/
theorem witness_load_completes :
    tLoad.readable hL [opX fLoad.a 2, opX fLoad.b 1] ∧ nothingBuffered tLoad ∧ L1Current tLoad 0 ∧
    L1Current ({ tLoad with cores := [(0, { tlb := [tEntry], l1 := [(1, tLoad.bytesAt 64 64)] })] } : State) 0 ∧
    (∀ l ∈ tLoad.grp.execLanes tLoad.curLaunch hL, Held tLoad .read (addressOf tLoad hL fLoad l) (accessBytes fLoad)
      (addressOf tLoad hL fLoad l) ∧ Sound tLoad (addressOf tLoad hL fLoad l) (accessBytes fLoad)) := by
  refine ⟨by unfold State.readable; decide +kernel, by unfold nothingBuffered; decide +kernel,
    by unfold L1Current; decide +kernel, by unfold L1Current; decide +kernel,
    held_lanes tLoad _ _ _ _ (by decide +kernel) (by decide +kernel)⟩

/-- Loads of SIZE 0 and 1 extend by SIGN, SIZE 2 takes four bytes, SIZE 3 a pair (R250). -/
theorem test_load :
    regAfter (exec (.ld hL { fLoad with size := 0, sign := 1 }) tLoad) 0 8 = some 0xffffff81 ∧
    regAfter (exec (.ld hL { fLoad with size := 1 }) tLoad) 0 8 = some 0x0281 ∧
    regAfter (exec (.ld hL fLoad) tLoad) 1 8 = some 0x07ff ∧ regAfter (exec (.ld hL { fLoad with size := 3 }) tLoad) 0 9 = some 0x07ff := by
  decide +kernel

theorem witness_stores :
    ({ fLoad with size := 4 } : FM).size.toNat ≤ 4 ∧ tLoad.grp.div.inreg = false ∧
    tLoad.readTrap hL.rate.toNat [opX fLoad.a 2, opX fLoad.b 1, opX fLoad.c (sizeRegs fLoad)] (tLoad.grp.execLanes tLoad.curLaunch hL) = none ∧
    (storeCells tLoad hL fLoad).2.2 = [] ∧ (storeCells tLoad hL { fLoad with size := 4 }).2.2 = [] ∧
    (storeCells (tLoad.setGrp { tLoad.grp with div := { tLoad.grp.div with inreg := true } }) hL fLoad).2.2 = [] ∧
    ((tLoad.core 0).rel.length + (storeCells tLoad hL fLoad).2.1.length ≤ 64) := by decide +kernel
theorem witness_stores_conflict : violatesNone tLoad (storeCells tLoad hL fLoad).2.1 := by unfold violatesNone; decide +kernel

/-- `StoreCompletes`: no segment at all, every lane's bytes held. -/
theorem witness_store_completes :
    tLoad.readable hL [opX fLoad.a 2, opX fLoad.b 1, opX fLoad.c (sizeRegs fLoad)] ∧
    (∀ y ∈ tLoad.segs, y.st.speculative = true → y.reads = []) ∧
    ∀ l ∈ writingLanes tLoad hL, Held tLoad .write (addressOf tLoad hL fLoad l) (accessBytes fLoad) (addressOf tLoad hL fLoad l) :=
  ⟨by unfold State.readable; decide +kernel, nofun, fun l m => (held_lanes tLoad .write (accessBytes fLoad) _ _ (by decide +kernel) (by decide +kernel) l m).1⟩

/-- Stores of SIZE 4 overlap by twelve bytes: the higher lane's stand (R250). -/
theorem test_store :
    (match exec (.st hL { fLoad with size := 2, imm := 2 }) tLoad with
      | .next t => t.byte 0x41 == 2 && t.byte 0x42 == 0x44 && t.byte 0x45 == 0x11 && t.byte 0x46 == 0x88 && t.byte 0x49 == 0x55
      | _ => false) = true := by decide +kernel

/-- `WindowAccess`: the last bytes of the window, and one past it. -/
theorem witness_window :
    (∀ l ∈ tState.grp.execLanes tState.curLaunch hL, outOfWindow tState hL { fLoad with imm := 252 } l = false) ∧
    (tState.grp.execLanes tState.curLaunch hL).find? (outOfWindow tState hL { fLoad with imm := 253 }) = some 0 ∧
    (∀ l ∈ writingLanes tState hL, outOfWindow tState hL { fLoad with imm := 252 } l = false) ∧
    (writingLanes tState hL).find? (outOfWindow tState hL { fLoad with imm := 253 }) = some 0 ∧ tState.grp.div.inreg = false ∧
    tState.readTrap hL.rate.toNat [opX fLoad.a 1, opX fLoad.b 1, opX fLoad.c 1] (tState.grp.execLanes tState.curLaunch hL) = none := by
  decide +kernel

/-- A store beyond the window is cause 0x03, KIND 0, with lane and offset (R253). -/
theorem test_window_fault :
    causeAfter (exec (.sts hL { fLoad with imm := 253 }) (tState.setGrp { tGroup with utvec := 1 })) = some (0x03, 0xfd000) := by
  decide +kernel

/-- `Atomics`: each word, aligned and with its lowest lane misaligned, in a segment and not; one lane's sectors are in no
read set. -/
theorem witness_atomics :
    (∃ x, memoryAtomic (.atom hL fLoad) = some x ∧ x.f.size.toNat ∈ [2, 3]) ∧
    (∃ x, memoryAtomic (.vbat hL { fLoad with size := 3 }) = some x ∧ x.f.size.toNat ∈ [2, 3]) ∧
    tSpec.endRegion.speculative tSpec.endRegion.grp = true ∧ tLoad.endRegion.speculative tLoad.endRegion.grp = false ∧
    tLoad.endRegion.readTrap hL.rate.toNat [opX fLoad.a 2, opX fLoad.b 1, opX fLoad.c (sizeRegs fLoad)]
      (tLoad.endRegion.grp.execLanes tLoad.endRegion.curLaunch hL) = none ∧
    (∀ y ∈ tLoad.endRegion.segs, y.st.speculative = true → y.reads = []) ∧
    ((writingLanes tLoad.endRegion hL).map (fun l => (l, addressOf tLoad.endRegion hL { fLoad with imm := 2 } l))).find?
      (fun z => z.2 % 4 != 0) = some (0, 0x42) :=
  ⟨⟨_, rfl, by decide⟩, ⟨_, rfl, by decide⟩, by decide +kernel, by decide +kernel, by decide +kernel, by decide +kernel, by decide +kernel⟩
theorem witness_atomic_step :
    2 ≤ 2 ∧ violatesNone tLoad ([0x40, 0x41].map (fun a => (a, 0))) ∧ (8 ≤ 8 ∧ 0xffffffff < 2 ^ 32) := by
  refine ⟨by decide, ?_, by decide⟩
  unfold violatesNone; decide +kernel

/-- `AtomicCompletes`: aligned lanes at bead scope. -/
theorem witness_atomic_completes :
    let u := tLoad.endRegion
    let f : FM := { fLoad with scope := 2 }
    u.readable hL [opX f.a 2, opX f.b 1, opX f.c (sizeRegs f)] ∧ nothingBuffered u ∧ Memory.wf u.mem = true ∧ 2 ≤ f.scope.toNat ∧
    ∀ l ∈ writingLanes u hL, addressOf u hL f l % accessBytes f = 0 ∧
      Held u .atomic (addressOf u hL f l) (accessBytes f) (addressOf u hL f l) ∧ Sound u (addressOf u hL f l) (accessBytes f) :=
  ⟨by unfold State.readable; decide +kernel, by unfold nothingBuffered; decide +kernel, by decide +kernel, by decide +kernel,
   fun l m => ⟨(by decide +kernel : ∀ l ∈ writingLanes tLoad.endRegion hL,
      addressOf tLoad.endRegion hL { fLoad with scope := 2 } l % accessBytes { fLoad with scope := 2 } = 0) l m,
    held_lanes tLoad.endRegion _ _ _ _ (by decide +kernel) (by decide +kernel) l m⟩⟩

/-- Atomic add at one address by two lanes: the higher lane finds the lower one's sum (R265). -/
theorem test_atomic_order :
    let s := { withRegs tMem [(2, 0x40, 0x40), (6, 5, 7)] with mem := [(0x40, 1)] }
    let o := exec (.atom hL { fLoad with scope := 2 }) s
    regAfter o 0 8 = some 1 ∧ regAfter o 1 8 = some 6 ∧ (match o with | .next t => t.byte 0x40 == 13 | _ => false) = true := by
  decide +kernel

theorem witness_window_atomics :
    (∃ x, windowAtomic (.tkt hL fLoad) = some x ∧ x.f.size.toNat ∈ [2, 3]) ∧
    ((writingLanes tState.endRegion hL).map (fun l => (l, offsetIn tState.endRegion hL { fLoad with imm := 252 } l))).all
      (fun z => decide (z.2 + 4 ≤ tState.endRegion.spw) && z.2 % 4 == 0) = true ∧
    (writingLanes (tState.setGrp { tGroup with run := { tGroup.run with active := 1 } }).endRegion hL).map
      (fun l => (l, offsetIn tState.endRegion hL fLoad l)) = [(0, 0)] :=
  ⟨⟨_, rfl, by decide⟩, by decide +kernel, by decide +kernel⟩

/-! ## Barriers and monitors -/

/-- `Barriers`: arrivals of one lane each of a target of 2, and of 65,535; a lane that waits, and none; a group to wake. -/
theorem witness_barriers :
    arrivals {} [(0, 1, 2), (1, 1, 2)] = some ([(0, 0), (1, 0)], { phase := 1 }) ∧
    arrivals {} [(0, 65534, 65535)] = some ([(0, 0)], { count := 65534, target := 65535 }) ∧ arrivals {} [(0, 0, 1)] = none ∧
    arrivals {} [(0, 1, 65536)] = none ∧
    (tState.grp.execLanes tState.curLaunch hB).any (fun l => tState.opndWord hB 0 l (opX fm.a 1) 0 == (barrierAt tState 3).phase) = true ∧
    ((withRegs tState [(2, 1, 1)]).grp.execLanes tState.curLaunch hB).any
      (fun l => (withRegs tState [(2, 1, 1)]).opndWord hB 0 l (opX fLoad.a 1) 0 == (barrierAt tState 3).phase) = false ∧
    (tState.setGrp { tGroup with wait := .barrier 3 9 }).findGroup 1 = some { tGroup with wait := .barrier 3 9 } ∧
    (((tState.findTeam 1).map (fun t : Team => SMap.get {} t.bars 3)).getD {}).phase ≠ 9 := by decide +kernel

/-- Two lanes of a team arrive at target 2: both observe phase 0, and the phase becomes 1 (R68). -/
theorem test_barrier :
    (match exec (.barArv hL { fLoad with size := 0, a := 2, b := 4, e := 6 }) (withRegs tState [(2, 1, 1), (4, 2, 2)]) with
      | .next t => decide ((barrierAt t 3) = { phase := 1 } ∧ t.grp.reg false 1 8 = 0)
      | _ => false) = true := by decide +kernel

/-- `MonitorWords`: `mon` with an empty set, and with seven sectors and one more; `mwait` idle, and not idle with a timeout. -/
def tWatch : State := withRegs tMem [(2, 0x40, 0x80)]
def tWatched (n : Nat) (trig : Bool) : State :=
  { (withRegs tMem [(2, 0x40, 0x40)]) with
    grp := { (withRegs tMem [(2, 0x40, 0x40)]).grp with lgs := [{ monSet := (List.range n).map (· + 100), monTrig := trig }] } }

theorem witness_monitors :
    tWatch.readable hL [opX fLoad.a 2, opX fLoad.b 1] ∧ tWatch.speculative tWatch.grp = false ∧
    (eachLane tWatch hL (addressOf tWatch hL fLoad)).all (fun z => z.2 % accessBytes fLoad == 0) = true ∧
    (tWatch.loadAll tWatch.grp true (accessBytes fLoad) (loadedRegs fLoad) (eachLane tWatch hL (addressOf tWatch hL fLoad))).2.2
      = [] ∧ monitored tWatch hL fLoad 0 = [1, 2] ∧ monitored tWatch hL fLoad 1 = [] ∧
    ((tWatched 7 false).grp.lg 0).monSet.length
      + ((monitored (tWatched 7 false) hL fLoad 0).filter
          (fun c => !((tWatched 7 false).grp.lg 0).monSet.contains c)).eraseDups.length = 8 := by
  unfold State.readable; decide +kernel

/-- `MonitorCompletes`: two aligned lanes and room for their sectors. -/
theorem witness_monitor_completes :
    let u := tWatch.endRegion
    let lanes := u.grp.execLanes u.curLaunch hL
    u.readable hL [opX fLoad.a 2, opX fLoad.b 1] ∧ nothingBuffered u ∧ Memory.wf u.mem = true ∧
    (∀ l ∈ lanes, addressOf u hL fLoad l % accessBytes fLoad = 0 ∧
      Held u .read (addressOf u hL fLoad l) (accessBytes fLoad) (addressOf u hL fLoad l) ∧
      Sound u (addressOf u hL fLoad l) (accessBytes fLoad)) ∧
    ∀ j, (u.grp.lg j).monSet.length + (((lanes.filter (fun l => l / u.grp.lw == j)).map (fun l => addressOf u hL fLoad l / 64)).filter
      (fun c => !(u.grp.lg j).monSet.contains c)).eraseDups.length ≤ 8 := by
  refine ⟨by unfold State.readable; decide +kernel, by unfold nothingBuffered; decide +kernel, by decide +kernel,
    fun l m => ⟨(by decide +kernel : ∀ l ∈ tWatch.endRegion.grp.execLanes tWatch.endRegion.curLaunch hL,
      addressOf tWatch.endRegion hL fLoad l % accessBytes fLoad = 0) l m,
    held_lanes tWatch.endRegion _ _ _ _ (by decide +kernel) (by decide +kernel) l m⟩, ?_⟩
  have lanes : tWatch.endRegion.grp.execLanes tWatch.endRegion.curLaunch hL = [0, 1] := by decide +kernel
  intro j
  rw [lanes]
  rcases j with _ | _ | j
  · decide +kernel
  · decide +kernel
  · have w : tWatch.endRegion.grp.lw = 64 := by decide +kernel
    have e : ((tWatch.endRegion.grp.lg (j + 1 + 1)).monSet).length = 0 := by
      have : tWatch.endRegion.grp.lgs = [{}] := by decide +kernel
      simp [Group.lg, this]
    rw [w, e]
    simp

theorem witness_mwait (n : Nat) (trig : Bool) (u : State) (hu : u = tWatched n trig) (idle : Nat → Bool)
    (hi : idle = fun j => (u.grp.lg j).monSet.isEmpty || (u.grp.lg j).monTrig) :
    (n = 0 → trig = false → (execGroups u hL).all idle = true) ∧ (n = 8 → trig = true → (execGroups u hL).all idle = true) ∧
    (n = 1 → trig = false → (execGroups u hL).find? (fun j => !idle j) = some 0 ∧ firstIn u hL 0 = some 0) := by
  subst hu hi
  refine ⟨?_, ?_, ?_⟩ <;> (intro a b; subst a b; decide +kernel)

/-! ## Textures -/

/-- A texture of one texel of one byte at address 0: a descriptor of zeros at a multiple of 32. -/
def tTex : State := withRegs tMem [(2, 0x40, 0x40)]

theorem witness_sampling :
    (match tTex.sampleGroups hL fLoad (tTex.grp.execLanes tTex.curLaunch hL)
        (fun t l => t.sample (tTex.fpAt hL fLoad l fLoad.b 0 2) (tTex.fpAt hL fLoad l fLoad.b 1 2)
          (lodClamp t (tTex.fpAt hL fLoad l fLoad.c 0 1))) (List.range tTex.grp.nLg) with
      | .done _ _ fails => fails.isEmpty
      | _ => false) = true ∧
    tTex.readable hL [opX fLoad.a 2, opX fLoad.b 2, opX fLoad.c 1] ∧ brokenQuad tTex hL = false ∧ tTex.speculative tTex.grp = false ∧
    brokenQuad (tTex.setGrp { tTex.grp with run := { tTex.grp.run with active := 1 } }) hL = true := by
  unfold State.readable; decide +kernel

/-- `SamplerCompletes`: the descriptor of zeros at 0x40, of a texture of one texel at address 0, for every sampler word. -/
theorem witness_sampler_completes :
    SampCurrent tTex 0 ∧ textureOf (bytesNat (memoryAt tTex 0x40 32)) = textureOf 0 ∧ (textureOf 0).isSome = true ∧
    (∀ l, (crossLanes tTex hL).find? (fun m => m / tTex.grp.lw == 0) = some l → tTex.opnd hL fLoad.imm .i64 l (opX fLoad.a 2) = 0x40) ∧
    (∀ va n, va + n ≤ 2 ^ 21 → SampReady tTex va n va) ∧
    (∀ t, textureOf 0 = some t → (crossLanes tTex hL).all (fun l => (t.sample (tTex.fpAt hL fLoad l fLoad.b 0 2)
      (tTex.fpAt hL fLoad l fLoad.b 1 2) (lodClamp t (tTex.fpAt hL fLoad l fLoad.c 0 1))).taps.all (fun x =>
        x.all (fun a => decide (a + t.bytes ≤ 2 ^ 21)))) = true) := by
  refine ⟨by unfold SampCurrent; decide +kernel, by decide +kernel, by decide +kernel, ?_, fun va n h => ?_, ?_⟩
  · intro l m
    have : (crossLanes tTex hL).find? (fun m => m / tTex.grp.lw == 0) = some 0 := by decide +kernel
    rw [this] at m; cases m; decide +kernel
  · exact held_lanes tTex .read n (fun _ => va) [0] (by decide +kernel) (by simpa using h) 0 (by simp)
  · intro t ht
    have := (by decide +kernel : (textureOf 0).all (fun t => (crossLanes tTex hL).all (fun l => (t.sample (tTex.fpAt hL fLoad l fLoad.b 0 2)
      (tTex.fpAt hL fLoad l fLoad.b 1 2) (lodClamp t (tTex.fpAt hL fLoad l fLoad.c 0 1))).taps.all (fun x =>
        x.all (fun a => decide (a + t.bytes ≤ 2 ^ 21))))) = true)
    rw [ht] at this; exact this

/-! ## Rates, rasters, rays, regrouping -/

def tType (n : Nat) : SegType := { spw := 1024, argbase := 0, nargs := n, firstRole := 0, nrole := 1, image := [] }

/-- Launches with a count register v40, a helper rate and segment types. -/
def tMake : State := withRegs { tMem with launches := [{ tLaunch with segs := [tType 0, tType 2] }] } [(2, 5, 6)]

theorem witness_elements :
    (tMake.elemHandle 3 3 0).isSome = true ∧
    tMake.readable hL [opA f3 1] ∧ f3.d.toNat ≠ (tMake.curLaunch.lat 3).countreg ∧
    ((tMake.grp.execLanes tMake.curLaunch hL).filter (fun l => !tMake.grp.helper false l)).find? (fun l => decide (16777216 <
      ((withRegs tMake [(2, 0xffffffff, 1)]).grp.reg false l (tMake.curLaunch.lat 3).countreg).toNat
        + (wA (withRegs tMake [(2, 0xffffffff, 1)]) hL f3 l).toNat)) = some 0 ∧
    ((tMake.grp.execLanes tMake.curLaunch hL).filter (fun l => !tMake.grp.helper false l)).all (fun l => decide (
      (tMake.grp.reg false l (tMake.curLaunch.lat 3).countreg).toNat
        + (wA (withRegs tMake [(2, 16777216, 0)]) hL f3 l).toNat ≤ 16777216)) = true := by unfold State.readable; decide +kernel

/-- `EmitChildrenClaim` at its bounds: 16,777,216 is kept, one more traps with the register and the sum. -/
theorem test_emitc :
    causeAfter (exec (.emitc hL { f3 with sub := 3 }) (withRegs tMake [(2, 16777217, 0)])) = some (7, 0x0100000100000000) ∧
    regAfter (exec (.emitc hL { f3 with sub := 3 }) (withRegs tMake [(2, 16777216, 0), (0, 0, 7)])) 1 8 = some 7 := by
  decide +kernel

/-- The triangle of R235: (0, 0), (4, 0), (4, 4) pixels, scissor to (64, 64), token 0, coarse pixels of 2 × 2, 4 samples. -/
def tRast : State :=
  tState.setGrp { tState.grp with
    div := { tState.grp.div with live := 31 }
    run := { tState.grp.run with active := 31, slices := [0, 1] }
    lgs := [{ gregs := [(10, 1024), (12, 1024), (13, 1024), (15, 0x00400040)] }] }
def fRast : FA := { fa with d := 40, sa := 8, sb := 14, sc := 16, sub := 9 }

/-- Its table of positions, masks and barycentrics, and its token. -/
theorem test_rast :
    (match exec (.rast hL fRast) tRast with
      | .next t => decide (
          (List.range 5).map (fun l => (t.grp.reg false l 40, t.grp.reg false l 41)) =
            [(0, 0x30f3), (2, 0xffff), (0x00020000, 0), (0x00020002, 0x30f3), (0xffffffff, 0)] ∧
          (List.range 5).map (fun l => (List.range 3).map (fun i => t.grp.reg false l (42 + i))) =
            [[0x3f400000, 0, 0x3e800000], [0x3e800000, 0x3f000000, 0x3e800000], [0x3f400000, 0xbf000000, 0x3f400000],
             [0x3e800000, 0, 0x3f400000], [0, 0, 0]] ∧
          t.grp.reg true 0 16 = 0xffffffff)
      | _ => false) = true := by decide +kernel

theorem witness_rasterisation :
    culled [0, 0, 1024, 0, 1024, 1024] = false ∧
    (blocksOf [0, 0, 1024, 0, 1024, 1024] (scissorOf 0 0x00100010) 1).count < 2 ^ 32 ∧
    tRast.grp.converged = true ∧ tRast.curLaunch.isGroupRate hL.rate.toNat = false ∧
    0 < area [0, 0, 1024, 0, 1024, 1024] ∧ coveredAt [0, 0, 1024, 0, 1024, 1024] (scissorOf 0 0x00100010) 384 128 = true := by
  decide +kernel

/-- `Rays`: rays of a lane that has made none, and of one that has made all; a walk from an empty tree's root faults nowhere. -/
def tRays (n : Nat) : State := { tMem with grp := { (withRegs tMem [(2, 0x40, 0x40), (10, 0x1000, 0x1000)]).grp with
  elems := [(0, { present := true, rate := 3, rays := List.replicate n { rate := 4, regs := [] } }), (1, { present := true, rate := 3 })] } }

theorem tRays_lanes (n : Nat) :
    (tRays n).grp.execLanes (tRays n).curLaunch hL = (tRays 0).grp.execLanes (tRays 0).curLaunch hL := rfl
theorem tRays_rays (n : Nat) : (elementOf (tRays n) hL 0).rays = List.replicate n { rate := 4, regs := [] } := rfl
theorem tRays_none (n : Nat) : (elementOf (tRays n) hL 1).rays = [] := rfl

theorem witness_rays :
    (tRays 65535).readable hL [opA f3 1] ∧
    ((tRays 65535).grp.execLanes (tRays 65535).curLaunch hL).filter (fun l => decide (65536 ≤ (elementOf (tRays 65535) hL l).rays.length)) = [] ∧
    SMap.find (tRays 65535).grp.elems 0 ≠ none ∧
    ((tRays 65536).grp.execLanes (tRays 65536).curLaunch hL).filter
      (fun l => decide (65536 ≤ (elementOf (tRays 65536) hL l).rays.length)) ≠ [] ∧
    tMem.readable hL [opA fRast 8, opB fRast 2, opC fRast 2] ∧
    (tMem.travAll hL fRast (tMem.grp.execLanes tMem.curLaunch hL)).2.2 = [] ∧
    tMem.speculative tMem.grp = false ∧ tMem.readable hL [opA fRast 1, opB fRast 1, opC fRast 1] := by
  have lanes : (tRays 0).grp.execLanes (tRays 0).curLaunch hL = [0, 1] := by decide +kernel
  refine ⟨by unfold State.readable; decide +kernel, ?_, nofun, ?_, by unfold State.readable; decide +kernel⟩
  · rw [tRays_lanes, lanes]
    simp only [List.filter, tRays_rays, tRays_none, List.length_replicate, List.length_nil]
    rfl
  · rw [tRays_lanes, lanes]
    simp only [List.filter, tRays_rays, tRays_none, List.length_replicate, List.length_nil]
    nofun

/-- `RaysComplete`: the walks of an empty tree at address 0 read records of the entry alone. -/
theorem witness_rays_complete :
    (∀ l ∈ (tRays 0).endRegion.grp.execLanes (tRays 0).endRegion.curLaunch hL,
      (elementOf (tRays 0).endRegion hL l).rays.length < 65536) ∧ (tRays 0).endRegion.readable hL [opA f3 1] ∧
    SampCurrent tMem tMem.grp.core ∧
    (∀ l ∈ tMem.grp.execLanes tMem.curLaunch hL, ∀ x ∈ (laneWalk tMem hL fRast (memoryAt tMem) l).2, SampReady tMem x.1 x.2 x.1) ∧
    tMem.readable hL [opA fRast 1, opB fRast 1, opC fRast 1] := by
  refine ⟨by decide +kernel, by unfold State.readable; decide +kernel, by unfold SampCurrent; decide +kernel, ?_,
    by unfold State.readable; decide +kernel⟩
  have within : (tMem.grp.execLanes tMem.curLaunch hL).all (fun l => (laneWalk tMem hL fRast (memoryAt tMem) l).2.all
    (fun x => decide (x.1 + x.2 ≤ 2 ^ 21))) = true := by decide +kernel
  intro l m x hx
  have h := List.all_eq_true.1 (List.all_eq_true.1 within l m) x hx
  exact held_lanes tMem .read x.2 (fun _ => x.1) [0] (by decide +kernel) (by simpa using h) 0 (by simp)

/-- `Regroup`: a key at hand; a sort area with room for exactly the two threads, and with one byte less. -/
def tSort (n : Nat) : State :=
  { withRegs tMem [(4, 7, 8)] with ctxs := [(1, { asid := 1, part := 0, acap := 64, lcap := 100, gcap := 100, sortsize := n })] }

theorem witness_regroup :
    (tSort 2080).endRegion.grp.converged = true ∧ (tSort 2080).endRegion.readable hL [opA f3 1] ∧
    (tSort 2080).curLaunch.isGroupRate hL.rate.toNat = false ∧ Memory.wf (tSort 2080).endRegion.mem = true ∧
    sortPlan (tSort 2080).endRegion hL = some [0, 1040] ∧ sortPlan (tSort 2079).endRegion hL = none ∧
    (∀ o ∈ [0, 1040], HeldIn (tSort 2080).endRegion ((tSort 2080).endRegion.bead 0).tlb2 1 .write (0 + o) 1040 (0 + o)) ∧
    sortPlaces 100 30 2 [(30, 40)] = some [0, 70] := by
  refine ⟨by decide +kernel, by unfold State.readable; decide +kernel, by decide +kernel, by decide +kernel, by decide +kernel,
    by decide +kernel, fun o ho => ?_, by decide +kernel⟩
  exact held_bead (tSort 2080).endRegion .write (0 + o) 1040 (by decide +kernel)
    (by simp only [List.mem_cons, List.not_mem_nil, or_false] at ho; omega)

/-! ## Placement of groups -/

/-- A register of a partition with a value: EN of PCTL, the queue registers. -/
def tPlace : State :=
  { tState with
    nextId := 9
    boot := { chans := 1 }
    window := [(offPart 0 0x900, 1), (offPart 0 0x901, 1), (offPart 0 0x907, 0x10000), (offPart 0 0x908, 8)]
    beads := [(0, { occ := some 1, tlb2 := [tEntry] })] }

/-- Where each core of a bead has room, the model's choice among them is one of them (log 6). -/
theorem coreFor_of_room (s : State) (bead hw : Nat) (n : Need)
    (h : ∀ i < 4, (coreHolds (n :: s.takenOn (4 * bead + i) 0) && s.slotsFor (4 * bead + i) 0 [hw]) = true) :
    ∃ c, s.coreFor bead hw n = some c := by
  rw [← Option.isSome_iff_exists]
  simp only [State.coreFor, List.find?_isSome, List.mem_map, List.mem_range]
  exact ⟨_, ⟨0, by decide, rfl⟩, h _ (Nat.mod_lt _ (by decide))⟩

/-- A bin of `n` threads, each of two registers, whose feeders have gone; the first stored at 0x10010 with 5 in v1. -/
def tBin (n : Nat) : Bin :=
  { launch := 1, asid := 1, rate := 3, segid := 0, bin := 2
    threads := (List.range n).map (fun i => { elem := none, team := 1, role := 0, place := 24 * i, size := 24 }) }
def tBins (n : Nat) : State :=
  { tPlace with
    grp := { tGroup with launch := 2 }
    mem := [(0, 0x10), (2, 1), (20, 5)]
    beads := [(0, { occ := some 1, tlb2 := [tEntry], bins := [tBin n] })] }

theorem witness_bin_forms (n : Nat) (hn : n = 2 ∨ n = 64) :
    freshName (tBins n) ∧
    (((tBins n).bead 0).bins.filter (fun x => x.launch == 1 && x.rate == 3 && x.segid == 0)).find? (fun x => x.bin == 2) = some (tBin n) ∧
    (tBins n).findLaunch 1 = some tLaunch ∧ (tBins n).takes 0 1 = true ∧
    (tLaunch.width ≤ (tBin 64).threads.length ∧ (tBins n).binFeeders (tBin n) 0 = false ∧
      (∀ x ∈ ((tBins n).bead 0).bins.filter (fun x => x.launch == 1 && x.rate == 3 && x.segid == 0), 2 ≤ x.bin)) ∧
    (∃ c, (tBins n).coreFor 0 tLaunch.hwLanes (tLaunch.need tLaunch.hwLanes ((((tBin n).threads.take tLaunch.width).map (·.role)).take 1)) = some c) ∧
    ∃ ts, (tBins n).readStored 0 1 ((tBin n).threads.take tLaunch.width) = some ts ∧
      ts.head? = some { pc := 0x10010, preds := [], regs := [(0, 0), (1, 5)], elem := none } := by
  have some_of (o : Option (List Thread)) (x : Thread) (h : (o.bind List.head?) = some x) : ∃ ts, o = some ts ∧ ts.head? = some x := by
    rcases o with _ | ts
    · cases h
    · exact ⟨ts, rfl, h⟩
  rcases hn with rfl | rfl <;>
    exact ⟨by unfold freshName; decide +kernel, by decide +kernel, by decide +kernel, by decide +kernel, by decide +kernel,
      coreFor_of_room _ _ _ _ (by decide +kernel), some_of _ _ (by decide +kernel)⟩

/-! ## Segments -/

/-- A launch whose rate 2 is packed GROUP, with two segment types, and a group of it with registers of that rate. -/
def tRootLaunch : Launch :=
  { tLaunch with
    regDflt := 2, segs := [tType 0, tType 2], spw := 256
    lattice := [{}, {}, { valid := true, root := true, pack := 1 }] }
def tRoot (gregs : List (Nat × Word)) : State :=
  { tState with
    launches := [tRootLaunch]
    grp := { tGroup with rate := 2, run := { tGroup.run with rate := 2 }, lgs := [{ gregs := gregs }] } }
def hR : Hdr := { rate := 2, la := 0, b := 0, i := 0, pred := 0, pneg := 0, ret := 0 }
def fSpawn : FC := { fc with d := 20, a := 22, c := 0x800, side := 1 }

theorem freeFrom_nil (k n : Nat) (h : 0 < n) : freeFrom [] k n = some (k % n) := by
  have : List.range n = 0 :: (List.range (n - 1)).map (· + 1) := by
    rw [← List.range_succ_eq_map, Nat.sub_add_cancel h]
  rw [freeFrom, this]; simp

/-- A spawn on a new condition that is not refused. -/
theorem spawned_new (u : State) (f : FC) (prob : Nat) (args : List Word) (e : Nat) (he : newEntry u = some e)
    (hr : ¬ spawnRefused u 0) : ∃ w val, SpawnedOne u f prob 0 args w val := by
  refine ⟨_, _, Or.inl rfl, Or.inr (Or.inr ⟨fun h => h.1 rfl, hr, e,
    { asid := u.grp.asid, segid := (u.ctx u.grp.asid).nextSeg, launch := u.grp.launch, die := u.grp.core / 256
      parent := u.grp.segid, cond := e, side := f.side.toNat, prob := prob, stype := f.seg.toNat, args := args
      depth := u.depth u.grp.asid u.grp.segid + 1
      root := (match u.findSeg u.grp.asid u.grp.segid with
        | some y => if u.grp.segid = 0 then u.grp.team else y.root
        | none => u.grp.team)
      above := (if u.grp.segid = 0 then [] else u.grp.segid ::
        (match u.findSeg u.grp.asid u.grp.segid with | some y => y.above | none => []))
      site := u.grp.run.pc.toNat / 16 % 256, st := .pending, held := false, version := 0, bytes := [], reads := [], passed := [] },
    he, rfl, rfl, ?_⟩)⟩
  exact ⟨rfl, rfl, rfl, rfl, rfl, rfl, rfl, rfl, rfl, rfl, rfl, rfl, rfl, rfl, rfl, rfl, rfl, rfl, rfl, rfl⟩

/-- `SpawnWords`: one logical group spawns on a new condition, whichever entry is taken; a type the image has not. -/
theorem witness_spawn :
    (tRoot []).grp.converged = true ∧ spawnForm (tRoot []) (.spawnI hR fSpawn) = some ⟨hR, fSpawn, [], fun _ => fSpawn.imm.toNat % 256⟩ ∧
    tRootLaunch.segs[fSpawn.seg.toNat]? = some (tType 0) ∧ tRootLaunch.segs[2]? = none ∧
    (tRoot []).readable hR [opX fSpawn.a 1] ∧
    ∃ v, SpawnsInTurn ⟨hR, fSpawn, [], fun _ => fSpawn.imm.toNat % 256⟩ 0 ((tRoot []).grp.execLanes (tRoot []).curLaunch hR) (tRoot []) v := by
  refine ⟨by decide +kernel, rfl, by decide, by decide, by unfold State.readable; decide +kernel, ?_⟩
  have hl : (tRoot []).grp.execLanes (tRoot []).curLaunch hR = [0] := by decide +kernel
  have hc : (tRoot []).opndWord hR fSpawn.imm 0 (opX fSpawn.a 1) 0 = 0 := by decide +kernel
  have he : newEntry (tRoot []) = some (Config.allocFrom (tRoot []).tick % 1024 % 1024) := by
    have hn : (List.range 1024).filter (fun e => ((tRoot []).cond ((tRoot []).grp.core / 256) e).live) = [] := by decide +kernel
    rw [newEntry, hn]; exact freeFrom_nil _ _ (by decide)
  have hr : ¬ spawnRefused (tRoot []) 0 := by
    simp only [spawnRefused, he]
    have : (tRoot []).segs.countP (fun x => x.die == (tRoot []).grp.core / 256 && x.st == .pending) = 0 ∧
      (tRoot []).depth (tRoot []).grp.asid (tRoot []).grp.segid + 1 < 16 ∧ ((tRoot []).ctx (tRoot []).grp.asid).nextSeg = 1 := by
      decide +kernel
    simp; omega
  rw [hl]
  obtain ⟨w, val, h⟩ := spawned_new (tRoot []) fSpawn 0 [] _ he hr
  exact ⟨_, w, val, by rw [hc]; exact h, rfl⟩

/-- A condition that is resolved to side 1: a spawn on side 0 is lost; at depth 16 a spawn is refused (R88). -/
def tLost : State := { tRoot [(22, 1029)] with conds := [(5, { live := true, resolved := some 1 })] }
theorem witness_spawn_lost : SpawnedOne tLost { fSpawn with side := 0 } 0 1029 [] tLost 1029 :=
  ⟨Or.inr (by unfold liveHandle; decide +kernel), Or.inl ⟨by decide +kernel, rfl, rfl⟩⟩
def tDeep : State :=
  { tRoot [] with
    grp := { (tRoot []).grp with segid := 5 }
    segs := [{ tSeg with depth := 15 }] }
theorem witness_spawn_refused : SpawnedOne tDeep fSpawn 0 0 [] tDeep 0x80000000 :=
  ⟨Or.inl rfl, Or.inr (Or.inl ⟨fun h => h.1 rfl, Or.inr (Or.inl (by decide +kernel)), rfl, rfl⟩)⟩

/-- `spawn` with the constant 0x40 in IMM gives a segment of that probability, type and side (R86, R87). -/
theorem test_spawn_lost :
    (match exec (.spawnI hR { fSpawn with side := 0 }) tLost with
      | .next t => decide (t.segs = [] ∧ t.grp.reg true 0 20 = 1029)
      | _ => false) = true := by decide +kernel

/-- `ResolveAndLikelihood`: a live unresolved condition; one resolved to the other side; a dead handle. -/
def tCond (r : Option Nat) : State :=
  { tRoot [(22, 1029), (24, 1)] with conds := [(5, { live := true, resolved := r, spawned := [(3, 1), (4, 0)] })] }
def fRes : FC := { fc with a := 22, b := 24 }

theorem witness_resolve :
    (tCond none).speculative (tCond none).grp = false ∧ (tCond none).grp.converged = true ∧
    (tCond none).readable hR [opX fRes.a 1, opX fRes.b 1] ∧
    ((tCond none).grp.execLanes (tCond none).curLaunch hR).map (fun l =>
        ((tCond none).opndWord hR fRes.imm l (opX fRes.a 1) 0, (tCond none).opndWord hR fRes.imm l (opX fRes.b 1) 0)) = [(1029, 1)] ∧
    liveHandle (tCond none) 1029 ∧ ¬ liveHandle (tCond none) 2053 ∧
    ((tCond none).cond ((tCond none).grp.core / 256) 5).resolved = none ∧
    (tSpec.speculative tSpec.grp = true) := by unfold State.readable liveHandle; decide +kernel
theorem witness_resolve_state : (∃ v, ResolvesInTurn [(1029, 1)] (tCond none) v) ∧ ResolvesInTurn [(1029, 1)] (tCond (some 1)) (tCond (some 1)) :=
  ⟨⟨_, _, ⟨by unfold liveHandle; decide +kernel, Or.inr ⟨by decide +kernel, rfl⟩⟩, rfl⟩,
   ⟨_, ⟨by unfold liveHandle; decide +kernel, Or.inl ⟨by decide +kernel, rfl⟩⟩, rfl⟩⟩
theorem witness_resolve_other :
    ∃ x, ((tCond (some 0)).cond ((tCond (some 0)).grp.core / 256) ((1029 : Word).toNat % 1024)).resolved = some x ∧
      x ≠ if (1 : Word) = 0 then 0 else 1 := ⟨0, by decide +kernel⟩

/-- From 0x7f a predictor entry moves to 0x8f when its side wins and to 0x6f when it loses (R94). -/
theorem test_predictor :
    (match exec (.resolve hR fRes) (tCond none) with
      | .next t => decide (SMap.get 0x7f (t.part 0).pred 3 = 0x8f ∧ SMap.get 0x7f (t.part 0).pred 4 = 0x6f)
      | _ => false) = true := by decide +kernel

/-! ## Engine words -/

/-- A table of `n` operations in progress from entry 0, and 31 reservation entries taken besides. -/
def tOps (n : Nat) (taken : Nat) (hs : SMap Handle) : State :=
  { tState with
    grp := { tGroup with lgs := [{ seq := 5, handles := hs, ops := (List.range n).map (fun e => ⟨e, 1, e, none⟩) }] }
    engOps := List.replicate taken { tOp (.mma 0 0 0 0 0 0 0 false false) with gid := none } }
def fAcc : FE := { fe with d := 8, hd := 3, a := 2, b := 4, c := 6 }

/-- `EngineWords`: a zeroing that binds its tile, with one entry and exactly the slots left; a release of a handle that is
not bound; a full table. -/
theorem witness_engine_words :
    (∃ x, engineForm (tOps 31 0 []) (.accz hL fAcc) = some x ∧
      (tOps 31 0 []).speculative (tOps 31 0 []).grp = false ∧ (tOps 31 0 []).grp.converged = true ∧
      (tOps 31 0 []).readTrap x.h.rate.toNat x.ops ((tOps 31 0 []).grp.engLanes.map (·.2)) = none ∧
      (∀ y ∈ (tOps 31 0 []).grp.engLanes, lowestEntry ((tOps 31 0 []).grp.lg y.1) ≠ none) ∧
      (tOps 31 0 []).releasing (tOps 31 0 []).grp.gid 3 = false ∧ slotsNeeded (tOps 31 0 []) (tOps 31 0 []) x = 1 ∧
      (tOps 31 0 []).slotsAvail (tOps 31 0 []).grp 1 = true ∧ (tOps 31 0 []).olderWaits (tOps 31 0 []).grp = false ∧ x.matx = 0 ∧
      ∃ v, AcceptsInTurn x (tOps 31 0 []).grp.engLanes (tOps 31 0 []) v) := by
  refine ⟨_, rfl, by decide +kernel, by decide +kernel, by decide +kernel, by decide +kernel, by decide +kernel, by decide +kernel,
    by decide +kernel, by decide +kernel, rfl, ?_⟩
  have h : (tOps 31 0 []).grp.engLanes = [(0, 0)] := by decide +kernel
  rw [h]
  exact ⟨_, _, _, ⟨by intro x hx; exact absurd hx (by simp [tOps, Group.lg, SMap.find]), rfl, rfl⟩, rfl⟩

theorem witness_engine_release : ∃ x v, engineForm (tOps 0 0 []) (.accrel hL fAcc) = some x ∧
    AcceptsInTurn x [(0, 0)] (tOps 0 0 []) v := ⟨_, _, rfl, _, _, ⟨rfl, rfl⟩, rfl⟩

theorem witness_engine_full :
    (∃ y ∈ (tOps 32 0 []).grp.engLanes, lowestEntry ((tOps 32 0 []).grp.lg y.1) = none) ∧
    (∀ y ∈ (tOps 32 0 []).grp.engLanes, ((tOps 32 0 []).grp.lg y.1).ops.any (·.err.isNone) = true) ∧
    (tOps 1 31 []).reserved (tOps 1 31 []).grp.bead + (tOps 1 31 []).grp.engLanes.length ≤ 32 ∧
    tSpec.speculative tSpec.grp = true := by decide +kernel

/-- A network word in a speculative segment waits until commit (R293). -/
theorem witness_engine_waits : ∃ x, engineForm tSpec (.nsig hL fAcc) = some x ∧ x.waits = true := ⟨_, rfl, rfl⟩

/-- `EngineCompletes`: operands that fit every engine word. A descriptor of one dimension at 0x1000, the peer table at 0x2000
with entry 0 configured, a block of zeros at 0, handle 3 bound to an f32 tile, lines of 8 elements. -/
def tFit : State :=
  { withRegs tMem [(6, 0x1000, 0x1000), (20, 8, 8)] with
    grp := { (withRegs tMem [(6, 0x1000, 0x1000), (20, 8, 8)]).grp with lgs := [{ handles := [(3, { kind := .f32, slots := [0] })] }] }
    ctxs := [(1, { asid := 1, part := 0, acap := 64, lcap := 100, gcap := 100, peerptr := 0x2000 })]
    mem := [(0x1000, 0x21), (0x2000, 1)] }

theorem witness_engine_completes :
    tFit.chain 1 16 0 = [] ∧ tFit.grp.converged = true ∧ Memory.wf tFit.mem = true ∧ nothingBuffered tFit ∧ L1Current tFit 0 ∧
    tFit.grp.engLanes = [(0, 0)] ∧ lowestEntry (tFit.grp.lg 0) ≠ none ∧ tFit.releasing 1 3 = false ∧ tFit.reserved 0 + 1 ≤ 32 ∧
    [Instr.tcopy hL fAcc, .chain hL fAcc, .mma hL fAcc, .accld hL fAcc, .accst hL fAcc, .accz hL fAcc, .accrel hL fAcc,
      .nput hL fAcc, .nget hL fAcc, .nsig hL fAcc, .tpost hL fAcc].all (fun i => (engineForm tFit i).any (fun x =>
        tFit.readTrap x.h.rate.toNat x.ops [0] == none && decide (slotsNeeded tFit tFit x = 0))) = true :=
  ⟨by decide +kernel, by decide +kernel, by decide +kernel, by unfold nothingBuffered; decide +kernel,
   by unfold L1Current; decide +kernel, by decide +kernel, by decide +kernel, by decide +kernel, by decide +kernel, by decide +kernel⟩

theorem tFit_peer : PeerFit tFit fAcc :=
  ⟨0x2000, held_bead tFit .read 0x2000 32 (by decide +kernel) (by decide), fun _ _ => rfl, by decide +kernel⟩

theorem witness_engine_fit :
    EngineFit tFit 0 0 (.tcopy hL fAcc) ∧ EngineFit tFit 0 0 (.chain hL fAcc) ∧ EngineFit tFit 0 0 (.mma hL { fAcc with c := 20 }) ∧
    EngineFit tFit 0 0 (.accld hL fAcc) ∧ EngineFit tFit 0 0 (.accst hL { fAcc with hs := 3 }) ∧ EngineFit tFit 0 0 (.accz hL fAcc) ∧
    EngineFit tFit 0 0 (.accrel hL fAcc) ∧ EngineFit tFit 0 0 (.nput hL fAcc) ∧ EngineFit tFit 0 0 (.nget hL fAcc) ∧
    EngineFit tFit 0 0 (.nsig hL fAcc) ∧ EngineFit tFit 0 0 (.tpost hL fAcc) := by
  have kind : kindIs tFit 0 3 .f32 := fun x hx => by
    have : SMap.find (tFit.grp.lg 0).handles 3 = some { kind := .f32, slots := [0] } := by decide +kernel
    rw [this] at hx; cases hx; rfl
  have core : tFit.boot = { chans := 1 } ∧ (tFit.ctx 1).part = 0 ∧ (tFit.core tFit.grp.core).tlb = [tEntry] ∧ tFit.grp.asid = 1 ∧
    tFit.poison = [] := by decide +kernel
  have desc := held_lanes tFit .read 256 (fun _ => 0x1000) [0] core (by decide) 0 (by simp)
  have block : HeldIn tFit (tFit.bead tFit.grp.bead).tlb2 1 .atomic 0 256 0 := held_bead tFit .atomic 0 256 (by decide +kernel) (by decide)
  have c : tFit.opnd hL fAcc.imm .i64 0 (opX fAcc.c 2) = 0x1000 := by decide +kernel
  have a : tFit.opnd hL fAcc.imm .i64 0 (opX fAcc.a 2) = 0 := by decide +kernel
  refine ⟨⟨by decide +kernel, 0x1000, by rw [c]; exact desc.1, desc.2, by decide +kernel⟩, by unfold EngineFit; decide +kernel,
    ⟨by decide +kernel, kind, by decide +kernel⟩, kind, ⟨_, rfl, by decide +kernel⟩, kind, trivial, tFit_peer, tFit_peer,
    ⟨tFit_peer, by decide +kernel⟩, by decide +kernel, by decide +kernel, nofun, 0, by rw [a]; exact block, fun _ _ => rfl, by decide +kernel⟩

/-- `EngineWait`: an operation in progress waited for by token and by 0; another's token; one in error. -/
def tErr : State :=
  { tState with grp := { tGroup with lgs := [{ ops := [⟨2, 3, 7, some (4, 0x1000)⟩, ⟨5, 4, 8, some (2, 0)⟩] }] } }

theorem witness_ewait :
    (tOps 1 0 []).grp.engLanes = [(0, 0)] ∧
    waitedFor ((tOps 1 0 []).grp.lg 0) 33 = [] ∧ (waitedFor ((tOps 1 0 []).grp.lg 0) 32).length = 1 ∧
    (waitedFor ((tOps 1 0 []).grp.lg 0) 0).all (·.err.isNone) = true ∧
    (tOps 1 0 []).readTrap hL.rate.toNat [opX fAcc.a 1] ((tOps 1 0 []).grp.engLanes.map (·.2)) = none ∧
    tErr.grp.engLanes.find? (fun y => (waitedFor (tErr.grp.lg y.1) 0).any (·.err.isSome)) = some (0, 0) ∧
    (⟨2, 3, 7, some (4, 0x1000)⟩ : OpEnt) ∈ waitedFor (tErr.grp.lg 0) 0 ∧
    (∀ o' ∈ waitedFor (tErr.grp.lg 0) 0, o'.err.isSome = true → 2 ≤ o'.entry) ∧
    (∀ o' ∈ waitedFor (tErr.grp.lg 0) 0, o'.entry = 2 → o' = ⟨2, 3, 7, some (4, 0x1000)⟩) := by decide +kernel

/-- The token of entry 1 with SEQ 5 is 1 + 32 × 5 (R276). -/
theorem test_token : regAfter (exec (.accz hL fAcc) (tOps 1 0 [(3, { kind := .f32, slots := [0] })])) 0 8 = some 161 := by decide +kernel
/-- The engine-fault trap of entry 2 with KIND 4 at 0x1000 (R279). -/
theorem test_ewait_trap : causeAfter (exec (.ewait hL fAcc) tErr) = some (4, 0x1000024) := by decide +kernel

/-! ## Issue of runs, and the ends of waits -/

/-- A group at `iadd v8, v2, v4`, the word in memory at 0x10000, in context 1's code; ready, running or waiting. -/
def tWord : Inst := (encode (.iadd .w32 hL { f3 with sc := 0 })).getD 0
def tIssue (w : Wait) (on : Bool) : State :=
  { tMem with
    grp := { tGroup with run := { tGroup.run with on := on, count := 0 }, wait := w }
    mem := ((List.range 16).map (fun i => (0x10000 + i, BitVec.ofNat 8 (natAt tWord (8 * i) 8)))).filter (fun x => x.2 != 0) }

/-- `StepRunsDecodedWord`: the word is fetched, decoded and rejected by nothing. -/
theorem witness_step_runs :
    (tIssue .ready true).agenda = [] ∧ (tIssue .ready true).issues (tIssue .ready true).grp = true ∧
    (tIssue .ready true).fetch.1 = .word tWord ∧ decodeWord tWord = .ok (.iadd .w32 hL { f3 with sc := 0 }) ∧
    allRejects (tIssue .ready true).fetch.2.legalCtx tWord = [] ∧ natAt tWord 16 1 = 0 ∧
    (tIssue .ready true).fetch.2.grp.windows = [] := by decide +kernel

/-- `RunsIssue`: ready with the word at hand, without it, and after the fetch; the balancer's choice of a younger group. -/
def tHand : State := { tIssue .ready false with
  cores := [(0, { tlb := [tEntry], l0 := [{ asid := 1, va := 0x10000, pa := 0x10000, tgen := 0, word := tWord, ovl := none }] })] }
def tYoung : State :=
  { tHand with groups := [{ tGroup with gid := 2, run := { tGroup.run with on := false }, readySince := 5 }], nextId := 9 }

theorem witness_runs_issue :
    tHand.coreIssues 0 = true ∧ tHand.portsUsed 0 + tHand.grp.hw / 64 ≤ 2 ∧ tHand.findGroup 1 = some tHand.grp ∧
    tHand.grp ∈ (tHand.onCore 0).filter tHand.readyToIssue ∧ oldestReady ((tHand.onCore 0).filter tHand.readyToIssue) = some tHand.grp ∧
    ((tHand.focusOn 1).setGrp tHand.grp.beginRun).wordAtHand = true ∧
    tHand.grp.elems.all (fun x => !(x.2.idxBad || x.2.idxWait.isSome)) = true ∧
    oldestReady (((tIssue .ready false).onCore 0).filter (tIssue .ready false).readyToIssue) = some (tIssue .ready false).grp ∧
    (((tIssue .ready false).focusOn 1).setGrp (tIssue .ready false).grp.beginRun).wordAtHand = false := by decide +kernel
/-- The rest of a cut run, at 0x10020 with two words done: its lanes stand there, or one of them has moved. -/
theorem witness_run_rest :
    let r : Run := { tGroup.run with on := false, pc := 0x10020, count := 2 }
    let g (p : Dword) := { tHand.grp with rest := some r, div := { tHand.grp.div with pcs := [(0, 0x10020), (1, p)] } }
    (g 0x10020).restStands r = true ∧ (g 0x10030).restStands r = false := by decide +kernel
theorem witness_code_fetch :
    (tIssue .code false).findGroup 1 = some (tIssue .code false).grp ∧ (tIssue .code false).grp.wait = .code ∧
    (((tIssue .code false).focusOn 1).setGrp
      ({ (tIssue .code false).grp with wait := .ready, readySince := (tIssue .code false).timer.toNat } : Group).beginRun).fetch.1
      = .word tWord := by decide +kernel

/-- The balancer may prefer a younger group whose class another core of the rod issued, while none has been passed 63 times. -/
def tPrefer : State := { tYoung with cores := tYoung.cores ++ [(4, { lastBal := some 0 })] }
theorem witness_prefer :
    ((tPrefer.onCore 0).filter tPrefer.readyToIssue).find? (fun x => x.gid == 2) = some { tGroup with gid := 2, run := { tGroup.run with on := false }, readySince := 5 } ∧
    tPrefer.mayPrefer ((tPrefer.onCore 0).filter tPrefer.readyToIssue)
      { tGroup with gid := 2, run := { tGroup.run with on := false }, readySince := 5 } = true ∧
    tPrefer.findGroup 2 = some { tGroup with gid := 2, run := { tGroup.run with on := false }, readySince := 5 } := by decide +kernel

/-- `WaitsEnd`: a group that waits, `upd` of the test state. -/
def tWait (w : Wait) (run : Bool) : Group := { tGroup with wait := w, run := { tGroup.run with on := run } }
def tWaits (w : Wait) : State := { tMem with grp := tWait w false, timer := 70000 }

theorem witness_split_waits :
    (tWaits (.split .commit)).findGroup 1 = some (tWait (.split .commit) false) ∧
    splitCleared (tWaits (.split .commit)) (tWait (.split .commit) false) .commit = true ∧
    splitCleared (tWaits (.split (.buffer 64))) (tWait (.split (.buffer 64)) false) (.buffer 64) = true ∧
    splitCleared (tWaits (.split .table)) (tWait (.split .table) false) .table = true ∧
    splitCleared (tWaits (.split (.matrix 32))) (tWait (.split (.matrix 32)) false) (.matrix 32) = true ∧
    splitCleared (tWaits (.split (.handle 3))) (tWait (.split (.handle 3)) false) (.handle 3) = true ∧
    splitCleared (tWaits (.split (.paths [0] 0x3f))) (tWait (.split (.paths [0] 0x3f)) false) (.paths [0] 0x3f) = true ∧
    (tWaits (.slots 2 3)).slotsAvail (tWait (.slots 2 3) false) 2 = true ∧
    (tWaits (.slots 2 3)).speculative (tWait (.slots 2 3) false) = false ∧
    (tWaits (.slots 2 3)).olderWaits (tWait (.slots 2 3) false) = false ∧
    ((tWaits (.slots 2 3)).bead 0).exhFrom = none := by decide +kernel

/-- A speculative group waits for slots that are free, and no non-speculative one does. -/
theorem witness_slots_speculative :
    let s := { tSpec with grp := { tSpec.grp with wait := .slots 2 3 } }
    s.findGroup 1 = some s.grp ∧ s.speculative s.grp = true ∧ s.slotsAvail s.grp 2 = true ∧ s.slotWaiters s.grp = [] := by decide +kernel

/-- A monitor with its sets empty or triggered, and one that is due and has neither; a parked group; a due timer. -/
theorem witness_other_waits :
    let due : List MonDue := [{ lg := 1, at_ := 69000, timeout := 8 }, { lg := 0, at_ := 70000, timeout := 9 }]
    let s := { tWaits (.monitor [0, 1] due) with
      grp := { tWait (.monitor [0, 1] due) false with lgs := [{ monSet := [4] }, { monSet := [5], monTrig := true }] } }
    (s.findGroup 1 = some s.grp ∧
      due.find? (fun d : MonDue => decide (d.at_ ≤ s.timer.toNat) && !((s.grp.lg d.lg).monTrig || (s.grp.lg d.lg).monSet.isEmpty))
        = some { lg := 0, at_ := 70000, timeout := 9 }) ∧
    [0].all (fun j => ((tWait (.monitor [0] []) false).lg j).monTrig || ((tWait (.monitor [0] []) false).lg j).monSet.isEmpty) = true ∧
    (tWaits (.park 5 true)).findGroup 1 = some (tWait (.park 5 true) false) ∧
    (let g := { tWait .ready false with tcmp := 70000 }
      let t := { tWaits .ready with grp := g }
      t.findGroup 1 = some g ∧ g.tcmp ≠ 0 ∧ g.tcmp.toNat ≤ t.timer.toNat ∧ g.trapcause.getLsbD 31 = false ∧ g.takesTimer = true ∧ g.div.live ≠ 0 ∧ t.teamHolds g = false) := by
  decide +kernel

/-- Slots that a group has waited for since 4,464, 65,536 cycles ago. -/
def tExh : State := { tWaits (.slots 2 3) with
  grp := { tWait (.slots 2 3) false with slotSince := some 4464 }
  beads := [(0, { occ := some 1, exhFrom := some 4464 })] }
theorem witness_exhaustion :
    tExh.findGroup 1 = some tExh.grp ∧ tExh.speculative tExh.grp = false ∧ (tExh.bead 0).exhFrom = some 4464 ∧
    4464 + 65536 ≤ tExh.timer.toNat ∧ (∀ x ∈ tExh.onBead 0, tExh.speculative x = true → x.slotSince = none) ∧
    oldestWaiter ((tExh.onBead 0).filter (fun x => (match x.wait with | .slots _ _ => true | _ => false) && !tExh.speculative x))
      = some tExh.grp := by decide +kernel

/-- The exhaustion trap names the handle and the bead (R131). -/
theorem test_exhaustion :
    causeAfter (exec (.accumulatorExhaustion 0) tExh) = some (0x13, 3) := by decide +kernel

/-! ## The quire, fan-out, dispatch -/

/-- A launch of two rates: root 0, and rate 1, of fan-out COUNT with count register 4, packed LANE, with code at word 0. -/
def tTwoRates : Launch :=
  { tLaunch with
    lattice := [{ valid := true, root := true, pack := 2 },
                { valid := true, parent := 0, fanout := 1, pack := 2, place := true, countreg := 4 }]
    regDflt := 0, sect := [0xffffff, 1, 0xffffff, 0xffffff, 0xffffff, 0xffffff, 0xffffff, 0xffffff]
    codebase := 0x10000, cmd := 0x100 }
def tRec (n : Nat) : QRec :=
  { off := 0, parent := none, spilled := false, spoff := 0, rate := 0, handle := 0, refcnt := 1, links := []
    words := List.replicate n 7, asid := 1, age := 1, orig := none }
def tReq (n : Nat) : QReq := { gid := 1, lane := 0, record := { tRec n with handle := 77 }, copy := false }
def tEnded : Elem := { present := true, rate := 0, handle := 77, stalled := true }
/-- A bead with two units of quire, `held` records, and a stalled request of lane 0's element. -/
def tQuire (held : List QRec) (n : Nat) : State :=
  { tMem with
    launches := [tTwoRates], nextId := 9, timer := 65536
    grp := { tGroup with wait := .quire, rate := 0, run := { tGroup.run with on := false }, elems := [(0, tEnded)], div := { tGroup.div with live := 2 } }
    ctxs := [(1, { asid := 1, part := 0, acap := 64, lcap := 100, gcap := 100, qcap := 32, spillbase := 0x4000, spillsize := 64 })]
    beads := [(0, { occ := some 1, tlb2 := [tEntry], quire := held, reqs := [tReq n], spillFrom := some 0 })] }

theorem witness_quire_grant :
    ((tQuire [] 4).bead 0).reqs = [tReq 4] ∧
    fitsOn (tQuire [] 4) 0 (tReq 4) ∧ (tReq 4).copy = false ∧ (tQuire [] 4).grp.run.on = false ∧ (tReq 4).lane < 128 ∧
    (tQuire [] 4).findGroup 1 = some (tQuire [] 4).grp ∧ (tQuire [] 4).grp.elems.find? (fun x => x.1 == 0) = some (0, tEnded) ∧
    ((tQuire [] 4).launchOf (tQuire [] 4).grp).childRates 0 = [1] ∧ (tQuire [] 4).grp.div.live ≠ 0 := by
  unfold fitsOn; decide +kernel

theorem witness_spill :
    let s := tQuire [tRec 4] 0
    (s.bead 0).spillFrom = some 0 ∧ 0 + 65536 ≤ s.timer.toNat ∧ (s.bead 0).victim = some (tRec 4) ∧
    ¬ fitsOn s 0 (tReq 0) ∧
    (match s.spillVictim 0 (tRec 4) with
      | .done s1 => decide ((s1.bead 0).place (unitsOf 0) + unitsOf 0 ≤ s1.quireCap 1 ∧ ((s1.grantFirst 0 (tReq 0)).bead 0).reqs = [])
      | _ => false) = true ∧
    Memory.wf s.mem = true ∧
    (match s.translateRange none 0 1 .write (0x4000 + 0 * 64 + 16 * 0) 16 with
      | (.ok pas, _) => decide (pas.Nodup)
      | _ => false) = true := by unfold fitsOn; decide +kernel

/-- Words go to the spill area with the lowest byte first, and the record's header stays (R327). -/
theorem test_spill :
    (match exec (.spillTimerExpiry 0) (tQuire [tRec 4] 0) with
      | .next t => decide ((List.range 5).map (fun i => t.byte (0x4000 + i)) = [7, 0, 0, 0, 7] ∧
          (t.bead 0).quire.map (fun r => (r.spilled, r.off)) = [(true, 0), (false, 1)])
      | _ => false) = true := by decide +kernel

/-- `FanOutClaim`: an ended element with count register 3; and one without children. -/
def tParent (n : Word) : Parent :=
  { pid := 5, launch := 1, asid := 1, bead := 0, elem := { present := true, rate := 0 }, record := none
    regs := [(4, n)].filter (fun x => x.2 != 0), todo := [1], kids := [], made := [], vrecs := [] }
def tFan (n : Word) : State := { tQuire [] 0 with parents := [tParent n] }

theorem witness_fan_out :
    (tFan 3).findParent 5 = some (tParent 3) ∧ (tFan 3).findLaunch 1 = some tTwoRates ∧ (tParent 3).bead < 128 ∧
    (tParent 3).todo.find? (fun k => (tTwoRates.lat k).fanout == 0 || (tParent 3).ready tTwoRates k) = some 1 ∧
    (tTwoRates.lat 1).fanout = 1 ∧ 1 = tTwoRates.placed ∧ (tTwoRates.section? 1).isSome = true := by decide +kernel

/-- Three children with indices 0 to 2 wait, and none of a count of 0 (R12). -/
theorem test_fan_out :
    (match exec (.fanOut 5) (tFan 3) with
      | .next t => decide (t.pool.map (fun w => (w.elem.rate, w.elem.index, w.bead)) = [(1, 0, none), (1, 1, none), (1, 2, none)])
      | _ => false) = true ∧
    (match exec (.fanOut 5) (tFan 0) with
      | .next t => t.pool.isEmpty
      | _ => false) = true := by decide +kernel

/-- `GroupDispatchClaim`: two elements that wait on bead 0, no more coming; the first since 256 cycles. -/
def tWaiting (i : Nat) : Waiting :=
  { launch := 1, asid := 1, bead := some 0, elem := { present := true, rate := 1, index := i }, regs := [], since := 65280 }
def tPool (bead : Option Nat) : State :=
  { tPlace with
    launches := [tTwoRates], timer := 65536
    pool := [{ tWaiting 0 with bead := bead }, { tWaiting 1 with bead := bead }] }

theorem witness_group_dispatch :
    (tPool (some 0)).waitingFor 0 1 1 = [tWaiting 0, tWaiting 1] ∧ tTwoRates.section? 1 = some 0x10100 ∧
    (tPool (some 0)).takes 0 1 = true ∧ (tPool (some 0)).moreComing 1 1 (tWaiting 0).elem = false ∧ 65280 + 256 ≤ (tPool (some 0)).timer.toNat ∧
    (∀ x ∈ (tTwoRates.fillOf 1 [tWaiting 0, tWaiting 1]).flatten, (x.elem.present || x.elem.helper) = true ∧ x.elem.bring = none) ∧
    ∃ c, (tPool (some 0)).coreFor 0 tTwoRates.hwLanes (tTwoRates.need tTwoRates.hwLanes
      ((tTwoRates.fillOf 1 [tWaiting 0, tWaiting 1]).map (fun _ => 0))) = some c :=
  ⟨by decide +kernel, by decide +kernel, by decide +kernel, by decide +kernel, by decide +kernel, by decide +kernel,
    coreFor_of_room _ _ _ _ (by decide +kernel)⟩

/-! ## Placement, segments, engines -/

/-- A compute launch of two teams whose root element has ended, on a free bead of its context. -/
def tCompute : Launch :=
  { tLaunch with
    teams := 2, spw := 256, cmd := 0x100
    lattice := [{ valid := true, root := true, pack := 2 }, { valid := true, parent := 0, fanout := 0, pack := 0 },
                { valid := true, parent := 1, fanout := 0, pack := 1 }, { valid := true, parent := 2, fanout := 0, pack := 2 }]
    sect := [0xffffff, 0xffffff, 1, 1, 0xffffff, 0xffffff, 0xffffff, 0xffffff], codebase := 0x10000 }
def tRootP : Parent := { tParent 0 with todo := [1], elem := { present := true, rate := 0, team := 0 } }
def tUnits (l : Launch) : State :=
  { tPlace with
    grp := { tGroup with gid := 0 }
    launches := [l], parents := [tRootP], teams := []
    ctxs := [(1, { asid := 1, part := 0, acap := 64, lcap := 100, gcap := 100, spq := 1 })] }

def tBegun : Launch := { tCompute with begun := some 0 }
def tAgain : Launch := { tBegun with again := [1], nextTeam := 2 }
theorem witness_units :
    ((tUnits tCompute).findLaunch 1 = some tCompute ∧ ((tUnits tCompute).ctx 1).suspended = false ∧
      ((tUnits tCompute).cursorBeads tCompute).find? (fun b => (tUnits tCompute).takes b 1) = some 0) ∧
    (tBegun.teamRate = some 1 ∧ (tUnits tBegun).rootParent tBegun = some tRootP ∧ tBegun.again = [] ∧ tBegun.nextTeam < tBegun.teams ∧
      ((tUnits tBegun).cursorBeads tBegun).find? (fun b => (tUnits tBegun).mayPlace tBegun b
        && (tUnits tBegun).roomForGang tBegun b tBegun.spw (tBegun.gang tBegun.rootRoles)) = some 0) ∧
    (tAgain.again.head? = some 1 ∧ ((tUnits tAgain).cursorBeads tAgain).find? (fun b => (tUnits tAgain).mayPlace tAgain b
        && (tUnits tAgain).roomForGang tAgain b tAgain.spw (tAgain.gang tAgain.rootRoles)) = some 0) := by decide +kernel

/-- The first dealt element of a graphics launch goes to bead 0, whichever core has room. -/
def tDealt : Launch := { tTwoRates with begun := some 0, nextTeam := 1 }
theorem witness_dealt :
    (({ tPool none with launches := [tDealt] } : State).pool.find? (fun w => w.launch == 1 && w.bead.isNone)) =
      some { tWaiting 0 with bead := none } ∧ tDealt.teams ≤ tDealt.nextTeam ∧ (tDealt.section? 1).isSome = true ∧
    ({ tPool none with launches := [tDealt] } : State).mayPlace tDealt 0 = true ∧
    (({ tPool none with launches := [tDealt] } : State).cursorBeads tDealt) = [0] ∧
    ∃ c, ({ tPool none with launches := [tDealt] } : State).coreFor 0 tDealt.hwLanes (tDealt.need tDealt.hwLanes [0]) = some c :=
  ⟨by decide +kernel, by decide +kernel, by decide +kernel, by decide +kernel, by decide +kernel, coreFor_of_room _ _ _ _ (by decide +kernel)⟩

/-- A rate packed QUAD is dealt with the other three of its block. -/
theorem witness_dealt_quad :
    let l := { tDealt with lattice := [{ valid := true, root := true, pack := 2 },
                { valid := true, parent := 0, fanout := 1, pack := 4, place := true, countreg := 4 }] }
    let s : State := { tPool none with launches := [l], pool := (List.range 5).map (fun i => { tWaiting i with bead := none }) }
    s.pool.find? (fun w => w.launch == 1 && w.bead.isNone) = some { tWaiting 0 with bead := none } ∧ (l.lat 1).pack = 4 ∧
    (s.pool.filter (fun x => x.launch == 1 && x.bead.isNone)).take 4 = (List.range 4).map (fun i => { tWaiting i with bead := none }) ∧
    (l.section? 1).isSome = true ∧ s.mayPlace l 0 = true ∧ s.cursorBeads l = [0] := by decide +kernel

/-- `SegmentsRunClaim`: a pending segment that a free bead chooses; one passed over 64 times; one that may commit. -/
def tPend (k : Nat) : Seg := { tSeg with st := .pending, version := 0, passed := [(0, k)].filter (fun x => x.2 != 0) }
def tTaking (x : Seg) : State :=
  { tPlace with
    cores := [(0, { spq := 1 })]
    launches := [{ tLaunch with segs := [tType 0] }], segs := [x], conds := [(1, { live := true, asid := 1, launch := 1, resolved := some 1 })]
    ctxs := [(1, { asid := 1, part := 0, acap := 64, lcap := 100, gcap := 100, spq := 1 })] }

theorem tTaking_versions :
    ((tTaking (tPend 63)).segs.filter (fun y => y.die == 0 && y.version != 0)).map (fun y => y.version - 1) = [] := by decide +kernel
theorem witness_segments :
    ((tTaking (tPend 63)).bead 0).occ = some 1 ∧ (tTaking (tPend 63)).takes 0 1 = true ∧ (tTaking (tPend 63)).passDue 0 1 = [] ∧
    (tTaking (tPend 63)).segChoice 0 1 = some (tPend 63) ∧ (tTaking (tPend 63)).findSeg 1 5 = some (tPend 63) ∧
    (tTaking (tPend 63)).findLaunch 1 = some { tLaunch with segs := [tType 0] } ∧
    ((tTaking (tPend 63)).cursorBeads { tLaunch with segs := [tType 0] }).find?
      (fun c => c / 64 == (tPend 63).die && (tTaking (tPend 63)).offers c (tPend 63)) = some 0 ∧
    (∃ v, freeFrom (((tTaking (tPend 63)).segs.filter (fun y => y.die == 0 && y.version != 0)).map (fun y => y.version - 1))
      (Config.allocFrom (tTaking (tPend 63)).tick % 2047) 2047 = some v) ∧
    (tTaking (tPend 64)).passDue 0 1 ≠ [] ∧
    ((tTaking tSeg).findSeg 1 5 = some tSeg ∧ (tTaking tSeg).confirmed tSeg = true ∧ (tTaking tSeg).commitViolates tSeg = [] ∧
      (∀ y ∈ (tTaking tSeg).segs, y.asid = 1 → 5 ≤ y.segid) ∧ Memory.wf (tTaking tSeg).mem = true) :=
  ⟨by decide +kernel, by decide +kernel, by decide +kernel, by decide +kernel, by decide +kernel, by decide +kernel, by decide +kernel,
   ⟨_, tTaking_versions ▸ freeFrom_nil _ _ (by decide)⟩, by decide +kernel, by decide +kernel⟩

/-- A committed segment whose team was flushed is chosen again. -/
theorem witness_segment_again :
    let x := { tPend 0 with st := .again }
    (tTaking x).passDue 0 1 = [] ∧ (tTaking x).segChoice 0 1 = some x ∧ (tTaking x).findSeg 1 5 = some x ∧
    ((tTaking x).cursorBeads { tLaunch with segs := [tType 0] }).find? (fun c => c / 64 == x.die && (tTaking x).offers c x) = some 0 := by
  decide +kernel

/-- A commit makes the version's bytes memory's (R97). -/
theorem test_commit :
    (match exec (.segmentCommit 1 5) (tTaking { tSeg with bytes := [(0x100, 9)] }) with
      | .next t => decide (t.byte 0x100 = 9 ∧ t.segs.map (·.st) = [.committed 1])
      | _ => false) = true := by decide +kernel

/-- A state with one operation of group 1 in progress, entry 0 of its table, with handle 3 bound. -/
def tEng (k : OpKind) (kind : HKind) : State :=
  { tMem with
    grp := { tGroup with wait := .engine, lgs := [{ ops := [⟨0, 1, 7, none⟩], handles := [(3, { kind := kind, slots := if kind = .f64 then [0, 1] else [0] })] }] }
    mem := [(0x40, 5), (0x41, 6)], engOps := [tOp k]
    launches := [{ tLaunch with slots := [0, 0x41, 0x148, 8, 0, 0, 0, 0] }] }
def tYes : PeerReply := { ok := true, data := [1, 2] }
def tDesc : CopyDesc := { esz := 1, srcsp := false, dstsp := false, dims := [(4, 2, 4)] }

/-- `EngineEffectsClaim`: element 0 from 0x40 to 0x100; tiles of each kind; a release; the local side of network operations. -/
theorem witness_engine_effects :
    Memory.wf (tEng .join .f32).mem = true ∧ (tEng .join .f32).chain 1 16 0 = [] ∧
    ((tEng .join .f32).translateRange none 0 1 .read (tDesc.addr true 0x40 0) 2).1.toOption = some [0x40, 0x41] ∧
    [0x40, 0x41].all (fun x => !(tEng .join .f32).poison.contains (x / 64)) = true ∧
    ((tEng .join .f32).translateRange none 0 1 .write (tDesc.addr false 0x100 0) 2).1.toOption = some [0x100, 0x101] ∧
    ((tEng (.accz 3) .f64).opHandle (tOp (.accz 3)) 3).slots.length = 2 ∧
    ((tEng (.accz 3) .i32).opHandle (tOp (.accz 3)) 3).slots.length = 1 ∧
    (tEng (.accrel 3) .f32).findGroup 1 = some (tEng (.accrel 3) .f32).grp ∧
    ((tEng .join .f32).engineRead 0 1 0 0x40 2).1 = .ok [5, 6] ∧
    ((tEng .join .f32).engineWrite 0 1 0 0x40 [1, 2]).1 = .ok () := by decide +kernel

/-- `EngineOperationsEndClaim`: a zeroing that is done, a signal refused, a load that meets no translation. -/
theorem witness_engine_end :
    (tEng (.accz 3) .f32).findOp 7 = some (tOp (.accz 3)) ∧ (tOp (.accz 3)).block = none ∧
    (tEng (.accz 3) .f32).mayRun (tOp (.accz 3)) = true ∧
    ((tEng (.accz 3) .f32).runOp (tOp (.accz 3)) tYes).2.2 = .done ∧
    ((tEng (.nsig 8 1 { addr := 0, job := 0, ports := 0 }) .f32).runOp (tOp (.nsig 8 1 { addr := 0, job := 0, ports := 0 })) { ok := false, data := [] }).2.2 = .error 2 8 ∧
    (match ((tEng (.accld 3 0x200000 256 0) .f32).runOp (tOp (.accld 3 0x200000 256 0)) tYes).2.2 with
      | .pause f => f.va == 0x200000
      | _ => false) = true ∧
    (((tEng (.accz 3) .f32).runOp (tOp (.accz 3)) tYes).1.findGroup 1).map (·.wait) = some .engine := by decide +kernel

/-- A store in a speculative segment that no way is left for waits for the commit (R100). -/
theorem witness_engine_commit :
    let o := { tOp (.accst 3 0x100 256 0) with segid := 5 }
    let s : State := { tEng (.accst 3 0x100 256 0) .f32 with
      grp := { (tEng .join .f32).grp with segid := 5 }, engOps := [o], conds := tSpec.conds, segs := [tSeg] }
    s.findOp 7 = some o ∧ s.mayRun o = true ∧ (s.runOp o tYes).2.2 = .commit := by decide +kernel

/-- Element 1 of a copy of 2-byte elements, strides 2 and 4: from 0x42 to 0x104 (R282). -/
theorem test_copy_addresses : tDesc.addr true 0x40 1 = 0x42 ∧ tDesc.addr false 0x100 1 = 0x104 ∧ tDesc.count = 4 := by decide +kernel

/-- `MatrixPasses`: a request of two passes of integer format 8 that has had none. -/
def tMat : EngOp := tOp (.mma 3 0 64 129 8 8 3 false true)
theorem witness_matrix :
    let s := { tEng .join .i32 with engOps := [tMat] }
    (s.rod 0).clamp = none ∧ (s.bead 0).out = false ∧ s.matrixChoice 0 = some tMat ∧ slotFmt (s.slotOf 1 3) = 8 ∧
    (s.opHandle tMat 3).kind = .i32 ∧ (s.opHandle tMat 3).slots.length = 1 := by decide +kernel

/-- The same on a poisoned slot, which a pass adds to, and one that `mma.set` writes first. -/
theorem witness_matrix_poison :
    let s (set : Bool) : State := { tEng .join .i32 with engOps := [tOp (.mma 3 0 64 129 8 8 3 false set)]
                                                         beads := [(0, { occ := some 1, tlb2 := [tEntry], accPoison := [0] })] }
    (s false).matrixChoice 0 = some (tOp (.mma 3 0 64 129 8 8 3 false false)) ∧
    (∃ x ∈ ((s false).opHandle (tOp (.mma 3 0 64 129 8 8 3 false false)) 3).slots, x ∈ ((s false).bead 0).accPoison) ∧
    (s true).matrixChoice 0 = some tMat := by decide +kernel

/-- `NodesAndLaunchesEnd`: a join at 0x400 with control word 8 (POSTED) and no successors; one to fail; a block that waits for
one more; a launch of which nothing is left; a migrated launch. -/
def tNode (b : Nat) : EngOp := { tOp .join with gid := none, block := some (BitVec.ofNat 64 b) }
def tGraph (pred : Byte) : State :=
  { tMem with
    mem := [(0x400, pred), (0x404, 0x08 ||| 6)].filter (fun x => x.2 != 0), engOps := [tNode 0x400]
    grp := { tGroup with launch := 2 }, teams := [] }

theorem witness_nodes :
    (tGraph 0).findOp 7 = some (tNode 0x400) ∧ (tGraph 0).mayRun (tNode 0x400) = true ∧ (tNode 0x400).bad = none ∧
    ((tGraph 0).runOp (tNode 0x400) tYes).2.2 = .done ∧
    ((tGraph 0).runOp { tNode 0x400 with kind := .nsig 8 1 { addr := 0, job := 0, ports := 0 } } { ok := false, data := [] }).2.2 = .error 2 8 ∧
    Memory.wf (tGraph 0).mem = true ∧ Memory.wf ((tGraph 0).runOp (tNode 0x400) tYes).1.mem = true ∧
    (((tGraph 0).runOp (tNode 0x400) tYes).1.blockPas 0 1 0x400 8).toOption = some ((List.range 8).map (0x400 + ·)) ∧
    ofLe (((List.range 8).map (0x400 + ·)).map (tGraph 0).byte) = 0xe00000000 := by decide +kernel

/-- A block whose control word can be written and the rest of it not be read, at the end of the page. -/
theorem witness_node_pauses :
    let s : State := { tGraph 0 with mem := [(0x1ffffc, 0x0e)], engOps := [tNode 0x1ffff8] }
    s.mayRun (tNode 0x1ffff8) = true ∧ (s.runOp (tNode 0x1ffff8) tYes).2.2 = .done ∧
    ((s.runOp (tNode 0x1ffff8) tYes).1.blockPas 0 1 0x1ffff8 8).toOption = some ((List.range 8).map (0x1ffff8 + ·)) ∧
    ((s.runOp (tNode 0x1ffff8) tYes).1.blockPas 0 1 0x1ffff8 256).toOption = none := by decide +kernel

/-- A successor that loses one from PRED 2, and one posted that starts. -/
def tPosted : Posted := ⟨1, 0x400, 0, [], 1, 1, 0⟩
theorem witness_decrement :
    let s := { tGraph 1 with posted := [tPosted] }
    (s.blockPas 0 1 0x400 256).toOption = some ((List.range 256).map (0x400 + ·)) ∧
    ofLe (((List.range 8).map (0x400 + ·)).map s.byte) = 0xe00000001 ∧ 0xe00000001 % 2 ^ 32 = 1 ∧ 0xe00000001 / 2 ^ 35 % 2 = 1 ∧
    0xe00000001 / 2 ^ 32 % 8 ≠ 5 ∧
    (s.setBlock 0 1 0x400 (fun y => y - 1)).posted.find? (fun p => p.asid == 1 && p.block.toNat == 0x400) = some tPosted ∧
    (∀ y ∈ (s.setBlock 0 1 0x400 (fun y => y - 1)).engOps, y.oid ≠ (s.setBlock 0 1 0x400 (fun y => y - 1)).nextId) ∧
    ofLe (((List.range 8).map (0x400 + ·)).map (tGraph 2).byte) % 2 ^ 32 = 2 := by decide +kernel

/-- A launch of which nothing is left, and one migrated whose report comes. -/
def tOver (l : Launch) : State := { tPlace with grp := { tGroup with gid := 0 }, launches := [l], teams := [] }
def tGone : Launch := { tCompute with begun := some 0, nextTeam := 2, ended := 2 }
theorem witness_launch_end :
    (tOver tGone).findLaunch 1 = some tGone ∧ (tOver tGone).launchBusy tGone = false ∧ tGone.node = none ∧
    (∀ x ∈ (tOver tGone).segs, ¬ (x.launch = 1 ∧ x.asid = 1)) ∧
    (let l := { tGone with migrated := true }; (tOver l).findLaunch 1 = some l ∧ l.targetEnded = false) := by decide +kernel

/-- Its completion is class 0 (R400). -/
theorem test_launch_completion :
    (match exec (.launchCompletion 1) (tOver tGone) with
      | .next t => decide (t.launches = [] ∧ t.out.length = 1)
      | _ => false) = true := by decide +kernel

/-! ## Peers, the host, commands -/

/-- Partition 0 on with rod 0, queue 0 enabled in class `cls` for context 1, the context's entry valid with its descriptor at
0x40000; memory holds a launch record at 0x1000 with its role at 0x2000, and peer entry 0 at 0x3000 configured for job 9. -/
def tHostMem : List (Nat × Byte) :=
  [(0x1000, 1), (0x1008, 0x10), (0x1019, 0x20), (0x1029, 0x50), (0x1040, 3), (0x1041, 8)]
    ++ (List.range 24).map (fun i => (0x10e8 + i, 0xff))
    ++ [(0x2004, 8), (0x2005, 0x80), (0x2008, 1), (0x3000, 1), (0x3002, 9), (0x3010, 7), (0x6000, 5)]
def tHost (cls : Nat) (cmds : List (BitVec 512)) : State :=
  { tMem with
    grp := { tGroup with gid := 0 }, launches := [], teams := [], nextId := 9, mem := tHostMem
    ctxs := [(1, { asid := 1, part := 0, acap := 64, lcap := 100, gcap := 100, peerptr := 0x3000 })]
    window := [(offPart 0 0x900, 1), (offPart 0 0x901, 1), (offPart 0 0x903, 1), (offPart 0 0x907, 0x10000), (offPart 0 0x908, 8),
               (offPart 0 0x910, 0x1000000), (offQueue 0 0, BitVec.ofNat 64 (1 + 2 * cls + 8 + 0x10000 + 1000 * 2 ^ 32)), (offCtx 1, 0x40001)]
    queues := [(0, { cmds := cmds })] }

/-- `RemoteAccesses`: a served queue, one that is not, addresses that translate and that do not; a peer of the table and another. -/
theorem witness_remote :
    (tHost 1 []).qAsid 0 = 1 ∧ (tHost 1 []).servesQueue 0 = true ∧ (tHost 1 []).servesQueue 1 = false ∧
    Memory.wf (tHost 1 []).mem = true ∧
    (tHost 1 []).netPas 1 0x6000 2 .write = some [0x6000, 0x6001] ∧ (tHost 1 []).netPas 1 0x6000 2 .read = some [0x6000, 0x6001] ∧
    (tHost 1 []).netPas 1 0x200000 2 .write = none ∧ (tHost 1 []).netPas 1 0x6000 8 .atomic = some ((List.range 8).map (0x6000 + ·)) ∧
    (tHost 1 []).poison = [] ∧
    (tHost 1 []).peerContexts { src := 7, job := 9, ask := .get 0x6000 2 } = [1] ∧
    ({ tHost 1 [] with ctxs := [] } : State).peerContexts { src := 7, job := 9, ask := .get 0x6000 2 } = [] := by decide +kernel

/-- A peer's signal adds to the aligned 64-bit word (R402). -/
theorem test_peer_signal :
    (match exec (.peerOperationArrival { src := 7, job := 9, ask := .sig 0x6000 0xffffffff }) (tHost 1 []) with
      | .next t => decide ((List.range 6).map (fun i => t.byte (0x6000 + i)) = [4, 0, 0, 0, 1, 0])
      | _ => false) = true := by decide +kernel

/-- A command: OP, flags, arguments 0, 1, 2. -/
def tCmd (op flags a b c : Nat) : BitVec 512 := BitVec.ofNat 512 (op + flags * 2 ^ 8 + a * 2 ^ 128 + b * 2 ^ 192 + c * 2 ^ 256)
/-- Whether the next command of queue 0 is `c`, of an OP and not malformed. -/
def tNext (s : State) (op : Nat) (c : BitVec 512) : Bool :=
  decide (s.nextCommand 0 = some c ∧ c.toNat % 256 = op ∧ malformedCode c = none)

/-- `QueueCommands`: each OP in turn; OP 0 and 6, a reserved flag; no context; a record that passes, and one at a bad address. -/
theorem witness_commands :
    tNext (tHost 1 [tCmd 1 0 0x1000 0 0]) 1 (tCmd 1 0 0x1000 0 0) = true ∧ tNext (tHost 1 [tCmd 2 0 0x40 0x80 8]) 2 (tCmd 2 0 0x40 0x80 8) = true ∧
    tNext (tHost 1 [tCmd 3 1 0x40 5 0]) 3 (tCmd 3 1 0x40 5 0) = true ∧ tNext (tHost 1 [tCmd 4 1 0x6000 5 0]) 4 (tCmd 4 1 0x6000 5 0) = true ∧
    (tHost 1 [tCmd 0 0 0 0 0]).nextCommand 0 = some (tCmd 0 0 0 0 0) ∧ malformedCode (tCmd 0 0 0 0 0) = some 1 ∧
    malformedCode (tCmd 6 0 0 0 0) = some 1 ∧ malformedCode (tCmd 3 8 0x40 5 0) = some 2 ∧ malformedCode (tCmd 3 0 0x44 5 0) = some 3 ∧
    ({ tHost 1 [tCmd 2 0 0 0 0] with ctxs := [] } : State).ctx? 1 = none ∧
    tNext { tHost 1 [tCmd 2 0 0 0 0] with ctxs := [] } 2 (tCmd 2 0 0 0 0) = true ∧ (tHost 1 []).waiting? 0 = none ∧
    ((tHost 1 []).ctx? 1).map (·.suspended) = some false ∧
    (match (taken (tHost 1 [tCmd 1 0 0x1000 0 0]) 0).readLaunch 1 0 0x1000 (tCmd 1 0 0x1000 0 0) with | .ok _ => true | _ => false) = true ∧
    (match (taken (tHost 1 [tCmd 1 0 0x1100 0 0]) 0).readLaunch 1 0 0x1100 (tCmd 1 0 0x1100 0 0) with | .error e => e == 2 | _ => false) = true ∧
    ((tHost 1 []).translateRange none ((tHost 1 []).homeBead 1) 1 .write 0x40 8).1.toOption = some ((List.range 8).map (0x40 + ·)) ∧
    (tHost 1 []).chain 1 16 0 = [] := by decide +kernel

/-- A wait on value in progress: its comparison holds at 5, and its time is out. -/
def tWaitOn (flags : Nat) : State :=
  { tHost 1 [] with queues := [(0, { busy := some (tCmd 4 1 0x6000 flags 0), waitUntil := some 0 })] }
theorem witness_wait_on_value :
    (tWaitOn 5).waiting? 0 = some (tCmd 4 1 0x6000 5 0) ∧ (tWaitOn 5).watched 0 (tCmd 4 1 0x6000 5 0) = some 5 ∧
    ((tCmd 4 1 0x6000 5 0).extractLsb' 192 64).toNat = 5 ∧ ((tWaitOn 6).queue 0).waitUntil = some 0 ∧ 0 ≤ (tWaitOn 6).timer.toNat := by
  decide +kernel

/-- A signal command stores its value and completes with class 0 (R399, R400). -/
theorem test_signal :
    (match exec (.signalCmd 0) (tHost 1 [tCmd 3 1 0x40 0x1122 0]) with
      | .next t => decide (t.byte 0x40 = 0x22 ∧ t.byte 0x41 = 0x11 ∧ t.out.length = 1)
      | _ => false) = true := by decide +kernel

/-- `ContextControl`: no valid entry; a descriptor of another ASID (code 2); one that passes; each ACTION; beads all handed over. -/
def tCreate (asid : Byte) (valid : Bool) : State :=
  { tHost 1 [tCmd 5 1 0 0 0] with
    ctxs := [], boot := { (State.reset).boot with chans := 1 }, window := (tHost 1 []).window.filter (fun x => valid || x.1 != offCtx 1)
    mem := [(0x40000, asid), (0x40004, 8), (0x40005, 0x80), (0x40007, 1)].filter (fun x => x.2 != 0) }
theorem witness_create :
    tNext (tCreate 1 true) 5 (tCmd 5 1 0 0 0) = true ∧ (tCreate 1 true).ctx? 1 = none ∧ Memory.wf (tCreate 1 true).mem = true ∧
    ((tCreate 1 true).descriptor 1).bind (fun x => (tCreate 1 true).createCode 1 x) = none ∧ ((tCreate 1 true).descriptor 1).isSome = true ∧
    ((tCreate 2 true).descriptor 1).bind (fun x => (tCreate 2 true).createCode 1 x) = some 2 ∧
    ({ tCreate 1 true with boot := { } } : State).descriptor 1 = none := by decide +kernel
/-- The descriptor of another ASID, while the context is live. -/
theorem witness_create_live :
    let s : State := { tCreate 2 true with ctxs := (tHost 1 []).ctxs }
    tNext s 5 (tCmd 5 1 0 0 0) = true ∧ s.ctx? 1 ≠ none ∧
    (s.descriptor 1).bind (fun x => s.createCode 1 x) = some 2 ∧ (s.descriptor 1).isSome = true := by decide +kernel
theorem witness_context_control :
    tNext (tHost 1 [tCmd 5 1 1 0 0]) 5 (tCmd 5 1 1 0 0) = true ∧ (tHost 1 [tCmd 5 1 1 0 0]).suspending? 0 = none ∧
    tNext (tHost 1 [tCmd 5 1 2 0 0]) 5 (tCmd 5 1 2 0 0) = true ∧ tNext (tHost 1 [tCmd 5 1 3 0 0]) 5 (tCmd 5 1 3 0 0) = true ∧
    tNext { tHost 1 [tCmd 5 1 4 2 0x40] with launches := [{ tCompute with queue := 0, wcode := 3 }] } 5 (tCmd 5 1 4 2 0x40) = true ∧
    (taken { tHost 1 [tCmd 5 1 4 2 0x40] with launches := [{ tCompute with queue := 0, wcode := 3 }] } 0).running 0
      = [{ tCompute with queue := 0, wcode := 3 }] ∧ ({ tCompute with queue := 0, wcode := 3 } : Launch).unplaced = true ∧
    ((tHost 1 []).ctx? 1).isSome = true ∧
    (let s := { tHost 1 [] with queues := [(0, { busy := some (tCmd 5 1 1 0 0) })], beads := [] }
     s.suspending? 0 = some (tCmd 5 1 1 0 0) ∧ ∀ b, b < 128 → (s.bead b).occ ≠ some (s.qAsid 0)) := by decide +kernel

/-! ## Scheduling -/

/-- Queue 0 of class `c0` for context 1, with a launch unplaced, DEADLINE `dl` and LEAD 0; queue 1 normal for context 2. -/
def tSched (c0 dl : Nat) (beads : SMap Bead) : State :=
  { tHost 1 [] with
    timer := 1400000, beads := beads
    window := [(offPart 0 0x900, 1), (offPart 0 0x901, 1), (offPart 0 0x907, 0x10000), (offPart 0 0x908, 8),
               (offQueue 0 0, BitVec.ofNat 64 (1 + 2 * c0 + 8 + 0x10000 + 1000 * 2 ^ 32)), (offQueue 0 1, BitVec.ofNat 64 (2 * 2 ^ 32)),
               (offQueue 0 2, BitVec.ofNat 64 dl), (offQueue 1 0, BitVec.ofNat 64 (1 + 2 + 8 + 0x20000 + 1000 * 2 ^ 32))]
    launches := [{ tCompute with lid := 1, queue := 0 }, { tCompute with lid := 2, asid := 2, queue := 1 }]
    ctxs := [(1, { asid := 1, part := 0, acap := 64, lcap := 100, gcap := 100 }), (2, { asid := 2, part := 0 })]
    queues := [(0, { deficit := 100000 }), (1, { quantumAt := 1400000 })] }
def tHeld (a : Nat) : SMap Bead := (List.range 4).map (fun b => (b, { occ := some a }))

/-- `BeadsChangeHandsClaim`: a real-time queue past its deadline; a background quantum that ends while a normal queue waits. -/
theorem witness_preemption :
    ((tHeld 2).length = 4 ∧ ((tSched 0 1 (tHeld 2)).bead 0).stop = none ∧ ((tSched 0 1 (tHeld 2)).bead 0).occ.isSome = true) ∧
    (tSched 0 1 (tHeld 2)).queueOn 0 = true ∧ (tSched 0 1 (tHeld 2)).qClass 0 = 0 ∧ (tSched 0 1 (tHeld 2)).qDeadline 0 ≠ 0 ∧
    (tSched 0 1 (tHeld 2)).qDeadline 0 - (tSched 0 1 (tHeld 2)).qLead 0 * 1300 ≤ (tSched 0 1 (tHeld 2)).timer.toNat ∧
    (tSched 0 1 (tHeld 2)).hasWork 0 = true ∧
    (tSched 2 0 (tHeld 1)).quantaEnded 0 = [0] ∧ (tSched 2 0 (tHeld 1)).qClass 0 = 2 ∧ ((tSched 2 0 (tHeld 1)).part 0).cur ≠ some 0 ∧
    (((tSched 2 0 (tHeld 1)).updQueue 0 (fun x => { x with quantumAt := 1400000 })).queuesIn 0).find? (fun n =>
      ((tSched 2 0 (tHeld 1)).updQueue 0 (fun x => { x with quantumAt := 1400000 })).qClass n == 1 &&
      ((tSched 2 0 (tHeld 1)).updQueue 0 (fun x => { x with quantumAt := 1400000 })).waitsForBead 0 n &&
      ((tSched 2 0 (tHeld 1)).updQueue 0 (fun x => { x with quantumAt := 1400000 })).qAsid n != 1) = some 1 := by decide +kernel

/-- A gap that its former occupant can use again; a drain past its time; a free bead with a claimant; a bead whose stops have
ended, with a saved group on it; a restored team. -/
def tStopped : State :=
  { tPlace with
    timer := 6500
    beads := [(0, { occ := some 1, stop := some { toAsid := none, drainBy := 6500, saved := false } })]
    grp := { tGroup with run := { tGroup.run with on := false } }
    teams := [{ tTeam with stop := some .save }] }
theorem witness_hand_over :
    (let s := tSched 1 0 [(0, { occ := some 2, gapOf := some 1 })]
     (s.bead 0).gapOf = some 1 ∧ ∃ q ∈ s.queuesOf 1, s.canUse q 0 = true) ∧
    (tStopped.bead 0).stop = some { toAsid := none, drainBy := 6500, saved := false } ∧ 6500 ≤ tStopped.timer.toNat ∧
    (tStopped.bead 0).occ = some 1 ∧ tStopped.stopsEnded 0 = true ∧ (tStopped.onBead 0).length = 1 ∧
    (let s := tSched 1 0 []
     (s.bead 0).occ = none ∧ s.rodOwner 0 = some 0 ∧ s.givable 0 0 = true ∧ (s.claimant 0 0 none).map s.qAsid = some 1 ∧ s.saved = []) ∧
    (let s := { tPlace with teams := [{ tTeam with restoring := true }] }
     s.findTeam 1 = some { tTeam with restoring := true }) := by decide +kernel

/-- `DeficitRoundRobinClaim`: the current queue keeps a positive deficit; there is no current queue. -/
theorem witness_deficits :
    (tSched 1 0 []).partEn 0 = true ∧ ((tSched 1 0 []).part 0).chargeAt ≤ (tSched 1 0 []).timer.toNat ∧
    (let s := { tSched 1 0 (tHeld 1) with grp := tGroup, parts := [(0, { cur := some 0, curs := [(1, 0)] })] }
     SMap.find (s.part 0).curs (s.qClass 0) = some 0 ∧ (s.topClass 0).head? = some 0 ∧ 0 ∈ s.topClass 0 ∧
       paidOf s 0 0 = 100000 - 640 ∧ 0 < paidOf s 0 0) ∧
    (let s := { tSched 1 0 [] with parts := [(0, { cur := some 0, curs := [(1, 0)] })], queues := [(0, { deficit := -5 })] }
     SMap.find (s.part 0).curs 1 = some 0 ∧ paidOf s 0 0 ≤ 0 ∧
       ((s.topClass 0).filter (fun x => decide (0 < x)) ++ s.topClass 0).head? = some 1) ∧
    SMap.find ((tSched 1 0 []).part 0).curs 1 = none ∧ (tSched 1 0 []).topClass 0 = [0, 1] ∧ (tStopped.topClass 0) = [] := by decide +kernel

/-! ## Faults, registers, rods -/

/-- `FaultQueueClaim`: one record due, with room for one and for none; a notification due at once, and 13,000 cycles after. -/
def tFrec : FRec := { cause := 0x17, asid := 1, path := 5 }
def tFault (who : List Attach) (seq : Option Nat) (head tail : Nat) : State :=
  { tEng (.accz 3) .f32 with
    timer := 13000
    window := [(offPart 0 0x900, 5), (offPart 0 0x901, 1), (offPart 0 0x90a, 0x8000), (offPart 0 0x90b, 4), (offPart 0 0x90c, BitVec.ofNat 64 head),
               (offPart 0 0x911, 3), (offPart 0 0x912, 4)]
    parts := [(0, { pend := [{ rec_ := tFrec, who := who, seq := seq }], tail := tail, noteDue := true, noteAt := some 0 })] }
theorem witness_fault_queue :
    ((tFault [.op 7] none 0 3).part 0).pend.find? (fun y => y.seq.isNone) = some { rec_ := tFrec, who := [.op 7], seq := none } ∧
    ((((tFault [.op 7] none 0 3).part 0).tail + 2 ^ 32 - fqHead (tFault [.op 7] none 0 3) 0) % 2 ^ 32 < fqRing (tFault [.op 7] none 0 3) 0) ∧
    (fqRing (tFault [.op 7] none 0 4) 0 ≤ (((tFault [.op 7] none 0 4).part 0).tail + 2 ^ 32 - fqHead (tFault [.op 7] none 0 4) 0) % 2 ^ 32) ∧
    Memory.wf (tFault [.op 7] none 0 3).mem = true ∧ ((tFault [] none 0 3).part 0).noteDue = true ∧
    (tFault [] none 0 3).pcsr 0 0x900 / 4 % 2 = 1 ∧ 0 + 10 * 1300 ≤ (tFault [] none 0 3).timer.toNat ∧
    (tFault [] none 0 3).boot.recovery = false := by decide +kernel

/-- The first bytes of a record and its SEQ at byte 56 (R369). -/
theorem test_fault_record :
    (match exec (.faultRecordWrite 0) (tFault [.op 7] none 0 3) with
      | .next t => decide (t.byte 0x80c0 = 0x17 ∧ t.byte 0x80c1 = 1 ∧ t.byte 0x80c3 = 0xa0 ∧ t.byte 0x80f8 = 1 ∧ (t.part 0).tail = 4)
      | _ => false) = true := by decide +kernel

/-- `FaultAnswersClaim`: a group stopped, an operation paused that meets its fault again; a number with no record. -/
def tStop : State :=
  { tFault [.group 1] (some 9) 0 0 with grp := { (tFault [] none 0 0).grp with wait := .stopped } }
def tPause : State := { tFault [.op 7] (some 9) 0 0 with engOps := [tOp (.accld 3 0x200000 256 0)] }
theorem witness_fault_answers :
    (tStop.part 0).pend.find? (fun y => y.seq == some (9 : Word).toNat) = some { rec_ := tFrec, who := [.group 1], seq := some 9 } ∧
    (tStop.part 0).pend.find? (fun y => y.seq == some (8 : Word).toNat) = none ∧
    tStop.findGroup 1 = some tStop.grp ∧ tStop.speculative tStop.grp = false ∧
    tStop.grp.allElems.any (fun y => y.2.bring.isSome) = false ∧ tFrec.cause ≠ 0x19 ∧ tFrec.cause < 0x30 ∧
    (tStop.ctx? tFrec.asid).isSome = true ∧
    tPause.findOp 7 = some (tOp (.accld 3 0x200000 256 0)) ∧ tPause.findGroup 1 = some tPause.grp ∧
    (match (tPause.runOp (tOp (.accld 3 0x200000 256 0)) { ok := true, data := [] }).2.2 with | .pause f => f.va == 0x200000 | _ => false) = true := by
  decide +kernel

/-- A record to which an element of a rate without code is attached: abort acts as kill. -/
theorem witness_abort_element :
    let s := tFault [.element 1 5] (some 9) 0 0
    (s.part 0).pend.find? (fun y => y.seq == some (9 : Word).toNat) = some { rec_ := tFrec, who := [.element 1 5], seq := some 9 } ∧
    (s.ctx? tFrec.asid).isSome = true := by decide +kernel

/-- `RegisterWindow`: shootdowns of each SCOPE, with none and one in progress; registers of each kind; RODS free and taken. -/
def tShoot : Shoot := { scope := 2, asid := 0, part := 0, base := 0, count := 0, gen := 1, left := [1] }
theorem witness_register_window :
    ((0x9 : Dword).getLsbD 0 = true ∧ (0x9 : Dword).toNat / 2 % 4 = 0) ∧ (3 : Dword).toNat / 2 % 4 = 1 ∧ (5 : Dword).toNat / 2 % 4 = 2 ∧
    tState.boot.recovery = false ∧ tState.shoot = none ∧
    (let s := { tStopped with shoot := some tShoot }
     ∀ g ∈ s.allGroups, g.gid ∈ tShoot.left → g.run.on = false ∨ g.wait ≠ .ready) ∧
    tState.partEn 0 = false ∧ (∀ p', p' < 16 → p' ≠ 0 → tState.partEn p' = true → tState.rodMask p' &&& 1 = 0) ∧
    (∃ p', p' < 16 ∧ p' ≠ 1 ∧ tPlace.partEn p' = true ∧ tPlace.rodMask p' &&& 1 ≠ 0) ∧
    (offQueue 0 3 % 8 = 0 ∧ ownBehaviour (offQueue 0 3) 7 = false ∧ writableBits (offQueue 0 3) ≠ 0) ∧ writableBits 4 = 0 := by
  decide +kernel

/-- A store translated before the shootdown lies in a release buffer: the shootdown waits for it; once it is there, it
completes (R376). -/
def tShootStore (rel : List RelEnt) : State :=
  { tState with
    shoot := some { tShoot with left := [], stores := [(0, 1, 5)] }
    cores := [(0, { rel := rel })] }
theorem test_shootdown_stores :
    (∃ c ∈ (tShootStore [⟨1, false, 0, 5, []⟩]).cores, ∃ e ∈ c.2.rel, e.window = false ∧
      (c.1, e.gid, e.sector) ∈ [((0 : Nat), (1 : Nat), (5 : Nat))]) ∧
    (match exec .shootdownComplete (tShootStore [⟨1, false, 0, 5, []⟩]), exec .shootdownComplete (tShootStore []) with
      | .next t, .next u => t.shoot.isSome && u.shoot.isNone && u.doneGen == 1
      | _, _ => false) = true := by decide +kernel

/-- PWRCAP below 800 W and above 2,300 W (R391). -/
theorem test_pwrcap :
    (match exec (.registerWrite (offModule 0x802) 5) tState, exec (.registerWrite (offModule 0x802) 9999) tState with
      | .next t, .next u => decide ((t.win (offModule 0x802)).toNat = 800 ∧ (u.win (offModule 0x802)).toNat = 2300)
      | _, _ => false) = true := by decide +kernel

/-- The currents of the starved bead at t = 0.3 µs (R389's example), with node currents 0, +3,200 and -3,200. -/
def tAmps (a b c d : Int) : RodCurrents := { i0 := a, i1 := b, i2 := c, i3 := d }
def tRods (r : Rod) : State := { tPlace with timer := 2000000, rods := [(6, r)] }

/-- `ROD_IMB` after them. -/
theorem test_rod_imb :
    (match exec (.balancerSample 6 (tAmps 15000 15000 11800 15000)) tPlace with
      | .next t => decide ((t.rod 6).imb = 0x0003f3800c800000)
      | _ => false) = true := by decide +kernel
/-- At 0.4 µs filler continues, and at 2.1 µs it stops. -/
theorem test_filler :
    (match exec (.balancerSample 6 (tAmps 10400 10400 9700 10400)) (tRods { fill := [none, some 2, some 2] }),
           exec (.balancerSample 6 (tAmps 10400 10400 10600 10400)) (tRods { fill := [none, some 2, some 2] }) with
      | .next t, .next u => decide ((t.rod 6).fill = [none, some 2, some 2] ∧ (u.rod 6).fill = [none, none, none])
      | _, _ => false) = true := by decide +kernel

/-- `BalancerClaim`: node currents on each side of every threshold; the 99th and the 100th sample; clamps of each count. -/
theorem witness_balancer :
    (node (tAmps 3000 0 0 0) 0).natAbs = 3000 ∧ (∀ k, k < 3 → (node (tAmps 2999 0 0 0) k).natAbs < 3000) ∧
    (∀ k, k < 3 → (node (tAmps 1499 0 0 0) k).natAbs < 1500) ∧ (node (tAmps 1500 0 0 0) 0).natAbs = 1500 ∧
    (((tRods { throt := true, streak := 99 }).rod 6).throt = true ∧ ((tRods { throt := true, streak := 99 }).rod 6).streak = 99 ∧
      ((tRods { throt := true, streak := 99 }).rod 6).hotThrot = false) ∧ (∀ k, k < 3 → (node (tAmps 3999 0 0 0) k).natAbs < 4000) ∧
    4000 ≤ (node (tAmps 0 4000 0 0) 0).natAbs ∧ ((tRods { clamps := [800000, 1] }).rod 6).clamp = none ∧
    ((tRods { clamps := [800000, 1] }).rod 6).clamps.length = 2 ∧ 2000000 < 1 + 1300000000 ∧
    ((tRods { clamp := some (1870000, true), temp := 1599 }).rod 6).clamp = some (1870000, true) ∧ 1870000 + 130000 ≤ 2000000 ∧
    (∀ k, k < 3 → (node (tAmps 499 0 0 0) k).natAbs < 500) ∧ 500 ≤ (node (tAmps 500 0 0 0) 0).natAbs ∧ ((tRods { temp := 1599 }).rod 6).temp < 1600 := by
  decide +kernel

/-- `ArbiterClaim`: a reading of every rod, at 105 degrees; rod 0 occupied and owned. -/
def tPeriod : PeriodReading :=
  { power := 500, outside := 300, rods := List.replicate 32 { power := 16, temp := 16 * 105, tempBead := 0, volt := 800 } }
theorem witness_arbiter :
    tPeriod.rods.length = 32 ∧ (∀ x ∈ tPeriod.rods, x.temp < 16 * 120) ∧
    tPeriod.rods[31]? = some { power := 16, temp := 16 * 105, tempBead := 0, volt := 800 } ∧
    tPlace.rodOwner 0 = some 0 ∧ occupied tPlace 0 = true ∧ occupied tPlace 1 = false ∧ (tPlace.rod 0).step = 1 := by decide +kernel

/-! ## Bring-up and sideband -/

/-- Attestation in recovery and out of it; contexts on a bead that mismatches. -/
theorem witness_sideband :
    ({ tState with boot := { recovery := true } } : State).boot.recovery = true ∧ tState.boot.recovery = false ∧
    (∃ g ∈ tState.allGroups, g.gid ≠ 0 ∧ g.bead = 0 ∧ g.asid < 256) := by decide +kernel

/-- Bring-up joins a journal in which step 0x20 of unit 0 has failed: it may be skipped, and its channels stay down (R404, R407). -/
theorem witness_bring_up :
    lastRecord [⟨0x20, 0, 1, 1⟩, ⟨0x20, 0, 2, 2⟩] 0x20 0 = some 2 ∧
    Passed { results := [⟨0x20, 0, false⟩], cxlBytes := [], rev := 0 } 0x20 0 = false ∧
    Passed { results := [⟨0x20, 0, false⟩], cxlBytes := [], rev := 0 } 0x20 1 = true := by decide +kernel

/-- An uncorrectable sector is poisoned, and a corrected one counted (R383, R384). -/
theorem test_patrol :
    (match exec (.patrolScrub 0x80 .uncorrectable) tState, exec (.patrolScrub 0x80 .corrected) tState with
      | .next t, .next u => decide (t.poison = [2] ∧ u.poison = [] ∧ u.errcnt = 1)
      | _, _ => false) = true := by decide +kernel

/-! ## The invariant and reset -/

/-- `StepKeepsMemoryCanonical`: from reset, memory lists nothing. -/
theorem witness_canonical : Memory.wf State.reset.mem = true := by decide

/-- A step of a running group is a next state, from canonical memory. -/
theorem witness_step_next :
    (match step (tIssue .ready true) with | .next _ => true | _ => false) = true ∧ Memory.wf (tIssue .ready true).mem = true := by
  decide +kernel
/-- `UnassignedOpcodesRefused`: opcodes on each side of the ranges of R184. -/
theorem witness_opcodes :
    [0x3b, 0x3f, 0x6e, 0x9a, 0xb0, 0xc7, 0xdc, 0xf1, 0xff].all (fun n => !assignedOpcode n) = true ∧
    [0x3a, 0x40, 0x6d, 0x80, 0x99, 0xaf, 0xc6, 0xdb, 0xf0, 0xf8, 0xfe].all assignedOpcode = true := by decide +kernel

/-! ## More of the statements' hypotheses -/

/-- `OverflowResults`: a quarter of a unit above the largest finite value, half a unit, and a whole one. -/
theorem witness_overflow :
    let top := magOf fp32 fp32.maxFin
    let ulp := top - magOf fp32 (fp32.maxFin - 1)
    top < (0x3fffffd : Rat) * 2 ^ (102 : Int) ∧ (0x3fffffd : Rat) * 2 ^ (102 : Int) < top + ulp / 2 ∧
    top + ulp / 2 = (0x3fffffe : Rat) * 2 ^ (102 : Int) ∧ fp32.maxFin % 2 = 1 ∧ top + ulp ≤ (0x4000000 : Rat) * 2 ^ (102 : Int) := by
  have h : fp32.value fp32.maxFin = .fin false 0xffffff 104 := by decide +kernel
  have k : fp32.value (fp32.maxFin - 1) = .fin false 0xfffffe 104 := by decide +kernel
  simp only [magOf, h, k, ratOf]
  refine ⟨?_, ?_, ?_, by decide, ?_⟩ <;> norm_num

/-- Half a unit above it rounds to infinity to nearest, a quarter to the largest finite value (R118, R119). -/
theorem test_overflow :
    fp32.round .rne false 0 false 0x3fffffe 102 = (0x7f800000, fOF ||| fNX) ∧
    fp32.round .rne false 0 false 0x3fffffd 102 = (0x7f7fffff, fNX) ∧
    fp32.round .rz false 0 false 0x3ffffff 102 = (0x7f7fffff, fNX) := by decide +kernel

/-- `ApproximationCasesClaim`, `ApproximationBounds`: a NaN; 128; -1; 1, which is a whole number, a power of two and four
quarters; a quarter. -/
theorem witness_approximation :
    fp32.value 0x7f800001 = .nan true ∧ finite fp32 0x3f800000 = true ∧ finite fp32 0xbf800000 = true ∧ finite fp32 0x43000000 = true ∧
    ratOf (fp32.value 0x43000000) = 128 ∧ ratOf (fp32.value 0xbf800000) = -1 ∧
    (ratOf (fp32.value 0x3f800000) = ((1 : Int) : Rat) ∧ ratOf (fp32.value 0x3f800000) = 2 ^ (0 : Int)) ∧
    4 * ratOf (fp32.value 0x3f800000) = ((4 : Int) : Rat) ∧ 4 * ratOf (fp32.value 0x3e800000) = ((1 : Int) : Rat) ∧
    0 < ratOf (fp32.value 0x3e800000) ∧ ratOf (fp32.value 0x3e800000) ≠ 1 := by
  have a : fp32.value 0x43000000 = .fin false 0x800000 (-16) := by decide +kernel
  have b : fp32.value 0xbf800000 = .fin true 0x800000 (-23) := by decide +kernel
  have c : fp32.value 0x3f800000 = .fin false 0x800000 (-23) := by decide +kernel
  have d : fp32.value 0x3e800000 = .fin false 0x800000 (-25) := by decide +kernel
  refine ⟨by decide +kernel, by decide +kernel, by decide +kernel, by decide +kernel, ?_⟩
  simp only [a, b, c, d, ratOf]
  norm_num

/-- Two cubed, the logarithm of 8, a quarter turn and a half (R203). -/
theorem test_approximation :
    exp2F 0x40400000 = (0x41000000, 0) ∧ log2F 0x41000000 = (0x40400000, 0) ∧ sinCosF true 0x3e800000 = (0x3f800000, 0) ∧
    sinCosF false 0x3f000000 = (0xbf800000, 0) := by decide +kernel

/-- `GroupWideTrapsClaim`: one lane of two active, before and after the region. -/
def tHalf : State := tState.setGrp { tGroup with run := { tGroup.run with active := 1 } }
theorem witness_group_wide :
    tHalf.grp.converged = false ∧ tHalf.speculative tHalf.grp = false ∧ tHalf.endRegion.grp.converged = false ∧
    tHalf.endRegion.speculative tHalf.endRegion.grp = false := by decide +kernel

/-- `MissingRecordTrapsClaim`: a load whose lanes lack the ancestor that its address inherits. -/
theorem witness_missing_load :
    laneReads tLacking (.ld hL { fm with a := 2 }) = some (hL, [opX 2 2, opX 0 1]) ∧
    (tLacking.grp.execLanes tLacking.curLaunch hL).filter (fun l =>
      [opX (2 : BitVec 12) 2, opX (0 : BitVec 12) 1].any (fun o => (tLacking.opndReads hL.rate.toNat l o).contains .missing)) ≠ [] :=
  ⟨rfl, by decide +kernel⟩

/-- `ElementWordsClaim`: the handle of an ancestor of rate 2 that the lanes lack. -/
theorem witness_elem_lacking :
    (tLacking.grp.execLanes tLacking.curLaunch hL).filter (fun l => (tLacking.elemHandle 3 2 l).isNone) ≠ [] := by decide +kernel

/-- Registers of which none is poisoned. -/
theorem witness_sound_regs : soundRegs tMake.endRegion false ∧ soundRegs tRast true ∧ soundRegs tMem false :=
  ⟨fun _ _ => rfl, fun _ _ => rfl, fun _ _ => rfl⟩

/-- Two logical groups of 32 lanes, lane 0 and lane 32 live, and what they read in v2 and v4. -/
def tTwoGroups (a b : Word) : State :=
  let g : Group := { tGroup with
    lw := 32, lgs := [{}, {}]
    div := { live := 0x100000001, pcs := [(0, 0x10000), (32, 0x10000)], bcast := 0x10000 }
    elems := [(0, { present := true, rate := 3 }), (32, { present := true, rate := 3, index := 1 })]
    run := { tGroup.run with active := 0x100000001, slices := [0, 2] } }
  tMem.setGrp ((g.setReg false 0 4 a).setReg false 32 4 b)

/-- `OverlayJumpClaim`: one logical group, and two that go to words 1 and 3 of entry 0. -/
theorem witness_overlay_groups :
    tMem.grp.heads (tMem.grp.execLanes tMem.curLaunch hB) = [0] ∧
    (let s := tTwoGroups 1 3
     let f : FC := { fc with a := 2, b := 4 }
     s.readable hB [opX f.a 1, opX f.b 1] ∧ s.grp.heads (s.grp.execLanes s.curLaunch hB) = [0, 32] ∧
     ∀ y ∈ s.grp.heads (s.grp.execLanes s.curLaunch hB), s.opnd hB f.imm .i32 y (opX f.a 1) < (s.ctx 1).ovlcount ∧
       Held s .atomic (((s.ctx 1).ovlbase + 16 * s.opnd hB f.imm .i32 y (opX f.a 1)) % 2 ^ 64) 1 0x8000 ∧
       s.poison.contains (0x8000 / 64) = false ∧ (s.natAtPa 0x8000 8).testBit 0 = true ∧
       s.opnd hB f.imm .i32 y (opX f.b 1) < s.natAtPa (0x8000 + 8) 2) := by
  refine ⟨by decide +kernel, by unfold State.readable; decide +kernel, by decide +kernel, ?_⟩
  have heads : (tTwoGroups 1 3).grp.heads ((tTwoGroups 1 3).grp.execLanes (tTwoGroups 1 3).curLaunch hB) = [0, 32] := by decide +kernel
  have h (y : Nat) (e : (((tTwoGroups 1 3).ctx 1).ovlbase + 16 * (tTwoGroups 1 3).opnd hB 0 .i32 y (opX 2 1)) % 2 ^ 64 = 0x8000) :
      Held (tTwoGroups 1 3) .atomic
        ((((tTwoGroups 1 3).ctx 1).ovlbase + 16 * (tTwoGroups 1 3).opnd hB 0 .i32 y (opX 2 1)) % 2 ^ 64) 1 0x8000 := by
    rw [e]
    exact (held_lanes (tTwoGroups 1 3) .atomic 1 (fun _ => 0x8000) [0] (by decide +kernel) (by decide) 0 (by simp)).1
  intro y m
  rw [heads] at m
  simp only [List.mem_cons, List.not_mem_nil, or_false] at m
  rcases m with rfl | rfl <;> exact ⟨by decide +kernel, h _ (by decide +kernel), by decide +kernel, by decide +kernel, by decide +kernel⟩

/-- Each logical group goes to its own word: 0x20010 and 0x20030 (R303, R330). -/
theorem test_overlay_groups :
    (match exec (.jfence hB { fc with a := 2, b := 4 }) (tTwoGroups 1 3) with
      | .next t => decide (t.grp.div.pcs = [(0, 0x20010), (32, 0x20030)])
      | _ => false) = true := by decide +kernel

/-- `WindowAccessClaim`: one lane that loads from sector 1 of its window, the one poisoned; a window without poison. -/
def tBadPad (bad : SMap Dword) : State :=
  { withRegs tMem [(2, 0x40, 0x80)] with
    grp := { (withRegs tMem [(2, 0x40, 0x80)]).grp with run := { tGroup.run with active := 1 } }
    teams := [{ tTeam with bad := bad }] }
theorem witness_window_poison :
    soundWindow (tBadPad []) ∧ (tBadPad [(1, 9)]).readable hL [opX fLoad.a 1, opX fLoad.b 1] ∧
    (tBadPad [(1, 9)]).grp.execLanes (tBadPad [(1, 9)]).curLaunch hL = [0] ∧ outOfWindow (tBadPad [(1, 9)]) hL fLoad 0 = false ∧
    nothingBuffered (tBadPad [(1, 9)]) ∧ (tBadPad [(1, 9)]).findTeam 1 = some { tTeam with bad := [(1, 9)] } ∧
    (0 < accessBytes fLoad ∧ (offsetIn (tBadPad [(1, 9)]) hL fLoad 0 + 0) / 64 = 1) := by
  unfold soundWindow State.readable nothingBuffered; decide +kernel

/-- The load is not performed, and its poison fault is recorded with PATH 6 (R137, R369, R384). -/
theorem test_window_poison :
    (match exec (.lds hL fLoad) (tBadPad [(1, 9)]) with
      | .next t => decide ((t.part 0).pend.map (fun x => (x.rec_.cause, x.rec_.path, x.rec_.info)) = [(0x14, 6, 9)] ∧
          t.grp.wait = .stopped ∧ t.grp.div.pend = 1 ∧ t.grp.reg false 0 8 = 0)
      | _ => false) = true := by decide +kernel

/-- `AtomicWordsClaim`: a release at system scope with a network operation in progress, and none. -/
theorem witness_release_waits :
    let f : FM := { fLoad with order := 2, scope := 5 }
    let x : AtomForm := ⟨hL, f, [opX f.a 2, opX f.b 1, opX f.c (sizeRegs f)], accessBytes f, f.scope.toNat, fun u l old =>
      some (atomicNew (f.e.toNat % 16) (8 * accessBytes f) old (atomicOperand u hL f l))⟩
    memoryAtomic (.atom hL f) = some x ∧
    releaseWaits { tLoad with engOps := [tOp (.nsig 8 1 { addr := 0, job := 0, ports := 0 })] }.endRegion x ∧
    ¬ releaseWaits tLoad.endRegion x :=
  ⟨rfl, by unfold releaseWaits; decide +kernel, by unfold releaseWaits; decide +kernel⟩

/-- The release waits for the operation (R267). -/
theorem test_release_waits :
    (match exec (.atom hL { fLoad with order := 2, scope := 5 })
        { tLoad with engOps := [tOp (.nsig 8 1 { addr := 0, job := 0, ports := 0 })] } with
      | .next t => (match t.grp.wait with | .split (.paths _ _) => true | _ => false) && t.byte 0x40 == 0x81
      | _ => false) = true := by decide +kernel

/-- `RunsIssue`: a group whose links lie on its own bead only. -/
theorem witness_runs_issue_links :
    tHand.grp.elems.all (fun x => !(x.2.idxBad || x.2.idxWait.isSome || x.2.linkHome.isSome)) = true := by decide +kernel

/-- `WaitsEnd`: timers on a bead of a clamped rod, and of one that is not. -/
def tClamped : State := { tWaits (.monitor [0] []) with rods := [(0, { clamp := some (0, false) })] }
theorem witness_clamp :
    (tClamped.rod ((tWait (.monitor [0] []) false).bead / 4)).clamp ≠ none ∧
    tClamped.findGroup 1 = some (tWait (.monitor [0] []) false) ∧ (tExh.rod 0).clamp = none ∧ ((tWaits .ready).rod 0).clamp = none := by
  decide +kernel

/-- A due timer has no effect there (R389). -/
theorem test_clamped_timer :
    let s := { tWaits .ready with grp := { tWait .ready false with tcmp := 70000, utvec := 0x12001 } }
    causeAfter (exec (.timerTrap 1) s) = some (6, 70000) ∧
    causeAfter (exec (.timerTrap 1) { s with rods := [(0, { clamp := some (0, false) })] }) = some (0, 0) := by decide +kernel

/-- `QuireGrantsAndSpills`: the group's one logical group has a live lane; its rod is not clamped. -/
theorem witness_quire_lanes :
    (∀ j, j < (tQuire [] 4).grp.hw / (tQuire [] 4).grp.lw → (tQuire [] 4).grp.div.live &&& (tQuire [] 4).grp.lgMask j ≠ 0) ∧
    ((tQuire [tRec 4] 0).rod 0).clamp = none := by decide +kernel

/-- `SegmentsRunClaim`: a segment whose groups have ended, and one before which only a committed one has ended, may commit. -/
def tFin : Seg := { tSeg with st := .finished 1 20, bytes := [(0x100, 9)] }
theorem witness_commit_finished :
    let s : State := { tTaking tFin with segs := [{ tSeg with segid := 4, st := .ended }, tFin] }
    Memory.wf s.mem = true ∧ s.findSeg 1 5 = some tFin ∧ s.confirmed tFin = true ∧
    (∀ y ∈ s.segs, y.asid = 1 → y.segid < 5 → y.st = .ended) ∧ s.commitViolates tFin = [] := by decide +kernel

/-- Its version becomes memory's, it is gone, and its team counts as ended with its runs (R97, R348). -/
theorem test_commit_finished :
    (match exec (.segmentCommit 1 5) (tTaking tFin) with
      | .next t => decide (t.byte 0x100 = 9 ∧ t.segs = [] ∧ t.launches.map (fun l => (l.ended, l.endedRuns)) = [(1, 20)])
      | _ => false) = true := by decide +kernel

/-- `EngineOperationsEndClaim`: no stalled element, and a live lane in the one logical group. -/
theorem witness_engine_end_group :
    let g := (tEng (.accz 3) .f32).grp
    g.wait ≠ .ending ∧ g.anyStalled = false ∧ ∀ j, j < g.hw / g.lw → g.div.live &&& g.lgMask j ≠ 0 := by decide +kernel

/-- `MatrixPasses`: a pass whose first line of A lies in a poisoned sector of the window. -/
theorem witness_matrix_window :
    let s (bad : SMap Dword) : State := { tEng .join .i32 with engOps := [tMat], teams := [{ tTeam with bad := bad }] }
    (s [(0, 9)]).passPoison tMat 0 64 129 8 8 (slotFmt ((s []).slotOf 1 3)) = true ∧
    (s [(0, 9)]).matrixChoice 0 = some tMat ∧ ∀ t ∈ (s []).teams, t.tid = tMat.team → t.bad = [] := by decide +kernel

/-- It ends in error of KIND 0 (R279, R384). -/
theorem test_matrix_window :
    (match exec (.matrixPass 0) { tEng .join .i32 with engOps := [tMat], teams := [{ tTeam with bad := [(0, 9)] }] } with
      | .next t => decide (t.engOps = [] ∧ (t.grp.lg 0).ops.map (·.err) = [some (0, 0)])
      | _ => false) = true := by decide +kernel

/-- `NodesAndLaunchesEnd`: a control word without poison, the block's second sector without and with it. -/
theorem witness_node_poison :
    let s : State := { tGraph 0 with poison := [17] }
    unpoisoned s ((List.range 8).map (0x400 + ·)) ∧ ¬ unpoisoned s ((List.range 256).map (0x400 + ·)) ∧
    unpoisoned (tGraph 0) ((List.range 256).map (0x400 + ·)) ∧ (s.runOp (tNode 0x400) tYes).2.2 = .done ∧
    ((s.runOp (tNode 0x400) tYes).1.blockPas 0 1 0x400 256).toOption = some ((List.range 256).map (0x400 + ·)) ∧
    (s.part (s.ctx 1).part).held < 4096 := by unfold unpoisoned; decide +kernel

/-- A resolved condition of the launch on which a segment of another launch stands. -/
theorem witness_condition_kept :
    let s : State := { tOver tGone with conds := [(1, { live := true, asid := 1, launch := 1, resolved := some 1 })]
                                        segs := [{ tSeg with launch := 2 }] }
    s.findLaunch 1 = some tGone ∧ s.launchBusy tGone = false ∧ (s.cond 0 1).resolved.isSome = true ∧
    (∃ x ∈ s.segs, x.st.speculative = true ∧ 1024 * x.die + x.cond = 1024 * 0 + 1) ∧
    ∀ x ∈ s.segs, ¬ (x.launch = 1 ∧ x.asid = 1) := by decide +kernel

/-- `RemoteAccesses`: the module in recovery and not. -/
theorem witness_recovery :
    ({ tHost 1 [] with boot := { recovery := true } } : State).boot.recovery = true ∧ (tHost 1 []).boot.recovery = false := by decide

/-- `QueueCommands`: each context command but a create, on a context that is not live. -/
theorem witness_dead_context :
    let c (a : Nat) : BitVec 512 := if a = 4 then tCmd 5 1 4 2 0x40 else tCmd 5 1 a 0 0
    let s (a : Nat) : State := { tHost 1 [c a] with ctxs := [] }
    [1, 2, 3, 4].all (fun a => tNext (s a) 5 (c a) && ((c a).extractLsb' 128 64).toNat == a) = true ∧
    (s 1).ctx? 1 = none ∧ (s 1).suspending? 0 = none := by decide +kernel

/-- Each completes with class 5 (R400). -/
theorem test_dead_context :
    (match exec (.contextDestroy 0) { tHost 1 [tCmd 5 1 3 0 0] with ctxs := [] } with
      | .next t => decide (t.out = [.hostWrite 0 0 (completionRecord 0 (tCmd 5 1 3 0 0) 5 0 0)])
      | _ => false) = true := by decide +kernel

/-- `ContextControl`: a launch that has not been migrated. -/
theorem witness_migrates : ({ tCompute with queue := 0, wcode := 3 } : Launch).migrated = false ∧
    CarriesImage { tCompute with queue := 0, wcode := 3 } := ⟨rfl, Or.inl (by decide)⟩

/-- `FaultAnswersClaim`: another record holds the same group, and none does. -/
def tTwoRecs : State := { tStop with parts := [(0, { pend := [{ rec_ := tFrec, who := [.group 1], seq := some 9 },
                                                              { rec_ := tFrec, who := [.group 1], seq := some 10 }] })] }
theorem witness_answers_elsewhere :
    (∃ y ∈ (tTwoRecs.part 0).pend, y.seq ≠ some (9 : Word).toNat ∧ Attach.group 1 ∈ y.who) ∧
    (¬ ∃ y ∈ (tStop.part 0).pend, y.seq ≠ some (9 : Word).toNat ∧ Attach.group 1 ∈ y.who) ∧
    (tPause.grp.anyStalled = false ∧ ∀ j, j < tPause.grp.hw / tPause.grp.lw → tPause.grp.div.live &&& tPause.grp.lgMask j ≠ 0) := by
  decide +kernel

/-- The first answer leaves the group stopped, the second makes it ready (R194). -/
theorem test_answers :
    (match exec (.fqrespResume 0 9) tTwoRecs with
      | .next t => (match exec (.fqrespResume 0 10) t with
        | .next u => decide (t.grp.wait = .stopped ∧ u.grp.wait = .ready)
        | _ => false)
      | _ => false) = true := by decide +kernel

/-- `RegisterWindow`: an enabled partition with an occupant on its beads, and one without. -/
theorem witness_rods :
    tPlace.partEn 0 = true ∧ (3 : Dword).toNat % 2 ^ 32 ≠ tPlace.rodMask 0 ∧ (∃ b ∈ tPlace.partBeads 0, (tPlace.bead b).occ ≠ none) ∧
    (∀ b ∈ ({ tPlace with beads := [] } : State).partBeads 0, (({ tPlace with beads := [] } : State).bead b).occ = none) ∧
    (∀ p', p' < 16 → p' ≠ 0 → tPlace.partEn p' = true → tPlace.rodMask p' &&& ((3 : Dword).toNat % 2 ^ 32) = 0) := by decide +kernel

/-- A write of RODS to a partition that is in use is ignored (R378). -/
theorem test_rods :
    (match exec (.rodsWrite 0 3) tPlace, exec (.rodsWrite 0 3) { tPlace with beads := [] } with
      | .next t, .next u => decide (t.pcsr 0 0x901 = 1 ∧ u.pcsr 0 0x901 = 3)
      | _, _ => false) = true := by decide +kernel

/-- AF at 850 mV and 85 degrees is 1, at 900 mV twice that, and far below it falls under 1/65536 (R394). -/
theorem test_aging :
    agingFactor 850 1360 = 65536 ∧ agingFactor 900 1360 = 131072 ∧ agingFactor 0 0 = 0 ∧ agingFactor 850 1280 = 46340 := by decide +kernel

/-- `BringUpClaim`: a start that runs through, and one that stops at a step. -/
def tBoot (n : Option Nat) : BootInputs := { results := [], cxlBytes := [], rev := 0, stopAt := n }
theorem witness_bring_up_stop :
    (tBoot none).stopAt = none ∧ (tBoot (some 2)).stopAt = some 2 ∧ bootSteps[2]? = some (0x10, 0) ∧
    State.reset.flash.journal = [] ∧ (∀ x ∈ (tBoot (some 2)).results, x.passed = true) ∧
    (∀ img ∈ State.reset.flash.later, Accepted img) := ⟨rfl, rfl, by decide, rfl, nofun, nofun⟩

/-- A stop in the course of step 0x01 leaves the record that it has started (R407). -/
theorem test_bring_up_stop :
    (match exec (.powerOnReset (tBoot (some 0))) State.reset with
      | .next t => decide (t.flash.journal.map (fun j => (j.step, j.unit, j.outcome)) = [(1, 0, 0)] ∧ t.flash.orderly = false)
      | _ => false) = true := by decide +kernel

/-- `SidebandClaim`: each area of the flash, in recovery. -/
def tFlash : State := { State.reset with
  boot := { recovery := true }
  flash := { (State.reset).flash with journal := [⟨1, 0, 1, 1⟩, ⟨2, 0, 2, 1⟩] } }
theorem test_sideband_flash :
    (match exec (.sidebandFlashWrite 2 16 ([0x20, 0, 5, 1, 7, 0, 0, 0] ++ List.replicate 8 0)) tFlash,
           exec (.sidebandFlashWrite 3 8 [1, 2, 0, 0]) tFlash, exec (.sidebandFlashWrite 6 1 [9]) tFlash with
      | .next t, .next u, .next v => decide (t.flash.journal = [⟨1, 0, 1, 1⟩, ⟨0x20, 5, 1, 7⟩] ∧
          SMap.get 0 u.flash.wear 2 = 0x201 ∧ v.flash.later = [[], [0, 9]])
      | _, _, _ => false) = true := by decide +kernel
end Sys2Proof.Tests
end

/-! SUPPORT. Operands as bit strings: what a source of 32 or 64 bits is, and words that compute one result from them. -/

namespace Sys2Proof

open Machine

/-! ## Operands of a width -/

theorem opnd_i32_lt (s : State) (h : Hdr) (imm : Word) (l : Nat) (o : Opnd) : s.opnd h imm .i32 l o < 2 ^ 32 := by
  unfold State.opnd
  split
  · exact BitVec.isLt _
  · exact BitVec.isLt _

theorem opnd_i64_lt (s : State) (h : Hdr) (imm : Word) (l : Nat) (o : Opnd) : s.opnd h imm .i64 l o < 2 ^ 64 := by
  have hword : ∀ x : Word, x.toNat < 2 ^ 32 := fun x => x.isLt
  unfold State.opnd
  split
  · unfold specialAt
    dsimp only
    split
    · exact BitVec.isLt _
    · exact (hword _).trans (by decide)
  · have := hword (s.opndWord h imm l o 0)
    have := hword (s.opndWord h imm l o 1)
    dsimp only
    omega

theorem opnd_wid_lt (s : State) (h : Hdr) (imm : Word) (v : Wid) (l : Nat) (o : Opnd) :
    s.opnd h imm (widPos v) l o < 2 ^ widBits v := by
  cases v
  · exact opnd_i32_lt ..
  · exact opnd_i64_lt ..

/-- An operand of a width suffix as a bit string. At width 32 and 64 these are the `wA` and `dA` of the statements. -/
def opndBits (s : State) (h : Hdr) (f : FA) (v : Wid) (l : Nat) (o : Opnd) : BitVec (widBits v) :=
  BitVec.ofNat (widBits v) (s.opnd h f.imm (widPos v) l o)

theorem toNat_opndBits (s : State) (h : Hdr) (f : FA) (v : Wid) (l : Nat) (o : Opnd) :
    (opndBits s h f v l o).toNat = s.opnd h f.imm (widPos v) l o :=
  Nat.mod_eq_of_lt (opnd_wid_lt ..)

theorem toNat_wA (s : State) (h : Hdr) (f : FA) (l : Nat) : (wA s h f l).toNat = s.opnd h f.imm .i32 l (opA f 1) :=
  toNat_opndBits s h f .w32 l (opA f 1)
theorem toNat_wB (s : State) (h : Hdr) (f : FA) (l : Nat) : (wB s h f l).toNat = s.opnd h f.imm .i32 l (opB f 1) :=
  toNat_opndBits s h f .w32 l (opB f 1)
theorem toNat_dA (s : State) (h : Hdr) (f : FA) (l : Nat) : (dA s h f l).toNat = s.opnd h f.imm .i64 l (opA f 2) :=
  toNat_opndBits s h f .w64 l (opA f 2)

/-! ## Results of a width -/

/-- The registers that hold a bit string of a width suffix (R107). -/
def regsOf : (v : Wid) → BitVec (widBits v) → List Word
  | .w32, x => [x]
  | .w64, x => halves x

theorem pairOf_eq_halves (x : Nat) : pairOf x = halves (BitVec.ofNat 64 x) := by
  have hlow : BitVec.ofNat 32 x = (BitVec.ofNat 64 x).setWidth 32 := by
    apply BitVec.eq_of_toNat_eq
    simp only [BitVec.toNat_ofNat, BitVec.toNat_setWidth]
    omega
  have hhigh : BitVec.ofNat 32 (x / 2 ^ 32) = ((BitVec.ofNat 64 x) >>> 32).setWidth 32 := by
    apply BitVec.eq_of_toNat_eq
    simp only [BitVec.toNat_ofNat, BitVec.toNat_setWidth, BitVec.toNat_ushiftRight, Nat.shiftRight_eq_div_pow]
    omega
  rw [pairOf, halves, hlow, hhigh]

theorem outInt_eq_regsOf (v : Wid) (x : Nat) : outInt v x = regsOf v (BitVec.ofNat (widBits v) x) := by
  cases v
  · rfl
  · exact pairOf_eq_halves x

/-! ## Words that compute one result -/

section
variable {i : Instr} {s : State} {h : Hdr} {f : FA} {v : Wid}

/-- A word whose meaning is a `laneWord` with readable operands completes with its results. -/
theorem completes_of_laneWord {d : Nat} {ops : List Opnd} {out out' : Nat → LaneOut}
    (e : exec i s = .next (s.laneWord h d ops out)) (hout : ∀ l, out l = out' l) (hr : s.readable h ops) :
    Completes i s h d out' :=
  ⟨_, e, funext hout ▸ State.laneWord_spec hr⟩

/-- One source: the word computes `g` when its arithmetic on numbers, cut to the width, is `g`. -/
theorem completes_int1 {r : Nat → Nat} {g : BitVec (widBits v) → BitVec (widBits v)}
    (e : exec i s = .next (s.int1 h f v r))
    (hg : ∀ a : BitVec (widBits v), BitVec.ofNat (widBits v) (r a.toNat) = g a)
    (hr : s.readable h [opA f (widRegs v)]) :
    Completes i s h f.d.toNat (fun l => { regs := regsOf v (g (opndBits s h f v l (opA f (widRegs v)))) }) := by
  refine completes_of_laneWord e (fun l => ?_) hr
  rw [outInt_eq_regsOf, ← hg, toNat_opndBits]

/-- Two sources of the width. -/
theorem completes_int2 {r : Nat → Nat → Nat} {g : BitVec (widBits v) → BitVec (widBits v) → BitVec (widBits v)}
    (e : exec i s = .next (s.int2 h f v r))
    (hg : ∀ a b : BitVec (widBits v), BitVec.ofNat (widBits v) (r a.toNat b.toNat) = g a b)
    (hr : s.readable h [opA f (widRegs v), opB f (widRegs v)]) :
    Completes i s h f.d.toNat (fun l => { regs := regsOf v (g (opndBits s h f v l (opA f (widRegs v)))
      (opndBits s h f v l (opB f (widRegs v)))) }) := by
  refine completes_of_laneWord e (fun l => ?_) hr
  rw [outInt_eq_regsOf, ← hg, toNat_opndBits, toNat_opndBits]

/-- Three sources of the width. -/
theorem completes_int3 {r : Nat → Nat → Nat → Nat}
    {g : BitVec (widBits v) → BitVec (widBits v) → BitVec (widBits v) → BitVec (widBits v)}
    (e : exec i s = .next (s.int3 h f v r))
    (hg : ∀ a b c : BitVec (widBits v), BitVec.ofNat (widBits v) (r a.toNat b.toNat c.toNat) = g a b c)
    (hr : s.readable h [opA f (widRegs v), opB f (widRegs v), opC f (widRegs v)]) :
    Completes i s h f.d.toNat (fun l => { regs := regsOf v (g (opndBits s h f v l (opA f (widRegs v)))
      (opndBits s h f v l (opB f (widRegs v))) (opndBits s h f v l (opC f (widRegs v)))) }) := by
  refine completes_of_laneWord e (fun l => ?_) hr
  rw [outInt_eq_regsOf, ← hg, toNat_opndBits, toNat_opndBits, toNat_opndBits]

/-- A shift: the count is the register B modulo the width (R195). -/
theorem completes_shift2 {r : Nat → Nat → Nat} {g : BitVec (widBits v) → Nat → BitVec (widBits v)}
    (e : exec i s = .next (s.shift2 h f v r))
    (hg : ∀ (a : BitVec (widBits v)) (n : Nat), n < widBits v → BitVec.ofNat (widBits v) (r a.toNat n) = g a n)
    (hr : s.readable h [opA f (widRegs v), opB f 1]) :
    Completes i s h f.d.toNat (fun l => { regs := regsOf v (g (opndBits s h f v l (opA f (widRegs v)))
      ((wB s h f l).toNat % widBits v)) }) := by
  have hpos : 0 < widBits v := by cases v <;> decide
  refine completes_of_laneWord e (fun l => ?_) hr
  rw [outInt_eq_regsOf, ← hg _ _ (Nat.mod_lt _ hpos), toNat_opndBits, toNat_wB]

end

end Sys2Proof

/-! SUPPORT. The model's integer functions on numbers (R192 to R196), read as operations on bit strings. -/

namespace Sys2Proof

open Machine

variable {w : Nat}

/-! ## Sums, products and shifts of any width -/

theorem ofNat_toNat_add (a b : BitVec w) : BitVec.ofNat w (a.toNat + b.toNat) = a + b := by
  simp [BitVec.ofNat_add]

theorem ofNat_toNat_sub (a b : BitVec w) : BitVec.ofNat w (a.toNat + (2 ^ w - b.toNat)) = a - b := by
  apply BitVec.eq_of_toNat_eq
  rw [BitVec.toNat_ofNat, BitVec.toNat_sub, Nat.add_comm]

theorem ofNat_toNat_mul (a b : BitVec w) : BitVec.ofNat w (a.toNat * b.toNat) = a * b := by
  simp [BitVec.ofNat_mul]

theorem ofNat_toNat_mad (a b c : BitVec w) : BitVec.ofNat w (a.toNat * b.toNat + c.toNat) = a * b + c := by
  simp [BitVec.ofNat_add, BitVec.ofNat_mul]

theorem ofNat_toNat_id (a : BitVec w) : BitVec.ofNat w (id a.toNat) = a := by simp

theorem ofNat_toNat_shiftLeft (a : BitVec w) (n : Nat) : BitVec.ofNat w (a.toNat * 2 ^ n) = a <<< n := by
  apply BitVec.eq_of_toNat_eq
  rw [BitVec.toNat_ofNat, BitVec.toNat_shiftLeft, Nat.shiftLeft_eq]

theorem ofNat_toNat_ushiftRight (a : BitVec w) (n : Nat) : BitVec.ofNat w (a.toNat / 2 ^ n) = a >>> n := by
  apply BitVec.eq_of_toNat_eq
  rw [BitVec.toNat_ofNat, BitVec.toNat_ushiftRight, Nat.shiftRight_eq_div_pow,
    Nat.mod_eq_of_lt ((Nat.div_le_self _ _).trans_lt a.isLt)]

@[simp] theorem sInt_toNat (a : BitVec w) : sInt w a.toNat = a.toInt := by simp [sInt]
@[simp] theorem sgnInt_s_toNat (a : BitVec w) : sgnInt .s w a.toNat = a.toInt := sInt_toNat a
@[simp] theorem sgnInt_u_toNat (a : BitVec w) : sgnInt .u w a.toNat = (a.toNat : Int) := rfl
@[simp] theorem ofNat_patOf (x : Int) : BitVec.ofNat w (patOf w x) = BitVec.ofInt w x := by
  rw [patOf, BitVec.ofNat_toNat, BitVec.setWidth_eq]

theorem ofNat_sar (a : BitVec w) (n : Nat) :
    BitVec.ofNat w (patOf w (sInt w a.toNat / ((2 ^ n : Nat) : Int))) = a.sshiftRight n := by
  rw [sInt_toNat, ofNat_patOf, BitVec.sshiftRight_eq, Int.shiftRight_eq_div_pow]

/-! ## High products, extremes and signs -/

/-- The high half of a 64-bit pattern. -/
theorem ofNat_high (x : Dword) : BitVec.ofNat 32 (x.toNat / 2 ^ 32) = (x >>> 32).setWidth 32 := by
  rw [← BitVec.ofNat_toNat, BitVec.toNat_ushiftRight, Nat.shiftRight_eq_div_pow]

theorem ofNat_mulHigh_s (a b : Word) :
    BitVec.ofNat 32 (mulHigh .s a.toNat b.toNat) = ((a.signExtend 64 * b.signExtend 64) >>> 32).setWidth 32 := by
  rw [mulHigh, patOf, ofNat_high, sgnInt_s_toNat, sgnInt_s_toNat, BitVec.ofInt_mul]
  rfl

theorem ofNat_mulHigh_u (a b : Word) :
    BitVec.ofNat 32 (mulHigh .u a.toNat b.toNat) = ((a.setWidth 64 * b.setWidth 64) >>> 32).setWidth 32 := by
  rw [mulHigh, patOf, ofNat_high, sgnInt_u_toNat, sgnInt_u_toNat, BitVec.ofInt_mul]
  simp

theorem sgnInt_s_le (a b : Word) : sgnInt .s 32 a.toNat ≤ sgnInt .s 32 b.toNat ↔ a.sle b = true := by
  rw [sgnInt_s_toNat, sgnInt_s_toNat, BitVec.sle_iff_toInt_le]

theorem sgnInt_u_le (a b : Word) : sgnInt .u 32 a.toNat ≤ sgnInt .u 32 b.toNat ↔ a.ule b = true := by
  rw [sgnInt_u_toNat, sgnInt_u_toNat, Int.ofNat_le, BitVec.ule_iff_toNat_le]

/-- A choice between two patterns, by either form of its condition. -/
theorem ofNat_toNat_ite {p : Prop} [Decidable p] {q : Bool} (hpq : p ↔ q = true) (a b : BitVec w) :
    BitVec.ofNat w (if p then a.toNat else b.toNat) = if q then a else b := by
  simp only [hpq]
  split <;> simp

theorem ofNat_neg (a : Word) : BitVec.ofNat 32 (2 ^ 32 - a.toNat) = -a := by
  apply BitVec.eq_of_toNat_eq
  rw [BitVec.toNat_ofNat, BitVec.toNat_neg]

theorem ofNat_abs (a : Word) : BitVec.ofNat 32 (sInt 32 a.toNat).natAbs = if a.msb then -a else a := by
  rw [sInt_toNat, ← BitVec.ofInt_natCast, BitVec.msb_eq_toInt]
  by_cases hneg : a.toInt < 0
  · rw [Int.ofNat_natAbs_of_nonpos hneg.le, BitVec.ofInt_neg, BitVec.ofInt_toInt]
    simp [hneg]
  · rw [Int.natAbs_of_nonneg (by omega), BitVec.ofInt_toInt]
    simp [hneg]

/-! ## Saturation -/

theorem clampInt_eq {sg : Bool} {n : Nat} (x : Int) (hle : intMin sg n ≤ intMax sg n) : clampInt sg n x
    = if intMax sg n < x then intMax sg n else if x < intMin sg n then intMin sg n else x := by
  unfold clampInt
  split_ifs <;> omega

/-- Saturation to the signed range of 32 bits (R192). -/
theorem ofNat_clamp_s (x : Int) : BitVec.ofNat 32 (patOf 32 (clampInt true 32 x))
    = if 2 ^ 31 ≤ x then 0x7fffffff else if x < - 2 ^ 31 then 0x80000000 else BitVec.ofInt 32 x := by
  rw [ofNat_patOf, clampInt_eq x (by decide), apply_ite (BitVec.ofInt 32), apply_ite (BitVec.ofInt 32)]
  rfl

/-- Saturation to the unsigned range of 32 bits (R192). -/
theorem ofNat_clamp_u (x : Int) : BitVec.ofNat 32 (patOf 32 (clampInt false 32 x))
    = if 2 ^ 32 ≤ x then 0xffffffff else if x < 0 then 0 else BitVec.ofInt 32 x := by
  rw [ofNat_patOf, clampInt_eq x (by decide), apply_ite (BitVec.ofInt 32), apply_ite (BitVec.ofInt 32)]
  rfl

theorem ofInt_toInt_add (a b : BitVec w) : BitVec.ofInt w (a.toInt + b.toInt) = a + b := by
  rw [BitVec.ofInt_add, BitVec.ofInt_toInt, BitVec.ofInt_toInt]

theorem ofInt_toInt_sub (a b : BitVec w) : BitVec.ofInt w (a.toInt - b.toInt) = a - b := by
  rw [sub_eq_add_neg, BitVec.ofInt_add, BitVec.ofInt_neg, BitVec.ofInt_toInt, BitVec.ofInt_toInt, BitVec.sub_eq_add_neg]

theorem ofNat_addsat_s (a b : Word) :
    BitVec.ofNat 32 (patOf 32 (clampInt (Sgn.s == .s) 32 (sgnInt .s 32 a.toNat + sgnInt .s 32 b.toNat)))
      = if 2 ^ 31 ≤ a.toInt + b.toInt then 0x7fffffff
        else if a.toInt + b.toInt < - 2 ^ 31 then 0x80000000 else a + b := by
  rw [sgnInt_s_toNat, sgnInt_s_toNat, ← ofInt_toInt_add a b]
  exact ofNat_clamp_s _

theorem ofNat_subsat_s (a b : Word) :
    BitVec.ofNat 32 (patOf 32 (clampInt (Sgn.s == .s) 32 (sgnInt .s 32 a.toNat - sgnInt .s 32 b.toNat)))
      = if 2 ^ 31 ≤ a.toInt - b.toInt then 0x7fffffff
        else if a.toInt - b.toInt < - 2 ^ 31 then 0x80000000 else a - b := by
  rw [sgnInt_s_toNat, sgnInt_s_toNat, ← ofInt_toInt_sub a b]
  exact ofNat_clamp_s _

theorem ofNat_addsat_u (a b : Word) :
    BitVec.ofNat 32 (patOf 32 (clampInt (Sgn.u == .s) 32 (sgnInt .u 32 a.toNat + sgnInt .u 32 b.toNat)))
      = if 2 ^ 32 ≤ a.toNat + b.toNat then 0xffffffff else a + b := by
  refine (ofNat_clamp_u _).trans ?_
  rw [sgnInt_u_toNat, sgnInt_u_toNat, if_neg (show ¬ (a.toNat : Int) + b.toNat < 0 by omega), BitVec.ofInt_add]
  simp only [BitVec.ofInt_natCast, BitVec.ofNat_toNat, BitVec.setWidth_eq]
  norm_cast

theorem ofNat_subsat_u (a b : Word) :
    BitVec.ofNat 32 (patOf 32 (clampInt (Sgn.u == .s) 32 (sgnInt .u 32 a.toNat - sgnInt .u 32 b.toNat)))
      = if a.toNat < b.toNat then 0 else a - b := by
  have := a.isLt
  refine (ofNat_clamp_u _).trans ?_
  rw [sgnInt_u_toNat, sgnInt_u_toNat, if_neg (by omega), sub_eq_add_neg, BitVec.ofInt_add, BitVec.ofInt_neg,
    ← sub_eq_add_neg, ← BitVec.sub_eq_add_neg]
  simp only [BitVec.ofInt_natCast, BitVec.ofNat_toNat, BitVec.setWidth_eq, sub_neg, Int.ofNat_lt]

/-! ## Logic and rotation -/

theorem ofNat_toNat_and (a b : Word) : BitVec.ofNat 32 (a.toNat &&& b.toNat) = a &&& b := by
  rw [← BitVec.toNat_and, BitVec.ofNat_toNat, BitVec.setWidth_eq]

theorem ofNat_toNat_or (a b : Word) : BitVec.ofNat 32 (a.toNat ||| b.toNat) = a ||| b := by
  rw [← BitVec.toNat_or, BitVec.ofNat_toNat, BitVec.setWidth_eq]

theorem ofNat_toNat_xor (a b : Word) : BitVec.ofNat 32 (a.toNat ^^^ b.toNat) = a ^^^ b := by
  rw [← BitVec.toNat_xor, BitVec.ofNat_toNat, BitVec.setWidth_eq]

/-- Exclusive or with all ones is the complement. -/
theorem toNat_xor_ones (b : Word) : b.toNat ^^^ 0xffffffff = (~~~ b).toNat := by
  rw [← BitVec.xor_allOnes, BitVec.toNat_xor]; rfl

theorem ofNat_toNat_andn (a b : Word) : BitVec.ofNat 32 (a.toNat &&& (b.toNat ^^^ 0xffffffff)) = a &&& ~~~ b := by
  rw [toNat_xor_ones, ofNat_toNat_and]

/-- A rotation is the sum of two shifts whose bits do not meet. -/
theorem ofNat_rot (a : Word) (n : Nat) (hn : n < 32) :
    BitVec.ofNat 32 (a.toNat * 2 ^ n + a.toNat / 2 ^ (32 - n)) = a.rotateLeft n := by
  have hdisjoint : a <<< n &&& a >>> (32 - n) = 0#32 := by
    apply BitVec.eq_of_getLsbD_eq
    intro i hi
    simp only [BitVec.getLsbD_and, BitVec.getLsbD_shiftLeft, BitVec.getLsbD_ushiftRight, BitVec.getLsbD_zero]
    by_cases hin : i < n
    · simp [hin]
    · rw [BitVec.getLsbD_of_ge a (32 - n + i) (by omega), Bool.and_false]
  rw [BitVec.rotateLeft_def, Nat.mod_eq_of_lt hn, ← BitVec.add_eq_or_of_and_eq_zero _ _ hdisjoint, BitVec.ofNat_add,
    ofNat_toNat_shiftLeft, ofNat_toNat_ushiftRight]

/-! ## Bits one by one -/

theorem sumOf_eq_sum (xs : List Nat) : sumOf xs = xs.sum := List.sum_eq_foldl.symm

theorem nbits_one (x i : Nat) : nbits x i 1 = (x.testBit i).toNat := by
  rw [nbits, Nat.toNat_testBit, pow_one]

/-- The number whose bits below `n` are those of `p`. -/
def bitSum (p : Nat → Bool) (n : Nat) : Nat := sumOf ((List.range n).map (fun i => (p i).toNat * 2 ^ i))

theorem bitSum_succ (p : Nat → Bool) (n : Nat) : bitSum p (n + 1) = 2 ^ n * (p n).toNat + bitSum p n := by
  simp only [bitSum, sumOf_eq_sum, List.range_succ, List.map_append, List.sum_append, List.map_cons, List.map_nil,
    List.sum_cons, List.sum_nil]
  ring

theorem bitSum_lt (p : Nat → Bool) (n : Nat) : bitSum p n < 2 ^ n := by
  induction n with
  | zero => exact Nat.one_pos
  | succ n ih =>
    rw [bitSum_succ, pow_succ]
    cases p n
    · simp only [Bool.toNat_false]; omega
    · simp only [Bool.toNat_true]; omega

theorem testBit_bitSum (p : Nat → Bool) (n k : Nat) : (bitSum p n).testBit k = (decide (k < n) && p k) := by
  induction n with
  | zero => simp [bitSum, sumOf]
  | succ n ih =>
    rw [bitSum_succ, Nat.testBit_two_pow_mul_add _ (bitSum_lt p n), ih]
    rcases Nat.lt_trichotomy k n with hk | rfl | hk
    · simp [hk, show k < n + 1 by omega]
    · cases p k <;> simp
    · have hlt : (p n).toNat < 2 ^ (k - n) := by
        have := Nat.one_lt_two_pow (n := k - n) (by omega)
        have := Bool.toNat_le (p n)
        omega
      rw [if_neg (by omega), Nat.testBit_lt_two_pow hlt]
      simp [show ¬ k < n + 1 by omega]

theorem revBits_eq_bitSum (a : Nat) : revBits a = bitSum (fun i => a.testBit (31 - i)) 32 := by
  simp only [revBits, bitSum, nbits_one]

theorem ofNat_revBits (a : Word) : BitVec.ofNat 32 (revBits a.toNat) = a.reverse := by
  apply BitVec.eq_of_getLsbD_eq
  intro i hi
  rw [revBits_eq_bitSum, BitVec.getLsbD_ofNat, testBit_bitSum, BitVec.getLsbD_reverse, BitVec.getMsbD_eq_getLsbD,
    BitVec.testBit_toNat]
  simp [hi]

theorem sum_toNat_eq_countP (p : Nat → Bool) (xs : List Nat) : (xs.map (fun i => (p i).toNat)).sum = xs.countP p := by
  induction xs with
  | nil => rfl
  | cons x xs ih => cases hp : p x <;> simp [hp, ih, Nat.add_comm]

theorem ofNat_popCount (a : Word) :
    BitVec.ofNat 32 (popCount a.toNat) = BitVec.ofNat 32 ((List.range 32).countP a.getLsbD) := by
  simp only [popCount, nbits_one, BitVec.testBit_toNat, sumOf_eq_sum, sum_toNat_eq_countP]

/-! ## Positions of zeros -/

/-- A count of positions ends at the first that holds 1. -/
theorem zerosFrom_eq {p : Nat → Bool} {n k : Nat} (hk : k ≤ n) (hzero : ∀ i < k, p i = false)
    (hone : k < n → p k = true) : zerosFrom p n = k := by
  have hfirst : (List.range n).findIdx p = k := by
    rcases hk.lt_or_eq with hlt | rfl
    · rw [List.findIdx_eq (by simpa using hlt)]
      simpa using ⟨hone hlt, hzero⟩
    · rw [List.findIdx_eq_length.2 (by simpa using hzero), List.length_range]
  simp only [zerosFrom, List.takeWhile_eq_take_findIdx_not, Bool.not_not, List.length_take, List.length_range, hfirst]
  exact min_eq_left hk

theorem ofNat_clz (a : Word) : BitVec.ofNat 32 (32 - bitLen a.toNat) = BitVec.ofNat 32 (zerosFrom a.getMsbD 32) := by
  congr 1
  symm
  by_cases ha : a.toNat = 0
  · refine zerosFrom_eq (by omega) (fun i _ => ?_) (by simp [bitLen, ha])
    have hzero : a = 0#32 := BitVec.eq_of_toNat_eq ha
    simp [hzero]
  · have hlog : a.toNat.log2 < 32 := (Nat.log2_lt ha).2 a.isLt
    have hlen : bitLen a.toNat = a.toNat.log2 + 1 := by rw [bitLen, if_neg ha]
    rw [hlen]
    refine zerosFrom_eq (by omega) (fun i hi => ?_) (fun _ => ?_)
    · have hhigh : a.toNat < 2 ^ (32 - 1 - i) := (Nat.log2_lt ha).1 (by omega)
      rw [BitVec.getMsbD_eq_getLsbD, ← BitVec.testBit_toNat, Nat.testBit_lt_two_pow hhigh, Bool.and_false]
    · rw [BitVec.getMsbD_eq_getLsbD, ← BitVec.testBit_toNat,
        show 32 - 1 - (32 - (a.toNat.log2 + 1)) = a.toNat.log2 by omega, Nat.testBit_log2 ha,
        Bool.and_true, decide_eq_true_eq]
      omega

theorem ofNat_trailZeros (a : Word) :
    BitVec.ofNat 32 (trailZeros a.toNat) = BitVec.ofNat 32 (zerosFrom a.getLsbD 32) := by
  have hbit : ∀ i, (nbits a.toNat i 1 == 1) = a.getLsbD i := fun i => by
    rw [nbits_one, BitVec.testBit_toNat]; cases a.getLsbD i <;> rfl
  congr 1
  symm
  simp only [trailZeros, hbit]
  cases hfind : (List.range 32).find? a.getLsbD with
  | none =>
    rw [List.find?_range_eq_none] at hfind
    exact zerosFrom_eq le_rfl (by simpa using hfind) (by simp)
  | some k =>
    obtain ⟨hone, hmem, hzero⟩ := List.find?_range_eq_some.1 hfind
    exact zerosFrom_eq (List.mem_range.1 hmem).le (by simpa using hzero) (fun _ => hone)

/-! ## Bit fields and tables -/

theorem lop3Bits_eq_bitSum (lut a b c : Nat) : lop3Bits lut a b c = bitSum (fun i => lut.testBit
    (4 * (c.testBit i).toNat + 2 * (b.testBit i).toNat + (a.testBit i).toNat)) 32 := by
  simp only [lop3Bits, bitSum, nbits_one]

theorem getLsbD_lop3 (lut : Nat) (a b c : Word) {k : Nat} (hk : k < 32) :
    (BitVec.ofNat 32 (lop3Bits lut a.toNat b.toNat c.toNat)).getLsbD k
      = lut.testBit (4 * (c.getLsbD k).toNat + 2 * (b.getLsbD k).toNat + (a.getLsbD k).toNat) := by
  simp only [lop3Bits_eq_bitSum, BitVec.getLsbD_ofNat, testBit_bitSum, BitVec.testBit_toNat, hk, decide_true,
    Bool.true_and]

theorem fieldPos_add_fieldLen_le (b : Nat) : fieldPos b + fieldLen b ≤ 32 := by
  unfold fieldLen fieldPos; omega

/-- Bits of an extracted field: its own, and zeros or copies of its top bit above (R196). -/
theorem getLsbD_extractField (sg : Sgn) (a : Word) (b : Nat) {k : Nat} (hk : k < 32) :
    (BitVec.ofNat 32 (extractField sg a.toNat b)).getLsbD k =
      if k < fieldLen b then a.getLsbD (fieldPos b + k)
      else (sg == .s && decide (0 < fieldLen b) && a.getLsbD (fieldPos b + fieldLen b - 1)) := by
  have hle := fieldPos_add_fieldLen_le b
  unfold extractField
  generalize fieldPos b = p at *
  generalize fieldLen b = n at *
  have hfield : ∀ j, (a.toNat / 2 ^ p % 2 ^ n).testBit j = (decide (j < n) && a.getLsbD (p + j)) := fun j => by
    rw [Nat.testBit_mod_two_pow, Nat.testBit_div_two_pow, BitVec.testBit_toNat, Nat.add_comm]
  dsimp only
  by_cases hn : n = 0
  · simp [hn]
  rw [if_neg hn]
  cases sg with
  | u =>
    rw [BitVec.getLsbD_ofNat, hfield]
    by_cases hkn : k < n
    · simp [hk, hkn]
    · simp [hkn]
  | s =>
    have hext : ∀ x : Nat, BitVec.ofNat 32 (patOf 32 (sInt n x)) = (BitVec.ofNat n x).signExtend 32 := fun x =>
      ofNat_patOf _
    rw [hext, BitVec.getLsbD_signExtend, BitVec.msb_eq_getLsbD_last, BitVec.getLsbD_ofNat, BitVec.getLsbD_ofNat, hfield,
      hfield, show p + (n - 1) = p + n - 1 by omega]
    by_cases hkn : k < n
    · simp [hk, hkn]
    · simp [hk, hkn, Nat.pos_of_ne_zero hn]

/-- The ones of a field's mask. -/
theorem testBit_fieldMask (p n k : Nat) : ((2 ^ n - 1) * 2 ^ p).testBit k = decide (p ≤ k ∧ k < p + n) := by
  rw [← Nat.shiftLeft_eq, Nat.testBit_shiftLeft, Nat.testBit_two_pow_sub_one, ← Bool.decide_and]
  exact decide_eq_decide.2 (by omega)

/-- Bits after an insertion: those of a inside the field, those of c outside (R196). -/
theorem getLsbD_insertField (a c : Word) (b : Nat) {k : Nat} (hk : k < 32) :
    (BitVec.ofNat 32 (insertField a.toNat b c.toNat)).getLsbD k =
      if fieldPos b ≤ k ∧ k < fieldPos b + fieldLen b then a.getLsbD (k - fieldPos b) else c.getLsbD k := by
  have hones : (0xffffffff : Nat).testBit k = true := by
    rw [show (0xffffffff : Nat) = 2 ^ 32 - 1 by rfl, Nat.testBit_two_pow_sub_one, decide_eq_true hk]
  have hshift : (a.toNat * 2 ^ fieldPos b).testBit k = (decide (fieldPos b ≤ k) && a.getLsbD (k - fieldPos b)) := by
    rw [← Nat.shiftLeft_eq, Nat.testBit_shiftLeft, BitVec.testBit_toNat]
  simp only [insertField, BitVec.getLsbD_ofNat, Nat.testBit_or, Nat.testBit_and, Nat.testBit_xor, testBit_fieldMask,
    hones, hshift, BitVec.testBit_toNat, hk, decide_true, Bool.true_and]
  by_cases hin : fieldPos b ≤ k ∧ k < fieldPos b + fieldLen b
  · simp [hin]
  · simp [hin]

end Sys2Proof

/-! The integer words, the words on bits, and division: O8, O9, O11. -/

namespace Sys2Proof

open Machine

/-! ## Moves and addresses (R199, R200) -/

theorem completes_movi {s : State} {h : Hdr} {f : FA} (hr : s.readable h []) :
    Completes (.movi h f) s h f.d.toNat (fun _ => { regs := [f.imm] }) :=
  completes_of_laneWord rfl (fun _ => rfl) hr

theorem completes_aadd {s : State} {h : Hdr} {f : FA} (hr : s.readable h [opA f 2, opB f 1]) :
    Completes (.aadd h f) s h f.d.toNat (fun l =>
      { regs := halves (dA s h f l + (wB s h f l).signExtend 64) }) := by
  refine completes_of_laneWord rfl (fun l => ?_) hr
  rw [pairOf_eq_halves, ← toNat_dA, ← toNat_wB, BitVec.ofNat_add, ofNat_patOf, sInt_toNat, BitVec.ofNat_toNat,
    BitVec.setWidth_eq]
  rfl

theorem completes_alea {s : State} {h : Hdr} {f : FA} (hr : s.readable h [opA f 2, opB f 1]) :
    Completes (.alea h f) s h f.d.toNat (fun l =>
      { regs := halves (dA s h f l + (wB s h f l).setWidth 64 * (1 <<< f.sub.toNat) + f.imm.signExtend 64) }) := by
  have hscale : ((1 <<< f.sub.toNat : Nat) : Dword) = BitVec.ofNat 64 (2 ^ f.sub.toNat) :=
    congrArg (BitVec.ofNat 64) (Nat.one_shiftLeft _)
  refine completes_of_laneWord rfl (fun l => ?_) hr
  rw [pairOf_eq_halves, ← toNat_dA, ← toNat_wB, hscale]
  simp [BitVec.ofNat_add, BitVec.ofNat_mul]

theorem completes_amul {s : State} {h : Hdr} {f : FA} (hr : s.readable h [opA f 1, opB f 1]) :
    Completes (.amul h f) s h f.d.toNat (fun l =>
      { regs := halves ((wA s h f l).setWidth 64 * (wB s h f l).setWidth 64) }) := by
  refine completes_of_laneWord rfl (fun l => ?_) hr
  rw [pairOf_eq_halves, ← toNat_wA, ← toNat_wB, BitVec.ofNat_mul, BitVec.ofNat_toNat, BitVec.ofNat_toNat]

/-! ## Integer words (R192, R195, R199, R200) -/

/-- Settles O8: each word is a `laneWord` whose arithmetic on numbers, cut to the width, is that of the bit strings. -/
theorem integerResults : Obligations.IntegerResults := by
  unfold Obligations.IntegerResults
  intro s i x hx hr
  unfold integerForm at hx
  split at hx <;> cases hx
  · exact completes_int2 (i := .iadd .w32 _ _) rfl ofNat_toNat_add hr
  · exact completes_int2 (i := .iadd .w64 _ _) rfl ofNat_toNat_add hr
  · exact completes_int2 (i := .isub .w32 _ _) rfl ofNat_toNat_sub hr
  · exact completes_int2 (i := .isub .w64 _ _) rfl ofNat_toNat_sub hr
  · exact completes_int2 (i := .imul .w32 _ _) rfl ofNat_toNat_mul hr
  · exact completes_int2 (i := .imul .w64 _ _) rfl ofNat_toNat_mul hr
  · exact completes_int2 (i := .imulh .s _ _) rfl ofNat_mulHigh_s hr
  · exact completes_int2 (i := .imulh .u _ _) rfl ofNat_mulHigh_u hr
  · exact completes_int3 (i := .imad .w32 _ _) rfl ofNat_toNat_mad hr
  · exact completes_int3 (i := .imad .w64 _ _) rfl ofNat_toNat_mad hr
  · exact completes_int2 (i := .imin .s _ _) rfl (fun a b => ofNat_toNat_ite (sgnInt_s_le a b) a b) hr
  · exact completes_int2 (i := .imin .u _ _) rfl (fun a b => ofNat_toNat_ite (sgnInt_u_le a b) a b) hr
  · exact completes_int2 (i := .imax .s _ _) rfl (fun a b => ofNat_toNat_ite (sgnInt_s_le a b) b a) hr
  · exact completes_int2 (i := .imax .u _ _) rfl (fun a b => ofNat_toNat_ite (sgnInt_u_le a b) b a) hr
  · exact completes_int1 (i := .iabs _ _) rfl ofNat_abs hr
  · exact completes_int1 (i := .ineg _ _) rfl ofNat_neg hr
  · exact completes_int2 (i := .iaddsat .s _ _) rfl ofNat_addsat_s hr
  · exact completes_int2 (i := .iaddsat .u _ _) rfl ofNat_addsat_u hr
  · exact completes_int2 (i := .isubsat .s _ _) rfl ofNat_subsat_s hr
  · exact completes_int2 (i := .isubsat .u _ _) rfl ofNat_subsat_u hr
  · exact completes_int2 (i := .andB _ _) rfl ofNat_toNat_and hr
  · exact completes_int2 (i := .orB _ _) rfl ofNat_toNat_or hr
  · exact completes_int2 (i := .xorB _ _) rfl ofNat_toNat_xor hr
  · exact completes_int2 (i := .andn _ _) rfl ofNat_toNat_andn hr
  · exact completes_shift2 (i := .shl .w32 _ _) rfl (fun a n _ => ofNat_toNat_shiftLeft a n) hr
  · exact completes_shift2 (i := .shl .w64 _ _) rfl (fun a n _ => ofNat_toNat_shiftLeft a n) hr
  · exact completes_shift2 (i := .shr .w32 _ _) rfl (fun a n _ => ofNat_toNat_ushiftRight a n) hr
  · exact completes_shift2 (i := .shr .w64 _ _) rfl (fun a n _ => ofNat_toNat_ushiftRight a n) hr
  · exact completes_shift2 (i := .sar .w32 _ _) rfl (fun a n _ => ofNat_sar a n) hr
  · exact completes_shift2 (i := .sar .w64 _ _) rfl (fun a n _ => ofNat_sar a n) hr
  · exact completes_shift2 (i := .rot _ _) rfl ofNat_rot hr
  · exact completes_int1 (i := .popc _ _) rfl ofNat_popCount hr
  · exact completes_int1 (i := .clz _ _) rfl ofNat_clz hr
  · exact completes_int1 (i := .ctz _ _) rfl ofNat_trailZeros hr
  · exact completes_int1 (i := .brev _ _) rfl ofNat_revBits hr
  · exact completes_int1 (i := .mov .w32 _ _) rfl ofNat_toNat_id hr
  · exact completes_int1 (i := .mov .w64 _ _) rfl ofNat_toNat_id hr
  · exact completes_movi hr
  · exact completes_aadd hr
  · exact completes_alea hr
  · exact completes_amul hr

/-! ## Tables and bit fields (R195, R196) -/

theorem lop3BitsClaim : Lop3BitsClaim := by
  intro s h f hr
  refine ⟨_, completes_int3 (i := .lop3 h f) rfl (fun _ _ _ => rfl) hr, fun l k hk => ?_⟩
  exact getLsbD_lop3 f.sub.toNat (wA s h f l) (wB s h f l) (wC s h f l) hk

theorem bitFieldsClaim : BitFieldsClaim := by
  constructor
  · intro s sg h f hr
    refine ⟨_, completes_int2 (i := .bfe sg h f) rfl (fun _ _ => rfl) hr, fun l k hk => ?_⟩
    exact getLsbD_extractField sg (wA s h f l) (wB s h f l).toNat hk
  · intro s h f hr
    refine ⟨_, completes_int3 (i := .bfi h f) rfl (fun _ _ _ => rfl) hr, fun l k hk => ?_⟩
    exact getLsbD_insertField (wA s h f l) (wC s h f l) (wB s h f l).toNat hk

/-- Settles O9: bit by bit, the tables and fields of the model are those of R195 and R196. -/
theorem bitwiseResults : Obligations.BitwiseResults :=
  ⟨lop3BitsClaim, bitFieldsClaim⟩

/-! ## Division (R193, R194) -/

/-- A group that comes back to a division word some of whose lanes had stopped (R75): lane 0 has divided by zero and is
kept as an event, lane 1 is pending, and the trap enable is set (R194). -/
def keptEvent : State := State.reset.setGrp {
  lgs := [{ divzEn := 1 }]
  run := { on := true, active := 3 }
  div := { live := 3, pend := 2, events := 1 } }

/-- A word at rate 0 for every active lane. -/
def plainHdr : Hdr := { rate := 0, la := 0, b := 0, i := 0, pred := 0, pneg := 0, ret := 0 }

/-- Register 8 is the special operand 0 divided by the constant 1 (R164). -/
def zeroByOne : FA :=
  { d := 8, sa := 0x800, sb := 0x921, sc := 0, inh := 0, nega := 0, absa := 0, negb := 0, absb := 0, negc := 0, absc := 0,
    sub := 0, fmt := 0, rm := 0, imm := 0 }

theorem keptEvent_readable : keptEvent.readable plainHdr [opA zeroByOne 1, opB zeroByOne 1] := rfl

theorem keptEvent_no_new_event : divideEvents keptEvent .u plainHdr zeroByOne = [] := by decide

/-- The pending lane has no event of its own, but the word ends in the trap of the kept one: cause 0x02, escalated. -/
theorem keptEvent_traps {t : State} (h : exec (.idiv .u plainHdr zeroByOne) keptEvent = .next t) :
    t.grp.trapcause = 0x302 := by
  have hcause : (match exec (.idiv .u plainHdr zeroByOne) keptEvent with
      | .next u => u.grp.trapcause
      | _ => 0) = 0x302 := by decide +kernel
  rwa [h] at hcause

theorem Machine.Group.sameRest_trapcause {g t : Group} (h : g.sameRest t) : t.trapcause = g.trapcause := by
  obtain ⟨-, -, -, -, -, -, -, -, -, -, -, -, -, -, -, -, -, hcause, -⟩ := h
  exact hcause

/-- Refutes O11: `DivisionResultsClaim` has the word complete when no lane that now executes it is an event, but event
lanes kept from before a stop of other lanes (R75) still bring the trap when the word is done; `keptEvent` is such a
state. `DivisionTrapClaim` leaves the kept lanes out of the mask in the same way. -/
theorem not_division : ¬ Obligations.Division := by
  unfold Obligations.Division
  rintro ⟨hresults, -⟩
  obtain ⟨⟨t, hexec, hcomputed⟩, -⟩ :=
    hresults keptEvent .u plainHdr zeroByOne keptEvent_readable keptEvent_no_new_event
  have hunchanged : t.grp.trapcause = 0 := Group.sameRest_trapcause hcomputed.rest
  exact absurd ((keptEvent_traps hexec).symm.trans hunchanged) (by decide)

end Sys2Proof

/-! SUPPORT. Group-wide words (R218): the live lanes of a logical group, the lanes that execute the word, its effect
when it can be performed, and its operands as registers. -/

namespace Sys2Proof

open Machine

/-! ## Results written and the word done -/

theorem Machine.Group.apart_symm {g : Group} {gr : Bool} {x y : Nat × LaneOut} (hxy : g.apart gr x y) :
    g.apart gr y x :=
  (g.samePlace_comm gr y.1 x.1).trans hxy

@[simp] theorem Machine.Group.reg_wordDone (g : Group) (h : Hdr) (now : Nat) (gr : Bool) (l r : Nat) :
    (g.wordDone h now).reg gr l r = g.reg gr l r := by
  unfold Group.wordDone; split <;> rfl
@[simp] theorem Machine.Group.predOf_wordDone (g : Group) (h : Hdr) (now p l : Nat) :
    (g.wordDone h now).predOf p l = g.predOf p l := by
  unfold Group.wordDone; split <;> rfl
@[simp] theorem Machine.Group.lg_wordDone (g : Group) (h : Hdr) (now j : Nat) : (g.wordDone h now).lg j = g.lg j := by
  unfold Group.wordDone; split <;> rfl
@[simp] theorem Machine.Group.words_wordDone (g : Group) (h : Hdr) (now : Nat) :
    (g.wordDone h now).words = g.words + 1 := by
  unfold Group.wordDone; split <;> rfl

/-- Results for lanes that hold their registers apart are written and the word is done: this is all that has changed. -/
theorem computed_writeLanes_done {s : State} {h : Hdr} {outs : List (Nat × LaneOut)} (d : Nat)
    (hlt : ∀ x ∈ outs, x.1 < 128)
    (hapart : outs.Pairwise (s.grp.apart (s.curLaunch.isGroupRate h.rate.toNat))) :
    Computed s h d outs ((s.writeLanes h d outs).done h) := by
  obtain ⟨hregs, hpreds, hflags, hotherRegs, hotherRates, hotherPreds, hrest, hwords⟩ :=
    s.grp.wrote (s.curLaunch.isGroupRate h.rate.toNat) d outs hlt hapart
  set t := outs.foldl (fun t x => t.writeOut (s.curLaunch.isGroupRate h.rate.toNat) x.1 d x.2) s.grp
  have hdone : ((s.writeLanes h d outs).done h).grp = t.wordDone h s.timer.toNat := rfl
  constructor
  case regs => intro x hx i v hv; rw [hdone, Group.reg_wordDone]; exact hregs x hx i v hv
  case preds => intro x hx b hb hd l hl; rw [hdone, Group.predOf_wordDone]; exact hpreds x hx b hb hd l hl
  case flags => intro j; rw [hdone, Group.lg_wordDone]; exact hflags j
  case otherRegs => intro l r hl hn; rw [hdone, Group.reg_wordDone]; exact hotherRegs l r hl hn
  case otherRates => intro l r; rw [hdone, Group.reg_wordDone]; exact hotherRates l r
  case otherPreds => intro p l hn; rw [hdone, Group.predOf_wordDone]; exact hotherPreds p l hn
  case rest => rw [hdone]; exact Group.sameRest_trans hrest (Group.sameRest_wordDone t h s.timer.toNat)
  case outside => rfl
  case memory => intro a; rfl
  case words => rw [hdone, Group.words_wordDone, hwords]

/-- The order in which results are listed does not matter. -/
theorem Machine.Computed.perm {s t : State} {h : Hdr} {d : Nat} {outs outs' : List (Nat × LaneOut)}
    (hc : Computed s h d outs t) (hp : outs.Perm outs') : Computed s h d outs' t := by
  have hraised : ∀ j, s.grp.raised outs j = s.grp.raised outs' j := fun j =>
    (hp.filter _).foldl_eq' (fun x _ y _ w => by rw [BitVec.or_assoc, BitVec.or_assoc, BitVec.or_comm x.2.flags]) 0
  exact
    { hc with
      regs := fun x hx => hc.regs x (hp.mem_iff.2 hx)
      preds := fun x hx => hc.preds x (hp.mem_iff.2 hx)
      flags := fun j => hraised j ▸ hc.flags j
      otherRegs := fun l r hl hn => hc.otherRegs l r hl (fun x hx => hn x (hp.mem_iff.1 hx))
      otherPreds := fun p l hn => hc.otherPreds p l (fun x hx => hn x (hp.mem_iff.1 hx)) }

/-! ## The live lanes of a logical group -/

theorem inMask_laneRange_iff {lo n l : Nat} (hl : l < 128) :
    inMask (laneRange lo n) l = true ↔ lo ≤ l ∧ l < lo + n := by
  simp only [inMask, laneRange, BitVec.getLsbD_ofNat, ← Nat.shiftLeft_eq, Nat.testBit_shiftLeft,
    Nat.testBit_two_pow_sub_one, hl, decide_true, Bool.true_and, Bool.and_eq_true, decide_eq_true_eq]
  omega

/-- The model's live lanes of a logical group are those of the statements. -/
theorem liveOf_eq_liveList (s : State) (j : Nat) : s.grp.liveOf j = liveList s j := by
  refine List.filter_congr (fun l hl => ?_)
  have hhw : l < s.grp.hw := List.mem_range.1 hl
  rw [Bool.eq_iff_iff, inMask_and, Bool.and_eq_true]
  simp only [liveIn, hhw, decide_true, Bool.true_and, Bool.and_eq_true, decide_eq_true_eq, Nat.succ_mul]
  rw [and_comm]
  exact and_congr_left (fun hlive => inMask_laneRange_iff (inMask_lt hlive))

theorem liveList_pairwise_lt (s : State) (j : Nat) : (liveList s j).Pairwise (· < ·) :=
  List.pairwise_lt_range.filter _

/-! ## The lanes that execute a group-wide word -/

theorem mem_crossLanes {s : State} {h : Hdr} {l : Nat} :
    l ∈ crossLanes s h ↔ l ∈ s.grp.execLanes s.curLaunch h ∧ s.grp.lgOf l < s.grp.nLg := by
  unfold crossLanes
  rw [List.mem_filter, decide_eq_true_eq]
  rfl

theorem Machine.Group.samePlace_self (g : Group) (gr : Bool) (l : Nat) : g.samePlace gr l l = true := by
  cases gr <;> simp [Group.samePlace]

theorem Machine.Group.execLanes_nodup (g : Group) (c : Launch) (h : Hdr) : (g.execLanes c h).Nodup :=
  (g.execLanes_apart c h).imp (fun hapart heq => by simp [heq, Group.samePlace_self] at hapart)

/-- The logical groups that a group-wide word concerns: those with a lane that executes it. -/
def crossGroups (s : State) (h : Hdr) : List Nat :=
  (List.range s.grp.nLg).filter (fun j => (s.grp.execLanes s.curLaunch h).any (fun l => s.grp.lgOf l == j))

/-- They have a lane in `crossLanes`, which leaves out only lanes outside every logical group. -/
theorem crossGroups_eq (s : State) (h : Hdr) :
    crossGroups s h = (List.range s.grp.nLg).filter (fun j => (crossLanes s h).any (fun l => l / s.grp.lw == j)) := by
  refine List.filter_congr (fun j hj => ?_)
  have hlt : j < s.grp.nLg := List.mem_range.1 hj
  rw [Bool.eq_iff_iff, List.any_eq_true, List.any_eq_true]
  refine exists_congr (fun l => ?_)
  rw [mem_crossLanes, beq_iff_eq, beq_iff_eq]
  constructor
  · rintro ⟨hl, rfl⟩; exact ⟨⟨hl, hlt⟩, rfl⟩
  · rintro ⟨⟨hl, -⟩, hlj⟩; exact ⟨hl, hlj⟩

/-- Taken logical group by logical group, the lanes are those that execute the word. -/
theorem crossGroups_lanes_perm (s : State) (h : Hdr) :
    ((crossGroups s h).flatMap (fun j =>
      (s.grp.execLanes s.curLaunch h).filter (fun l => s.grp.lgOf l == j))).Perm (crossLanes s h) := by
  have hnodup := s.grp.execLanes_nodup s.curLaunch h
  have hgroups : (crossGroups s h).Nodup := List.nodup_range.filter _
  rw [List.perm_ext_iff_of_nodup]
  · intro l
    simp only [List.mem_flatMap, mem_crossLanes, crossGroups, List.mem_filter, List.mem_range, List.any_eq_true,
      beq_iff_eq]
    constructor
    · rintro ⟨j, ⟨hj, -⟩, hl, rfl⟩; exact ⟨hl, hj⟩
    · rintro ⟨hl, hj⟩; exact ⟨_, ⟨hj, l, hl, rfl⟩, hl, rfl⟩
  · rw [List.nodup_flatMap]
    refine ⟨fun j _ => hnodup.filter _, hgroups.imp (fun {i j} hne l hi hj => ?_)⟩
    rw [List.mem_filter, beq_iff_eq] at hi hj
    exact hne (hi.2.symm.trans hj.2)
  · exact hnodup.filter _

/-! ## The effect of a group-wide word -/

section
variable {s : State} {h : Hdr} {ops : List Opnd}

/-- The results of the lanes that execute a group-wide word, group by group as the model lists them. -/
def crossOuts (s : State) (h : Hdr) (out : Nat → List Nat → Nat → LaneOut) : List (Nat × LaneOut) :=
  (crossGroups s h).flatMap (fun j =>
    ((s.grp.execLanes s.curLaunch h).filter (fun l => s.grp.lgOf l == j)).map (fun l => (l, out j (s.grp.liveOf j) l)))

theorem crossOuts_perm (s : State) (h : Hdr) (out : Nat → List Nat → Nat → LaneOut) :
    (crossOuts s h out).Perm ((crossLanes s h).map (fun l =>
      (l, out (l / s.grp.lw) (liveList s (l / s.grp.lw)) l))) := by
  refine (List.Perm.of_eq ?_).trans ((crossGroups_lanes_perm s h).map _)
  rw [List.map_flatMap]
  refine List.flatMap_congr (fun j _ => List.map_congr_left (fun l hl => ?_))
  obtain rfl : s.grp.lgOf l = j := by simpa using (List.mem_filter.1 hl).2
  rw [liveOf_eq_liveList]
  rfl

/-- A group-wide word that can be performed writes the results of its lanes and is done. -/
theorem crossWord_of_crossReady (d : Nat) (out : Nat → List Nat → Nat → LaneOut) (hr : CrossReady s h ops) :
    s.crossWord h d ops out = (s.writeLanes h d (crossOuts s h out)).done h := by
  obtain ⟨hconverged, hread⟩ := hr
  rw [← crossGroups_eq] at hread
  unfold State.crossWord State.groupWide
  rw [if_pos hconverged]
  unfold crossGroups at hread
  simp only [hread]
  rfl

/-- A word whose meaning is a `crossWord` completes with the results that its function gives from the live lanes. -/
theorem crossCompletes_of_crossWord {i : Instr} {d : Nat} {out : Nat → List Nat → Nat → LaneOut}
    (e : exec i s = .next (s.crossWord h d ops out)) (hr : CrossReady s h ops) :
    CrossCompletes i s h d (fun j l => out j (liveList s j) l) := by
  refine ⟨_, e, ?_⟩
  rw [crossWord_of_crossReady d out hr]
  have hperm := crossOuts_perm s h out
  refine (computed_writeLanes_done d (fun x hx => ?_) ?_).perm hperm
  · obtain ⟨l, hl, rfl⟩ := List.mem_map.1 (hperm.mem_iff.1 hx)
    exact Group.execLanes_lt (mem_crossLanes.1 hl).1
  · rw [hperm.pairwise_iff Group.apart_symm, List.pairwise_map]
    exact (s.grp.execLanes_apart s.curLaunch h).filter _

end

/-! ## Operands as registers (R164, R189) -/

/-- A 32-bit integer operand is its first register. -/
theorem opnd_i32_eq_opndWord (s : State) (h : Hdr) (imm : Word) (l : Nat) (o : Opnd) :
    s.opnd h imm .i32 l o = (s.opndWord h imm l o 0).toNat := by
  by_cases hspecial : 2048 ≤ o.field
  · simp [State.opnd, State.opndWord, hspecial, specialAt]
  · simp [State.opnd, hspecial]

theorem wA_eq_opndWord (s : State) (h : Hdr) (f : FA) (l : Nat) : wA s h f l = s.opndWord h f.imm l (opA f 1) 0 :=
  BitVec.eq_of_toNat_eq ((toNat_wA s h f l).trans (opnd_i32_eq_opndWord ..))
theorem wB_eq_opndWord (s : State) (h : Hdr) (f : FA) (l : Nat) : wB s h f l = s.opndWord h f.imm l (opB f 1) 0 :=
  BitVec.eq_of_toNat_eq ((toNat_wB s h f l).trans (opnd_i32_eq_opndWord ..))

/-- The low and the high word of a 64-bit operand. -/
theorem halves_dA (s : State) (h : Hdr) (f : FA) (l : Nat) :
    (dA s h f l).setWidth 32 = BitVec.ofNat 32 (s.opnd h f.imm .i64 l (opA f 2)) ∧
    (dA s h f l >>> 32).setWidth 32 = BitVec.ofNat 32 (s.opnd h f.imm .i64 l (opA f 2) / 2 ^ 32) := by
  have hpair := pairOf_eq_halves (s.opnd h f.imm .i64 l (opA f 2))
  simpa only [dA, pairOf, halves, List.cons.injEq, and_true] using hpair.symm

end Sys2Proof

/-! Categorical sampling and random numbers (R226, R227): O19. -/

namespace Sys2Proof

open Machine

/-! ## Weights in a common unit (R226) -/

/-- What a pattern weighs. At the pattern of A this is the `weightRat` of the statements. -/
def patternWeight (x : Nat) : Rat :=
  match fp32.value x with
  | .fin false m e => (m : Rat) * 2 ^ e
  | _ => 0

/-- What a pattern weighs in units of two to the `q`, as `csampChoose` counts it. -/
def weightUnits (q : Int) (x : Nat) : Nat :=
  match weightOf x with
  | some t => (sumUnits q [t]).toNat
  | none => 0

/-- Only a finite value without a sign has a term, and that term is the value. -/
theorem value_of_weightOf_some {x : Nat} {t : Term} (h : weightOf x = some t) :
    t.neg = false ∧ fp32.value x = .fin false t.m t.e := by
  unfold weightOf at h
  split at h
  next m e hvalue =>
    split at h
    · simp at h
    · obtain rfl : (⟨false, m, e⟩ : Term) = t := by simpa using h
      exact ⟨rfl, hvalue⟩
  · simp at h

theorem patternWeight_of_weightOf_some {x : Nat} {t : Term} (h : weightOf x = some t) :
    patternWeight x = t.m * 2 ^ t.e := by
  simp [patternWeight, (value_of_weightOf_some h).2]

theorem patternWeight_of_weightOf_none {x : Nat} (h : weightOf x = none) : patternWeight x = 0 := by
  cases hvalue : fp32.value x with
  | nan _ => simp [patternWeight, hvalue]
  | inf _ => simp [patternWeight, hvalue]
  | fin neg m e =>
    cases neg with
    | true => simp [patternWeight, hvalue]
    | false =>
      have hzero : m = 0 := by simpa [weightOf, hvalue] using h
      simp [patternWeight, hvalue, hzero]

/-- A term counts exactly in a unit that is at most its own. -/
theorem sumUnits_singleton_mul {q : Int} {t : Term} (hneg : t.neg = false) (hq : q ≤ t.e) :
    ((sumUnits q [t]).toNat : Rat) * 2 ^ q = t.m * 2 ^ t.e := by
  have hunits : sumUnits q [t] = ((t.m * 2 ^ (t.e - q).toNat : Nat) : Int) := by simp [sumUnits, hneg]
  have hscale : (2 : Rat) ^ (t.e - q).toNat * 2 ^ q = 2 ^ t.e := by
    rw [← zpow_natCast, Int.toNat_of_nonneg (by omega), ← zpow_add₀ two_ne_zero, sub_add_cancel]
  rw [hunits, Int.toNat_natCast]
  push_cast
  rw [mul_assoc, hscale]

theorem patternWeight_eq_units {q : Int} {x : Nat} (hq : ∀ t, weightOf x = some t → q ≤ t.e) :
    patternWeight x = weightUnits q x * 2 ^ q := by
  unfold weightUnits
  cases hw : weightOf x with
  | none => simp [patternWeight_of_weightOf_none hw]
  | some t =>
    rw [patternWeight_of_weightOf_some hw, sumUnits_singleton_mul (value_of_weightOf_some hw).1 (hq t hw)]

theorem lowExp_le {t : Term} {ts : List Term} (h : t ∈ ts) : lowExp ts ≤ t.e := by
  induction ts with
  | nil => simp at h
  | cons a rest ih =>
    cases rest with
    | nil =>
      obtain rfl : t = a := by simpa using h
      exact le_rfl
    | cons b rest =>
      rcases List.mem_cons.1 h with rfl | h
      · exact min_le_left _ _
      · exact (min_le_right _ _).trans (ih h)

/-- The unit in which `csampChoose` counts the weights `A` of some lanes. -/
def commonUnit (A : Nat → Nat) (live : List Nat) : Int := lowExp (live.filterMap (fun l => weightOf (A l)))

/-- The weight of a lane in that unit. -/
def laneUnits (A : Nat → Nat) (live : List Nat) (l : Nat) : Nat := weightUnits (commonUnit A live) (A l)

theorem patternWeight_eq_laneUnits {A : Nat → Nat} {live : List Nat} {l : Nat} (hl : l ∈ live) :
    patternWeight (A l) = laneUnits A live l * 2 ^ commonUnit A live :=
  patternWeight_eq_units (fun _ ht => lowExp_le (List.mem_filterMap.2 ⟨l, hl, ht⟩))

/-- The sum of the weights of some of the lanes. -/
theorem sum_patternWeight {A : Nat → Nat} {live sub : List Nat} (hsub : ∀ l ∈ sub, l ∈ live) :
    (sub.map (fun l => patternWeight (A l))).sum
      = ((sub.map (laneUnits A live)).sum : Nat) * 2 ^ commonUnit A live := by
  rw [List.map_congr_left (fun l hl => patternWeight_eq_laneUnits (hsub l hl)), List.sum_map_mul_right,
    Nat.cast_list_sum, List.map_map]
  rfl

/-! ## The choice (R226) -/

/-- The sum of `n` over the lanes of a list up to lane `l`. -/
def sumUpTo {α : Type} [AddMonoid α] (n : Nat → α) (live : List Nat) (l : Nat) : α :=
  ((live.filter (fun m => decide (m ≤ l))).map n).sum

theorem filter_le_cons_head {a : Nat} {rest : List Nat} (h : ∀ m ∈ rest, a < m) :
    (a :: rest).filter (fun m => decide (m ≤ a)) = [a] := by
  have hrest : rest.filter (fun m => decide (m ≤ a)) = [] :=
    List.filter_eq_nil_iff.2 (fun m hm => by simpa using h m hm)
  simp [hrest]

theorem sumUpTo_cons_head (n : Nat → Nat) {a : Nat} {rest : List Nat} (h : ∀ m ∈ rest, a < m) :
    sumUpTo n (a :: rest) a = n a := by
  rw [sumUpTo, filter_le_cons_head h]
  simp

theorem sumUpTo_cons_tail (n : Nat → Nat) {a l : Nat} {rest : List Nat} (h : a < l) :
    sumUpTo n (a :: rest) l = n a + sumUpTo n rest l := by
  simp [sumUpTo, h.le]

/-- A sum of weights in units exceeds the threshold u T / 2^32. -/
def exceedsThreshold (u total part : Nat) : Bool := decide (u * total < part * 2 ^ 32)

/-- The same in rationals, whatever the unit. -/
theorem exceedsThreshold_eq_rat (u total part : Nat) (q : Int) :
    exceedsThreshold u total part = decide ((u : Rat) * (total * 2 ^ q) / 2 ^ 32 < part * 2 ^ q) := by
  have hunit : (0 : Rat) < 2 ^ q := zpow_pos two_pos q
  rw [exceedsThreshold, decide_eq_decide, ← mul_assoc, mul_div_right_comm, mul_lt_mul_iff_of_pos_right hunit,
    div_lt_iff₀ (by norm_num)]
  exact_mod_cast Iff.rfl

theorem csampPick_cons (u total l x : Nat) (rest : List (Nat × Nat)) (acc : Nat) :
    csampPick u total ((l, x) :: rest) acc
      = if exceedsThreshold u total (acc + x) then some l else csampPick u total rest (acc + x) :=
  if_congr decide_eq_true_iff.symm rfl rfl

/-- Over lanes in rising order, `csampPick` finds the first whose partial sum exceeds the threshold. -/
theorem csampPick_eq_find (u total : Nat) (place n : Nat → Nat) {live : List Nat} (hlive : live.Pairwise (· < ·))
    (acc : Nat) :
    csampPick u total (live.map (fun l => (place l, n l))) acc
      = (live.find? (fun l => exceedsThreshold u total (acc + sumUpTo n live l))).map place := by
  induction live generalizing acc with
  | nil => rw [List.map_nil, csampPick, List.find?_nil, Option.map_none]
  | cons a rest ih =>
    rw [List.pairwise_cons] at hlive
    obtain ⟨hbelow, hrest⟩ := hlive
    have htail : ∀ l ∈ rest, exceedsThreshold u total (acc + n a + sumUpTo n rest l)
        = exceedsThreshold u total (acc + sumUpTo n (a :: rest) l) := fun l hl => by
      rw [sumUpTo_cons_tail n (hbelow l hl), Nat.add_assoc]
    have hhead : exceedsThreshold u total (acc + sumUpTo n (a :: rest) a) = exceedsThreshold u total (acc + n a) := by
      rw [sumUpTo_cons_head n hbelow]
    rw [List.map_cons, csampPick_cons]
    by_cases hhit : exceedsThreshold u total (acc + n a) = true
    · rw [if_pos hhit, List.find?_cons_of_pos, Option.map_some]
      exact hhead.trans hhit
    · rw [if_neg hhit, ih hrest, List.find?_congr htail, List.find?_cons_of_neg]
      rw [hhead]; exact hhit

/-- `csampChoose` as it counts: over lanes each with its place within the logical group and its weight `A`. -/
theorem csampChoose_eq_units (u : Nat) (place A : Nat → Nat) (live : List Nat) :
    csampChoose u (live.map (fun l => (place l, A l))) =
      match live.find? (fun l => fp32.value (A l) == .inf false) with
      | some l => BitVec.ofNat 32 (place l)
      | none =>
        if (live.map (laneUnits A live)).sum = 0 then 0xffffffff
        else match csampPick u (live.map (laneUnits A live)).sum
            (live.map (fun l => (place l, laneUnits A live l))) 0 with
          | some l => BitVec.ofNat 32 l
          | none => 0xffffffff := by
  have hsum : (live.map (laneUnits A live)).sum = sumOf (live.map (laneUnits A live)) := List.sum_eq_foldl
  unfold csampChoose
  rw [List.find?_map, hsum]
  simp only [List.filterMap_map, List.map_map, Function.comp_def]
  cases live.find? (fun l => fp32.value (A l) == .inf false) <;> rfl

/-- `csampChoose` over lanes in rising order, in the rationals of R226. -/
theorem csampChoose_eq (u : Nat) (place A : Nat → Nat) {live : List Nat} (hlive : live.Pairwise (· < ·)) :
    csampChoose u (live.map (fun l => (place l, A l))) =
      match live.find? (fun l => fp32.value (A l) == .inf false) with
      | some l => BitVec.ofNat 32 (place l)
      | none =>
        if (live.map (fun l => patternWeight (A l))).sum = 0 then 0xffffffff
        else match live.find? (fun l => decide ((u : Rat) * (live.map (fun l => patternWeight (A l))).sum / 2 ^ 32
            < sumUpTo (fun l => patternWeight (A l)) live l)) with
          | some l => BitVec.ofNat 32 (place l)
          | none => 0xffffffff := by
  have hunit : (2 : Rat) ^ commonUnit A live ≠ 0 := zpow_ne_zero _ two_ne_zero
  have htotal := sum_patternWeight (A := A) (fun l (hl : l ∈ live) => hl)
  have hsumUpTo : ∀ l, sumUpTo (fun l => patternWeight (A l)) live l
      = (sumUpTo (laneUnits A live) live l : Nat) * 2 ^ commonUnit A live := fun l =>
    sum_patternWeight (fun m hm => (List.mem_filter.1 hm).1)
  rw [csampChoose_eq_units, csampPick_eq_find _ _ _ _ hlive]
  simp only [htotal, hsumUpTo, ← exceedsThreshold_eq_rat, Nat.zero_add, mul_eq_zero, hunit, or_false, Nat.cast_eq_zero]
  cases live.find? (fun l => fp32.value (A l) == .inf false) with
  | some l => rfl
  | none =>
    cases live.find? (fun l => exceedsThreshold u (live.map (laneUnits A live)).sum
      (sumUpTo (laneUnits A live) live l)) <;> rfl

/-! ## The words -/

/-- The weight of a lane is that of the pattern of its A. -/
theorem weightRat_eq_patternWeight (s : State) (h : Hdr) (f : FA) :
    weightRat s h f = fun l => patternWeight (s.opnd h f.imm .f32 l (opA f 1)) := rfl

/-- `csamp` gives every lane of a logical group the choice over its live lanes. -/
theorem completes_csamp {s : State} {h : Hdr} {f : FA} (hr : CrossReady s h [opA f 1, opB f 1]) :
    CrossCompletes (.csamp h f) s h f.d.toNat (fun j _ =>
      { regs := [csampChoose (wB s h f ((liveList s j).headD 0)).toNat
          ((liveList s j).map (fun l => (l - j * s.grp.lw, s.opnd h f.imm .f32 l (opA f 1))))] }) := by
  have hexec : exec (.csamp h f) s = .next (s.crossWord h f.d.toNat [opA f 1, opB f 1] (fun j live _ =>
      { regs := [csampChoose (s.opnd h f.imm .i32 (live.headD 0) (opB f 1))
          (live.map (fun l => (l - j * s.grp.lw, s.opnd h f.imm .f32 l (opA f 1))))] })) := rfl
  simp only [toNat_wB]
  exact crossCompletes_of_crossWord hexec hr

theorem categoricalSampleClaim : CategoricalSampleClaim := by
  intro s h f hr
  refine ⟨_, completes_csamp hr, fun j => ?_⟩
  rw [csampChoose_eq _ (fun l => l - j * s.grp.lw) _ (liveList_pairwise_lt s j)]
  simp only [weightRat_eq_patternWeight, ← List.sum_eq_foldl]
  rfl

/-- The mixing function of the model is that of R227. -/
theorem mix32_eq_mix (x : Word) : mix32 x = mix x := rfl

/-- `prng` mixes the key, the lane index and the counter. -/
theorem completes_prng {s : State} {h : Hdr} {f : FA} (hr : s.readable h [opA f 1, opB f 1]) :
    Completes (.prng h f) s h f.d.toNat (fun l =>
      { regs := [mix (wB s h f l
          + mix (wA s h f l ^^^ (s.grp.special s.curLaunch h.rate.toNat l 1 0 * 0x9e3779b9)))] }) := by
  refine completes_of_laneWord rfl (fun l => ?_) hr
  simp only [wA_eq_opndWord, wB_eq_opndWord, mix32_eq_mix]

/-- `hrnd` hashes the halves of the address with the seed. -/
theorem completes_hrnd {s : State} {h : Hdr} {f : FA} (hr : s.readable h [opA f 2, opB f 1]) :
    Completes (.hrnd h f) s h f.d.toNat (fun l =>
      { regs := [mix ((dA s h f l >>> 32).setWidth 32 ^^^ mix ((dA s h f l).setWidth 32 ^^^ mix (wB s h f l)))] }) := by
  refine completes_of_laneWord rfl (fun l => ?_) hr
  obtain ⟨hlow, hhigh⟩ := halves_dA s h f l
  simp only [hlow, hhigh, wB_eq_opndWord, mix32_eq_mix]

theorem randomNumbersClaim : RandomNumbersClaim :=
  fun _ _ _ => ⟨completes_prng, completes_hrnd⟩

/-- Settles O19: the choice of `csamp` counts in a common unit what R226 says in rationals, and the formulas of R227 are
those of the model. -/
theorem samplingAndRandomNumbers : Obligations.SamplingAndRandomNumbers :=
  ⟨categoricalSampleClaim, randomNumbersClaim⟩

end Sys2Proof
